-- ==== Sys2Proof/Word.lean ====
section
/-! DEFINITION. The word types of CORE: the widths of `00_scope.md` rule R11. -/

namespace Sys2Proof

/-- `u8`: one byte of shared memory. -/
abbrev Byte := BitVec 8

/-- `u16`: one halfword, the memory form of a Q15 value. -/
abbrev Half := BitVec 16

/-- `u32`: a register, a command word, a state word or a counter. -/
abbrev Word := BitVec 32

/-- `u64`: a clock value or a timestamp. -/
abbrev DWord := BitVec 64

end Sys2Proof
end

