-- ==== Sys2Proof/Config.lean ====
section
/-! DEFINITION. What an implementation fixes (`00_scope.md` rule R9) and the free values: constants
without a body, for the values the spec leaves unspecified. -/

namespace Sys2Proof

/-- The two command interfaces of CORE (rule R35): P, the producer's, and C, the consumer's. -/
inductive Port where
  | P
  | C
  deriving DecidableEq, Repr, Inhabited

/-- The other port. -/
def Port.peer : Port → Port
  | .P => .C
  | .C => .P

/-- The arithmetic variant of the FFT engine (rules R246, R247). -/
inductive ArithVariant where
  | portable
  | simd
  deriving DecidableEq, Repr

/-- The parameters of rule R9 that are not the same in every CORE. They are fixed for one machine; `State.cfg`
holds them and no step changes them, so that a statement about every state holds for every choice (log 1). -/
structure Config where
  /-- `SHARED_MEM_BASE`, OPEN. -/
  sharedBase : Word
  /-- `CORE_BASE`, OPEN. -/
  coreBase : Word
  /-- `B`, the bytes of one buffer. -/
  bufSize : Word
  /-- `CB_SIZE`, the bytes of the Control Block region. -/
  cbSize : Word
  /-- `CFG_TIMEOUT_MS`. -/
  timeoutMs : Word
  /-- `ARITH_VARIANT`, OPEN. -/
  variant : ArithVariant
  /-- `TIME_P0`, OPEN. -/
  timeP0 : DWord
  /-- `TIME_C0`, OPEN. -/
  timeC0 : DWord
  deriving DecidableEq, Repr

/-- The values rule R9 fixes or defaults to; for the OPEN ones, DESIGN CHOICE (log 1, log 2; unsafe: only a
statement about `State.reset` itself may rest on them, and none of ours does). -/
def Config.default : Config where
  sharedBase := 0x20010000
  coreBase := 0x50000000
  bufSize := 65536
  cbSize := 32768
  timeoutMs := 1000
  variant := .portable
  timeP0 := 0
  timeC0 := 0

/-- `NUM_INST` (rule R9). -/
def Config.numInst : Nat := 4

/-- `MAX_N` (rule R9). -/
def Config.maxN : Nat := 8192

/-- `RFFT_SIZES` (rule R9). -/
def Config.rfftSizes : List Nat := [4096, 8192]

/-- `CFFT_SIZES` (rule R9). -/
def Config.cfftSizes : List Nat := [16, 32, 64, 128, 256, 512, 1024, 2048, 4096]

/-- `CB_BASE = SHARED_MEM_BASE + 2*B` (rule R10), as an unbounded integer. -/
def Config.cbBase (c : Config) : Nat := c.sharedBase.toNat + 2 * c.bufSize.toNat

/-- The end of the shared window (rule R10). -/
def Config.windowEnd (c : Config) : Nat := c.cbBase + c.cbSize.toNat

/-- The bytes of the register window (rule R35). -/
def Config.registerWindowSize : Nat := 0x300

/-- The constraints of rule R9 on the parameters (`B` a non-zero multiple of 64, `CB_SIZE` at least 256), that both
windows lie in the 32-bit address space of rule R81, and that they do not overlap (PRESUMED, log 21; safe: no
operation reads this predicate, only statements take it as a premise). -/
def Config.wf (c : Config) : Bool :=
  decide (c.bufSize.toNat ≠ 0) && decide (c.bufSize.toNat % 64 = 0) && decide (256 ≤ c.cbSize.toNat)
    && decide (c.windowEnd ≤ 2 ^ 32) && decide (c.coreBase.toNat + Config.registerWindowSize ≤ 2 ^ 32)
    && decide (c.windowEnd ≤ c.coreBase.toNat ∨ c.coreBase.toNat + Config.registerWindowSize ≤ c.sharedBase.toNat)

/-- FREE VALUE (rule R97; log 11): the byte that a racing read of address `a` in step `t` returns. -/
opaque Config.freeRead (t a : Nat) : Byte

/-- FREE VALUE (rules R97, R370; log 11, log 13): the byte left at address `a` by a race, or by an FFT command that
reset abandons, in step `t`. -/
opaque Config.freeStored (t a : Nat) : Byte

/-- FREE VALUE (log 11, log 14): a result word that a race in step `t` leaves open, and what a register load returns
while reset is asserted. -/
opaque Config.freeWord (t : Nat) : Word

/-- FREE VALUE (rules R8, R44; log 6): which port's command processor steps when both may. -/
opaque Config.freePort (t : Nat) : Port

/-- FREE VALUE (rule R51; log 4): halfword `k` of the working buffer WB after the step `t` that last left it. -/
opaque Config.freeWB (t k : Nat) : Half

/-- FREE VALUE (rule R51; log 4): halfword `k` of the output buffer OB after the step `t` that last left it. -/
opaque Config.freeOB (t k : Nat) : Half

end Sys2Proof
end

