-- ==== Sys2Proof/Machine/State.lean ====
section
/-! DEFINITION. Everything the spec gives the machine (`10_state.md` rule R30), as plain data, and the machine after
reset (`70_reset_and_hazards.md` rules R370 to R372). -/

namespace Sys2Proof.Machine

/-- The reasons a step stops with a fault. No command stops so. -/
inductive Fault where
  /-- A CPU access to the register window that rule R54 leaves undefined: a 32-bit access that is not aligned. Raised
  by `cpuLoad` and `cpuStore`. Safe: the spec gives the access no effect, and CORE's own steps never raise it (log 15). -/
  | registerMisaligned
  deriving DecidableEq, Repr

/-- The reasons a step is refused. No command is refused. -/
inductive Refusal where
  /-- A command that has no meaning in this model. No arm of `exec` gives it. Safe. -/
  | notModelled (mnemonic : String)
  /-- A CPU access to an address outside the register window and the shared window: outside CORE (rules R54, R88).
  Raised by `cpuLoad` and `cpuStore`. Safe: the model says nothing about what lies there (log 15). -/
  | outsideCore
  deriving DecidableEq, Repr

/-- The status codes of `60_exceptions.md` rule R330. -/
inductive Code where
  | ok
  | invalid
  | invalidSize
  | wrongState
  | timeout
  | init
  | nullPointer
  /-- Reserved: never written (rule R330). -/
  | overrun
  | illegal
  deriving DecidableEq, Repr

/-- A run of bytes of the address space. -/
structure Region where
  base : Nat
  len : Nat
  deriving DecidableEq, Repr

/-- An access that an agent made to a region while some port's FFT command was BUSY (rule R97; the model's own
record, log 11). -/
structure Touch where
  write : Bool
  region : Region
  deriving DecidableEq, Repr

/-- The in-flight command state of a port (rule R48), and the model's record of what other agents touched while the
command is an FFT command on memory. -/
structure Latch where
  /-- The latched command word. -/
  word : Word
  a0 : Word
  a1 : Word
  a2 : Word
  a3 : Word
  /-- The port's clock at acceptance. Recorded for every command; only acquires read it (log 5). -/
  t0 : DWord
  /-- Whether this BM_ACQW has incremented `overrun_count`. -/
  counted : Bool
  /-- The model's own field: the accesses of other agents since acceptance, newest first (log 11). -/
  touched : List Touch
  deriving DecidableEq, Repr

/-- No command in flight: "None of this state survives the command's end" (rule R48; log 5). -/
def Latch.idle : Latch := ⟨0, 0, 0, 0, 0, 0, false, []⟩

/-- What one port has: its register window (rule R36), its doorbell latch and enable (rules R46, R47), its clock
(rule R45) and its in-flight command state (rule R48). -/
structure PortState where
  /-- CMD: the last accepted command word. -/
  cmd : Word
  /-- STATUS.CODE (rule R40). -/
  code : Code
  /-- STATUS.LOST. -/
  lost : Bool
  /-- STATUS.HOLD. -/
  hold : Bool
  /-- STATUS.BUSY. -/
  busy : Bool
  arg0 : Word
  arg1 : Word
  arg2 : Word
  arg3 : Word
  res0 : Word
  res1 : Word
  res2 : Word
  res3 : Word
  /-- `DB[p]`, this port's incoming doorbell latch, DB_STATUS.PEND. -/
  db : Bool
  /-- `IE[p]`, DB_ENABLE.IE. -/
  ie : Bool
  /-- The TIME_HI shadow. -/
  timeHi : Word
  /-- `now(p)`, milliseconds. -/
  clock : DWord
  latch : Latch
  deriving DecidableEq, Repr

/-- A port after reset (rule R372). The clock is an input that reset leaves alone (rule R45). -/
def PortState.reset (clock : DWord) : PortState where
  cmd := 0
  code := .ok
  lost := false
  hold := false
  busy := false
  arg0 := 0
  arg1 := 0
  arg2 := 0
  arg3 := 0
  res0 := 0
  res1 := 0
  res2 := 0
  res3 := 0
  db := false
  ie := false
  timeHi := 0
  clock := clock
  latch := Latch.idle

/-- A real-FFT instance slot (rule R38). -/
structure InstSlot where
  valid : Bool
  n : Word
  ifft : Bool
  bitrev : Bool
  rmod : Word
  m : Word
  deriving DecidableEq, Repr

/-- A slot after reset (rules R38, R372). -/
def InstSlot.reset : InstSlot := ⟨false, 0, false, false, 0, 0⟩

/-- The width of a CPU access. -/
inductive Width where
  | byte
  | half
  | word
  deriving DecidableEq, Repr

/-- What the agents of `00_scope.md` rule R7 do, one step each. -/
inductive Event where
  /-- The command processor of a port makes a step of its in-flight command. -/
  | command (p : Port)
  /-- A CPU loads from an address. -/
  | cpuLoad (cpu : Port) (w : Width) (addr : Word)
  /-- A CPU stores the low bytes of a value to an address. -/
  | cpuStore (cpu : Port) (w : Width) (addr value : Word)
  /-- The platform advances a port's clock by some milliseconds (rule R45). -/
  | clock (p : Port) (ms : DWord)
  /-- The platform asserts the reset input (rule R370). -/
  | resetAssert
  /-- The platform releases the reset input. -/
  | resetRelease
  deriving DecidableEq, Repr

/-- Shared memory: the bytes that are not what an unlisted address reads as, by strictly rising address. -/
abbrev Memory := List Host.Cell

/-- The machine. -/
structure State where
  /-- The parameters (rule R9): no step changes them. -/
  cfg : Config
  portP : PortState
  portC : PortState
  /-- LAST_USED, the id of the buffer the producer acquired last (rule R42). -/
  lastUsed : BitVec 1
  /-- CB_VALID (rule R43). -/
  cbValid : Bool
  /-- FE_BUSY (rule R44). -/
  feBusy : Bool
  /-- FE_OWNER (rule R44). -/
  feOwner : Port
  inst0 : InstSlot
  inst1 : InstSlot
  inst2 : InstSlot
  inst3 : InstSlot
  /-- Which unspecified values the working buffers WB and OB (rule R51) hold between steps: `State.wb` and `State.ob`
  are the buffers, of free values at this index (the model's own field, log 4). -/
  workFree : Nat
  /-- The shared window (rule R81). -/
  mem : Memory
  /-- The reset input is asserted (rule R370). -/
  inReset : Bool
  /-- The model's own field: what the producer CPU's last load returned (log 20). -/
  cpuP : Word
  /-- The model's own field: what the consumer CPU's last load returned (log 20). -/
  cpuC : Word
  /-- The model's own field: the port whose command processor makes this step (log 7). -/
  active : Port
  /-- The model's own field: what the agents will do, in order (log 6). -/
  schedule : List Event
  /-- The model's own field: the number of steps so far, at which free values are taken (log 8). -/
  tick : Nat
  deriving DecidableEq, Repr

/-- A port's state. -/
def State.port (s : State) : Port → PortState
  | .P => s.portP
  | .C => s.portC

/-- Replace a port's state. -/
def State.setPort (s : State) (p : Port) (ps : PortState) : State :=
  match p with
  | .P => { s with portP := ps }
  | .C => { s with portC := ps }

/-- The machine at power-up, when the reset input has just been released, with its parameters and what its memory
happens to hold (rules R370 to R372). -/
def State.powerUp (cfg : Config) (mem : Memory) : State where
  cfg := cfg
  portP := PortState.reset cfg.timeP0
  portC := PortState.reset cfg.timeC0
  lastUsed := 1
  cbValid := false
  feBusy := false
  feOwner := .P
  inst0 := InstSlot.reset
  inst1 := InstSlot.reset
  inst2 := InstSlot.reset
  inst3 := InstSlot.reset
  workFree := 0
  mem := mem
  inReset := false
  cpuP := 0
  cpuC := 0
  active := .P
  schedule := []
  tick := 0

/-- The machine right after reset: power-up with the default parameters and a memory that lists nothing (log 1,
log 3). -/
def State.reset : State := State.powerUp Config.default []

end Sys2Proof.Machine
end

