-- ==== Sys2Proof/Machine/Flags.lean ====
section
/-! DEFINITION. The status fields as software reads them: STATUS (`10_state.md` rule R40), DB_STATUS and DB_ENABLE
(rule R36), BM_STATUS and FE_STATUS (rule R41), INST_CTRL (rule R41), and the interrupt lines (rule R47). -/

namespace Sys2Proof.Machine

/-- The number of a status code (`60_exceptions.md` rule R330). -/
def Code.toByte : Code → Byte
  | .ok => 0
  | .invalid => 1
  | .invalidSize => 2
  | .wrongState => 3
  | .timeout => 4
  | .init => 5
  | .nullPointer => 6
  | .overrun => 7
  | .illegal => 8

/-- One bit, as a number of one bit. -/
def bit (b : Bool) : BitVec 1 := BitVec.ofBool b

/-- STATUS: CODE in 7:0, LOST in 29, HOLD in 30, BUSY in 31, the rest 0 (rule R40). -/
def PortState.statusWord (ps : PortState) : Word :=
  bit ps.busy ++ bit ps.hold ++ bit ps.lost ++ (0 : BitVec 21) ++ ps.code.toByte

/-- DB_STATUS: bit 0 PEND (rule R36). -/
def PortState.dbStatusWord (ps : PortState) : Word := (bit ps.db).zeroExtend 32

/-- DB_ENABLE: bit 0 IE (rule R36). -/
def PortState.dbEnableWord (ps : PortState) : Word := (bit ps.ie).zeroExtend 32

/-- The number of a port in FE_OWNER: 0 = P, 1 = C (rule R41). -/
def ownerBit : Port → BitVec 1
  | .P => 0
  | .C => 1

/-- The number of a variant in FE_STATUS: 0 = PORTABLE, 1 = SIMD (rule R41). -/
def variantBit : ArithVariant → BitVec 1
  | .portable => 0
  | .simd => 1

/-- BM_STATUS: bit 0 CB_VALID, bit 1 LAST_USED (rule R41). -/
def State.bmStatusWord (s : State) : Word := (s.lastUsed ++ bit s.cbValid).zeroExtend 32

/-- FE_STATUS: bit 0 FE_BUSY, bit 1 FE_OWNER, bit 2 VARIANT (rule R41). -/
def State.feStatusWord (s : State) : Word :=
  (variantBit s.cfg.variant ++ ownerBit s.feOwner ++ bit s.feBusy).zeroExtend 32

/-- INST_N: N if the slot is valid, else 0 (rule R41). -/
def InstSlot.nWord (t : InstSlot) : Word := if t.valid then t.n else 0

/-- INST_CTRL: bit 0 valid, bit 1 ifft, bit 2 bitrev (rule R41). -/
def InstSlot.ctrlWord (t : InstSlot) : Word := (bit t.bitrev ++ bit t.ifft ++ bit t.valid).zeroExtend 32

/-- `IRQ[p] = DB[p] AND IE[p]` (rules R47, R337). -/
def State.irq (s : State) (p : Port) : Bool := (s.port p).db && (s.port p).ie

end Sys2Proof.Machine
end

