-- ==== Sys2Proof/Machine/Tables.lean ====
section
/-! DEFINITION. The read-only tables of the FFT engine (`10_state.md` rule R52): the twiddle factors `TW(L, k)`
(`42_fft_arith.md` rule R238) and the real-FFT coefficients `AB(N, i)` (rule R240). Both come from one quarter wave of
the sine, `floor(32768 * sin(2*pi*r/8192))` for r = 0 .. 2047 (log 18). -/

namespace Sys2Proof.Machine

/-- `v >> s`: `floor(v / 2^s)` (rules R12, R231). -/
def asr (v : Int) (s : Nat) : Int := v / 2 ^ s

/-- Saturation to a Q15 value (rule R12). -/
def sat16 (v : Int) : Int := if v < -32768 then -32768 else if 32767 < v then 32767 else v

/-- `floor(32768 * sin(2*pi*r/8192))` for r = 0 .. 255, 32 a row. -/
def sineRows0 : List (List Nat) :=
  [[0, 25, 50, 75, 100, 125, 150, 175, 201, 226, 251, 276, 301, 326, 351, 376,
    402, 427, 452, 477, 502, 527, 552, 578, 603, 628, 653, 678, 703, 728, 753, 779],
   [804, 829, 854, 879, 904, 929, 954, 980, 1005, 1030, 1055, 1080, 1105, 1130, 1155, 1180,
    1206, 1231, 1256, 1281, 1306, 1331, 1356, 1381, 1407, 1432, 1457, 1482, 1507, 1532, 1557, 1582],
   [1607, 1632, 1658, 1683, 1708, 1733, 1758, 1783, 1808, 1833, 1858, 1883, 1909, 1934, 1959, 1984,
    2009, 2034, 2059, 2084, 2109, 2134, 2159, 2184, 2210, 2235, 2260, 2285, 2310, 2335, 2360, 2385],
   [2410, 2435, 2460, 2485, 2510, 2535, 2560, 2585, 2611, 2636, 2661, 2686, 2711, 2736, 2761, 2786,
    2811, 2836, 2861, 2886, 2911, 2936, 2961, 2986, 3011, 3036, 3061, 3086, 3111, 3136, 3161, 3186],
   [3211, 3236, 3261, 3286, 3311, 3336, 3361, 3386, 3411, 3436, 3461, 3486, 3511, 3536, 3561, 3586,
    3611, 3636, 3661, 3686, 3711, 3736, 3761, 3786, 3811, 3836, 3861, 3886, 3911, 3936, 3961, 3986],
   [4011, 4036, 4061, 4085, 4110, 4135, 4160, 4185, 4210, 4235, 4260, 4285, 4310, 4335, 4360, 4385,
    4409, 4434, 4459, 4484, 4509, 4534, 4559, 4584, 4609, 4633, 4658, 4683, 4708, 4733, 4758, 4783],
   [4808, 4832, 4857, 4882, 4907, 4932, 4957, 4982, 5006, 5031, 5056, 5081, 5106, 5131, 5155, 5180,
    5205, 5230, 5255, 5279, 5304, 5329, 5354, 5379, 5403, 5428, 5453, 5478, 5503, 5527, 5552, 5577],
   [5602, 5626, 5651, 5676, 5701, 5725, 5750, 5775, 5800, 5824, 5849, 5874, 5898, 5923, 5948, 5973,
    5997, 6022, 6047, 6071, 6096, 6121, 6146, 6170, 6195, 6220, 6244, 6269, 6294, 6318, 6343, 6368]]

/-- `floor(32768 * sin(2*pi*r/8192))` for r = 256 .. 511, 32 a row. -/
def sineRows1 : List (List Nat) :=
  [[6392, 6417, 6442, 6466, 6491, 6515, 6540, 6565, 6589, 6614, 6639, 6663, 6688, 6712, 6737, 6762,
    6786, 6811, 6835, 6860, 6884, 6909, 6934, 6958, 6983, 7007, 7032, 7056, 7081, 7105, 7130, 7154],
   [7179, 7204, 7228, 7253, 7277, 7302, 7326, 7351, 7375, 7400, 7424, 7448, 7473, 7497, 7522, 7546,
    7571, 7595, 7620, 7644, 7669, 7693, 7717, 7742, 7766, 7791, 7815, 7840, 7864, 7888, 7913, 7937],
   [7961, 7986, 8010, 8035, 8059, 8083, 8108, 8132, 8156, 8181, 8205, 8229, 8254, 8278, 8302, 8327,
    8351, 8375, 8400, 8424, 8448, 8472, 8497, 8521, 8545, 8569, 8594, 8618, 8642, 8666, 8691, 8715],
   [8739, 8763, 8788, 8812, 8836, 8860, 8884, 8909, 8933, 8957, 8981, 9005, 9029, 9054, 9078, 9102,
    9126, 9150, 9174, 9198, 9223, 9247, 9271, 9295, 9319, 9343, 9367, 9391, 9415, 9439, 9463, 9487],
   [9512, 9536, 9560, 9584, 9608, 9632, 9656, 9680, 9704, 9728, 9752, 9776, 9800, 9824, 9848, 9872,
    9896, 9920, 9944, 9967, 9991, 10015, 10039, 10063, 10087, 10111, 10135, 10159, 10183, 10207, 10230, 10254],
   [10278, 10302, 10326, 10350, 10374, 10397, 10421, 10445, 10469, 10493, 10517, 10540, 10564, 10588, 10612, 10635,
    10659, 10683, 10707, 10731, 10754, 10778, 10802, 10825, 10849, 10873, 10897, 10920, 10944, 10968, 10991, 11015],
   [11039, 11062, 11086, 11110, 11133, 11157, 11181, 11204, 11228, 11251, 11275, 11299, 11322, 11346, 11369, 11393,
    11416, 11440, 11464, 11487, 11511, 11534, 11558, 11581, 11605, 11628, 11652, 11675, 11699, 11722, 11746, 11769],
   [11793, 11816, 11839, 11863, 11886, 11910, 11933, 11957, 11980, 12003, 12027, 12050, 12073, 12097, 12120, 12143,
    12167, 12190, 12213, 12237, 12260, 12283, 12307, 12330, 12353, 12377, 12400, 12423, 12446, 12470, 12493, 12516]]

/-- `floor(32768 * sin(2*pi*r/8192))` for r = 512 .. 767, 32 a row. -/
def sineRows2 : List (List Nat) :=
  [[12539, 12562, 12586, 12609, 12632, 12655, 12678, 12702, 12725, 12748, 12771, 12794, 12817, 12840, 12864, 12887,
    12910, 12933, 12956, 12979, 13002, 13025, 13048, 13071, 13094, 13117, 13140, 13163, 13186, 13209, 13232, 13255],
   [13278, 13301, 13324, 13347, 13370, 13393, 13416, 13439, 13462, 13485, 13508, 13531, 13554, 13576, 13599, 13622,
    13645, 13668, 13691, 13714, 13736, 13759, 13782, 13805, 13828, 13850, 13873, 13896, 13919, 13941, 13964, 13987],
   [14010, 14032, 14055, 14078, 14100, 14123, 14146, 14168, 14191, 14214, 14236, 14259, 14282, 14304, 14327, 14349,
    14372, 14395, 14417, 14440, 14462, 14485, 14507, 14530, 14552, 14575, 14598, 14620, 14642, 14665, 14687, 14710],
   [14732, 14755, 14777, 14800, 14822, 14845, 14867, 14889, 14912, 14934, 14956, 14979, 15001, 15023, 15046, 15068,
    15090, 15113, 15135, 15157, 15180, 15202, 15224, 15246, 15269, 15291, 15313, 15335, 15357, 15380, 15402, 15424],
   [15446, 15468, 15491, 15513, 15535, 15557, 15579, 15601, 15623, 15645, 15667, 15689, 15712, 15734, 15756, 15778,
    15800, 15822, 15844, 15866, 15888, 15910, 15932, 15954, 15976, 15997, 16019, 16041, 16063, 16085, 16107, 16129],
   [16151, 16173, 16195, 16216, 16238, 16260, 16282, 16304, 16325, 16347, 16369, 16391, 16413, 16434, 16456, 16478,
    16499, 16521, 16543, 16565, 16586, 16608, 16630, 16651, 16673, 16694, 16716, 16738, 16759, 16781, 16802, 16824],
   [16846, 16867, 16889, 16910, 16932, 16953, 16975, 16996, 17018, 17039, 17061, 17082, 17104, 17125, 17146, 17168,
    17189, 17211, 17232, 17253, 17275, 17296, 17317, 17339, 17360, 17381, 17403, 17424, 17445, 17467, 17488, 17509],
   [17530, 17552, 17573, 17594, 17615, 17636, 17658, 17679, 17700, 17721, 17742, 17763, 17784, 17805, 17827, 17848,
    17869, 17890, 17911, 17932, 17953, 17974, 17995, 18016, 18037, 18058, 18079, 18100, 18121, 18142, 18163, 18184]]

/-- `floor(32768 * sin(2*pi*r/8192))` for r = 768 .. 1023, 32 a row. -/
def sineRows3 : List (List Nat) :=
  [[18204, 18225, 18246, 18267, 18288, 18309, 18330, 18350, 18371, 18392, 18413, 18434, 18454, 18475, 18496, 18517,
    18537, 18558, 18579, 18600, 18620, 18641, 18662, 18682, 18703, 18723, 18744, 18765, 18785, 18806, 18826, 18847],
   [18868, 18888, 18909, 18929, 18950, 18970, 18991, 19011, 19032, 19052, 19073, 19093, 19113, 19134, 19154, 19175,
    19195, 19215, 19236, 19256, 19276, 19297, 19317, 19337, 19358, 19378, 19398, 19418, 19439, 19459, 19479, 19499],
   [19519, 19540, 19560, 19580, 19600, 19620, 19640, 19660, 19681, 19701, 19721, 19741, 19761, 19781, 19801, 19821,
    19841, 19861, 19881, 19901, 19921, 19941, 19961, 19981, 20001, 20020, 20040, 20060, 20080, 20100, 20120, 20140],
   [20159, 20179, 20199, 20219, 20239, 20258, 20278, 20298, 20318, 20337, 20357, 20377, 20396, 20416, 20436, 20455,
    20475, 20495, 20514, 20534, 20553, 20573, 20592, 20612, 20631, 20651, 20671, 20690, 20709, 20729, 20748, 20768],
   [20787, 20807, 20826, 20846, 20865, 20884, 20904, 20923, 20942, 20962, 20981, 21000, 21020, 21039, 21058, 21077,
    21097, 21116, 21135, 21154, 21173, 21193, 21212, 21231, 21250, 21269, 21288, 21307, 21326, 21346, 21365, 21384],
   [21403, 21422, 21441, 21460, 21479, 21498, 21517, 21536, 21555, 21573, 21592, 21611, 21630, 21649, 21668, 21687,
    21706, 21724, 21743, 21762, 21781, 21800, 21818, 21837, 21856, 21874, 21893, 21912, 21931, 21949, 21968, 21987],
   [22005, 22024, 22042, 22061, 22080, 22098, 22117, 22135, 22154, 22172, 22191, 22209, 22228, 22246, 22265, 22283,
    22301, 22320, 22338, 22357, 22375, 22393, 22412, 22430, 22448, 22467, 22485, 22503, 22521, 22540, 22558, 22576],
   [22594, 22613, 22631, 22649, 22667, 22685, 22703, 22721, 22740, 22758, 22776, 22794, 22812, 22830, 22848, 22866,
    22884, 22902, 22920, 22938, 22956, 22974, 22992, 23009, 23027, 23045, 23063, 23081, 23099, 23117, 23134, 23152]]

/-- `floor(32768 * sin(2*pi*r/8192))` for r = 1024 .. 1279, 32 a row. -/
def sineRows4 : List (List Nat) :=
  [[23170, 23188, 23205, 23223, 23241, 23259, 23276, 23294, 23312, 23329, 23347, 23365, 23382, 23400, 23417, 23435,
    23453, 23470, 23488, 23505, 23523, 23540, 23558, 23575, 23593, 23610, 23627, 23645, 23662, 23680, 23697, 23714],
   [23732, 23749, 23766, 23784, 23801, 23818, 23835, 23853, 23870, 23887, 23904, 23921, 23939, 23956, 23973, 23990,
    24007, 24024, 24041, 24058, 24075, 24092, 24109, 24127, 24144, 24160, 24177, 24194, 24211, 24228, 24245, 24262],
   [24279, 24296, 24313, 24330, 24346, 24363, 24380, 24397, 24414, 24430, 24447, 24464, 24480, 24497, 24514, 24531,
    24547, 24564, 24580, 24597, 24614, 24630, 24647, 24663, 24680, 24696, 24713, 24729, 24746, 24762, 24779, 24795],
   [24812, 24828, 24845, 24861, 24877, 24894, 24910, 24926, 24943, 24959, 24975, 24991, 25008, 25024, 25040, 25056,
    25073, 25089, 25105, 25121, 25137, 25153, 25169, 25185, 25201, 25218, 25234, 25250, 25266, 25282, 25298, 25314],
   [25330, 25345, 25361, 25377, 25393, 25409, 25425, 25441, 25457, 25472, 25488, 25504, 25520, 25536, 25551, 25567,
    25583, 25598, 25614, 25630, 25645, 25661, 25677, 25692, 25708, 25723, 25739, 25755, 25770, 25786, 25801, 25817],
   [25832, 25847, 25863, 25878, 25894, 25909, 25925, 25940, 25955, 25971, 25986, 26001, 26016, 26032, 26047, 26062,
    26077, 26093, 26108, 26123, 26138, 26153, 26169, 26184, 26199, 26214, 26229, 26244, 26259, 26274, 26289, 26304],
   [26319, 26334, 26349, 26364, 26379, 26394, 26409, 26423, 26438, 26453, 26468, 26483, 26498, 26512, 26527, 26542,
    26557, 26571, 26586, 26601, 26615, 26630, 26645, 26659, 26674, 26688, 26703, 26718, 26732, 26747, 26761, 26776],
   [26790, 26805, 26819, 26833, 26848, 26862, 26877, 26891, 26905, 26920, 26934, 26948, 26963, 26977, 26991, 27005,
    27020, 27034, 27048, 27062, 27076, 27091, 27105, 27119, 27133, 27147, 27161, 27175, 27189, 27203, 27217, 27231]]

/-- `floor(32768 * sin(2*pi*r/8192))` for r = 1280 .. 1535, 32 a row. -/
def sineRows5 : List (List Nat) :=
  [[27245, 27259, 27273, 27287, 27301, 27315, 27329, 27342, 27356, 27370, 27384, 27398, 27411, 27425, 27439, 27453,
    27466, 27480, 27494, 27507, 27521, 27535, 27548, 27562, 27576, 27589, 27603, 27616, 27630, 27643, 27657, 27670],
   [27684, 27697, 27711, 27724, 27737, 27751, 27764, 27777, 27791, 27804, 27817, 27831, 27844, 27857, 27870, 27884,
    27897, 27910, 27923, 27936, 27949, 27962, 27976, 27989, 28002, 28015, 28028, 28041, 28054, 28067, 28080, 28093],
   [28106, 28118, 28131, 28144, 28157, 28170, 28183, 28196, 28208, 28221, 28234, 28247, 28259, 28272, 28285, 28297,
    28310, 28323, 28335, 28348, 28361, 28373, 28386, 28398, 28411, 28423, 28436, 28448, 28461, 28473, 28486, 28498],
   [28511, 28523, 28535, 28548, 28560, 28572, 28585, 28597, 28609, 28621, 28634, 28646, 28658, 28670, 28682, 28694,
    28707, 28719, 28731, 28743, 28755, 28767, 28779, 28791, 28803, 28815, 28827, 28839, 28851, 28863, 28875, 28886],
   [28898, 28910, 28922, 28934, 28946, 28957, 28969, 28981, 28993, 29004, 29016, 29028, 29039, 29051, 29062, 29074,
    29086, 29097, 29109, 29120, 29132, 29143, 29155, 29166, 29178, 29189, 29201, 29212, 29223, 29235, 29246, 29257],
   [29269, 29280, 29291, 29302, 29314, 29325, 29336, 29347, 29359, 29370, 29381, 29392, 29403, 29414, 29425, 29436,
    29447, 29458, 29469, 29480, 29491, 29502, 29513, 29524, 29535, 29546, 29557, 29567, 29578, 29589, 29600, 29611],
   [29621, 29632, 29643, 29654, 29664, 29675, 29686, 29696, 29707, 29717, 29728, 29739, 29749, 29760, 29770, 29781,
    29791, 29802, 29812, 29822, 29833, 29843, 29854, 29864, 29874, 29885, 29895, 29905, 29915, 29926, 29936, 29946],
   [29956, 29967, 29977, 29987, 29997, 30007, 30017, 30027, 30037, 30047, 30057, 30067, 30077, 30087, 30097, 30107,
    30117, 30127, 30137, 30147, 30156, 30166, 30176, 30186, 30196, 30205, 30215, 30225, 30235, 30244, 30254, 30264]]

/-- `floor(32768 * sin(2*pi*r/8192))` for r = 1536 .. 1791, 32 a row. -/
def sineRows6 : List (List Nat) :=
  [[30273, 30283, 30292, 30302, 30312, 30321, 30331, 30340, 30350, 30359, 30368, 30378, 30387, 30397, 30406, 30415,
    30425, 30434, 30443, 30453, 30462, 30471, 30480, 30490, 30499, 30508, 30517, 30526, 30535, 30545, 30554, 30563],
   [30572, 30581, 30590, 30599, 30608, 30617, 30626, 30635, 30644, 30652, 30661, 30670, 30679, 30688, 30697, 30705,
    30714, 30723, 30732, 30740, 30749, 30758, 30766, 30775, 30784, 30792, 30801, 30809, 30818, 30827, 30835, 30844],
   [30852, 30860, 30869, 30877, 30886, 30894, 30902, 30911, 30919, 30927, 30936, 30944, 30952, 30961, 30969, 30977,
    30985, 30993, 31001, 31010, 31018, 31026, 31034, 31042, 31050, 31058, 31066, 31074, 31082, 31090, 31098, 31106],
   [31114, 31122, 31129, 31137, 31145, 31153, 31161, 31168, 31176, 31184, 31192, 31199, 31207, 31215, 31222, 31230,
    31237, 31245, 31253, 31260, 31268, 31275, 31283, 31290, 31298, 31305, 31312, 31320, 31327, 31335, 31342, 31349],
   [31357, 31364, 31371, 31378, 31386, 31393, 31400, 31407, 31414, 31421, 31429, 31436, 31443, 31450, 31457, 31464,
    31471, 31478, 31485, 31492, 31499, 31506, 31513, 31519, 31526, 31533, 31540, 31547, 31554, 31560, 31567, 31574],
   [31581, 31587, 31594, 31601, 31607, 31614, 31620, 31627, 31634, 31640, 31647, 31653, 31660, 31666, 31673, 31679,
    31685, 31692, 31698, 31705, 31711, 31717, 31723, 31730, 31736, 31742, 31749, 31755, 31761, 31767, 31773, 31779],
   [31785, 31792, 31798, 31804, 31810, 31816, 31822, 31828, 31834, 31840, 31846, 31852, 31857, 31863, 31869, 31875,
    31881, 31887, 31892, 31898, 31904, 31910, 31915, 31921, 31927, 31932, 31938, 31944, 31949, 31955, 31960, 31966],
   [31971, 31977, 31982, 31988, 31993, 31999, 32004, 32009, 32015, 32020, 32025, 32031, 32036, 32041, 32047, 32052,
    32057, 32062, 32067, 32073, 32078, 32083, 32088, 32093, 32098, 32103, 32108, 32113, 32118, 32123, 32128, 32133]]

/-- `floor(32768 * sin(2*pi*r/8192))` for r = 1792 .. 2047, 32 a row. -/
def sineRows7 : List (List Nat) :=
  [[32138, 32143, 32148, 32152, 32157, 32162, 32167, 32172, 32176, 32181, 32186, 32191, 32195, 32200, 32205, 32209,
    32214, 32218, 32223, 32228, 32232, 32237, 32241, 32246, 32250, 32255, 32259, 32263, 32268, 32272, 32276, 32281],
   [32285, 32289, 32294, 32298, 32302, 32306, 32311, 32315, 32319, 32323, 32327, 32331, 32335, 32339, 32343, 32347,
    32351, 32355, 32359, 32363, 32367, 32371, 32375, 32379, 32383, 32387, 32390, 32394, 32398, 32402, 32405, 32409],
   [32413, 32417, 32420, 32424, 32427, 32431, 32435, 32438, 32442, 32445, 32449, 32452, 32456, 32459, 32463, 32466,
    32469, 32473, 32476, 32479, 32483, 32486, 32489, 32493, 32496, 32499, 32502, 32505, 32509, 32512, 32515, 32518],
   [32521, 32524, 32527, 32530, 32533, 32536, 32539, 32542, 32545, 32548, 32551, 32554, 32557, 32559, 32562, 32565,
    32568, 32571, 32573, 32576, 32579, 32581, 32584, 32587, 32589, 32592, 32595, 32597, 32600, 32602, 32605, 32607],
   [32610, 32612, 32615, 32617, 32619, 32622, 32624, 32626, 32629, 32631, 32633, 32636, 32638, 32640, 32642, 32645,
    32647, 32649, 32651, 32653, 32655, 32657, 32659, 32661, 32663, 32665, 32667, 32669, 32671, 32673, 32675, 32677],
   [32679, 32681, 32682, 32684, 32686, 32688, 32689, 32691, 32693, 32695, 32696, 32698, 32700, 32701, 32703, 32704,
    32706, 32707, 32709, 32710, 32712, 32713, 32715, 32716, 32718, 32719, 32720, 32722, 32723, 32724, 32726, 32727],
   [32728, 32729, 32730, 32732, 32733, 32734, 32735, 32736, 32737, 32738, 32739, 32740, 32741, 32742, 32743, 32744,
    32745, 32746, 32747, 32748, 32749, 32750, 32750, 32751, 32752, 32753, 32754, 32754, 32755, 32756, 32756, 32757],
   [32758, 32758, 32759, 32759, 32760, 32760, 32761, 32761, 32762, 32762, 32763, 32763, 32764, 32764, 32764, 32765,
    32765, 32765, 32766, 32766, 32766, 32766, 32767, 32767, 32767, 32767, 32767, 32767, 32767, 32767, 32767, 32767]]

/-- The quarter wave, 64 rows of 32 entries. -/
def sineRows : List (List Nat) :=
  sineRows0 ++ sineRows1 ++ sineRows2 ++ sineRows3 ++ sineRows4 ++ sineRows5 ++ sineRows6 ++ sineRows7

/-- `floor(32768 * sin(2*pi*r/8192))` for `r` from 0 to 2048 (a quarter of the circle, both ends included). -/
def quarterSine (r : Nat) : Nat :=
  if r = 2048 then 32768 else (sineRows.getD (r / 32) []).getD (r % 32) 0

/-- `floor(32768 * sin(2*pi*i/8192))` for every `i`: the quarter wave mirrored, and negated in the second half, where
the floor of a negated non-integer is one below the negated floor (DEDUCED, log 18; unsafe if it were wrong: every
spectrum would be). -/
def floorSine (i : Nat) : Int :=
  let r := i % 2048
  match i / 2048 % 4 with
  | 0 => quarterSine r
  | 1 => quarterSine (2048 - r)
  | 2 => if r = 0 then 0 else -(quarterSine r : Int) - 1
  | _ => if r = 0 then -32768 else -(quarterSine (2048 - r) : Int) - 1

/-- `floor(32768 * cos(2*pi*i/8192))`: the sine a quarter circle on. -/
def floorCosine (i : Nat) : Int := floorSine (i + 2048)

/-- `16384 * sin(2*pi*i/8192)` rounded to the nearest integer. In the first quarter it is `floor(16384*sin + 1/2)`,
which is `(floor(32768*sin) + 1) / 2` (DEDUCED, log 18). -/
def nearHalfSine (i : Nat) : Int :=
  let r := i % 2048
  match i / 2048 % 4 with
  | 0 => (quarterSine r + 1) / 2
  | 1 => (quarterSine (2048 - r) + 1) / 2
  | 2 => -((quarterSine r + 1) / 2)
  | _ => -((quarterSine (2048 - r) + 1) / 2)

/-- `16384 * cos(2*pi*i/8192)` rounded to the nearest integer. -/
def nearHalfCosine (i : Nat) : Int := nearHalfSine (i + 2048)

/-- The twiddle factor `TW(L, k) = (co, si)` of rule R238, for L a power of two up to 4096. -/
def twiddle (L k : Nat) : Int × Int :=
  let i := k * (8192 / L)
  (sat16 (floorCosine i), sat16 (floorSine i))

/-- The four coefficients `(Ar, Ai, Br, Bi)` of rule R240. -/
structure RealCoef where
  ar : Int
  ai : Int
  br : Int
  bi : Int
  deriving DecidableEq, Repr

/-- `AB(N, i)` of rule R240, for N a power of two up to 8192. -/
def realCoef (N i : Nat) : RealCoef :=
  let j := i * (8192 / N)
  { ar := sat16 (16384 - nearHalfSine j)
    ai := sat16 (-nearHalfCosine j)
    br := sat16 (16384 + nearHalfSine j)
    bi := sat16 (nearHalfCosine j) }

end Sys2Proof.Machine
end

