-- ==== Sys2Proof/Machine/FftArith.lean ====
section
/-! DEFINITION. The FFT engine's arithmetic (`42_fft_arith.md` rules R230 to R256), as functions on lists of complex
samples. Intermediates are exact integers (rule R230). -/

namespace Sys2Proof.Machine

/-- A complex sample (re, im) (rule R234). -/
abbrev Sample := Int × Int

/-- `qadd` (rule R232). -/
def qadd (a b : Int) : Int := sat16 (a + b)

/-- `qsub` (rule R232). -/
def qsub (a b : Int) : Int := sat16 (a - b)

/-- `hadd` (rules R246, R247). -/
def hadd : ArithVariant → Int → Int → Int
  | .portable, a, b => asr a 1 + asr b 1
  | .simd, a, b => asr (a + b) 1

/-- `hsub` (rules R246, R247). -/
def hsub : ArithVariant → Int → Int → Int
  | .portable, a, b => asr a 1 - asr b 1
  | .simd, a, b => asr (a - b) 1

/-- `mulsum` (rule R235). -/
def mulsum (c x s y : Int) : Int := sat16 (asr (c * x + s * y) 16)

/-- `twmul_fwd` (rule R235). -/
def twmulFwd (tw r : Sample) : Sample :=
  (mulsum tw.1 r.1 tw.2 r.2, mulsum tw.1 r.2 (-tw.2) r.1)

/-- `twmul_inv` (rule R235). -/
def twmulInv (tw r : Sample) : Sample :=
  (mulsum tw.1 r.1 (-tw.2) r.2, mulsum tw.2 r.1 tw.1 r.2)

/-- `twmul`: by the direction of the transform (rule R235). -/
def twmul (inv : Bool) (tw r : Sample) : Sample := if inv then twmulInv tw r else twmulFwd tw r

/-- The samples a butterfly leaves at positions i0, i1, i2, i3. -/
structure Quad where
  s0 : Sample
  s1 : Sample
  s2 : Sample
  s3 : Sample
  deriving DecidableEq, Repr

/-- The sums of rule R236: a + c, a - c, b + d, b - d. -/
structure Sums where
  r : Sample
  s : Sample
  t : Sample
  u : Sample
  deriving DecidableEq, Repr

/-- The butterfly sums of four samples (rule R236). -/
def butterflySums (a b c d : Sample) : Sums where
  r := (qadd a.1 c.1, qadd a.2 c.2)
  s := (qsub a.1 c.1, qsub a.2 c.2)
  t := (qadd b.1 d.1, qadd b.2 d.2)
  u := (qsub b.1 d.1, qsub b.2 d.2)

/-- `(s0 ± u1, s1 ∓ u0)` with the given sum and difference: the leg `a - jb - c + jd` of a forward transform. -/
def crossDown (add sub : Int → Int → Int) (s u : Sample) : Sample := (add s.1 u.2, sub s.2 u.1)

/-- `(s0 ∓ u1, s1 ± u0)`: the leg `a + jb - c - jd` of a forward transform. -/
def crossUp (add sub : Int → Int → Int) (s u : Sample) : Sample := (sub s.1 u.2, add s.2 u.1)

/-- The leg written to i2 before the twiddle (Bb of rules R243, R244). -/
def legB (inv : Bool) (add sub : Int → Int → Int) (s u : Sample) : Sample :=
  if inv then crossUp add sub s u else crossDown add sub s u

/-- The leg written to i3 before the twiddle (Dd of rules R243, R244). -/
def legD (inv : Bool) (add sub : Int → Int → Int) (s u : Sample) : Sample :=
  if inv then crossDown add sub s u else crossUp add sub s u

/-- `>> s` on both parts of a sample. -/
def asrSample (x : Sample) (s : Nat) : Sample := (asr x.1 s, asr x.2 s)

/-- The first-stage butterfly `j` of `radix4(x, L, inv)` (rule R243). -/
def firstButterfly (v : ArithVariant) (inv : Bool) (L j : Nat) (a b c d : Sample) : Quad :=
  let q := butterflySums (asrSample a 2) (asrSample b 2) (asrSample c 2) (asrSample d 2)
  { s0 := (hadd v q.r.1 q.t.1, hadd v q.r.2 q.t.2)
    s1 := twmul inv (twiddle L (2 * j)) (qsub q.r.1 q.t.1, qsub q.r.2 q.t.2)
    s2 := twmul inv (twiddle L j) (legB inv qadd qsub q.s q.u)
    s3 := twmul inv (twiddle L (3 * j)) (legD inv qadd qsub q.s q.u) }

/-- The middle-stage butterfly `j` of a block of `n1` samples (rule R244). -/
def middleButterfly (v : ArithVariant) (inv : Bool) (n1 j : Nat) (a b c d : Sample) : Quad :=
  let q := butterflySums a b c d
  { s0 := (asr (hadd v q.r.1 q.t.1) 1, asr (hadd v q.r.2 q.t.2) 1)
    s1 := twmul inv (twiddle n1 (2 * j)) (hsub v q.r.1 q.t.1, hsub v q.r.2 q.t.2)
    s2 := twmul inv (twiddle n1 j) (legB inv (hadd v) (hsub v) q.s q.u)
    s3 := twmul inv (twiddle n1 (3 * j)) (legD inv (hadd v) (hsub v) q.s q.u) }

/-- The last-stage butterfly, of four adjacent samples and without a twiddle (rule R245). -/
def lastButterfly (v : ArithVariant) (inv : Bool) (_j : Nat) (a b c d : Sample) : Quad :=
  let q := butterflySums a b c d
  { s0 := (hadd v q.r.1 q.t.1, hadd v q.r.2 q.t.2)
    s1 := (hsub v q.r.1 q.t.1, hsub v q.r.2 q.t.2)
    s2 := legB inv (hadd v) (hsub v) q.s q.u
    s3 := legD inv (hadd v) (hsub v) q.s q.u }

/-- One block of `4*q` samples through a butterfly: butterfly `j` takes samples `j, j+q, j+2q, j+3q` and leaves its
four results there; all inputs are read before any result is written (rules R243 to R245). -/
def butterflyBlock (f : Nat → Sample → Sample → Sample → Sample → Quad) (q : Nat) (x : List Sample) : List Sample :=
  let out := (List.range q).map fun j =>
    f j (x.getD j (0, 0)) (x.getD (j + q) (0, 0)) (x.getD (j + 2 * q) (0, 0)) (x.getD (j + 3 * q) (0, 0))
  out.map Quad.s0 ++ out.map Quad.s1 ++ out.map Quad.s2 ++ out.map Quad.s3

/-- One stage: every block of `n1` samples of a sequence of length `L` through its butterflies. Blocks are disjoint,
so their order does not show (rule R244). -/
def fftStage (f : Nat → Sample → Sample → Sample → Sample → Quad) (L n1 : Nat) (x : List Sample) : List Sample :=
  (List.range (L / n1)).flatMap fun b => butterflyBlock f (n1 / 4) ((x.drop (b * n1)).take n1)

/-- The middle stages, for block sizes `n1, n1/4, ...` while they are above 4 (rule R244); the first argument bounds
their number. -/
def middleStages (v : ArithVariant) (inv : Bool) (L : Nat) : Nat → Nat → List Sample → List Sample
  | 0, _, x => x
  | fuel + 1, n1, x =>
    if 4 < n1 then middleStages v inv L fuel (n1 / 4) (fftStage (middleButterfly v inv n1) L n1 x) else x

/-- `radix4(x, L, inv)` (rule R242), for L in 16, 64, 256, 1024, 4096. -/
def radix4 (v : ArithVariant) (inv : Bool) (L : Nat) (x : List Sample) : List Sample :=
  fftStage (lastButterfly v inv) L 4
    (middleStages v inv L 4 (L / 4) (fftStage (firstButterfly v inv L) L L x))

/-- The upper half of the radix-4-by-2 pre-pass at sample `i` (rule R248): `(xt, yt)` times the twiddle. -/
def prePassUpper (v : ArithVariant) (inv : Bool) (tw t : Sample) : Sample :=
  match v, inv with
  | .portable, false =>
    (sat16 (asr (t.1 * tw.1) 16 + asr (t.2 * tw.2) 16), sat16 (asr (t.2 * tw.1) 16 - asr (t.1 * tw.2) 16))
  | .portable, true =>
    (sat16 (asr (t.1 * tw.1) 16 - asr (t.2 * tw.2) 16), sat16 (asr (t.2 * tw.1) 16 + asr (t.1 * tw.2) 16))
  | .simd, false => twmulFwd tw t
  | .simd, true => (mulsum tw.1 t.1 (-tw.2) t.2, mulsum tw.1 t.2 tw.2 t.1)

/-- The radix-4-by-2 pre-pass (rule R248): its lower and its upper half. -/
def prePass (v : ArithVariant) (inv : Bool) (M : Nat) (x : List Sample) : List Sample × List Sample :=
  let h := M / 2
  let lower := (List.range h).map fun i =>
    let a := x.getD i (0, 0)
    let b := x.getD (i + h) (0, 0)
    (sat16 (asr (asr a.1 1 + asr b.1 1) 1), sat16 (asr (asr a.2 1 + asr b.2 1) 1))
  let upper := (List.range h).map fun i =>
    let a := x.getD i (0, 0)
    let b := x.getD (i + h) (0, 0)
    prePassUpper v inv (twiddle M i) (asr a.1 1 - asr b.1 1, asr a.2 1 - asr b.2 1)
  (lower, upper)

/-- `radix4by2(x, M, inv)` (rules R248 to R250), for M in 32, 128, 512, 2048: the pre-pass, a radix-4 transform of
each half, and the saturating post-scale by 2. -/
def radix4by2 (v : ArithVariant) (inv : Bool) (M : Nat) (x : List Sample) : List Sample :=
  let p := prePass v inv M x
  (radix4 v inv (M / 2) p.1 ++ radix4 v inv (M / 2) p.2).map fun z => (sat16 (2 * z.1), sat16 (2 * z.2))

/-- The number whose `bits`-bit form is that of `i` reversed (rule R251). -/
def bitRev : Nat → Nat → Nat
  | 0, _ => 0
  | bits + 1, i => i % 2 * 2 ^ bits + bitRev bits (i / 2)

/-- `bitrev(x, M)` (rule R251): sample `i` and sample `rev(i)` change places, so each place `i` receives sample
`rev(i)`. -/
def bitReverse (M : Nat) (x : List Sample) : List Sample :=
  (List.range M).map fun i => x.getD (bitRev (Nat.log2 M) i) (0, 0)

/-- Whether a CFFT length is a power of 4 (rule R252). -/
def powerOfFour (M : Nat) : Bool := [16, 64, 256, 1024, 4096].contains M

/-- `cfft(x, M, inv, br)` (rule R252). -/
def cfft (v : ArithVariant) (M : Nat) (inv br : Bool) (x : List Sample) : List Sample :=
  let y := if powerOfFour M then radix4 v inv M x else radix4by2 v inv M x
  if br then bitReverse M y else y

/-- The exact sums of rule R254 for bin `i`, shifted: `(vR, vI)` before saturation. -/
def splitBin (N : Nat) (z : List Sample) (i : Nat) : Sample :=
  let k := realCoef N i
  let x := z.getD i (0, 0)
  let y := z.getD (N / 2 - i) (0, 0)
  (asr (x.1 * k.ar - x.2 * k.ai + y.1 * k.br + y.2 * k.bi) 16,
   asr (y.1 * k.bi - y.2 * k.br + x.2 * k.ar + x.1 * k.ai) 16)

/-- Bins 0 .. N-1 of the real FFT (rules R253 to R255): DC, bins 1 .. N/2-1, Nyquist, and the conjugates, whose
imaginary part is negated before it is saturated. -/
def split (N : Nat) (z : List Sample) : List Sample :=
  let z0 := z.getD 0 (0, 0)
  (List.range N).map fun i =>
    if i = 0 then (sat16 (asr (z0.1 + z0.2) 1), 0)
    else if i < N / 2 then
      let b := splitBin N z i
      (sat16 b.1, sat16 b.2)
    else if i = N / 2 then (sat16 (asr (z0.1 - z0.2) 1), 0)
    else
      let b := splitBin N z (N - i)
      (sat16 b.1, sat16 (-b.2))

/-- The record `(bin_index, magnitude_squared)` of rule R301. -/
structure TopBin where
  index : Nat
  mag : Nat
  deriving DecidableEq, Repr

/-- `|X[b]|²`, exact (rule R300). -/
def magSquared (z : Sample) : Nat := (z.1 * z.1 + z.2 * z.2).toNat

/-- One bin against the kept records (rule R300, step 4): it enters only if it exceeds the last, before the first
record it exceeds, and the last one drops out. -/
def keepBin (kept : List TopBin) (new : TopBin) : List TopBin :=
  if (kept.getLast?.map TopBin.mag).getD 0 < new.mag then
    let p := kept.findIdx fun r => decide (r.mag < new.mag)
    (kept.take p ++ new :: kept.drop p).dropLast
  else kept

/-- The K kept records after bins 1 .. N/2 of a spectrum (rule R300, steps 3 and 4). -/
def topBins (N K : Nat) (bins : List Sample) : List TopBin :=
  (List.range (N / 2)).foldl (fun kept j => keepBin kept ⟨j + 1, magSquared (bins.getD (j + 1) (0, 0))⟩)
    (List.replicate K ⟨0, 0⟩)

/-- The real FFT of the M = N/2 samples read from a real array: the CFFT's output (rule R285, `z`) and the N bins
(rule R285, `d`). -/
def realFft (v : ArithVariant) (N : Nat) (x : List Sample) : List Sample × List Sample :=
  let z := cfft v (N / 2) false true x
  (z, split N z)

end Sys2Proof.Machine
end

