-- ==== Sys2Proof/Syntax.lean ====
section
/-! DEFINITION. The commands of CORE, one constructor for each row of the opcode table (`30_encoding.md` rules
R122, R125). Operands that the command word carries are the constructor's fields; all others are the latched
argument registers of the issuing port (rule R121). -/

namespace Sys2Proof

/-- The nineteen commands (rule R126). An IMM16 operand is an index or a count, so it is a number here; that it fits
the sixteen bits of the field is `Instr.wellFormed`. -/
inductive Instr where
  | nop
  | bmInit
  | bmAcqw
  | bmCommit
  | bmAcqr
  | bmRelease
  | bmState
  /-- IMM16 = the selector (rule R165). -/
  | bmStats (selector : Nat)
  | ntNotifyC
  | ntNotifyP
  | atLoad
  | atCas
  | atFadd
  | fence
  /-- IMM16 = the instance slot (rule R281). -/
  | fftRinit (slot : Nat)
  /-- IMM16 = the instance slot (rule R285). -/
  | fftRfft (slot : Nat)
  /-- Flags INV = `w[8]` and BR = `w[9]` (rule R287). -/
  | fftCfft (inv br : Bool)
  | fftBitrev
  /-- IMM16 = the count K of bins (rule R300). -/
  | fftTopbins (k : Nat)
  deriving DecidableEq, Repr

end Sys2Proof
end

