-- ==== Sys2Proof/WellFormed.lean ====
section
/-! DEFINITION. Which terms of `Instr` are commands: an IMM16 operand fits its field (`30_encoding.md` rules R120,
R121). Value checks of the operands are the commands' own (rule R128). -/

namespace Sys2Proof

/-- The number fits the field IMM16. -/
def fitsImm16 (v : Nat) : Bool := decide (v < 2 ^ 16)

/-- Every IMM16 operand fits its field; the other commands have no operand in the word that could fail to. -/
def Instr.wellFormed : Instr → Bool
  | .nop => true
  | .bmInit => true
  | .bmAcqw => true
  | .bmCommit => true
  | .bmAcqr => true
  | .bmRelease => true
  | .bmState => true
  | .bmStats selector => fitsImm16 selector
  | .ntNotifyC => true
  | .ntNotifyP => true
  | .atLoad => true
  | .atCas => true
  | .atFadd => true
  | .fence => true
  | .fftRinit slot => fitsImm16 slot
  | .fftRfft slot => fitsImm16 slot
  | .fftCfft _ _ => true
  | .fftBitrev => true
  | .fftTopbins k => fitsImm16 k

end Sys2Proof
end

