-- ==== Sys2Proof/Decode.lean ====
section
/-! DEFINITION. Decoding and encoding of command words (`30_encoding.md` rules R120 to R127): the decoder, total on
any bytes, the encoder, and the match/mask rows of rule R125. -/

namespace Sys2Proof

/-- Why bytes are no command. The first three are the illegal words of rule R127. -/
inductive DecodeError where
  /-- The OPCODE is none of the nineteen (rule R126). -/
  | reservedOpcode (opcode : Nat)
  /-- A FLAGS bit is set that the command does not define (rule R122). -/
  | undefinedFlag (opcode : Nat)
  /-- IMM16 is not 0 in a command that defines none (rule R122). -/
  | undefinedImm16 (opcode : Nat)
  /-- Fewer than the four bytes of a command word (rule R120). -/
  | shortWord
  deriving DecidableEq, Repr

/-- OPCODE, `w[7:0]` (rule R120). -/
def opcodeField (w : Word) : Nat := (w.extractLsb' 0 8).toNat

/-- FLAGS, `w[15:8]` (rule R120). -/
def flagsField (w : Word) : Nat := (w.extractLsb' 8 8).toNat

/-- IMM16, `w[31:16]`, zero-extended (rule R121). -/
def imm16Field (w : Word) : Nat := (w.extractLsb' 16 16).toNat

/-- A command without flags: FLAGS must be 0. -/
def decodeNoFlags (w : Word) (i : Instr) : Except DecodeError Instr :=
  if flagsField w = 0 then .ok i else .error (.undefinedFlag (opcodeField w))

/-- A command without immediate: IMM16 must be 0. -/
def decodeNoImm (w : Word) (i : Instr) : Except DecodeError Instr :=
  if imm16Field w = 0 then .ok i else .error (.undefinedImm16 (opcodeField w))

/-- A command that is only its OPCODE. -/
def decodePlain (w : Word) (i : Instr) : Except DecodeError Instr :=
  match decodeNoFlags w i with
  | .ok i => decodeNoImm w i
  | .error e => .error e

/-- FFT_CFFT: FLAGS bits 0 and 1 (`w[8]`, `w[9]`) are INV and BR, the others must be 0, IMM16 must be 0. -/
def decodeCfft (w : Word) : Except DecodeError Instr :=
  if flagsField w < 4 then decodeNoImm w (.fftCfft (w.getLsbD 8) (w.getLsbD 9))
  else .error (.undefinedFlag (opcodeField w))

/-- The command a word selects (rules R122, R125), or why it is illegal (rule R127). -/
def decodeWord (w : Word) : Except DecodeError Instr :=
  match opcodeField w with
  | 0x00 => decodePlain w .nop
  | 0x01 => decodePlain w .bmInit
  | 0x02 => decodePlain w .bmAcqw
  | 0x03 => decodePlain w .bmCommit
  | 0x04 => decodePlain w .bmAcqr
  | 0x05 => decodePlain w .bmRelease
  | 0x06 => decodePlain w .bmState
  | 0x07 => decodeNoFlags w (.bmStats (imm16Field w))
  | 0x10 => decodePlain w .ntNotifyC
  | 0x11 => decodePlain w .ntNotifyP
  | 0x18 => decodePlain w .atLoad
  | 0x19 => decodePlain w .atCas
  | 0x1A => decodePlain w .atFadd
  | 0x1B => decodePlain w .fence
  | 0x20 => decodeNoFlags w (.fftRinit (imm16Field w))
  | 0x21 => decodeNoFlags w (.fftRfft (imm16Field w))
  | 0x22 => decodeCfft w
  | 0x23 => decodePlain w .fftBitrev
  | 0x24 => decodeNoFlags w (.fftTopbins (imm16Field w))
  | op => .error (.reservedOpcode op)

/-- Four bytes as a word, little-endian (`20_memory.md` rule R80). -/
def wordOfBytes (b0 b1 b2 b3 : Byte) : Word := b3 ++ b2 ++ b1 ++ b0

/-- The decoder on bytes: the command of the first four and the bytes after them. -/
def decode : List Byte → Except DecodeError (Instr × List Byte)
  | b0 :: b1 :: b2 :: b3 :: rest =>
    match decodeWord (wordOfBytes b0 b1 b2 b3) with
    | .ok i => .ok (i, rest)
    | .error e => .error e
  | _ => .error .shortWord

/-- The three fields put together (rule R120). -/
def assemble (imm flags opcode : Nat) : Word :=
  BitVec.ofNat 16 imm ++ BitVec.ofNat 8 flags ++ BitVec.ofNat 8 opcode

/-- The command word of a command (rules R122, R125). -/
def encode : Instr → Word
  | .nop => assemble 0 0 0x00
  | .bmInit => assemble 0 0 0x01
  | .bmAcqw => assemble 0 0 0x02
  | .bmCommit => assemble 0 0 0x03
  | .bmAcqr => assemble 0 0 0x04
  | .bmRelease => assemble 0 0 0x05
  | .bmState => assemble 0 0 0x06
  | .bmStats selector => assemble selector 0 0x07
  | .ntNotifyC => assemble 0 0 0x10
  | .ntNotifyP => assemble 0 0 0x11
  | .atLoad => assemble 0 0 0x18
  | .atCas => assemble 0 0 0x19
  | .atFadd => assemble 0 0 0x1A
  | .fence => assemble 0 0 0x1B
  | .fftRinit slot => assemble slot 0 0x20
  | .fftRfft slot => assemble slot 0 0x21
  | .fftCfft inv br => assemble 0 (inv.toNat + 2 * br.toNat) 0x22
  | .fftBitrev => assemble 0 0 0x23
  | .fftTopbins k => assemble k 0 0x24

/-- The bytes of a word as the hardware stores it, the least significant first (`20_memory.md` rule R80). -/
def bytesOfWord (w : Word) : List Byte :=
  [w.extractLsb' 0 8, w.extractLsb' 8 8, w.extractLsb' 16 8, w.extractLsb' 24 8]

/-- One row of rule R125: a word `w` selects the command when `w AND mask = bits`. -/
structure EncodingRow where
  bits : Word
  mask : Word
  deriving DecidableEq, Repr

/-- The row of rule R125 for each command, by its OPCODE and by what its mask leaves open. -/
def encodingRows : List EncodingRow :=
  [⟨0x00000000, 0xFFFFFFFF⟩, ⟨0x00000001, 0xFFFFFFFF⟩, ⟨0x00000002, 0xFFFFFFFF⟩, ⟨0x00000003, 0xFFFFFFFF⟩,
   ⟨0x00000004, 0xFFFFFFFF⟩, ⟨0x00000005, 0xFFFFFFFF⟩, ⟨0x00000006, 0xFFFFFFFF⟩, ⟨0x00000007, 0x0000FFFF⟩,
   ⟨0x00000010, 0xFFFFFFFF⟩, ⟨0x00000011, 0xFFFFFFFF⟩, ⟨0x00000018, 0xFFFFFFFF⟩, ⟨0x00000019, 0xFFFFFFFF⟩,
   ⟨0x0000001A, 0xFFFFFFFF⟩, ⟨0x0000001B, 0xFFFFFFFF⟩, ⟨0x00000020, 0x0000FFFF⟩, ⟨0x00000021, 0x0000FFFF⟩,
   ⟨0x00000022, 0xFFFFFCFF⟩, ⟨0x00000023, 0xFFFFFFFF⟩, ⟨0x00000024, 0x0000FFFF⟩]

/-- The word is in the row (rule R125). -/
def EncodingRow.selects (r : EncodingRow) (w : Word) : Bool := w &&& r.mask == r.bits

/-- The instruction the decoder reads from a table word: `nbits` bits of `w`, the rest 0, stored as the hardware
stores a word. -/
def decodeTableWord (nbits w : Nat) : Option Instr :=
  match decode (bytesOfWord (BitVec.ofNat 32 (w % 2 ^ nbits))) with
  | .ok (i, _) => some i
  | .error _ => none

end Sys2Proof
end

