-- ==== Sys2Proof/Machine/Memory.lean ====
section
/-! DEFINITION. Shared memory as bytes (`20_memory.md` rules R80, R81; `00_scope.md` rule R12): reads and writes of
bytes and of little-endian values. Every write goes through `Memory.write`, which keeps the canonical form. -/

namespace Sys2Proof.Machine

/-- What an unlisted address reads as: memory is not reset and holds unspecified bytes at power-up (rule R371);
DESIGN CHOICE 0 (log 3; unsafe for a statement about a run from `State.reset` alone, which none of ours is). -/
def Memory.unlisted : Byte := 0

/-- The canonical form: addresses strictly rising, and no entry equal to what an unlisted address reads as. -/
def Memory.wf (m : Memory) : Bool :=
  decide (m.Pairwise (fun a b => a.1 < b.1)) && m.all (fun c => c.2 != Memory.unlisted)

/-- The byte at an address. -/
def Memory.byte (m : Memory) (a : Nat) : Byte := (m.lookup a).getD Memory.unlisted

/-- The entries of a run of bytes that starts at an address. -/
def Memory.cells : Nat → List Byte → Memory
  | _, [] => []
  | a, b :: bs => if b = Memory.unlisted then Memory.cells (a + 1) bs else (a, b) :: Memory.cells (a + 1) bs

/-- Store a run of bytes at an address. -/
def Memory.write (m : Memory) (a : Nat) (bs : List Byte) : Memory :=
  m.filter (fun c => decide (c.1 < a)) ++ Memory.cells a bs ++ m.filter (fun c => decide (a + bs.length ≤ c.1))

/-- Store `n` zero bytes at an address: the loop of rule R151 (`Memory.byte_zero` says what it leaves). -/
def Memory.zero (m : Memory) (a n : Nat) : Memory :=
  m.filter (fun c => decide (c.1 < a)) ++ m.filter (fun c => decide (a + n ≤ c.1))

/-- The `n` bytes from an address on. -/
def Memory.read (m : Memory) (a n : Nat) : List Byte := (List.range n).map fun k => m.byte (a + k)

/-- The value of bytes, least significant first (rule R80). -/
def leValue : List Byte → Nat
  | [] => 0
  | b :: bs => b.toNat + 256 * leValue bs

/-- The `n` low bytes of a value, least significant first (rule R80): `trunc_(8n)(v)`. -/
def leBytes : Nat → Nat → List Byte
  | 0, _ => []
  | n + 1, v => BitVec.ofNat 8 v :: leBytes n (v / 256)

/-- `MemRead(addr, 4)` as a word. -/
def Memory.word (m : Memory) (a : Nat) : Word := BitVec.ofNat 32 (leValue (m.read a 4))

/-- `MemRead(addr, 8)` as a double word. -/
def Memory.dword (m : Memory) (a : Nat) : DWord := BitVec.ofNat 64 (leValue (m.read a 8))

/-- The four bytes of a word. -/
def wordBytes (v : Word) : List Byte := leBytes 4 v.toNat

/-- The eight bytes of a double word. -/
def dwordBytes (v : DWord) : List Byte := leBytes 8 v.toNat

end Sys2Proof.Machine
end

