-- ==== Sys2Proof/Machine/Operands.lean ====
section
/-! DEFINITION. The operands of commands: the addresses of the Control Block's fields (`10_state.md` rule R31), the
latched arguments (rule R48), the instance slots (rule R38), the checks on addresses (`20_memory.md` rules R82 to
R85) and the checks and regions of the FFT commands on memory (`43_fft_commands.md` rules R283, R284). Addresses are
unbounded integers (rule R82). -/

namespace Sys2Proof.Machine

/-! ## The Control Block -/

/-- `st(i)`, the address of `states[i]`. -/
def stateAddr (c : Config) (i : BitVec 1) : Nat := c.cbBase + 0x40 * i.toNat

/-- `wc(i)`, the address of `write_count[i]`. -/
def writeCountAddr (c : Config) (i : BitVec 1) : Nat := c.cbBase + 0x080 + 4 * i.toNat

/-- `rc(i)`, the address of `read_count[i]`. -/
def readCountAddr (c : Config) (i : BitVec 1) : Nat := c.cbBase + 0x088 + 4 * i.toNat

/-- `OVR`, the address of `overrun_count`. -/
def overrunAddr (c : Config) : Nat := c.cbBase + 0x090

/-- `TMO`, the address of `timeout_count`. -/
def timeoutAddr (c : Config) : Nat := c.cbBase + 0x094

/-- The address of `buffer_size`. -/
def bufferSizeAddr (c : Config) : Nat := c.cbBase + 0x098

/-- The address of `timeout_ms`. -/
def timeoutMsAddr (c : Config) : Nat := c.cbBase + 0x09C

/-- `lwt(i)`, the address of `last_write_ts[i]`. -/
def lastWriteAddr (c : Config) (i : BitVec 1) : Nat := c.cbBase + 0x0A0 + 8 * i.toNat

/-- `lrt(i)`, the address of `last_read_ts[i]`. -/
def lastReadAddr (c : Config) (i : BitVec 1) : Nat := c.cbBase + 0x0B0 + 8 * i.toNat

/-- The address of `consumer_ready`. -/
def consumerReadyAddr (c : Config) : Nat := c.cbBase + 0x0C0

/-- `body(i)`, the address of buffer i (rule R10). -/
def bodyAddr (c : Config) (i : BitVec 1) : Nat := c.sharedBase.toNat + i.toNat * c.bufSize.toNat

/-- The Control Block's defined-field range (rule R31). -/
def definedFields (c : Config) : Region := ⟨c.cbBase, 0x0C4⟩

/-- The whole Control Block (rule R31). -/
def controlBlock (c : Config) : Region := ⟨c.cbBase, c.cbSize.toNat⟩

/-- `IDLE` (rule R32). -/
def stIdle : Word := 0
/-- `WRITING` (rule R32). -/
def stWriting : Word := 1
/-- `READY` (rule R32). -/
def stReady : Word := 2
/-- `READING` (rule R32). -/
def stReading : Word := 3

/-! ## Checks on addresses -/

/-- Two regions share a byte (rule R284). -/
def Region.overlaps (r t : Region) : Bool :=
  decide (max r.base t.base < min (r.base + r.len) (t.base + t.len))

/-- The address lies in the region. -/
def Region.has (r : Region) (a : Nat) : Bool := decide (r.base ≤ a) && decide (a < r.base + r.len)

/-- The region is in the shared window (rule R82). -/
def inWindow (c : Config) (r : Region) : Bool :=
  decide (c.sharedBase.toNat ≤ r.base) && decide (r.base + r.len ≤ c.windowEnd)

/-- The address is a multiple of `n` (rule R85). -/
def aligned (n a : Nat) : Bool := decide (a % n = 0)

/-! ## Latched arguments, instance slots and working buffers -/

/-- The in-flight command of the port whose command processor steps (rule R48). -/
def State.latch (s : State) : Latch := (s.port s.active).latch

/-- The clock of the port whose command processor steps, `now(port)` (rule R12). -/
def State.now (s : State) : DWord := (s.port s.active).clock

/-- The instance slot of an index, if there is one (rule R38). -/
def State.inst (s : State) : Nat → Option InstSlot
  | 0 => some s.inst0
  | 1 => some s.inst1
  | 2 => some s.inst2
  | 3 => some s.inst3
  | _ => none

/-- Replace an instance slot; an index without a slot changes nothing. -/
def State.setInst (s : State) (k : Nat) (v : InstSlot) : State :=
  match k with
  | 0 => { s with inst0 := v }
  | 1 => { s with inst1 := v }
  | 2 => { s with inst2 := v }
  | 3 => { s with inst3 := v }
  | _ => s

/-- The FFT engine's working buffer WB: MAX_N Q15 values, unspecified whenever no FFT_TOPBINS body runs (rule R51;
log 4). -/
def State.wb (s : State) : List Int := (List.range Config.maxN).map fun k => (Config.freeWB s.workFree k).toInt

/-- The FFT engine's output buffer OB: 2*MAX_N Q15 values, unspecified whenever no FFT_TOPBINS body runs (rule R51;
log 4). -/
def State.ob (s : State) : List Int := (List.range (2 * Config.maxN)).map fun k => (Config.freeOB s.workFree k).toInt

/-- The id operand of BM_COMMIT, BM_RELEASE and BM_STATE: only 0 and 1 are buffer ids (rule R121). -/
def bufferId (a : Word) : Option (BitVec 1) := if a.toNat ≤ 1 then some (a.extractLsb' 0 1) else none

/-! ## FFT commands on memory -/

/-- What an FFT command on memory reads and what it writes (rule R284). FFT_CFFT, FFT_BITREV and the source of
FFT_RFFT are in place, so their input is written too. -/
structure FftRegions where
  input : Region
  written : List Region
  deriving DecidableEq, Repr

/-- FFT_RFFT's checks (rules R283, R285): slot, instance, null, then alignment, window and overlap. -/
def rfftCheck (s : State) (l : Latch) (slot : Nat) : Except Code FftRegions :=
  match s.inst slot with
  | none => .error .invalid
  | some t =>
    if t.valid = false then .error .init
    else if l.a0 = 0 ∨ l.a1 = 0 then .error .nullPointer
    else
      let src : Region := ⟨l.a0.toNat, 2 * t.n.toNat⟩
      let dst : Region := ⟨l.a1.toNat, 4 * t.n.toNat⟩
      if aligned 4 src.base && aligned 4 dst.base && inWindow s.cfg src && inWindow s.cfg dst && !src.overlaps dst
      then .ok ⟨src, [src, dst]⟩
      else .error .invalid

/-- The checks of FFT_CFFT and FFT_BITREV (rules R283, R287, R289): null, size, then alignment and window. -/
def cfftCheck (s : State) (l : Latch) : Except Code FftRegions :=
  if l.a0 = 0 then .error .nullPointer
  else if Config.cfftSizes.contains l.a1.toNat = false then .error .invalidSize
  else
    let buf : Region := ⟨l.a0.toNat, 4 * l.a1.toNat⟩
    if aligned 4 buf.base && inWindow s.cfg buf then .ok ⟨buf, [buf]⟩ else .error .invalid

/-- FFT_TOPBINS's checks (rules R283, R300): null, sizes, K, then alignment and window. -/
def topbinsCheck (s : State) (l : Latch) (k : Nat) : Except Code FftRegions :=
  if l.a0 = 0 ∨ l.a3 = 0 then .error .nullPointer
  else if Config.rfftSizes.contains l.a2.toNat = false ∨ l.a1 ≠ l.a2 then .error .invalidSize
  else if k < 1 ∨ l.a2.toNat / 2 < k then .error .invalid
  else
    let src : Region := ⟨l.a0.toNat, 2 * l.a2.toNat⟩
    let out : Region := ⟨l.a3.toNat, 2 * k⟩
    if aligned 2 src.base && aligned 2 out.base && inWindow s.cfg src && inWindow s.cfg out then .ok ⟨src, [out]⟩
    else .error .invalid

/-- The checks of an FFT command on memory; none for every other command. -/
def fftCheck (s : State) (l : Latch) : Instr → Option (Except Code FftRegions)
  | .fftRfft slot => some (rfftCheck s l slot)
  | .fftCfft _ _ => some (cfftCheck s l)
  | .fftBitrev => some (cfftCheck s l)
  | .fftTopbins k => some (topbinsCheck s l k)
  | .nop => none
  | .bmInit => none
  | .bmAcqw => none
  | .bmCommit => none
  | .bmAcqr => none
  | .bmRelease => none
  | .bmState => none
  | .bmStats _ => none
  | .ntNotifyC => none
  | .ntNotifyP => none
  | .atLoad => none
  | .atCas => none
  | .atFadd => none
  | .fence => none
  | .fftRinit _ => none

/-- The checks of the FFT command on memory that is in flight on a port, if one is. -/
def State.fftInFlight (s : State) (q : Port) : Option (Except Code FftRegions) :=
  if (s.port q).busy then
    match decodeWord (s.port q).latch.word with
    | .ok i => fftCheck s (s.port q).latch i
    | .error _ => none
  else none

/-- The regions of the FFT command on memory that is in flight on a port, if one is and its checks pass. -/
def State.fftRegions (s : State) (q : Port) : Option FftRegions :=
  match s.fftInFlight q with
  | some (.ok r) => some r
  | _ => none

end Sys2Proof.Machine
end

