-- ==== Sys2Proof/Machine/Ops.lean ====
section
/-! DEFINITION. The named operations that the meanings share: accepting and ending a command, doorbells, memory
accesses with the race of `20_memory.md` rule R97, CAS32, FADD32, the FFT engine, and reset. CORE has no trap
(`60_exceptions.md`): what another hardware does by an exception, CORE does by ending the command with a status code,
which is `State.finish`. -/

namespace Sys2Proof.Machine

/-! ## Updates of one field -/

/-- Replace memory. -/
def State.setMem (s : State) (m : Memory) : State := { s with mem := m }

/-- Set FE_BUSY. -/
def State.setFeBusy (s : State) (b : Bool) : State := { s with feBusy := b }

/-- Set FE_OWNER. -/
def State.setFeOwner (s : State) (p : Port) : State := { s with feOwner := p }

/-- Set LAST_USED. -/
def State.setLastUsed (s : State) (i : BitVec 1) : State := { s with lastUsed := i }

/-- Set CB_VALID. -/
def State.setCbValid (s : State) (b : Bool) : State := { s with cbValid := b }

/-- The working buffers are left unspecified by the step `t` (rule R51; log 4). -/
def State.setWorkFree (s : State) (t : Nat) : State := { s with workFree := t }

/-- The port whose command processor makes this step (log 7). -/
def State.setActive (s : State) (p : Port) : State := { s with active := p }

/-- What the agents will do next (log 6). -/
def State.setSchedule (s : State) (es : List Event) : State := { s with schedule := es }

/-- One more step has been made (log 8). -/
def State.ticked (s : State) : State := { s with tick := s.tick + 1 }

/-! ## Ports -/

/-- Change a port's state. -/
def State.updPort (s : State) (p : Port) (f : PortState → PortState) : State := s.setPort p (f (s.port p))

/-- `status <- CODE`: the active port's command ends (rules R12, R39): CODE is written, BUSY and HOLD are cleared and
the in-flight state is gone (rule R48). -/
def State.finish (s : State) (c : Code) : State :=
  s.updPort s.active fun ps => { ps with code := c, busy := false, hold := false, latch := Latch.idle }

/-- `status <- CODE` of an FFT command: the engine is free in the same step (rule R280). -/
def State.finishFft (s : State) (c : Code) : State := (s.finish c).setFeBusy false

/-- The active port's command waits (rules R40, R152, R280). -/
def State.wait (s : State) : State := s.updPort s.active fun ps => { ps with hold := true }

/-- `raise_doorbell(p)` (rule R46). -/
def State.raiseDoorbell (s : State) (p : Port) : State := s.updPort p fun ps => { ps with db := true }

/-- A full fence (rule R93): CORE's steps are sequentially consistent (rule R90), so it changes nothing. It stands
where the rules place it. -/
def State.fullFence (s : State) : State := s

/-- Write RES0 of the active port. -/
def State.setRes0 (s : State) (v : Word) : State := s.updPort s.active fun ps => { ps with res0 := v }

/-- Write RES1 of the active port. -/
def State.setRes1 (s : State) (v : Word) : State := s.updPort s.active fun ps => { ps with res1 := v }

/-- The handle of buffer i (rule R153). -/
def State.writeHandle (s : State) (i : BitVec 1) : State :=
  s.updPort s.active fun ps =>
    { ps with
      res0 := i.zeroExtend 32
      res1 := BitVec.ofNat 32 (bodyAddr s.cfg i)
      res2 := s.cfg.bufSize
      res3 := BitVec.ofNat 32 (stateAddr s.cfg i) }

/-- A command word reaches an idle port: it is accepted (rule R39) and its arguments are latched (rules R37, R48). -/
def PortState.accept (ps : PortState) (w : Word) : PortState :=
  { ps with
    cmd := w
    busy := true
    hold := false
    latch := ⟨w, ps.arg0, ps.arg1, ps.arg2, ps.arg3, ps.clock, false, []⟩ }

/-- A store to CMD (rule R39): dropped with LOST set while BUSY, else accepted. -/
def PortState.submit (ps : PortState) (w : Word) : PortState :=
  if ps.busy then { ps with lost := true } else ps.accept w

/-! ## Memory accesses and races -/

/-- The two ports. -/
def ports : List Port := [.P, .C]

/-- An agent's read of a region races with an FFT command in flight that writes part of it (rule R97). The agent is
the command of a port, or a CPU (`none`); a command does not race with itself. The source of an FFT_RFFT counts as
written, since the command overwrites it (DEDUCED, log 11; safe). -/
def State.readRaces (s : State) (agent : Option Port) (r : Region) : Bool :=
  ports.any fun q => decide (agent ≠ some q) &&
    match s.fftRegions q with
    | some f => f.written.any fun t => t.overlaps r
    | none => false

/-- The access is recorded with every FFT command on memory in flight that is not the agent's own (rule R97). -/
def State.note (s : State) (agent : Option Port) (t : Touch) : State :=
  ports.foldl (fun s q =>
    if agent ≠ some q ∧ (s.fftInFlight q).isSome then
      s.updPort q fun ps => { ps with latch := { ps.latch with touched := t :: ps.latch.touched } }
    else s) s

/-- The bytes an agent reads at an address: a racing read returns any value (rule R97). -/
def State.peek (s : State) (agent : Option Port) (a n : Nat) : List Byte :=
  if s.readRaces agent ⟨a, n⟩ then (List.range n).map fun k => Config.freeRead s.tick (a + k) else s.mem.read a n

/-- `MemRead(a, 4)` by the active port's command. -/
def State.peek32 (s : State) (a : Nat) : Word := BitVec.ofNat 32 (leValue (s.peek (some s.active) a 4))

/-- `MemRead(a, 8)` by the active port's command. -/
def State.peek64 (s : State) (a : Nat) : DWord := BitVec.ofNat 64 (leValue (s.peek (some s.active) a 8))

/-- The active port's command reads a region: other ports' FFT commands are told. -/
def State.noteRead (s : State) (a n : Nat) : State := s.note (some s.active) ⟨false, ⟨a, n⟩⟩

/-- An agent stores bytes at an address. -/
def State.poke (s : State) (agent : Option Port) (a : Nat) (bs : List Byte) : State :=
  let t := s.note agent ⟨true, ⟨a, bs.length⟩⟩
  t.setMem (t.mem.write a bs)

/-- The active port's command stores bytes. -/
def State.store (s : State) (a : Nat) (bs : List Byte) : State := s.poke (some s.active) a bs

/-- `MemWrite(a, 4, v)`. -/
def State.store32 (s : State) (a : Nat) (v : Word) : State := s.store a (wordBytes v)

/-- `MemWrite(a, 8, v)`. -/
def State.store64 (s : State) (a : Nat) (v : DWord) : State := s.store a (dwordBytes v)

/-- The active port's command zeroes a region (rule R151). -/
def State.storeZero (s : State) (r : Region) : State :=
  let t := s.note (some s.active) ⟨true, r⟩
  t.setMem (t.mem.zero r.base r.len)

/-- `CAS32(a, e, n)` (rule R94); the old value it returns is `s.peek32 a`. -/
def State.cas32 (s : State) (a : Nat) (e n : Word) : State :=
  let t := s.noteRead a 4
  if s.peek32 a = e then t.store32 a n else t

/-- `FADD32(a, d)` (rule R95); the old value it returns is `s.peek32 a`. -/
def State.fadd32 (s : State) (a : Nat) (d : Word) : State := (s.noteRead a 4).store32 a (s.peek32 a + d)

/-! ## The FFT engine -/

/-- Take the engine (rule R280). -/
def State.takeEngine (s : State) : State :=
  ((s.updPort s.active fun ps => { ps with hold := false }).setFeBusy true).setFeOwner s.active

/-- An FFT command on memory (rule R280): while the other port's command has the engine it waits; else it takes the
engine, in a step of its own; a command that has the engine makes its checks and its body (log 10). -/
def State.withEngine (s : State) (body : State → State) : State :=
  if s.feBusy then if s.feOwner = s.active then body s else s.wait else s.takeEngine

/-- `Rd16(a)` by the active port's command (rules R12, R86): one read of 16 bits, which races by itself (rule R97). -/
def State.peek16 (s : State) (a : Nat) : Int := (BitVec.ofNat 16 (leValue (s.peek (some s.active) a 2))).toInt

/-- The `n` Q15 values an FFT command reads from an address on. -/
def State.loadHalves (s : State) (a n : Nat) : List Int := (List.range n).map fun k => s.peek16 (a + 2 * k)

/-- Q15 values as bytes of memory, `Wr16` (rule R12). -/
def bytesOfHalves (vs : List Int) : List Byte :=
  vs.flatMap fun v => leBytes 2 (BitVec.ofInt 16 v).toNat

/-- Halfwords as complex samples, real first (rule R13). -/
def samplesOfHalves : List Int → List Sample
  | re :: im :: vs => (re, im) :: samplesOfHalves vs
  | _ => []

/-- Complex samples as halfwords (rule R13). -/
def halvesOfSamples (x : List Sample) : List Int := x.flatMap fun z => [z.1, z.2]

/-- The complex samples an FFT command reads from its input region. -/
def State.loadSamples (s : State) (r : Region) : List Sample :=
  samplesOfHalves (s.loadHalves r.base (r.len / 2))

/-- A working buffer after values are stored from its first element on (rule R300, steps 1 and 2). -/
def overwrite (buffer vs : List Int) : List Int := vs ++ buffer.drop vs.length

/-- The bytes of complex samples. -/
def bytesOfSamples (x : List Sample) : List Byte := bytesOfHalves (halvesOfSamples x)

/-- Some other agent wrote a byte of the command's input, or of what it writes, or read a byte of what it writes,
while the command was BUSY (rule R97). -/
def State.raced (s : State) (f : FftRegions) : Bool :=
  s.latch.touched.any fun t =>
    (t.write && t.region.overlaps f.input) || f.written.any fun r => t.region.overlaps r

/-- Some other agent wrote a byte of the command's input while it was BUSY. -/
def State.inputRaced (s : State) (f : FftRegions) : Bool :=
  s.latch.touched.any fun t => t.write && t.region.overlaps f.input

/-- The free bytes a race or a reset leaves in a region (rules R97, R370). -/
def freeBytes (t : Nat) (r : Region) : List Byte := (List.range r.len).map fun k => Config.freeStored t (r.base + k)

/-- What an FFT command stores when its body ends: its results, or, in a race, any value in every byte of every region
it writes (rule R97). -/
def State.fftStore (s : State) (f : FftRegions) (results : List (Nat × List Byte)) : State :=
  let t := s.noteRead f.input.base f.input.len
  if s.raced f then f.written.foldl (fun u r => u.store r.base (freeBytes s.tick r)) t
  else results.foldl (fun u w => u.store w.1 w.2) t

/-! ## Reset -/

/-- An FFT command that reset abandons leaves every byte it writes at any value (rule R370; log 13). -/
def abandonFft (t : Nat) (f : Option FftRegions) (m : Memory) : Memory :=
  match f with
  | some f => f.written.foldl (fun m r => m.write r.base (freeBytes t r)) m
  | none => m

/-- The reset input is asserted (rules R370 to R372): CORE's own state takes its reset values, in-flight commands are
abandoned; memory, clocks, parameters and what is not CORE stay. -/
def State.assertReset (s : State) : State :=
  { s with
    portP := PortState.reset s.portP.clock
    portC := PortState.reset s.portC.clock
    lastUsed := 1
    cbValid := false
    feBusy := false
    feOwner := .P
    inst0 := InstSlot.reset
    inst1 := InstSlot.reset
    inst2 := InstSlot.reset
    inst3 := InstSlot.reset
    workFree := s.tick
    mem := abandonFft s.tick (s.fftRegions .C) (abandonFft s.tick (s.fftRegions .P) s.mem)
    inReset := true }

end Sys2Proof.Machine
end

