-- ==== Sys2Proof/Machine/Registers.lean ====
section
/-! DEFINITION. The register window (`10_state.md` rules R35 to R41, R54): what a load of a register returns and what
a store does. Offsets are byte offsets, multiples of 4, from the start of a port window or of the global window. -/

namespace Sys2Proof.Machine

/-- A register of a port window (rule R36). Reserved offsets read 0 (rule R54). -/
def PortState.readReg (ps : PortState) : Nat → Word
  | 0x00 => ps.cmd
  | 0x04 => ps.statusWord
  | 0x08 => ps.arg0
  | 0x0C => ps.arg1
  | 0x10 => ps.arg2
  | 0x14 => ps.arg3
  | 0x18 => ps.res0
  | 0x1C => ps.res1
  | 0x20 => ps.res2
  | 0x24 => ps.res3
  | 0x28 => ps.dbStatusWord
  | 0x2C => ps.dbEnableWord
  | 0x30 => ps.clock.extractLsb' 0 32
  | 0x34 => ps.timeHi
  | _ => 0

/-- A 32-bit store to a register of a port window (rules R36 to R40, R46, R47). Read-only and reserved offsets
ignore it (rule R54). -/
def PortState.writeReg (ps : PortState) (v : Word) : Nat → PortState
  | 0x00 => ps.submit v
  | 0x04 => if v.getLsbD 29 then { ps with lost := false } else ps
  | 0x08 => { ps with arg0 := v }
  | 0x0C => { ps with arg1 := v }
  | 0x10 => { ps with arg2 := v }
  | 0x14 => { ps with arg3 := v }
  | 0x28 => if v.getLsbD 0 then { ps with db := false } else ps
  | 0x2C => { ps with ie := v.getLsbD 0 }
  | _ => ps

/-- The side effect of a 32-bit load (rules R36, R87): TIME_LO copies the clock's high half to the TIME_HI shadow. -/
def PortState.afterRead (ps : PortState) (o : Nat) : PortState :=
  if o = 0x30 then { ps with timeHi := ps.clock.extractLsb' 32 32 } else ps

/-- A register of an instance slot (rule R41), by its offset from the slot's first. -/
def InstSlot.readReg (t : InstSlot) : Nat → Word
  | 0x0 => t.nWord
  | 0x4 => t.ctrlWord
  | 0x8 => t.rmod
  | 0xC => t.m
  | _ => 0

/-- A register of the global window (rules R41, R49, R50). -/
def State.readGlobal (s : State) (o : Nat) : Word :=
  match o with
  | 0x00 => 0x434F5245
  | 0x04 => s.cfg.bufSize
  | 0x08 => s.cfg.cbSize
  | 0x0C => s.cfg.sharedBase
  | 0x10 => s.bmStatusWord
  | 0x14 => s.feStatusWord
  | _ =>
    if 0x20 ≤ o ∧ o < 0x60 then
      match s.inst ((o - 0x20) / 0x10) with
      | some t => t.readReg ((o - 0x20) % 0x10)
      | none => 0
    else 0

/-- The register at an offset of the whole register window (rule R35): port P at 0x000, port C at 0x100, the global
window at 0x200. -/
def State.readReg (s : State) (o : Nat) : Word :=
  if o < 0x100 then s.portP.readReg o
  else if o < 0x200 then s.portC.readReg (o - 0x100)
  else s.readGlobal (o - 0x200)

/-- A 32-bit store to the register at an offset of the register window; the global window ignores stores (rule R41). -/
def State.writeReg (s : State) (o : Nat) (v : Word) : State :=
  if o < 0x100 then s.setPort .P (s.portP.writeReg v o)
  else if o < 0x200 then s.setPort .C (s.portC.writeReg v (o - 0x100))
  else s

/-- The side effect of a 32-bit load from the register window. -/
def State.afterReadReg (s : State) (o : Nat) : State :=
  if o < 0x100 then s.setPort .P (s.portP.afterRead o)
  else if o < 0x200 then s.setPort .C (s.portC.afterRead (o - 0x100))
  else s

end Sys2Proof.Machine
end

