-- ==== Sys2Proof/Machine/Agents.lean ====
section
/-! DEFINITION. What the CPUs and the platform do to CORE (`00_scope.md` rule R7): loads and stores of the register
window and of the shared window, the clocks and the reset input. -/

namespace Sys2Proof.Machine

/-- The bytes of a CPU access. -/
def Width.bytes : Width → Nat
  | .byte => 1
  | .half => 2
  | .word => 4

/-- Where a CPU access goes (rules R54, R81, R88). -/
inductive Target where
  /-- The register window, at this offset. -/
  | register (offset : Nat)
  /-- The shared window. -/
  | shared
  /-- Neither: outside CORE. -/
  | outside
  deriving DecidableEq, Repr

/-- The target of an access of `n` bytes at an address. One that starts in a window and leaves it is outside CORE
(rule R54: what follows the register window is; log 15). -/
def target (c : Config) (a n : Nat) : Target :=
  if c.coreBase.toNat ≤ a ∧ a < c.coreBase.toNat + Config.registerWindowSize then
    if a + n ≤ c.coreBase.toNat + Config.registerWindowSize then .register (a - c.coreBase.toNat) else .outside
  else if inWindow c ⟨a, n⟩ then .shared
  else .outside

/-- What a CPU's load returned is held for it (log 20). -/
def State.returnToCpu (s : State) (cpu : Port) (v : Word) : State :=
  match cpu with
  | .P => { s with cpuP := v }
  | .C => { s with cpuC := v }

/-- The byte at an offset of the register window, of the 32-bit register that holds it (rules R54, R80). -/
def State.registerByte (s : State) (o : Nat) : Byte := (s.readReg (o - o % 4)).extractLsb' (8 * (o % 4)) 8

/-- What a narrow load of the register window returns: the addressed bytes, each of its register (rule R54). -/
def State.registerBytes (s : State) (o n : Nat) : Word :=
  BitVec.ofNat 32 (leValue ((List.range n).map fun k => s.registerByte (o + k)))

/-- What a register load of `n` bytes returns while reset is asserted: any value (log 14). -/
def State.loadInReset (s : State) (n : Nat) : Word := BitVec.ofNat 32 ((Config.freeWord s.tick).toNat % 256 ^ n)

/-- A load from the register window (rules R54, R87): one of 8 or 16 bits has no side effect; a 32-bit one is defined
where it is aligned. -/
def loadRegister (cpu : Port) (w : Width) (o : Nat) (s : State) : Host.Outcome State Fault Refusal :=
  if w = .word ∧ o % 4 ≠ 0 then .fault .registerMisaligned
  else if s.inReset then .next (s.returnToCpu cpu (s.loadInReset w.bytes))
  else if w = .word then .next ((s.afterReadReg o).returnToCpu cpu (s.readReg o))
  else .next (s.returnToCpu cpu (s.registerBytes o w.bytes))

/-- A store to the register window (rule R54): one of 8 or 16 bits is ignored, an aligned one of 32 bits is performed.
While reset is asserted CORE accepts nothing (rule R370; log 14). -/
def storeRegister (w : Width) (o : Nat) (v : Word) (s : State) : Host.Outcome State Fault Refusal :=
  if w ≠ .word then .next s
  else if o % 4 ≠ 0 then .fault .registerMisaligned
  else if s.inReset then .next s
  else .next (s.writeReg o v)

/-- A CPU's plain load from the shared window (rules R81, R97). -/
def loadShared (cpu : Port) (w : Width) (a : Nat) (s : State) : State :=
  (s.note none ⟨false, ⟨a, w.bytes⟩⟩).returnToCpu cpu (BitVec.ofNat 32 (leValue (s.peek none a w.bytes)))

/-- A CPU's plain store to the shared window (rules R81, R97, R375). -/
def storeShared (w : Width) (a : Nat) (v : Word) (s : State) : State := s.poke none a (leBytes w.bytes v.toNat)

/-- A CPU loads from an address. -/
def cpuLoad (cpu : Port) (w : Width) (addr : Word) (s : State) : Host.Outcome State Fault Refusal :=
  match target s.cfg addr.toNat w.bytes with
  | .register o => loadRegister cpu w o s
  | .shared => .next (loadShared cpu w addr.toNat s)
  | .outside => .refused .outsideCore

/-- A CPU stores to an address. Which CPU it is makes no difference (rule R340). -/
def cpuStore (w : Width) (addr v : Word) (s : State) : Host.Outcome State Fault Refusal :=
  match target s.cfg addr.toNat w.bytes with
  | .register o => storeRegister w o v s
  | .shared => .next (storeShared w addr.toNat v s)
  | .outside => .refused .outsideCore

/-- The platform advances a port's clock, with wrap-around (rule R45). -/
def State.advanceClock (s : State) (p : Port) (ms : DWord) : State :=
  s.updPort p fun ps => { ps with clock := ps.clock + ms }

/-- The reset input is released (rule R370): CORE already holds its reset values. -/
def State.releaseReset (s : State) : State := { s with inReset := false }

end Sys2Proof.Machine
end

