-- ==== Sys2Proof/Machine/BufferManager.lean ====
section
/-! DEFINITION. The buffer-manager commands (`40_buffer_manager.md`). Each execution of an acquire is one attempt
(rule R152). -/

namespace Sys2Proof.Machine

/-- The checks common to BM commands other than BM_INIT (rule R150): CB_VALID, then the port. -/
def State.bmCheck (s : State) (role : Option Port) : Option Code :=
  if s.cbValid = false then some .init
  else
    match role with
    | some p => if s.active = p then none else some .wrongState
    | none => none

/-- What BM_INIT writes (rule R151). -/
def State.initControlBlock (s : State) : State :=
  let z := s.storeZero (controlBlock s.cfg)
  let i := (z.store32 (stateAddr s.cfg 0) stIdle).store32 (stateAddr s.cfg 1) stIdle
  let b := (i.store32 (bufferSizeAddr s.cfg) s.cfg.bufSize).store32 (timeoutMsAddr s.cfg) s.cfg.timeoutMs
  (b.store32 (consumerReadyAddr s.cfg) 1).setCbValid true

/-- BM_INIT (rules R150, R151). -/
def execBmInit (s : State) : Host.Outcome State Fault Refusal :=
  if s.active = .C then .next (s.initControlBlock.fullFence.finish .ok) else .next (s.finish .wrongState)

/-- The scan of both state words (rules R155, R160). -/
def State.noteScan (s : State) : State := (s.noteRead (stateAddr s.cfg 0) 4).noteRead (stateAddr s.cfg 1) 4

/-- The timeout has elapsed (rules R155, R157, R160): `trunc_64(now - t0) >= a0`. -/
def State.timedOut (s : State) : Bool := decide (s.latch.a0.toNat ≤ (s.now - s.latch.t0).toNat)

/-- The end of an attempt that found no buffer: TIMEOUT, counted once, or a wait (rules R155, R157, R160). -/
def State.timeoutOrWait (s : State) (elapsed : Bool) : State :=
  if elapsed then (s.fadd32 (timeoutAddr s.cfg) 1).finish .timeout else s.wait

/-- A successful acquire: the state word changes hands and the handle is written (rules R153, R155, R160). -/
def State.grant (s : State) (i : BitVec 1) (free taken : Word) : State :=
  ((s.cas32 (stateAddr s.cfg i) free taken).writeHandle i).finish .ok

/-- A successful BM_ACQW attempt on buffer i also moves the round-robin pointer (rule R155). -/
def State.grantWrite (s : State) (i : BitVec 1) : State := (s.grant i stIdle stWriting).setLastUsed i

/-- The overrun is counted in the first attempt that finds both buffers busy, and in no other (rule R156). -/
def State.countOverrun (s : State) : State :=
  if s.latch.counted then s
  else (s.fadd32 (overrunAddr s.cfg) 1).updPort s.active fun ps =>
    { ps with latch := { ps.latch with counted := true } }

/-- One BM_ACQW attempt (rule R155). -/
def State.acqwAttempt (s : State) : State :=
  let first := s.lastUsed + 1
  let second := s.lastUsed
  if s.peek32 (stateAddr s.cfg first) = stIdle then s.noteScan.grantWrite first
  else if s.peek32 (stateAddr s.cfg second) = stIdle then s.noteScan.grantWrite second
  else s.noteScan.countOverrun.timeoutOrWait s.timedOut

/-- BM_ACQW (rules R150, R154). -/
def execBmAcqw (s : State) : Host.Outcome State Fault Refusal :=
  match s.bmCheck (some .P) with
  | some c => .next (s.finish c)
  | none => .next s.acqwAttempt

/-- The hand-off of BM_COMMIT and BM_RELEASE (rules R159, R163): on the expected state word, the new one, the counter,
the timestamp, a fence and the peer's doorbell in one step; else WRONG_STATE. -/
def State.handOff (s : State) (stAddr counter stamp : Nat) (held given : Word) (peer : Port) : State :=
  if s.peek32 stAddr = held then
    ((((s.cas32 stAddr held given).fadd32 counter 1).store64 stamp s.now).fullFence.raiseDoorbell peer).finish .ok
  else (s.noteRead stAddr 4).finish .wrongState

/-- BM_COMMIT (rules R150, R159). -/
def execBmCommit (s : State) : Host.Outcome State Fault Refusal :=
  match s.bmCheck (some .P) with
  | some c => .next (s.finish c)
  | none =>
    match bufferId s.latch.a0 with
    | none => .next (s.finish .invalid)
    | some i =>
      .next (s.handOff (stateAddr s.cfg i) (writeCountAddr s.cfg i) (lastWriteAddr s.cfg i) stWriting stReady .C)

/-- The buffer BM_ACQR takes (rules R160, R161): the READY one with the smaller `last_write_ts`, id 0 on a tie. -/
def State.readyBuffer (s : State) : Option (BitVec 1) :=
  let ready0 := s.peek32 (stateAddr s.cfg 0) == stReady
  let ready1 := s.peek32 (stateAddr s.cfg 1) == stReady
  let older1 := decide ((s.peek64 (lastWriteAddr s.cfg 1)).toNat < (s.peek64 (lastWriteAddr s.cfg 0)).toNat)
  match ready0, ready1 with
  | false, false => none
  | true, false => some 0
  | false, true => some 1
  | true, true => if older1 then some 1 else some 0

/-- The timestamps BM_ACQR reads, those of the READY buffers (rule R160). -/
def State.noteStamps (s : State) : State :=
  let n0 := if s.peek32 (stateAddr s.cfg 0) = stReady then s.noteRead (lastWriteAddr s.cfg 0) 8 else s
  if s.peek32 (stateAddr s.cfg 1) = stReady then n0.noteRead (lastWriteAddr s.cfg 1) 8 else n0

/-- One BM_ACQR attempt (rule R160). -/
def State.acqrAttempt (s : State) : State :=
  match s.readyBuffer with
  | some i => s.noteStamps.noteScan.grant i stReady stReading
  | none => s.noteScan.timeoutOrWait s.timedOut

/-- BM_ACQR (rules R150, R160). -/
def execBmAcqr (s : State) : Host.Outcome State Fault Refusal :=
  match s.bmCheck (some .C) with
  | some c => .next (s.finish c)
  | none => .next s.acqrAttempt

/-- BM_RELEASE (rules R150, R163). -/
def execBmRelease (s : State) : Host.Outcome State Fault Refusal :=
  match s.bmCheck (some .C) with
  | some c => .next (s.finish c)
  | none =>
    match bufferId s.latch.a0 with
    | none => .next (s.finish .invalid)
    | some i =>
      .next (s.handOff (stateAddr s.cfg i) (readCountAddr s.cfg i) (lastReadAddr s.cfg i) stReading stIdle .P)

/-- BM_STATE (rules R150, R164). -/
def execBmState (s : State) : Host.Outcome State Fault Refusal :=
  match s.bmCheck none with
  | some c => .next (s.finish c)
  | none =>
    match bufferId s.latch.a0 with
    | none => .next (s.finish .invalid)
    | some i =>
      let a := stateAddr s.cfg i
      .next (((s.noteRead a 4).setRes0 (s.peek32 a)).finish .ok)

/-- A BM_STATS selector that reads a u32 field: its value to RES0 (rule R165). -/
def State.stat32 (s : State) (a : Nat) : State := ((s.noteRead a 4).setRes0 (s.peek32 a)).finish .ok

/-- A BM_STATS selector that reads a u64 field: bits 31:0 to RES0, bits 63:32 to RES1 (rule R165). -/
def State.stat64 (s : State) (a : Nat) : State :=
  let v := s.peek64 a
  (((s.noteRead a 8).setRes0 (v.extractLsb' 0 32)).setRes1 (v.extractLsb' 32 32)).finish .ok

/-- The fields of a snapshot (rule R165), selectors 0 to 9: address and bytes. -/
def snapshotFields (c : Config) : List (Nat × Nat) :=
  [(writeCountAddr c 0, 4), (writeCountAddr c 1, 4), (readCountAddr c 0, 4), (readCountAddr c 1, 4),
   (overrunAddr c, 4), (timeoutAddr c, 4),
   (lastWriteAddr c 0, 8), (lastWriteAddr c 1, 8), (lastReadAddr c 0, 8), (lastReadAddr c 1, 8)]

/-- The 56 bytes of a snapshot (rule R165): the six counters, then the four timestamps. -/
def State.snapshotBytes (s : State) : List Byte :=
  (snapshotFields s.cfg).flatMap fun f => s.peek (some s.active) f.1 f.2

/-- The refusals of selector 13 (rule R165). -/
def snapshotRefused (c : Config) (a : Nat) : Bool :=
  let r : Region := ⟨a, 56⟩
  decide (a = 0) || !aligned 8 a || !inWindow c r || r.overlaps (definedFields c)

/-- BM_STATS selector 13 (rule R165): a snapshot to memory. -/
def State.snapshot (s : State) : State :=
  let a := s.latch.a0.toNat
  if snapshotRefused s.cfg a then s.finish .invalid
  else
    let t := (snapshotFields s.cfg).foldl (fun u f => u.noteRead f.1 f.2) s
    (t.store a s.snapshotBytes).finish .ok

/-- BM_STATS by selector (rule R165). -/
def State.stats (s : State) : Nat → State
  | 0 => s.stat32 (writeCountAddr s.cfg 0)
  | 1 => s.stat32 (writeCountAddr s.cfg 1)
  | 2 => s.stat32 (readCountAddr s.cfg 0)
  | 3 => s.stat32 (readCountAddr s.cfg 1)
  | 4 => s.stat32 (overrunAddr s.cfg)
  | 5 => s.stat32 (timeoutAddr s.cfg)
  | 6 => s.stat64 (lastWriteAddr s.cfg 0)
  | 7 => s.stat64 (lastWriteAddr s.cfg 1)
  | 8 => s.stat64 (lastReadAddr s.cfg 0)
  | 9 => s.stat64 (lastReadAddr s.cfg 1)
  | 10 => s.stat32 (bufferSizeAddr s.cfg)
  | 11 => s.stat32 (timeoutMsAddr s.cfg)
  | 12 => s.stat32 (consumerReadyAddr s.cfg)
  | 13 => s.snapshot
  | _ => s.finish .invalid

/-- BM_STATS (rules R150, R165). -/
def execBmStats (selector : Nat) (s : State) : Host.Outcome State Fault Refusal :=
  match s.bmCheck none with
  | some c => .next (s.finish c)
  | none => .next (s.stats selector)

end Sys2Proof.Machine
end

