-- ==== Sys2Proof/Machine/FftCommands.lean ====
section
/-! DEFINITION. The FFT commands (`43_fft_commands.md`). A command on memory runs in two steps: it takes the engine,
then it makes its checks, runs its body and ends (rules R280, R283; log 10). -/

namespace Sys2Proof.Machine

/-- The slot FFT_RINIT writes for a real length N (rule R281). -/
def initialisedSlot (n : Word) : InstSlot where
  valid := true
  n := n
  ifft := false
  bitrev := true
  rmod := BitVec.ofNat 32 (Config.maxN / n.toNat)
  m := BitVec.ofNat 32 (n.toNat / 2)

/-- FFT_RINIT's checks and effect (rules R281, R282). -/
def State.rinit (s : State) (slot : Nat) : State :=
  if Config.numInst ≤ slot then s.finishFft .invalid
  else if Config.rfftSizes.contains s.latch.a0.toNat = false then s.finishFft .invalidSize
  else (s.setInst slot (initialisedSlot s.latch.a0)).finishFft .ok

/-- FFT_RINIT (rules R280 to R282): it takes and leaves the engine in its one step (rule R343), or waits for it. -/
def execFftRinit (slot : Nat) (s : State) : Host.Outcome State Fault Refusal :=
  if s.feBusy ∧ s.feOwner ≠ s.active then .next s.wait else .next (s.takeEngine.rinit slot)

/-- FFT_RFFT's body (rule R285): the source becomes the CFFT's output, the destination the N bins. -/
def State.rfftBody (s : State) (slot : Nat) (f : FftRegions) : State :=
  let n := ((s.inst slot).getD InstSlot.reset).n.toNat
  let out := realFft s.cfg.variant n (s.loadSamples f.input)
  (s.fftStore f [(s.latch.a0.toNat, bytesOfSamples out.1), (s.latch.a1.toNat, bytesOfSamples out.2)]).finishFft .ok

/-- FFT_RFFT (rules R280, R283, R285). -/
def execFftRfft (slot : Nat) (s : State) : Host.Outcome State Fault Refusal :=
  .next (s.withEngine fun s =>
    match rfftCheck s s.latch slot with
    | .error c => s.finishFft c
    | .ok f => s.rfftBody slot f)

/-- The body of an in-place command: the buffer's samples through a function (rules R287, R289). -/
def State.inPlaceBody (s : State) (f : FftRegions) (transform : List Sample → List Sample) : State :=
  (s.fftStore f [(s.latch.a0.toNat, bytesOfSamples (transform (s.loadSamples f.input)))]).finishFft .ok

/-- FFT_CFFT (rules R280, R283, R287). -/
def execFftCfft (inv br : Bool) (s : State) : Host.Outcome State Fault Refusal :=
  .next (s.withEngine fun s =>
    match cfftCheck s s.latch with
    | .error c => s.finishFft c
    | .ok f => s.inPlaceBody f (cfft s.cfg.variant s.latch.a1.toNat inv br))

/-- FFT_BITREV (rules R280, R283, R289). -/
def execFftBitrev (s : State) : Host.Outcome State Fault Refusal :=
  .next (s.withEngine fun s =>
    match cfftCheck s s.latch with
    | .error c => s.finishFft c
    | .ok f => s.inPlaceBody f (bitReverse s.latch.a1.toNat))

/-- The bins of FFT_TOPBINS (rule R300, steps 1 and 2): the source is copied to WB, its first N values are transformed,
and the N bins are stored in OB, which is what the selection reads. -/
def State.topbinsSpectrum (s : State) (n src : Nat) : List Sample :=
  let wb := overwrite s.wb (s.loadHalves src n)
  let z := cfft s.cfg.variant (n / 2) false true (samplesOfHalves (wb.take n))
  samplesOfHalves (overwrite s.ob (halvesOfSamples (split n z)))

/-- FFT_TOPBINS's body (rules R300, R301): K indices to `out`, the largest kept magnitude to RES0. If another agent
wrote the source meanwhile, the magnitude is open (log 11). WB and OB are left unspecified (rule R51). -/
def State.topbinsBody (s : State) (k : Nat) (f : FftRegions) : State :=
  let n := s.latch.a2.toNat
  let kept := topBins n k (s.topbinsSpectrum n f.input.base)
  let largest := BitVec.ofNat 32 ((kept.head?.map TopBin.mag).getD 0)
  let t := s.fftStore f [(s.latch.a3.toNat, kept.flatMap fun r => leBytes 2 r.index)]
  let t := t.setRes0 (if s.inputRaced f then Config.freeWord s.tick else largest)
  (t.finishFft .ok).setWorkFree s.tick

/-- FFT_TOPBINS (rules R280, R283, R300). -/
def execFftTopbins (k : Nat) (s : State) : Host.Outcome State Fault Refusal :=
  .next (s.withEngine fun s =>
    match topbinsCheck s s.latch k with
    | .error c => s.finishFft c
    | .ok f => s.topbinsBody k f)

end Sys2Proof.Machine
end

