-- ==== Sys2Proof/Machine/NotifierAtomics.lean ====
section
/-! DEFINITION. NOP, the notifier commands, the atomic commands and FENCE (`41_notifier_atomics.md`). -/

namespace Sys2Proof.Machine

/-- NOP (rule R200). -/
def execNop (s : State) : Host.Outcome State Fault Refusal := .next (s.finish .ok)

/-- NT_NOTIFY_C (rules R201, R202). -/
def execNtNotifyC (s : State) : Host.Outcome State Fault Refusal :=
  .next ((s.fullFence.raiseDoorbell .C).finish .ok)

/-- NT_NOTIFY_P (rules R201, R203). -/
def execNtNotifyP (s : State) : Host.Outcome State Fault Refusal :=
  .next ((s.fullFence.raiseDoorbell .P).finish .ok)

/-- The checks common to the AT commands (rule R207; `20_memory.md` rules R82 to R85): not null, aligned, in window,
and, for a command that may write, not in the protected range. -/
def atomicRefused (c : Config) (writes : Bool) (a : Nat) : Bool :=
  let r : Region := ⟨a, 4⟩
  decide (a = 0) || !aligned 4 a || !inWindow c r || (writes && r.overlaps (definedFields c))

/-- AT_LOAD (rules R207, R208). -/
def execAtLoad (s : State) : Host.Outcome State Fault Refusal :=
  let a := s.latch.a0.toNat
  if atomicRefused s.cfg false a then .next (s.finish .invalid)
  else .next (((s.noteRead a 4).setRes0 (s.peek32 a)).finish .ok)

/-- AT_CAS (rules R207, R209). -/
def execAtCas (s : State) : Host.Outcome State Fault Refusal :=
  let a := s.latch.a0.toNat
  if atomicRefused s.cfg true a then .next (s.finish .invalid)
  else
    let old := s.peek32 a
    let swapped := s.cas32 a s.latch.a1 s.latch.a2
    .next (((swapped.setRes0 old).setRes1 (if old = s.latch.a1 then 1 else 0)).finish .ok)

/-- AT_FADD (rules R207, R210). -/
def execAtFadd (s : State) : Host.Outcome State Fault Refusal :=
  let a := s.latch.a0.toNat
  if atomicRefused s.cfg true a then .next (s.finish .invalid)
  else .next (((s.fadd32 a s.latch.a1).setRes0 (s.peek32 a)).finish .ok)

/-- FENCE (rule R212). -/
def execFence (s : State) : Host.Outcome State Fault Refusal := .next (s.fullFence.finish .ok)

end Sys2Proof.Machine
end

