-- ==== Sys2Proof/Machine/Dispatch.lean ====
section
/-! DEFINITION. The dispatch of a command to its meaning. The port whose command it is is `s.active`. -/

namespace Sys2Proof.Machine

/-- One step of a command of the port `s.active`. -/
def exec (i : Instr) (s : State) : Host.Outcome State Fault Refusal :=
  match i with
  | .nop => Sys2Proof.Machine.execNop s
  | .bmInit => Sys2Proof.Machine.execBmInit s
  | .bmAcqw => Sys2Proof.Machine.execBmAcqw s
  | .bmCommit => Sys2Proof.Machine.execBmCommit s
  | .bmAcqr => Sys2Proof.Machine.execBmAcqr s
  | .bmRelease => Sys2Proof.Machine.execBmRelease s
  | .bmState => Sys2Proof.Machine.execBmState s
  | .bmStats selector => Sys2Proof.Machine.execBmStats selector s
  | .ntNotifyC => Sys2Proof.Machine.execNtNotifyC s
  | .ntNotifyP => Sys2Proof.Machine.execNtNotifyP s
  | .atLoad => Sys2Proof.Machine.execAtLoad s
  | .atCas => Sys2Proof.Machine.execAtCas s
  | .atFadd => Sys2Proof.Machine.execAtFadd s
  | .fence => Sys2Proof.Machine.execFence s
  | .fftRinit slot => Sys2Proof.Machine.execFftRinit slot s
  | .fftRfft slot => Sys2Proof.Machine.execFftRfft slot s
  | .fftCfft inv br => Sys2Proof.Machine.execFftCfft inv br s
  | .fftBitrev => Sys2Proof.Machine.execFftBitrev s
  | .fftTopbins k => Sys2Proof.Machine.execFftTopbins k s

end Sys2Proof.Machine
end

