-- ==== Sys2Proof/Machine/Processor.lean ====
section
/-! DEFINITION. The command processors (`00_scope.md` rule R7) and the order in which agents move (rules R8, R343;
log 6). -/

namespace Sys2Proof.Machine

/-- One step of a port's command processor: nothing while reset is asserted (rule R370) or no command is in flight;
ILLEGAL for a word that is no command (rule R127); else one step of the command. -/
def runCommand (p : Port) (s : State) : Host.Outcome State Fault Refusal :=
  if s.inReset = true ∨ (s.port p).busy = false then .next s
  else
    match decodeWord (s.port p).latch.word with
    | .ok i => exec i (s.setActive p)
    | .error _ => .next ((s.setActive p).finish .illegal)

/-- An event happens. -/
def perform (e : Event) (s : State) : Host.Outcome State Fault Refusal :=
  match e with
  | .command p => runCommand p s
  | .cpuLoad cpu w addr => cpuLoad cpu w addr s
  | .cpuStore _ w addr v => cpuStore w addr v s
  | .clock p ms => .next (s.advanceClock p ms)
  | .resetAssert => .next s.assertReset
  | .resetRelease => .next s.releaseReset

/-- Which command processor moves when the schedule says nothing: the one with a command in flight; of two, either
(rules R8, R44; log 6). -/
def State.dueEvent (s : State) : Option Event :=
  match s.portP.busy, s.portC.busy with
  | false, false => none
  | true, false => some (.command .P)
  | false, true => some (.command .C)
  | true, true => some (.command (Config.freePort s.tick))

/-- One more step has been made. -/
def countStep : Host.Outcome State Fault Refusal → Host.Outcome State Fault Refusal
  | .next s => .next s.ticked
  | .fault r => .fault r
  | .refused r => .refused r

/-- The next move of the machine: the first event of the schedule; with none, the command processor that is due; with
none due, nothing happens (rule R53). -/
def nextMove (s : State) : Host.Outcome State Fault Refusal :=
  match s.schedule with
  | e :: rest => countStep (perform e (s.setSchedule rest))
  | [] =>
    match s.dueEvent with
    | some e => countStep (perform e s)
    | none => countStep (.next s)

/-- Port P's CPU has just had a command word accepted (rule R39), and port P's command processor moves next. -/
def State.acceptNext (s : State) (w : Word) : State :=
  { s with portP := s.portP.accept w, inReset := false, schedule := .command .P :: s.schedule }

end Sys2Proof.Machine
end

