-- ==== Sys2Proof/Machine/Step.lean ====
section
/-! DEFINITION. One step of the machine, and placing a command where the next step runs it. -/

namespace Sys2Proof.Machine

/-- One step of one agent (`00_scope.md` rules R7, R8). -/
def step (s : State) : Host.Outcome State Fault Refusal := nextMove s

/-- The command word of `nbits` bits accepted on port P, so that the next step runs it: CORE fetches nothing (rules
R3, R53), its next command is what a CPU stores to CMD (log 9). -/
def State.withFetchWord (s : State) (nbits w : Nat) : State := s.acceptNext (BitVec.ofNat 32 (w % 2 ^ nbits))

end Sys2Proof.Machine
end

