-- ==== Sys2Proof/Safety.lean ====
section
/-! DEFINITION. The terms that claims use: the Control Block's fields and Q15 arrays as read from memory, what a
command's end and its frame are, the invariants of the machine, and what a step without a stop is. No operation of the
machine reads anything of this file. -/

namespace Sys2Proof.Machine

/-! ## Fields of the Control Block and arrays, read from memory

The offsets are those of the table of `10_state.md` rule R31, written out. -/

/-- `states[i]`. -/
def State.bufferState (s : State) (i : BitVec 1) : Word := s.mem.word (s.cfg.cbBase + 0x40 * i.toNat)

/-- `write_count[i]`. -/
def State.writeCount (s : State) (i : BitVec 1) : Word := s.mem.word (s.cfg.cbBase + 0x080 + 4 * i.toNat)

/-- `read_count[i]`. -/
def State.readCount (s : State) (i : BitVec 1) : Word := s.mem.word (s.cfg.cbBase + 0x088 + 4 * i.toNat)

/-- `overrun_count`. -/
def State.overrunCount (s : State) : Word := s.mem.word (s.cfg.cbBase + 0x090)

/-- `timeout_count`. -/
def State.timeoutCount (s : State) : Word := s.mem.word (s.cfg.cbBase + 0x094)

/-- `last_write_ts[i]`. -/
def State.lastWriteTs (s : State) (i : BitVec 1) : DWord := s.mem.dword (s.cfg.cbBase + 0x0A0 + 8 * i.toNat)

/-- `last_read_ts[i]`. -/
def State.lastReadTs (s : State) (i : BitVec 1) : DWord := s.mem.dword (s.cfg.cbBase + 0x0B0 + 8 * i.toNat)

/-- `Rd16(a)` (`00_scope.md` rule R12). -/
def Memory.half (m : Memory) (a : Nat) : Int := (BitVec.ofNat 16 (leValue (m.read a 2))).toInt

/-- Complex sample `k` of the array at `a` (rule R13). -/
def Memory.sample (m : Memory) (a k : Nat) : Sample := (m.half (a + 4 * k), m.half (a + 4 * k + 2))

/-- The `n` complex samples of the array at `a`. -/
def Memory.samples (m : Memory) (a n : Nat) : List Sample := (List.range n).map (m.sample a)

/-- A Q15 value (rule R13). -/
def IsQ15 (v : Int) : Prop := -32768 ≤ v ∧ v ≤ 32767

/-- A complex Q15 pair. -/
def IsQ15Sample (z : Sample) : Prop := IsQ15 z.1 ∧ IsQ15 z.2

/-! ## How a command ends, and what it leaves alone -/

/-- The active port. -/
def State.act (s : State) : PortState := s.port s.active

/-- The active port's command has ended with this code (rules R39, R48). -/
structure Ended (t : State) (c : Code) : Prop where
  code : t.act.code = c
  busy : t.act.busy = false
  hold : t.act.hold = false
  latch : t.act.latch = Latch.idle

/-- What no command changes: the parameters, the reset input, the CPUs, the model's own schedule; on each port CMD,
LOST, the ARG registers, IE, the TIME_HI shadow and the clock; and of the other port all but its doorbell latch and
the record of accesses (log 11). -/
structure Frame (s t : State) : Prop where
  cfg : t.cfg = s.cfg
  inReset : t.inReset = s.inReset
  cpuP : t.cpuP = s.cpuP
  cpuC : t.cpuC = s.cpuC
  active : t.active = s.active
  schedule : t.schedule = s.schedule
  tick : t.tick = s.tick
  cmd : t.act.cmd = s.act.cmd
  lost : t.act.lost = s.act.lost
  arg0 : t.act.arg0 = s.act.arg0
  arg1 : t.act.arg1 = s.act.arg1
  arg2 : t.act.arg2 = s.act.arg2
  arg3 : t.act.arg3 = s.act.arg3
  ie : t.act.ie = s.act.ie
  timeHi : t.act.timeHi = s.act.timeHi
  clock : t.act.clock = s.act.clock
  peer : ∃ db touched, t.port s.active.peer =
    { s.port s.active.peer with db := db, latch := { (s.port s.active.peer).latch with touched := touched } }
  peerQuiet : s.fftInFlight s.active.peer = none → ∃ db,
    t.port s.active.peer = { s.port s.active.peer with db := db }

/-- Both doorbell latches are as before. -/
def SameDoorbells (s t : State) : Prop := ∀ p, (t.port p).db = (s.port p).db

/-- LAST_USED and CB_VALID are as before. -/
def SameBuffers (s t : State) : Prop := t.lastUsed = s.lastUsed ∧ t.cbValid = s.cbValid

/-- FE_BUSY, FE_OWNER and the working buffers are as before. -/
def SameEngine (s t : State) : Prop := t.feBusy = s.feBusy ∧ t.feOwner = s.feOwner ∧ t.workFree = s.workFree

/-- The instance slots are as before. -/
def SameSlots (s t : State) : Prop := ∀ k, t.inst k = s.inst k

/-- The active port's RES registers are as before. -/
def SameResults (s t : State) : Prop :=
  t.act.res0 = s.act.res0 ∧ t.act.res1 = s.act.res1 ∧ t.act.res2 = s.act.res2 ∧ t.act.res3 = s.act.res3

/-- Every byte of memory reads as before. -/
def SameMemory (s t : State) : Prop := ∀ x, t.mem.byte x = s.mem.byte x

/-- Every byte of memory outside some regions reads as before. -/
def SameMemoryOutside (rs : List Region) (s t : State) : Prop :=
  ∀ x, (∀ r ∈ rs, r.has x = false) → t.mem.byte x = s.mem.byte x

/-- No read of the region by the active port's command races with the other port's FFT command (rule R97). -/
def State.quietOn (s : State) (r : Region) : Prop :=
  ∀ f, s.fftRegions s.active.peer = some f → ∀ w ∈ f.written, w.overlaps r = false

/-- No FFT command in flight writes a byte of the Control Block's defined fields. -/
def State.fieldsQuiet (s : State) : Prop :=
  ∀ q f, s.fftRegions q = some f → ∀ w ∈ f.written, w.overlaps (definedFields s.cfg) = false

/-- The handle of buffer i stands in the RES registers (rule R153), with the addresses of rules R10 and R31. -/
def HandleOf (t : State) (i : BitVec 1) : Prop :=
  t.act.res0.toNat = i.toNat ∧
  t.act.res1 = BitVec.ofNat 32 (t.cfg.sharedBase.toNat + i.toNat * t.cfg.bufSize.toNat) ∧ t.act.res2 = t.cfg.bufSize ∧
  t.act.res3 = BitVec.ofNat 32 (t.cfg.sharedBase.toNat + 2 * t.cfg.bufSize.toNat + 0x40 * i.toNat)

/-- What every command but the FFT ones leaves alone: the frame, the engine and the instance slots. -/
structure Undisturbed (s t : State) : Prop where
  frame : Frame s t
  engine : SameEngine s t
  slots : SameSlots s t

/-- The active port's command has ended with this code and has changed nothing but STATUS (rules R331, R332). It may
have read memory: the other port's FFT command in flight then has a record of that (log 11). -/
structure EndsAfterReads (c : Code) (s t : State) : Prop where
  ended : Ended t c
  rest : Undisturbed s t
  doorbells : SameDoorbells s t
  buffers : SameBuffers s t
  results : SameResults s t
  memory : SameMemory s t

/-- The other port is as before, the in-flight state of its command and the record of accesses in it included: the
active port's command has rung no doorbell there and has made no access to memory (rules R127, R207, R283). -/
def SamePeer (s t : State) : Prop := t.port s.active.peer = s.port s.active.peer

/-- The active port's command has ended with this code, has made no access to memory and has changed nothing but
STATUS. -/
structure EndsOnly (c : Code) (s t : State) : Prop extends EndsAfterReads c s t where
  peer : SamePeer s t

/-- Executing the command ends it with this code, with no access to memory and no other effect. -/
def JustEnds (i : Instr) (s : State) (c : Code) : Prop := ∃ t, exec i s = .next t ∧ EndsOnly c s t

/-- Executing the command ends it with this code and no other effect; it may have read memory. -/
def ReadsAndEnds (i : Instr) (s : State) (c : Code) : Prop := ∃ t, exec i s = .next t ∧ EndsAfterReads c s t

/-- What an FFT command that ends leaves alone; the engine is free (rule R280). -/
structure EngineFreed (s t : State) : Prop where
  frame : Frame s t
  feBusy : t.feBusy = false
  feOwner : t.feOwner = s.feOwner
  doorbells : SameDoorbells s t
  buffers : SameBuffers s t

/-- Executing an FFT command that has the engine ends it with this code, frees the engine, makes no access to memory and
has no other effect. -/
def FftJustEnds (i : Instr) (s : State) (c : Code) : Prop :=
  ∃ t, exec i s = .next t ∧ Ended t c ∧ EngineFreed s t ∧ t.workFree = s.workFree ∧ SameSlots s t ∧ SameResults s t ∧
    SameMemory s t ∧ SamePeer s t

/-- The active port's command has the FFT engine (rule R280). -/
def State.hasEngine (s : State) : Prop := s.feBusy = true ∧ s.feOwner = s.active

/-- No access of another agent races with the active port's FFT command over these regions (rule R97). -/
def State.untouched (s : State) (f : FftRegions) : Prop :=
  ∀ t ∈ s.latch.touched,
    (t.write = true → t.region.overlaps f.input = false) ∧ ∀ r ∈ f.written, t.region.overlaps r = false

/-- No access of another agent races with the active port's FFT command over these regions, and none of the command's
reads races with the other port's FFT command (rule R97). -/
def State.unraced (s : State) (f : FftRegions) : Prop := s.untouched f ∧ s.quietOn f.input

/-- A slot is as reset left it or as FFT_RINIT writes it (rules R38, R281). -/
def SlotOk (t : InstSlot) : Prop :=
  t = InstSlot.reset ∨ t = ⟨true, 4096, false, true, 2, 2048⟩ ∨ t = ⟨true, 8192, false, true, 1, 4096⟩

/-- What a CPU's plain access to shared memory leaves alone (rules R81, R87): the parameters, the reset input, the
buffer-manager registers, the engine, the slots, and both ports but for the record of accesses, which only an FFT command
in flight there gets (log 11). -/
structure PlainAccess (s t : State) : Prop where
  cfg : t.cfg = s.cfg
  inReset : t.inReset = s.inReset
  buffers : SameBuffers s t
  engine : SameEngine s t
  slots : SameSlots s t
  ports : ∀ p, ∃ touched, t.port p = { s.port p with latch := { (s.port p).latch with touched := touched } }
  quiet : ∀ p, s.fftInFlight p = none → t.port p = s.port p

/-- The access races with an FFT command over these regions (rule R97): it writes a byte of its input, or touches one of
what it writes. -/
def Touch.racesWith (a : Touch) (f : FftRegions) : Prop :=
  a.write = true ∧ a.region.overlaps f.input = true ∨ ∃ r ∈ f.written, a.region.overlaps r = true

/-- The body of the FFT command of port `q` over these regions will find a race (log 11). -/
def State.findsRace (s : State) (q : Port) (f : FftRegions) : Prop := (s.setActive q).raced f = true

/-- The free value of a racing read of `n` bytes (log 11). -/
def freeValue (s : State) (a n : Nat) : Nat := leValue ((List.range n).map fun k => Config.freeRead s.tick (a + k))

/-- The address operand of an AT command passes the checks of a read (rule R207). -/
def State.atomicWord (s : State) (a : Nat) : Prop :=
  a = s.latch.a0.toNat ∧ a ≠ 0 ∧ a % 4 = 0 ∧ s.cfg.sharedBase.toNat ≤ a ∧ a + 4 ≤ s.cfg.windowEnd

/-- It passes those of a write too: it names no word of the defined fields (rules R84, R207). -/
def State.atomicWritable (s : State) (a : Nat) : Prop :=
  s.atomicWord a ∧ (a + 4 ≤ s.cfg.cbBase ∨ s.cfg.cbBase + 0x0C4 ≤ a)

/-- The BM command on the active port passes the checks of rule R150 for its role. -/
def State.bmRuns (s : State) (role : Port) : Prop := s.cbValid = true ∧ s.active = role

/-- The fields that the selectors 0 to 12 of BM_STATS name (rule R165), each with its address and its bytes. -/
def statFields (c : Config) : List (Nat × Nat × Nat) :=
  [(0, c.cbBase + 0x080, 4), (1, c.cbBase + 0x084, 4), (2, c.cbBase + 0x088, 4), (3, c.cbBase + 0x08C, 4),
   (4, c.cbBase + 0x090, 4), (5, c.cbBase + 0x094, 4), (6, c.cbBase + 0x0A0, 8), (7, c.cbBase + 0x0A8, 8),
   (8, c.cbBase + 0x0B0, 8), (9, c.cbBase + 0x0B8, 8), (10, c.cbBase + 0x098, 4), (11, c.cbBase + 0x09C, 4),
   (12, c.cbBase + 0x0C0, 4)]

/-- The address operand of a snapshot passes its checks (rule R165). -/
def State.snapshotTo (s : State) (a : Nat) : Prop :=
  s.cbValid = true ∧ a = s.latch.a0.toNat ∧ a ≠ 0 ∧ a % 8 = 0 ∧ s.cfg.sharedBase.toNat ≤ a ∧ a + 56 ≤ s.cfg.windowEnd ∧
    (a + 56 ≤ s.cfg.cbBase ∨ s.cfg.cbBase + 0x0C4 ≤ a)

/-- The accesses to memory that the rules give a command of the active port in its next step (rules R151, R155 to R165,
R208 to R210, R283 to R300). A write that depends on a word the command has read is named where that read does not race
itself, and an atomic addition to a counter by its write. -/
inductive Accesses (s : State) : Instr → Touch → Prop where
  | atLoad {a : Nat} : s.atomicWord a → Accesses s .atLoad ⟨false, ⟨a, 4⟩⟩
  | atCas {a : Nat} : s.atomicWritable a → Accesses s .atCas ⟨false, ⟨a, 4⟩⟩
  | atCasSwap {a : Nat} : s.atomicWritable a → s.quietOn ⟨a, 4⟩ → s.mem.word a = s.latch.a1 →
      Accesses s .atCas ⟨true, ⟨a, 4⟩⟩
  | atFadd {a : Nat} (write : Bool) : s.atomicWritable a → Accesses s .atFadd ⟨write, ⟨a, 4⟩⟩
  | init : s.active = .C → Accesses s .bmInit ⟨true, ⟨s.cfg.cbBase, s.cfg.cbSize.toNat⟩⟩
  | acqwScan (i : BitVec 1) : s.bmRuns .P → Accesses s .bmAcqw ⟨false, ⟨s.cfg.cbBase + 0x40 * i.toNat, 4⟩⟩
  | acqwTake (i : BitVec 1) : s.bmRuns .P → s.quietOn (definedFields s.cfg) → s.bufferState i = stIdle →
      (i = s.lastUsed + 1 ∨ s.bufferState (s.lastUsed + 1) ≠ stIdle) →
      Accesses s .bmAcqw ⟨true, ⟨s.cfg.cbBase + 0x40 * i.toNat, 4⟩⟩
  | acqwOverrun : s.bmRuns .P → s.quietOn (definedFields s.cfg) → (∀ i, s.bufferState i ≠ stIdle) →
      s.latch.counted = false → Accesses s .bmAcqw ⟨true, ⟨s.cfg.cbBase + 0x090, 4⟩⟩
  | acqwTimeout : s.bmRuns .P → s.quietOn (definedFields s.cfg) → (∀ i, s.bufferState i ≠ stIdle) →
      s.latch.a0.toNat ≤ (s.now - s.latch.t0).toNat → Accesses s .bmAcqw ⟨true, ⟨s.cfg.cbBase + 0x094, 4⟩⟩
  | commit (i : BitVec 1) : s.bmRuns .P → s.latch.a0 = i.zeroExtend 32 →
      Accesses s .bmCommit ⟨false, ⟨s.cfg.cbBase + 0x40 * i.toNat, 4⟩⟩
  | commitWrites (i : BitVec 1) {r : Region} : s.bmRuns .P → s.latch.a0 = i.zeroExtend 32 →
      s.quietOn ⟨s.cfg.cbBase + 0x40 * i.toNat, 4⟩ → s.bufferState i = stWriting →
      r ∈ [⟨s.cfg.cbBase + 0x40 * i.toNat, 4⟩, ⟨s.cfg.cbBase + 0x080 + 4 * i.toNat, 4⟩,
        ⟨s.cfg.cbBase + 0x0A0 + 8 * i.toNat, 8⟩] → Accesses s .bmCommit ⟨true, r⟩
  | acqrScan (i : BitVec 1) : s.bmRuns .C → Accesses s .bmAcqr ⟨false, ⟨s.cfg.cbBase + 0x40 * i.toNat, 4⟩⟩
  | acqrStamp (i : BitVec 1) : s.bmRuns .C → s.quietOn (definedFields s.cfg) → s.bufferState i = stReady →
      Accesses s .bmAcqr ⟨false, ⟨s.cfg.cbBase + 0x0A0 + 8 * i.toNat, 8⟩⟩
  | acqrTake (i : BitVec 1) : s.bmRuns .C → s.quietOn (definedFields s.cfg) → s.bufferState i = stReady →
      (s.bufferState (i + 1) ≠ stReady ∨ (s.lastWriteTs i).toNat < (s.lastWriteTs (i + 1)).toNat ∨
        s.lastWriteTs i = s.lastWriteTs (i + 1) ∧ i = 0) →
      Accesses s .bmAcqr ⟨true, ⟨s.cfg.cbBase + 0x40 * i.toNat, 4⟩⟩
  | acqrTimeout : s.bmRuns .C → s.quietOn (definedFields s.cfg) → (∀ i, s.bufferState i ≠ stReady) →
      s.latch.a0.toNat ≤ (s.now - s.latch.t0).toNat → Accesses s .bmAcqr ⟨true, ⟨s.cfg.cbBase + 0x094, 4⟩⟩
  | release (i : BitVec 1) : s.bmRuns .C → s.latch.a0 = i.zeroExtend 32 →
      Accesses s .bmRelease ⟨false, ⟨s.cfg.cbBase + 0x40 * i.toNat, 4⟩⟩
  | releaseWrites (i : BitVec 1) {r : Region} : s.bmRuns .C → s.latch.a0 = i.zeroExtend 32 →
      s.quietOn ⟨s.cfg.cbBase + 0x40 * i.toNat, 4⟩ → s.bufferState i = stReading →
      r ∈ [⟨s.cfg.cbBase + 0x40 * i.toNat, 4⟩, ⟨s.cfg.cbBase + 0x088 + 4 * i.toNat, 4⟩,
        ⟨s.cfg.cbBase + 0x0B0 + 8 * i.toNat, 8⟩] → Accesses s .bmRelease ⟨true, r⟩
  | bmState (i : BitVec 1) : s.cbValid = true → s.latch.a0 = i.zeroExtend 32 →
      Accesses s .bmState ⟨false, ⟨s.cfg.cbBase + 0x40 * i.toNat, 4⟩⟩
  | bmStats {k a n : Nat} : s.cbValid = true → (k, a, n) ∈ statFields s.cfg → Accesses s (.bmStats k) ⟨false, ⟨a, n⟩⟩
  | snapshotReads {a k b n : Nat} : s.snapshotTo a → k < 10 → (k, b, n) ∈ statFields s.cfg →
      Accesses s (.bmStats 13) ⟨false, ⟨b, n⟩⟩
  | snapshotWrites {a : Nat} : s.snapshotTo a → Accesses s (.bmStats 13) ⟨true, ⟨a, 56⟩⟩
  | fftInput {i : Instr} {g : FftRegions} : s.hasEngine → fftCheck s s.latch i = some (.ok g) →
      Accesses s i ⟨false, g.input⟩
  | fftOutput {i : Instr} {g : FftRegions} {r : Region} : s.hasEngine → fftCheck s s.latch i = some (.ok g) →
      r ∈ g.written → (∀ k t, s.inst k = some t → SlotOk t) → Accesses s i ⟨true, r⟩

/-- The doorbell of a port is raised and the other is as before. -/
def Rings (p : Port) (s t : State) : Prop := (t.port p).db = true ∧ (t.port p.peer).db = (s.port p.peer).db

/-- The start of a port's window in the register window (rule R35). -/
def portWindow : Port → Nat
  | .P => 0x000
  | .C => 0x100

/-- The event that the next step performs, if one does. -/
def State.nextEvent (s : State) : Option Event :=
  match s.schedule with
  | e :: _ => some e
  | [] => s.dueEvent

/-- The state after the event of a schedule that goes on with `rest`. -/
def State.passed (s : State) (rest : List Event) : State := (s.setSchedule rest).ticked

/-- The event is a CPU's store to some byte of the region. -/
def Event.storesInto (r : Region) : Event → Prop
  | .cpuStore _ w addr _ => Region.overlaps ⟨addr.toNat, w.bytes⟩ r = true
  | .cpuLoad _ _ _ => False
  | .command _ => False
  | .clock _ _ => False
  | .resetAssert => False
  | .resetRelease => False

/-! ## Invariants -/

/-- Memory is in canonical form and lists only bytes of the shared window (`20_memory.md` rule R81). -/
def State.memoryOk (s : State) : Prop :=
  s.mem.wf = true ∧ ∀ c ∈ s.mem, s.cfg.sharedBase.toNat ≤ c.1 ∧ c.1 < s.cfg.windowEnd

/-- A port waits only while BUSY, has no in-flight state while not BUSY (rules R39, R48), and never shows a reserved
code (rule R330). -/
structure PortOk (ps : PortState) : Prop where
  hold : ps.hold = true → ps.busy = true
  idle : ps.busy = false → ps.latch = Latch.idle
  code : ps.code ≠ .overrun

/-- While FE_BUSY, the owner's command in flight is an FFT command on memory (rules R44, R280). -/
def State.engineOk (s : State) : Prop := s.feBusy = true → (s.fftInFlight s.feOwner).isSome = true

/-- While reset is asserted no command is in flight and the engine is free (rule R370). -/
def State.resetOk (s : State) : Prop :=
  s.inReset = true → s.portP.busy = false ∧ s.portC.busy = false ∧ s.feBusy = false

/-- The control state of the machine is as CORE's rules keep it. -/
structure State.ControlOk (s : State) : Prop where
  ports : ∀ p, PortOk (s.port p)
  slots : ∀ k t, s.inst k = some t → SlotOk t
  engine : s.engineOk
  reset : s.resetOk

/-- The counters of buffer i and its state word agree (`10_state.md` rule R34, clause 2): `write_count - read_count`,
modulo 2^32, is 0 or 1, and 1 exactly when the buffer is READY or READING. -/
def State.countersAgree (s : State) (i : BitVec 1) : Prop :=
  (s.writeCount i - s.readCount i = 0 ∨ s.writeCount i - s.readCount i = 1) ∧
    (s.writeCount i - s.readCount i = 1 ↔ s.bufferState i = stReady ∨ s.bufferState i = stReading)

/-- The edges of the buffer state machine (rule R166): who changes a state word from what to what by which command. IDLE
is 0, WRITING 1, READY 2 and READING 3 (rule R32). -/
inductive StateEdge : Instr → Port → Word → Word → Prop where
  | acquireWrite : StateEdge .bmAcqw .P 0 1
  | commit : StateEdge .bmCommit .P 1 2
  | acquireRead : StateEdge .bmAcqr .C 2 3
  | release : StateEdge .bmRelease .C 3 0
  | init (old : Word) : StateEdge .bmInit .C old 0

/-- The commands that take the engine for an access to memory (`43_fft_commands.md` rule R283). -/
def fftOnMemory : Instr → Bool
  | .fftRfft _ => true
  | .fftCfft _ _ => true
  | .fftBitrev => true
  | .fftTopbins _ => true
  | .nop => false
  | .bmInit => false
  | .bmAcqw => false
  | .bmCommit => false
  | .bmAcqr => false
  | .bmRelease => false
  | .bmState => false
  | .bmStats _ => false
  | .ntNotifyC => false
  | .ntNotifyP => false
  | .atLoad => false
  | .atCas => false
  | .atFadd => false
  | .fence => false
  | .fftRinit _ => false

/-! ## Steps that do not stop -/

/-- The step answers a next state. -/
def State.goesOn (s : State) : Prop := ∃ t, step s = .next t

/-- The event is a CPU's access whose width and address satisfy `P`. -/
def Event.access (P : Width → Nat → Prop) : Event → Prop
  | .cpuLoad _ w addr => P w addr.toNat
  | .cpuStore _ w addr _ => P w addr.toNat
  | .command _ => False
  | .clock _ _ => False
  | .resetAssert => False
  | .resetRelease => False

/-- The address lies in the register window (rule R35). -/
def InRegisters (c : Config) (a : Nat) : Prop := c.coreBase.toNat ≤ a ∧ a < c.coreBase.toNat + 0x300

/-- The access leaves the register window in which it starts (rule R54), or starts in neither window, or leaves the
shared window (rule R81). -/
def OutsideCore (c : Config) (w : Width) (a : Nat) : Prop :=
  (InRegisters c a ∧ c.coreBase.toNat + 0x300 < a + w.bytes) ∨
    (¬ InRegisters c a ∧ (a < c.sharedBase.toNat ∨ c.windowEnd < a + w.bytes))

/-- The access is one of 32 bits within the register window that is not aligned to a register (rule R54). -/
def MisalignedRegister (c : Config) (w : Width) (a : Nat) : Prop :=
  InRegisters c a ∧ a + w.bytes ≤ c.coreBase.toNat + 0x300 ∧ w = .word ∧ (a - c.coreBase.toNat) % 4 ≠ 0

/-- The event is nothing that CORE leaves undefined: no CPU access outside its windows, none of 32 bits across
registers (log 15). -/
def Event.defined (c : Config) (e : Event) : Prop := ¬ e.access (OutsideCore c) ∧ ¬ e.access (MisalignedRegister c)

/-! ## The FFT engine's arithmetic as the rules write it

These relations share no operation with `Machine/FftArith.lean` but the tables of twiddle factors: a transform of the
machine is held against them. -/

/-- `sat16` (`00_scope.md` rule R13). -/
def clamp (v : Int) : Int := max (-32768) (min 32767 v)

/-- Half a sum: PORTABLE halves each operand (rule R246), SIMD the exact sum (rule R247). -/
def halfSum : ArithVariant → Int → Int → Int
  | .portable, a, b => a / 2 + b / 2
  | .simd, a, b => (a + b) / 2

/-- Half a difference (rules R246, R247). -/
def halfDiff : ArithVariant → Int → Int → Int
  | .portable, a, b => a / 2 - b / 2
  | .simd, a, b => (a - b) / 2

/-- `z` is `r` times the factor `(co, si)`, halved (rule R235): `r * (co - j si)` in a forward transform,
`r * (co + j si)` in an inverse one. -/
def Turned (inv : Bool) (tw r z : Sample) : Prop :=
  (inv = false →
    z = (clamp ((tw.1 * r.1 + tw.2 * r.2) / 65536), clamp ((tw.1 * r.2 - tw.2 * r.1) / 65536))) ∧
  (inv = true →
    z = (clamp ((tw.1 * r.1 - tw.2 * r.2) / 65536), clamp ((tw.2 * r.1 + tw.1 * r.2) / 65536)))

/-- The sums R, S, T, U of four samples (rule R236). -/
def sumsOf (x : Quad) : Sums where
  r := (clamp (x.s0.1 + x.s2.1), clamp (x.s0.2 + x.s2.2))
  s := (clamp (x.s0.1 - x.s2.1), clamp (x.s0.2 - x.s2.2))
  t := (clamp (x.s1.1 + x.s3.1), clamp (x.s1.2 + x.s3.2))
  u := (clamp (x.s1.1 - x.s3.1), clamp (x.s1.2 - x.s3.2))

/-- Four samples divided by 4 (rule R243). -/
def quarter (x : Quad) : Quad where
  s0 := (x.s0.1 / 4, x.s0.2 / 4)
  s1 := (x.s1.1 / 4, x.s1.2 / 4)
  s2 := (x.s2.1 / 4, x.s2.2 / 4)
  s3 := (x.s3.1 / 4, x.s3.2 / 4)

/-- The first-stage butterfly `j` takes the samples `x` to the samples `y` (rule R243). -/
def FirstRule (v : ArithVariant) (inv : Bool) (L j : Nat) (x y : Quad) : Prop :=
  let q := sumsOf (quarter x)
  let down : Sample := (clamp (q.s.1 + q.u.2), clamp (q.s.2 - q.u.1))
  let up : Sample := (clamp (q.s.1 - q.u.2), clamp (q.s.2 + q.u.1))
  y.s0 = (halfSum v q.r.1 q.t.1, halfSum v q.r.2 q.t.2) ∧
  Turned inv (twiddle L (2 * j)) (clamp (q.r.1 - q.t.1), clamp (q.r.2 - q.t.2)) y.s1 ∧
  (inv = false → Turned inv (twiddle L j) down y.s2 ∧ Turned inv (twiddle L (3 * j)) up y.s3) ∧
  (inv = true → Turned inv (twiddle L j) up y.s2 ∧ Turned inv (twiddle L (3 * j)) down y.s3)

/-- The middle-stage butterfly `j` of a block of `n1` samples takes `x` to `y` (rule R244). -/
def MiddleRule (v : ArithVariant) (inv : Bool) (n1 j : Nat) (x y : Quad) : Prop :=
  let q := sumsOf x
  let down : Sample := (halfSum v q.s.1 q.u.2, halfDiff v q.s.2 q.u.1)
  let up : Sample := (halfDiff v q.s.1 q.u.2, halfSum v q.s.2 q.u.1)
  y.s0 = (halfSum v q.r.1 q.t.1 / 2, halfSum v q.r.2 q.t.2 / 2) ∧
  Turned inv (twiddle n1 (2 * j)) (halfDiff v q.r.1 q.t.1, halfDiff v q.r.2 q.t.2) y.s1 ∧
  (inv = false → Turned inv (twiddle n1 j) down y.s2 ∧ Turned inv (twiddle n1 (3 * j)) up y.s3) ∧
  (inv = true → Turned inv (twiddle n1 j) up y.s2 ∧ Turned inv (twiddle n1 (3 * j)) down y.s3)

/-- The last-stage butterfly takes `x` to `y`, without a twiddle (rule R245). -/
def LastRule (v : ArithVariant) (inv : Bool) (x y : Quad) : Prop :=
  let q := sumsOf x
  let down : Sample := (halfSum v q.s.1 q.u.2, halfDiff v q.s.2 q.u.1)
  let up : Sample := (halfDiff v q.s.1 q.u.2, halfSum v q.s.2 q.u.1)
  y.s0 = (halfSum v q.r.1 q.t.1, halfSum v q.r.2 q.t.2) ∧
  y.s1 = (halfDiff v q.r.1 q.t.1, halfDiff v q.r.2 q.t.2) ∧
  (inv = false → y.s2 = down ∧ y.s3 = up) ∧ (inv = true → y.s2 = up ∧ y.s3 = down)

/-- The four samples of a sequence at `i`, `i + q`, `i + 2q` and `i + 3q`. -/
def QuadAt (x : List Sample) (i q : Nat) (z : Quad) : Prop :=
  x[i]? = some z.s0 ∧ x[i + q]? = some z.s1 ∧ x[i + 2 * q]? = some z.s2 ∧ x[i + 3 * q]? = some z.s3

/-- One stage takes `x` to `y`: butterfly `j` of each block of `n1` samples by its rule, in place (rules R243 to
R245). -/
def StageRule (rule : Nat → Quad → Quad → Prop) (n1 : Nat) (x y : List Sample) : Prop :=
  y.length = x.length ∧ ∀ block j a b, j < n1 / 4 → QuadAt x (n1 * block + j) (n1 / 4) a →
    QuadAt y (n1 * block + j) (n1 / 4) b → rule j a b

/-- The middle stages take `x` to `y`, from blocks of `n1` samples on, each a quarter of the one before, while they are
above 4 (rule R244). -/
inductive MiddleStages (v : ArithVariant) (inv : Bool) : Nat → List Sample → List Sample → Prop where
  | done {n1 : Nat} {x : List Sample} : n1 ≤ 4 → MiddleStages v inv n1 x x
  | stage {n1 : Nat} {x y z : List Sample} : 4 < n1 → StageRule (MiddleRule v inv n1) n1 x y →
      MiddleStages v inv (n1 / 4) y z → MiddleStages v inv n1 x z

/-- `radix4` takes the `L` samples `x` to `y`: its stages in their order (rule R242). -/
def Radix4Rule (v : ArithVariant) (inv : Bool) (L : Nat) (x y : List Sample) : Prop :=
  ∃ p q, StageRule (FirstRule v inv L) L x p ∧ MiddleStages v inv (L / 4) p q ∧
    StageRule (fun _ => LastRule v inv) 4 q y

/-- The upper output of the radix-4-by-2 pre-pass for the factor `tw` and the halved difference `t` (rule R248):
PORTABLE shifts each product, SIMD the exact sum. -/
def UpperRule (inv : Bool) (tw t z : Sample) : ArithVariant → Prop
  | .portable =>
    (inv = false → z = (clamp (t.1 * tw.1 / 65536 + t.2 * tw.2 / 65536),
      clamp (t.2 * tw.1 / 65536 - t.1 * tw.2 / 65536))) ∧
    (inv = true → z = (clamp (t.1 * tw.1 / 65536 - t.2 * tw.2 / 65536),
      clamp (t.2 * tw.1 / 65536 + t.1 * tw.2 / 65536)))
  | .simd => Turned inv tw t z

/-- The radix-4-by-2 pre-pass takes the `2h` samples `x` to the halves `lo` and `hi` (rule R248). -/
def PrePassRule (v : ArithVariant) (inv : Bool) (h : Nat) (x lo hi : List Sample) : Prop :=
  lo.length = h ∧ hi.length = h ∧ ∀ i a b l u, x[i]? = some a → x[i + h]? = some b → lo[i]? = some l →
    hi[i]? = some u →
    l = (clamp ((a.1 / 2 + b.1 / 2) / 2), clamp ((a.2 / 2 + b.2 / 2) / 2)) ∧
    UpperRule inv (twiddle (2 * h) i) (a.1 / 2 - b.1 / 2, a.2 / 2 - b.2 / 2) u v

/-- `radix4by2` takes the `2h` samples `x` to `y`: the pre-pass, a `radix4` of each half, and the saturating post-scale
by 2 (rules R248 to R250). -/
def Radix4By2Rule (v : ArithVariant) (inv : Bool) (h : Nat) (x y : List Sample) : Prop :=
  ∃ lo hi p q, PrePassRule v inv h x lo hi ∧ Radix4Rule v inv h lo p ∧ Radix4Rule v inv h hi q ∧
    y = (p ++ q).map fun z => (clamp (2 * z.1), clamp (2 * z.2))

/-- `y` is `x` in bit-reversed order (rule R251): places whose numbers are each other's reversal exchange samples. -/
def Reversed (M : Nat) (x y : List Sample) : Prop :=
  y.length = M ∧ ∃ bits, M = 2 ^ bits ∧
    ∀ i j, i < M → j < M → (∀ b, b < bits → j.testBit b = i.testBit (bits - 1 - b)) → y[j]? = x[i]?

/-- `cfft` takes the `M` samples `x` to `y` (rule R252): `radix4` for a power of 4, `radix4by2` for twice one, then the
bit reversal if it is asked for. -/
def CfftRule (v : ArithVariant) (M : Nat) (inv br : Bool) (x y : List Sample) : Prop :=
  ∃ z, (M ∈ [16, 64, 256, 1024, 4096] → Radix4Rule v inv M x z) ∧
    (M ∈ [32, 128, 512, 2048] → Radix4By2Rule v inv (M / 2) x z) ∧
    (br = true → Reversed M z y) ∧ (br = false → y = z)

end Sys2Proof.Machine
end

