-- ==== Sys2Proof/Certificates/Slice0/Obligations.lean ====
section
/-! DEFINITION. The statements for the provers. Each docstring names the rules of spec/ that the statement rests on;
where a clause is the model's own choice it names the log entry. -/

open Sys2Proof Sys2Proof.Machine

/-! ## Command words -/

/-- `30_encoding.md` R120, R121, R122, R125: the decoder reads back every well-formed command from its word, and from
the four bytes of its word whatever follows them. -/
def Obligations.DecodeAfterEncode : Prop :=
  ∀ (i : Instr) (rest : List Byte), i.wellFormed = true →
    decodeWord (encode i) = .ok i ∧ decode (bytesOfWord (encode i) ++ rest) = .ok (i, rest)

/-- `30_encoding.md` R125, R126, R127: a word that decodes is the word of the command it decodes to; a word decodes
exactly when some row of R125 matches it; and at most one row matches a word. -/
def Obligations.LegalWordsMatchOneRow : Prop :=
  ∀ w : Word,
    (∀ i, decodeWord w = .ok i → i.wellFormed = true ∧ encode i = w) ∧
    ((∃ i, decodeWord w = .ok i) ↔ ∃ r ∈ encodingRows, r.selects w = true) ∧
    (∀ r ∈ encodingRows, ∀ r' ∈ encodingRows, r.selects w = true → r'.selects w = true → r = r')

/-- `30_encoding.md` R131: the worked encodings. -/
def Obligations.WorkedEncodings : Prop :=
  decodeWord 0x00000002 = .ok .bmAcqw ∧ decodeWord 0x00050007 = .ok (.bmStats 5) ∧
  decodeWord 0x00000222 = .ok (.fftCfft false true) ∧ decodeWord 0x00000322 = .ok (.fftCfft true true) ∧
  decodeWord 0x00000122 = .ok (.fftCfft true false) ∧ decodeWord 0x00000022 = .ok (.fftCfft false false) ∧
  decodeWord 0x00010020 = .ok (.fftRinit 1) ∧ decodeWord 0x00020024 = .ok (.fftTopbins 2) ∧
  decodeWord 0x00000408 = .error (.reservedOpcode 0x08) ∧ decodeWord 0x00000402 = .error (.undefinedFlag 0x02) ∧
  decodeWord 0x00000422 = .error (.undefinedFlag 0x22)

/-! ## Steps -/

/-- `00_scope.md` R7, R8, `10_state.md` R39: a step of the schedule in which a port's command processor moves runs the
command that the port's latched word decodes to; so does a step with nothing scheduled and only this port BUSY. With
nothing scheduled and no port BUSY, nothing happens (`10_state.md` R53). The schedule is the model's (log 6), and so is
the step counter (log 8). -/
def Obligations.StepRunsDecodedCommand : Prop :=
  ∀ (s : State) (p : Port) (i : Instr) (rest : List Event),
    (s.schedule = .command p :: rest → s.inReset = false → (s.port p).busy = true →
      decodeWord (s.port p).latch.word = .ok i →
      step s = countStep (exec i ((s.setSchedule rest).setActive p))) ∧
    (s.schedule = [] → s.inReset = false → (s.port p).busy = true → (s.port p.peer).busy = false →
      decodeWord (s.port p).latch.word = .ok i → step s = countStep (exec i (s.setActive p))) ∧
    (s.schedule = [] → s.portP.busy = false → s.portC.busy = false → step s = .next s.ticked)

/-- `30_encoding.md` R127: an accepted word that no row of R125 matches ends with ILLEGAL in its first step, makes no
access to memory (the other port is as before, with the model's record of accesses there, log 11) and changes nothing but
STATUS. -/
def Obligations.IllegalWordEnds : Prop :=
  ∀ (s : State) (p : Port) (rest : List Event),
    s.schedule = .command p :: rest → s.inReset = false → (s.port p).busy = true →
    (∀ r ∈ encodingRows, r.selects (s.port p).latch.word = false) →
    ∃ t, step s = .next t ∧ EndsOnly .illegal ((s.passed rest).setActive p) t

/-- Every command answers a next state in every state: no command faults and none is refused (`60_exceptions.md`,
opening; R330: a command's end is a status code). A step stops only on a CPU's access that CORE does not define
(`10_state.md` R54, `20_memory.md` R81): it is refused exactly for one outside CORE's windows and faults exactly for one
of 32 bits across registers; that these stop the machine is log 15. -/
def Obligations.EveryCommandAnswers : Prop :=
  (∀ (i : Instr) (s : State), ∃ t, exec i s = .next t) ∧
  ∀ s : State,
    (s.goesOn ↔ ∀ e, s.nextEvent = some e → e.defined s.cfg) ∧
    (step s = .refused .outsideCore ↔ ∃ e, s.nextEvent = some e ∧ e.access (OutsideCore s.cfg)) ∧
    (step s = .fault .registerMisaligned ↔ ∃ e, s.nextEvent = some e ∧ e.access (MisalignedRegister s.cfg))

/-! ## The register window -/

/-- `10_state.md` R39: a 32-bit store to CMD is dropped and sets LOST while BUSY, and is accepted otherwise: CMD, BUSY and
HOLD, and the arguments latched (R37, R48). The model's choice: every command's latch holds a start time and a counted
flag, which R48 gives only to the acquires (log 5), and an empty record of other agents' accesses (log 11). -/
def Obligations.CmdStoreAcceptsOrDrops : Prop :=
  ∀ (s : State) (rest : List Event) (cpu p : Port) (a w : Word),
    s.schedule = .cpuStore cpu .word a w :: rest → s.inReset = false →
    a.toNat = s.cfg.coreBase.toNat + portWindow p + 0x00 →
    ((s.port p).busy = true → step s = .next ((s.setPort p { s.port p with lost := true }).passed rest)) ∧
    ((s.port p).busy = false → step s = .next ((s.setPort p { s.port p with
      cmd := w
      busy := true
      hold := false
      latch := { word := w, a0 := (s.port p).arg0, a1 := (s.port p).arg1, a2 := (s.port p).arg2, a3 := (s.port p).arg3,
                 t0 := (s.port p).clock, counted := false, touched := [] } }).passed rest))

/-- `10_state.md` R36, R37, R40, R41, R46, R47, R54: what a 32-bit store to each other register does. -/
def Obligations.RegisterStores : Prop :=
  ∀ (s : State) (rest : List Event) (cpu p : Port) (a v : Word) (o : Nat),
    s.schedule = .cpuStore cpu .word a v :: rest → s.inReset = false →
    (a.toNat = s.cfg.coreBase.toNat + portWindow p + o →
      (o = 0x04 → step s = .next ((s.setPort p { s.port p with lost := (s.port p).lost && !v.getLsbD 29 }).passed rest)) ∧
      (o = 0x08 → step s = .next ((s.setPort p { s.port p with arg0 := v }).passed rest)) ∧
      (o = 0x0C → step s = .next ((s.setPort p { s.port p with arg1 := v }).passed rest)) ∧
      (o = 0x10 → step s = .next ((s.setPort p { s.port p with arg2 := v }).passed rest)) ∧
      (o = 0x14 → step s = .next ((s.setPort p { s.port p with arg3 := v }).passed rest)) ∧
      (o = 0x28 → step s = .next ((s.setPort p { s.port p with db := (s.port p).db && !v.getLsbD 0 }).passed rest)) ∧
      (o = 0x2C → step s = .next ((s.setPort p { s.port p with ie := v.getLsbD 0 }).passed rest)) ∧
      (o < 0x100 → o % 4 = 0 → o ∉ [0x00, 0x04, 0x08, 0x0C, 0x10, 0x14, 0x28, 0x2C] → step s = .next (s.passed rest))) ∧
    (a.toNat = s.cfg.coreBase.toNat + 0x200 + o → o < 0x100 → o % 4 = 0 → step s = .next (s.passed rest))

/-- `10_state.md` R36, R40, R45, `60_exceptions.md` R330, R341: what a 32-bit load of each port register returns, CODE by
its number, and the one side effect, that of TIME_LO. What a CPU's load returned is held for it (log 20). -/
def Obligations.PortRegisterLoads : Prop :=
  ∀ (s : State) (rest : List Event) (cpu p : Port) (a v : Word) (o : Nat),
    s.schedule = .cpuLoad cpu .word a :: rest → s.inReset = false →
    a.toNat = s.cfg.coreBase.toNat + portWindow p + o →
    let q := s.port p
    ((o, v) ∈ [(0x00, q.cmd), (0x08, q.arg0), (0x0C, q.arg1), (0x10, q.arg2), (0x14, q.arg3), (0x18, q.res0),
        (0x1C, q.res1), (0x20, q.res2), (0x24, q.res3), (0x34, q.timeHi)] →
      step s = .next ((s.returnToCpu cpu v).passed rest)) ∧
    (∀ n : Nat, (q.code, n) ∈ [(Code.ok, 0), (.invalid, 1), (.invalidSize, 2), (.wrongState, 3), (.timeout, 4), (.init, 5),
        (.nullPointer, 6), (.overrun, 7), (.illegal, 8)] →
      o = 0x04 → v.toNat = n + 2 ^ 29 * q.lost.toNat + 2 ^ 30 * q.hold.toNat + 2 ^ 31 * q.busy.toNat →
      step s = .next ((s.returnToCpu cpu v).passed rest)) ∧
    (o = 0x28 → v.toNat = q.db.toNat → step s = .next ((s.returnToCpu cpu v).passed rest)) ∧
    (o = 0x2C → v.toNat = q.ie.toNat → step s = .next ((s.returnToCpu cpu v).passed rest)) ∧
    (o = 0x30 → step s = .next (((s.setPort p { q with timeHi := q.clock.extractLsb' 32 32 }).returnToCpu cpu
      (q.clock.extractLsb' 0 32)).passed rest)) ∧
    (0x38 ≤ o → o < 0x100 → o % 4 = 0 → v = 0 → step s = .next ((s.returnToCpu cpu v).passed rest))

/-- `10_state.md` R41, R49, R50: what a 32-bit load of each register of the global window returns. -/
def Obligations.GlobalRegisterLoads : Prop :=
  ∀ (s : State) (rest : List Event) (cpu : Port) (a v : Word) (o k : Nat) (t : InstSlot),
    s.schedule = .cpuLoad cpu .word a :: rest → s.inReset = false →
    a.toNat = s.cfg.coreBase.toNat + 0x200 + o →
    ((o, v) ∈ [(0x00, 0x434F5245), (0x04, s.cfg.bufSize), (0x08, s.cfg.cbSize), (0x0C, s.cfg.sharedBase)] →
      step s = .next ((s.returnToCpu cpu v).passed rest)) ∧
    (o = 0x10 → v.toNat = s.cbValid.toNat + 2 * s.lastUsed.toNat →
      step s = .next ((s.returnToCpu cpu v).passed rest)) ∧
    (∀ owner variant : Nat, (s.feOwner, owner) ∈ [(Port.P, 0), (.C, 1)] →
      (s.cfg.variant, variant) ∈ [(ArithVariant.portable, 0), (.simd, 1)] →
      o = 0x14 → v.toNat = s.feBusy.toNat + 2 * owner + 4 * variant →
      step s = .next ((s.returnToCpu cpu v).passed rest)) ∧
    (s.inst k = some t →
      (o = 0x20 + 0x10 * k → v = (if t.valid = true then t.n else 0) →
        step s = .next ((s.returnToCpu cpu v).passed rest)) ∧
      (o = 0x24 + 0x10 * k → v.toNat = t.valid.toNat + 2 * t.ifft.toNat + 4 * t.bitrev.toNat →
        step s = .next ((s.returnToCpu cpu v).passed rest)) ∧
      (o = 0x28 + 0x10 * k → v = t.rmod → step s = .next ((s.returnToCpu cpu v).passed rest)) ∧
      (o = 0x2C + 0x10 * k → v = t.m → step s = .next ((s.returnToCpu cpu v).passed rest))) ∧
    ((o = 0x18 ∨ o = 0x1C ∨ 0x60 ≤ o ∧ o < 0x100 ∧ o % 4 = 0) → v = 0 →
      step s = .next ((s.returnToCpu cpu v).passed rest))

/-- `10_state.md` R54: within the register window a store of 8 or 16 bits is ignored; such a load returns the addressed
bytes of the register and has no side effect. The model's readings and choices: a 16-bit load at byte 3 of a register
returns that byte and byte 0 of the next register (log 15, DEDUCED: R54 speaks of one register); a 32-bit access that is
not aligned, which R54 leaves undefined, stops by name (log 15); what a CPU's load returned is held for it (log 20). -/
def Obligations.NarrowRegisterAccesses : Prop :=
  ∀ (s : State) (rest : List Event) (cpu : Port) (w : Width) (a v : Word) (o : Nat),
    a.toNat = s.cfg.coreBase.toNat + o → o + w.bytes ≤ 0x300 →
    (w ≠ .word → s.schedule = .cpuStore cpu w a v :: rest → step s = .next (s.passed rest)) ∧
    (w ≠ .word → s.schedule = .cpuLoad cpu w a :: rest → s.inReset = false → v.toNat < 256 ^ w.bytes →
      (∀ k, k < w.bytes → v.toNat / 256 ^ k % 256 =
        (s.readReg (o + k - (o + k) % 4)).toNat / 256 ^ ((o + k) % 4) % 256) →
      step s = .next ((s.returnToCpu cpu v).passed rest)) ∧
    (w = .word → o % 4 ≠ 0 →
      (s.schedule = .cpuLoad cpu w a :: rest → step s = .fault .registerMisaligned) ∧
      (s.schedule = .cpuStore cpu w a v :: rest → step s = .fault .registerMisaligned))

/-- `10_state.md` R47, `41_notifier_atomics.md` R204, `60_exceptions.md` R337: each interrupt line is its latch AND its
enable and changes in the step that changes one of them: setting IE over a set latch asserts it, clearing IE or
acknowledging lowers it, and a notify asserts it when IE is set. -/
def Obligations.InterruptLines : Prop :=
  ∀ (s : State) (rest : List Event) (cpu p : Port) (a v : Word),
    (s.irq p = true ↔ (s.port p).db = true ∧ (s.port p).ie = true) ∧
    (s.schedule = .cpuStore cpu .word a v :: rest → s.inReset = false →
      a.toNat = s.cfg.coreBase.toNat + portWindow p + 0x2C →
      ∃ t, step s = .next t ∧ t.irq p = ((s.port p).db && v.getLsbD 0) ∧ t.irq p.peer = s.irq p.peer) ∧
    (s.schedule = .cpuStore cpu .word a v :: rest → s.inReset = false →
      a.toNat = s.cfg.coreBase.toNat + portWindow p + 0x28 → v.getLsbD 0 = true →
      ∃ t, step s = .next t ∧ t.irq p = false ∧ t.irq p.peer = s.irq p.peer) ∧
    (∃ t, exec .ntNotifyC s = .next t ∧ t.irq .C = (s.port .C).ie ∧ t.irq .P = s.irq .P) ∧
    (∃ t, exec .ntNotifyP s = .next t ∧ t.irq .P = (s.port .P).ie ∧ t.irq .C = s.irq .C)

/-! ## Reset, clocks, plain accesses -/

/-- `70_reset_and_hazards.md` R372: what reset leaves, for all parameters and whatever memory holds. -/
def Obligations.ResetValues : Prop :=
  ∀ (c : Config) (m : Memory), let s := State.powerUp c m
    (∀ p, (s.port p).cmd = 0 ∧ (s.port p).statusWord = 0 ∧ (s.port p).busy = false ∧ (s.port p).arg0 = 0 ∧
      (s.port p).arg1 = 0 ∧ (s.port p).arg2 = 0 ∧ (s.port p).arg3 = 0 ∧ (s.port p).res0 = 0 ∧ (s.port p).res1 = 0 ∧
      (s.port p).res2 = 0 ∧ (s.port p).res3 = 0 ∧ (s.port p).db = false ∧ (s.port p).ie = false ∧
      (s.port p).timeHi = 0 ∧ s.irq p = false) ∧
    s.lastUsed = 1 ∧ s.cbValid = false ∧ s.feBusy = false ∧ s.feOwner = .P ∧
    (∀ k t, s.inst k = some t → t = ⟨false, 0, false, false, 0, 0⟩) ∧
    s.bmStatusWord = 2 ∧ s.feStatusWord = (if c.variant = .portable then 0 else 4) ∧
    s.readGlobal 0x00 = 0x434F5245 ∧ s.readGlobal 0x04 = c.bufSize ∧ s.readGlobal 0x08 = c.cbSize ∧
    s.readGlobal 0x0C = c.sharedBase ∧
    s.cfg = c ∧ s.mem = m ∧ s.portP.clock = c.timeP0 ∧ s.portC.clock = c.timeC0 ∧ s.inReset = false

/-- `70_reset_and_hazards.md` R370, R371: after reset both ports' commands are abandoned and CORE's own state holds its
reset values; clocks, parameters and every byte of memory that no abandoned FFT command writes stay. While reset is
asserted a command processor does nothing. R370 gives the values when reset is released: that CORE's state holds them
from the step that asserts reset, and releasing it changes only its level, is the model's choice (log 14), and so is that
register stores are dropped meanwhile (log 14); that an abandoned FFT command's bytes change in that step is log 13. -/
def Obligations.ResetInput : Prop :=
  ∀ (s : State) (rest : List Event),
    (s.schedule = .resetAssert :: rest →
      ∃ t, step s = .next t ∧ t.inReset = true ∧ t.cfg = s.cfg ∧ t.schedule = rest ∧ t.cpuP = s.cpuP ∧ t.cpuC = s.cpuC ∧
        (∀ p, t.port p = PortState.reset (s.port p).clock) ∧ t.lastUsed = 1 ∧ t.cbValid = false ∧ t.feBusy = false ∧
        t.feOwner = .P ∧ (∀ k u, t.inst k = some u → u = ⟨false, 0, false, false, 0, 0⟩) ∧
        ∀ x, (∀ p f, s.fftRegions p = some f → ∀ r ∈ f.written, r.has x = false) → t.mem.byte x = s.mem.byte x) ∧
    (∀ p, s.schedule = .command p :: rest → s.inReset = true → step s = .next (s.passed rest)) ∧
    (∀ cpu a w o, s.schedule = .cpuStore cpu .word a w :: rest → s.inReset = true →
      a.toNat = s.cfg.coreBase.toNat + o → o < 0x300 → o % 4 = 0 → step s = .next (s.passed rest)) ∧
    (s.schedule = .resetRelease :: rest → step s = .next { s.passed rest with inReset := false })

/-- `20_memory.md` R80, R81, R87, R97, `10_state.md` R45: a CPU's plain store in the shared window leaves its low bytes
there, the least significant first, and every other byte as it was; a plain load returns the bytes, where no FFT command
in flight writes them, and has no side effect; neither changes a register, a clock or anything else of CORE, but for the
model's record of accesses in a port where an FFT command is in flight (log 11); what a load returned is held for its CPU
(log 20). The platform's advance of a clock is modulo 2^64. -/
def Obligations.PlainAccessesAndClocks : Prop :=
  ∀ (s : State) (rest : List Event) (cpu p : Port) (w : Width) (a v : Word) (ms : DWord),
    (s.cfg.sharedBase.toNat ≤ a.toNat →
      a.toNat + w.bytes ≤ s.cfg.sharedBase.toNat + 2 * s.cfg.bufSize.toNat + s.cfg.cbSize.toNat →
      (a.toNat < s.cfg.coreBase.toNat ∨ s.cfg.coreBase.toNat + 0x300 ≤ a.toNat) →
      (s.schedule = .cpuStore cpu w a v :: rest →
        ∃ t, step s = .next t ∧ (∀ k, k < w.bytes → t.mem.byte (a.toNat + k) = BitVec.ofNat 8 (v.toNat / 256 ^ k)) ∧
          SameMemoryOutside [⟨a.toNat, w.bytes⟩] s t ∧ PlainAccess s t ∧ t.cpuP = s.cpuP ∧ t.cpuC = s.cpuC ∧
          t.schedule = rest) ∧
      (s.schedule = .cpuLoad cpu w a :: rest →
        (∀ q f, s.fftRegions q = some f → ∀ r ∈ f.written, r.overlaps ⟨a.toNat, w.bytes⟩ = false) →
        ∃ t, step s = .next t ∧ SameMemory s t ∧ PlainAccess s t ∧ t.schedule = rest ∧
          (cpu = .P → t.cpuP.toNat = leValue (s.mem.read a.toNat w.bytes) ∧ t.cpuC = s.cpuC) ∧
          (cpu = .C → t.cpuC.toNat = leValue (s.mem.read a.toNat w.bytes) ∧ t.cpuP = s.cpuP))) ∧
    (s.schedule = .clock p ms :: rest →
      step s = .next ((s.setPort p { s.port p with clock := (s.port p).clock + ms }).passed rest))

/-! ## NOP, FENCE, notify -/

/-- `41_notifier_atomics.md` R200, R212: NOP and FENCE end with OK, make no access to memory and change nothing but
STATUS, on either port. -/
def Obligations.NopAndFenceJustEnd : Prop := ∀ s : State, JustEnds .nop s .ok ∧ JustEnds .fence s .ok

/-- `41_notifier_atomics.md` R201, R202, R203: a notify raises its doorbell, ends with OK, and changes nothing else: it
makes no access to memory, so the other port's in-flight state, with the model's record in it (log 11), is as before. -/
def Obligations.NotifyRings : Prop :=
  ∀ s : State,
    (∃ t, exec .ntNotifyC s = .next t ∧ Ended t .ok ∧ Undisturbed s t ∧ Rings .C s t ∧ SameBuffers s t ∧
      SameResults s t ∧ SameMemory s t ∧ (t.port s.active.peer).latch = (s.port s.active.peer).latch) ∧
    (∃ t, exec .ntNotifyP s = .next t ∧ Ended t .ok ∧ Undisturbed s t ∧ Rings .P s t ∧ SameBuffers s t ∧
      SameResults s t ∧ SameMemory s t ∧ (t.port s.active.peer).latch = (s.port s.active.peer).latch)

/-! ## The atomic unit -/

/-- `41_notifier_atomics.md` R208: AT_LOAD returns the word, which no FFT command of the other port is writing, and
changes nothing else. -/
def Obligations.AtLoadReads : Prop :=
  ∀ s : State, let a := s.latch.a0.toNat
    a ≠ 0 → a % 4 = 0 → s.cfg.sharedBase.toNat ≤ a → a + 4 ≤ s.cfg.windowEnd → s.quietOn ⟨a, 4⟩ →
    ∃ t, exec .atLoad s = .next t ∧ Ended t .ok ∧ Undisturbed s t ∧ t.act.res0 = s.mem.word a ∧
      t.act.res1 = s.act.res1 ∧ t.act.res2 = s.act.res2 ∧ t.act.res3 = s.act.res3 ∧ SameDoorbells s t ∧
      SameBuffers s t ∧ SameMemory s t

/-- `20_memory.md` R94, `41_notifier_atomics.md` R209: AT_CAS returns the old word and whether it was the expected one,
and writes the new word exactly then. -/
def Obligations.AtCasSwaps : Prop :=
  ∀ s : State, let a := s.latch.a0.toNat
    a ≠ 0 → a % 4 = 0 → s.cfg.sharedBase.toNat ≤ a → a + 4 ≤ s.cfg.windowEnd →
    (a + 4 ≤ s.cfg.cbBase ∨ s.cfg.cbBase + 0x0C4 ≤ a) → s.quietOn ⟨a, 4⟩ →
    ∃ t, exec .atCas s = .next t ∧ Ended t .ok ∧ Undisturbed s t ∧ t.act.res0 = s.mem.word a ∧
      (s.mem.word a = s.latch.a1 →
        t.act.res1 = 1 ∧ t.mem.word a = s.latch.a2 ∧ SameMemoryOutside [⟨a, 4⟩] s t) ∧
      (s.mem.word a ≠ s.latch.a1 → t.act.res1 = 0 ∧ SameMemory s t) ∧
      t.act.res2 = s.act.res2 ∧ t.act.res3 = s.act.res3 ∧ SameDoorbells s t ∧ SameBuffers s t

/-- `20_memory.md` R95, `41_notifier_atomics.md` R210: AT_FADD returns the old word and leaves the sum modulo 2^32. -/
def Obligations.AtFaddAdds : Prop :=
  ∀ s : State, let a := s.latch.a0.toNat
    a ≠ 0 → a % 4 = 0 → s.cfg.sharedBase.toNat ≤ a → a + 4 ≤ s.cfg.windowEnd →
    (a + 4 ≤ s.cfg.cbBase ∨ s.cfg.cbBase + 0x0C4 ≤ a) → s.quietOn ⟨a, 4⟩ →
    ∃ t, exec .atFadd s = .next t ∧ Ended t .ok ∧ Undisturbed s t ∧ t.act.res0 = s.mem.word a ∧
      t.mem.word a = s.mem.word a + s.latch.a1 ∧ SameMemoryOutside [⟨a, 4⟩] s t ∧
      t.act.res1 = s.act.res1 ∧ t.act.res2 = s.act.res2 ∧ t.act.res3 = s.act.res3 ∧ SameDoorbells s t ∧
      SameBuffers s t

/-- `41_notifier_atomics.md` R207: a null, misaligned or out-of-window address ends each AT command with INVALID, and so
does a word of the Control Block's defined fields for AT_CAS and AT_FADD, with no access and no other effect. -/
def Obligations.AtomicRefusals : Prop :=
  ∀ s : State, let a := s.latch.a0.toNat
    ((a = 0 ∨ a % 4 ≠ 0 ∨ a < s.cfg.sharedBase.toNat ∨ s.cfg.windowEnd < a + 4) →
      JustEnds .atLoad s .invalid ∧ JustEnds .atCas s .invalid ∧ JustEnds .atFadd s .invalid) ∧
    (s.cfg.cbBase < a + 4 → a < s.cfg.cbBase + 0x0C4 →
      JustEnds .atCas s .invalid ∧ JustEnds .atFadd s .invalid)

/-! ## The buffer manager -/

/-- `40_buffer_manager.md` R151: BM_INIT on port C writes the whole Control Block: `buffer_size`, `timeout_ms` and
`consumer_ready`, both states IDLE and every other byte 0; it sets CB_VALID, ends with OK and changes nothing else.
Issued again it leaves the same memory. -/
def Obligations.BmInitClears : Prop :=
  ∀ s : State, s.cfg.wf = true → s.active = .C →
    ∃ t, exec .bmInit s = .next t ∧ Ended t .ok ∧ Undisturbed s t ∧ t.cbValid = true ∧ t.lastUsed = s.lastUsed ∧
      (∀ i, t.bufferState i = stIdle) ∧ t.mem.word (s.cfg.cbBase + 0x098) = s.cfg.bufSize ∧
      t.mem.word (s.cfg.cbBase + 0x09C) = s.cfg.timeoutMs ∧ t.mem.word (s.cfg.cbBase + 0x0C0) = 1 ∧
      (∀ x, Region.has ⟨s.cfg.cbBase, s.cfg.cbSize.toNat⟩ x = true → Region.has ⟨s.cfg.cbBase + 0x098, 8⟩ x = false →
        Region.has ⟨s.cfg.cbBase + 0x0C0, 4⟩ x = false → t.mem.byte x = 0) ∧
      SameMemoryOutside [⟨s.cfg.cbBase, s.cfg.cbSize.toNat⟩] s t ∧ SameDoorbells s t ∧ SameResults s t ∧
      (∀ u, exec .bmInit t = .next u → SameMemory t u)

/-- `40_buffer_manager.md` R150, R159, R163, R164: the checks of the BM commands in their order: INIT while CB_VALID is
0 whatever the port, then WRONG_STATE on the wrong port whatever the operand, then INVALID for an id above 1, then
WRONG_STATE for a state word that is not the expected one. None has another effect, and none but the last makes an
access to memory: that one reads the state word. -/
def Obligations.BmChecksInOrder : Prop :=
  ∀ s : State,
    (s.active = .P → JustEnds .bmInit s .wrongState) ∧
    (s.cbValid = false → JustEnds .bmAcqw s .init ∧ JustEnds .bmCommit s .init ∧ JustEnds .bmAcqr s .init ∧
      JustEnds .bmRelease s .init ∧ JustEnds .bmState s .init ∧ ∀ k, JustEnds (.bmStats k) s .init) ∧
    (s.cbValid = true →
      (s.active = .C → JustEnds .bmAcqw s .wrongState ∧ JustEnds .bmCommit s .wrongState) ∧
      (s.active = .P → JustEnds .bmAcqr s .wrongState ∧ JustEnds .bmRelease s .wrongState) ∧
      (1 < s.latch.a0.toNat →
        (s.active = .P → JustEnds .bmCommit s .invalid) ∧ (s.active = .C → JustEnds .bmRelease s .invalid) ∧
        JustEnds .bmState s .invalid) ∧
      ∀ i : BitVec 1, s.latch.a0 = i.zeroExtend 32 → s.quietOn ⟨stateAddr s.cfg i, 4⟩ →
        (s.active = .P → s.bufferState i ≠ stWriting → ReadsAndEnds .bmCommit s .wrongState) ∧
        (s.active = .C → s.bufferState i ≠ stReading → ReadsAndEnds .bmRelease s .wrongState))

/-- `40_buffer_manager.md` R153, R155, `10_state.md` R42: a BM_ACQW attempt takes the IDLE buffer, the one after
LAST_USED first: its state word becomes WRITING, LAST_USED follows, the handle is written, the command ends with OK. -/
def Obligations.AcqwTakesIdleBuffer : Prop :=
  ∀ (s : State) (i : BitVec 1), s.cbValid = true → s.active = .P → s.quietOn (definedFields s.cfg) →
    s.bufferState i = stIdle → (i = s.lastUsed + 1 ∨ s.bufferState (s.lastUsed + 1) ≠ stIdle) →
    ∃ t, exec .bmAcqw s = .next t ∧ Ended t .ok ∧ Undisturbed s t ∧ t.lastUsed = i ∧ t.cbValid = s.cbValid ∧
      HandleOf t i ∧ t.bufferState i = stWriting ∧ SameMemoryOutside [⟨stateAddr s.cfg i, 4⟩] s t ∧ SameDoorbells s t

/-- `40_buffer_manager.md` R155, R156, R157: a BM_ACQW attempt that finds neither buffer IDLE counts the overrun if this
command has not counted one yet; once the timeout has elapsed it counts a timeout and ends with TIMEOUT; before, it
holds. -/
def Obligations.AcqwFindsBothBusy : Prop :=
  ∀ s : State, s.cbValid = true → s.active = .P → s.quietOn (definedFields s.cfg) → (∀ i, s.bufferState i ≠ stIdle) →
    ∃ t, exec .bmAcqw s = .next t ∧ Undisturbed s t ∧ SameDoorbells s t ∧ SameBuffers s t ∧ SameResults s t ∧
      t.overrunCount = s.overrunCount + (if s.latch.counted = true then 0 else 1) ∧
      SameMemoryOutside [⟨overrunAddr s.cfg, 4⟩, ⟨timeoutAddr s.cfg, 4⟩] s t ∧
      (s.latch.a0.toNat ≤ (s.now - s.latch.t0).toNat → Ended t .timeout ∧ t.timeoutCount = s.timeoutCount + 1) ∧
      ((s.now - s.latch.t0).toNat < s.latch.a0.toNat →
        t.act = { s.act with hold := true, latch := { s.latch with counted := true } } ∧
        t.timeoutCount = s.timeoutCount)

/-- `40_buffer_manager.md` R159: BM_COMMIT of a buffer that is WRITING makes it READY, counts the write, stamps it with
the producer's clock and rings the consumer, all in one step; nothing else changes. -/
def Obligations.CommitHandsOff : Prop :=
  ∀ (s : State) (i : BitVec 1), s.cbValid = true → s.active = .P → s.latch.a0 = i.zeroExtend 32 →
    s.quietOn (definedFields s.cfg) → s.bufferState i = stWriting →
    ∃ t, exec .bmCommit s = .next t ∧ Ended t .ok ∧ Undisturbed s t ∧ t.bufferState i = stReady ∧
      t.writeCount i = s.writeCount i + 1 ∧ t.lastWriteTs i = s.portP.clock ∧ Rings .C s t ∧ SameBuffers s t ∧
      SameResults s t ∧ SameMemoryOutside
        [⟨stateAddr s.cfg i, 4⟩, ⟨writeCountAddr s.cfg i, 4⟩, ⟨lastWriteAddr s.cfg i, 8⟩] s t

/-- `40_buffer_manager.md` R160, R161: a BM_ACQR attempt takes the READY buffer with the smaller `last_write_ts`, buffer
0 on a tie: its state word becomes READING, the handle is written, the command ends with OK. -/
def Obligations.AcqrTakesOldestReady : Prop :=
  ∀ (s : State) (i : BitVec 1), s.cbValid = true → s.active = .C → s.quietOn (definedFields s.cfg) →
    s.bufferState i = stReady →
    (s.bufferState (i + 1) ≠ stReady ∨ (s.lastWriteTs i).toNat < (s.lastWriteTs (i + 1)).toNat ∨
      s.lastWriteTs i = s.lastWriteTs (i + 1) ∧ i = 0) →
    ∃ t, exec .bmAcqr s = .next t ∧ Ended t .ok ∧ Undisturbed s t ∧ SameBuffers s t ∧ HandleOf t i ∧
      t.bufferState i = stReading ∧ SameMemoryOutside [⟨stateAddr s.cfg i, 4⟩] s t ∧ SameDoorbells s t

/-- `40_buffer_manager.md` R160, `60_exceptions.md` R344: a BM_ACQR attempt that finds no READY buffer counts a timeout
and ends with TIMEOUT once the timeout has elapsed; before, it holds. -/
def Obligations.AcqrFindsNoneReady : Prop :=
  ∀ s : State, s.cbValid = true → s.active = .C → s.quietOn (definedFields s.cfg) → (∀ i, s.bufferState i ≠ stReady) →
    ∃ t, exec .bmAcqr s = .next t ∧ Undisturbed s t ∧ SameDoorbells s t ∧ SameBuffers s t ∧ SameResults s t ∧
      (s.latch.a0.toNat ≤ (s.now - s.latch.t0).toNat →
        Ended t .timeout ∧ t.timeoutCount = s.timeoutCount + 1 ∧ SameMemoryOutside [⟨timeoutAddr s.cfg, 4⟩] s t) ∧
      ((s.now - s.latch.t0).toNat < s.latch.a0.toNat → t.act = { s.act with hold := true } ∧ SameMemory s t)

/-- `40_buffer_manager.md` R163: BM_RELEASE of a buffer that is READING makes it IDLE, counts the read, stamps it with
the consumer's clock and rings the producer, all in one step; nothing else changes. -/
def Obligations.ReleaseHandsOff : Prop :=
  ∀ (s : State) (i : BitVec 1), s.cbValid = true → s.active = .C → s.latch.a0 = i.zeroExtend 32 →
    s.quietOn (definedFields s.cfg) → s.bufferState i = stReading →
    ∃ t, exec .bmRelease s = .next t ∧ Ended t .ok ∧ Undisturbed s t ∧ t.bufferState i = stIdle ∧
      t.readCount i = s.readCount i + 1 ∧ t.lastReadTs i = s.portC.clock ∧ Rings .P s t ∧ SameBuffers s t ∧
      SameResults s t ∧ SameMemoryOutside
        [⟨stateAddr s.cfg i, 4⟩, ⟨readCountAddr s.cfg i, 4⟩, ⟨lastReadAddr s.cfg i, 8⟩] s t

/-- `40_buffer_manager.md` R164, R165: BM_STATE returns the state word, whatever it holds; BM_STATS returns the field its
selector names, a 64-bit one as two words, and INVALID for a selector above 13. Nothing else changes. -/
def Obligations.BmStateAndStatsRead : Prop :=
  ∀ s : State, s.cbValid = true → s.quietOn (definedFields s.cfg) →
    (∀ i : BitVec 1, s.latch.a0 = i.zeroExtend 32 →
      ∃ t, exec .bmState s = .next t ∧ Ended t .ok ∧ Undisturbed s t ∧ t.act.res0 = s.bufferState i ∧
        t.act.res1 = s.act.res1 ∧ t.act.res2 = s.act.res2 ∧ t.act.res3 = s.act.res3 ∧ SameDoorbells s t ∧
        SameBuffers s t ∧ SameMemory s t) ∧
    (∀ (k : Nat) (v : Word),
      (k, v) ∈ [(0, s.writeCount 0), (1, s.writeCount 1), (2, s.readCount 0), (3, s.readCount 1), (4, s.overrunCount),
        (5, s.timeoutCount), (10, s.mem.word (s.cfg.cbBase + 0x098)), (11, s.mem.word (s.cfg.cbBase + 0x09C)),
        (12, s.mem.word (s.cfg.cbBase + 0x0C0))] →
      ∃ t, exec (.bmStats k) s = .next t ∧ Ended t .ok ∧ Undisturbed s t ∧ t.act.res0 = v ∧
        t.act.res1 = s.act.res1 ∧ t.act.res2 = s.act.res2 ∧ t.act.res3 = s.act.res3 ∧ SameDoorbells s t ∧
        SameBuffers s t ∧ SameMemory s t) ∧
    (∀ (k : Nat) (v : DWord),
      (k, v) ∈ [(6, s.lastWriteTs 0), (7, s.lastWriteTs 1), (8, s.lastReadTs 0), (9, s.lastReadTs 1)] →
      ∃ t, exec (.bmStats k) s = .next t ∧ Ended t .ok ∧ Undisturbed s t ∧ t.act.res0.toNat = v.toNat % 2 ^ 32 ∧
        t.act.res1.toNat = v.toNat / 2 ^ 32 ∧ t.act.res2 = s.act.res2 ∧ t.act.res3 = s.act.res3 ∧
        SameDoorbells s t ∧ SameBuffers s t ∧ SameMemory s t) ∧
    (∀ k : Nat, 13 < k → JustEnds (.bmStats k) s .invalid)

/-- `40_buffer_manager.md` R165, selector 13: the snapshot stores the six counters and the four timestamps at its
address in one step, or is refused with INVALID for an address that is null, misaligned, out of window or over the
defined fields. -/
def Obligations.BmStatsSnapshots : Prop :=
  ∀ s : State, s.cbValid = true → let a := s.latch.a0.toNat
    ((a = 0 ∨ a % 8 ≠ 0 ∨ a < s.cfg.sharedBase.toNat ∨ s.cfg.windowEnd < a + 56 ∨
        (s.cfg.cbBase < a + 56 ∧ a < s.cfg.cbBase + 0x0C4)) →
      JustEnds (.bmStats 13) s .invalid) ∧
    (a ≠ 0 → a % 8 = 0 → s.cfg.sharedBase.toNat ≤ a → a + 56 ≤ s.cfg.windowEnd →
      (a + 56 ≤ s.cfg.cbBase ∨ s.cfg.cbBase + 0x0C4 ≤ a) → s.quietOn (definedFields s.cfg) →
      ∃ t, exec (.bmStats 13) s = .next t ∧ Ended t .ok ∧ Undisturbed s t ∧ SameResults s t ∧ SameDoorbells s t ∧
        SameBuffers s t ∧ SameMemoryOutside [⟨a, 56⟩] s t ∧
        t.mem.word a = s.writeCount 0 ∧ t.mem.word (a + 4) = s.writeCount 1 ∧ t.mem.word (a + 8) = s.readCount 0 ∧
        t.mem.word (a + 12) = s.readCount 1 ∧ t.mem.word (a + 16) = s.overrunCount ∧
        t.mem.word (a + 20) = s.timeoutCount ∧ t.mem.dword (a + 24) = s.lastWriteTs 0 ∧
        t.mem.dword (a + 32) = s.lastWriteTs 1 ∧ t.mem.dword (a + 40) = s.lastReadTs 0 ∧
        t.mem.dword (a + 48) = s.lastReadTs 1)

/-! ## The FFT engine: ownership, checks, races -/

/-- `43_fft_commands.md` R281, R282: with the engine free (or its own), FFT_RINIT fills its slot for N = 4096 or 8192 and
ends with OK; an index above 3 gives INVALID and then any other N gives INVALID_SIZE, with the slots unchanged. The
engine is free afterwards; FE_OWNER then names the port (log 23). -/
def Obligations.RinitFillsSlot : Prop :=
  ∀ (s : State) (k : Nat), (s.feBusy = false ∨ s.feOwner = s.active) →
    ∃ t, exec (.fftRinit k) s = .next t ∧ Frame s t ∧ t.feBusy = false ∧ t.feOwner = s.active ∧
      t.workFree = s.workFree ∧ SameDoorbells s t ∧ SameBuffers s t ∧ SameResults s t ∧ SameMemory s t ∧ SamePeer s t ∧
      (4 ≤ k → Ended t .invalid ∧ SameSlots s t) ∧
      (k < 4 → s.latch.a0 ≠ 4096 → s.latch.a0 ≠ 8192 → Ended t .invalidSize ∧ SameSlots s t) ∧
      (k < 4 → s.latch.a0 = 4096 → Ended t .ok ∧ t.inst k = some ⟨true, 4096, false, true, 2, 2048⟩) ∧
      (k < 4 → s.latch.a0 = 8192 → Ended t .ok ∧ t.inst k = some ⟨true, 8192, false, true, 1, 4096⟩) ∧
      ∀ j, j ≠ k → t.inst j = s.inst j

/-- `43_fft_commands.md` R280, `10_state.md` R44: while the other port's command has the engine every FFT command holds
and changes nothing but HOLD; with the engine free, a command on memory takes it and clears HOLD, in a step of its own
(log 10); and with the engine its own it ends and frees it in that step. -/
def Obligations.EngineHeldTakenFreed : Prop :=
  ∀ (i : Instr) (s : State),
    ((fftOnMemory i = true ∨ ∃ k, i = .fftRinit k) → s.feBusy = true → s.feOwner ≠ s.active →
      exec i s = .next (s.setPort s.active { s.act with hold := true })) ∧
    (fftOnMemory i = true → s.feBusy = false →
      exec i s = .next (((s.setPort s.active { s.act with hold := false }).setFeBusy true).setFeOwner s.active)) ∧
    (fftOnMemory i = true → s.hasEngine →
      ∃ t c, exec i s = .next t ∧ Ended t c ∧ EngineFreed s t)

/-- `43_fft_commands.md` R283, R285, R287, R289, R300: the checks of the FFT commands on memory in their order, by the
first that fails: slot, instance, null, size, K, then alignment, window and overlap. The command has taken the engine
(R280); it frees it, makes no access to memory and has no other effect. -/
def Obligations.FftChecksInOrder : Prop :=
  ∀ (s : State) (k : Nat) (t : InstSlot) (inv br : Bool), s.hasEngine →
    let a0 := s.latch.a0.toNat
    let a1 := s.latch.a1.toNat
    let a2 := s.latch.a2.toNat
    let a3 := s.latch.a3.toNat
    (4 ≤ k → FftJustEnds (.fftRfft k) s .invalid) ∧
    (s.inst k = some t →
      (t.valid = false → FftJustEnds (.fftRfft k) s .init) ∧
      (t.valid = true →
        ((a0 = 0 ∨ a1 = 0) → FftJustEnds (.fftRfft k) s .nullPointer) ∧
        (a0 ≠ 0 → a1 ≠ 0 →
          (a0 % 4 ≠ 0 ∨ a1 % 4 ≠ 0 ∨ inWindow s.cfg ⟨a0, 2 * t.n.toNat⟩ = false ∨
            inWindow s.cfg ⟨a1, 4 * t.n.toNat⟩ = false ∨
            Region.overlaps ⟨a0, 2 * t.n.toNat⟩ ⟨a1, 4 * t.n.toNat⟩ = true) →
          FftJustEnds (.fftRfft k) s .invalid))) ∧
    (∀ i ∈ [Instr.fftCfft inv br, Instr.fftBitrev],
      (a0 = 0 → FftJustEnds i s .nullPointer) ∧
      (a0 ≠ 0 → a1 ∉ [16, 32, 64, 128, 256, 512, 1024, 2048, 4096] → FftJustEnds i s .invalidSize) ∧
      (a0 ≠ 0 → a1 ∈ [16, 32, 64, 128, 256, 512, 1024, 2048, 4096] →
        (a0 % 4 ≠ 0 ∨ inWindow s.cfg ⟨a0, 4 * a1⟩ = false) → FftJustEnds i s .invalid)) ∧
    ((a0 = 0 ∨ a3 = 0) → FftJustEnds (.fftTopbins k) s .nullPointer) ∧
    (a0 ≠ 0 → a3 ≠ 0 →
      (a2 ∉ [4096, 8192] ∨ a1 ≠ a2 → FftJustEnds (.fftTopbins k) s .invalidSize) ∧
      (a2 ∈ [4096, 8192] → a1 = a2 →
        (k < 1 ∨ a2 / 2 < k → FftJustEnds (.fftTopbins k) s .invalid) ∧
        (1 ≤ k → k ≤ a2 / 2 →
          (a0 % 2 ≠ 0 ∨ a3 % 2 ≠ 0 ∨ inWindow s.cfg ⟨a0, 2 * a2⟩ = false ∨ inWindow s.cfg ⟨a3, 2 * k⟩ = false) →
          FftJustEnds (.fftTopbins k) s .invalid)))

/-- `20_memory.md` R97: an FFT command whose input another agent wrote, or part of whose output another agent touched,
leaves any value in every byte it writes and every other byte of memory as it was; no RES register changes, but for RES0
after FFT_TOPBINS (`43_fft_commands.md` R285, R287, R289, R300). That the values are free constants, and that the command
ends, with OK, are the model's choice (log 11): R97 gives it no code. -/
def Obligations.RacedFftLeavesFreeBytes : Prop :=
  ∀ (i : Instr) (s : State) (f : FftRegions), s.hasEngine → fftCheck s s.latch i = some (.ok f) →
    (∃ u ∈ s.latch.touched, (u.write = true ∧ u.region.overlaps f.input = true) ∨
      ∃ r ∈ f.written, u.region.overlaps r = true) →
    ∃ t, exec i s = .next t ∧ Ended t .ok ∧ EngineFreed s t ∧ SameSlots s t ∧
      (t.act.res0 = s.act.res0 ∨ ∃ k, i = .fftTopbins k) ∧ t.act.res1 = s.act.res1 ∧ t.act.res2 = s.act.res2 ∧
      t.act.res3 = s.act.res3 ∧ SameMemoryOutside f.written s t ∧
      ∀ r ∈ f.written, ∀ x, r.has x = true → t.mem.byte x = Config.freeStored s.tick x

/-- `20_memory.md` R97: while a port's FFT command is in flight, an access of another agent is a race with it, if it reads
a byte of what the command writes or writes a byte of what it reads or writes: the access is recorded so that the command's
body finds the race, and what such a read returns is a free value. The other agent is a CPU, or the command of the other
port, whichever it is: what AT_LOAD, AT_CAS, AT_FADD, BM_STATE and BM_STATS read is a free value in a race, and any command
that makes a racing access (`Accesses`), or changes a racing byte, is recorded. The record and the free values are log 11,
that commands and waiting FFT commands take part is log 12, what a CPU's load returned is held for it (log 20). -/
def Obligations.CpuAccessesRace : Prop :=
  (∀ (s : State) (rest : List Event) (q cpu : Port) (f : FftRegions) (w : Width) (a v : Word),
    s.fftRegions q = some f → s.cfg.sharedBase.toNat ≤ a.toNat → a.toNat + w.bytes ≤ s.cfg.windowEnd →
    (a.toNat < s.cfg.coreBase.toNat ∨ s.cfg.coreBase.toNat + 0x300 ≤ a.toNat) →
    (s.schedule = .cpuLoad cpu w a :: rest → (∃ r ∈ f.written, r.overlaps ⟨a.toNat, w.bytes⟩ = true) →
      ∃ t, step s = .next t ∧ t.findsRace q f ∧ SameMemory s t ∧ PlainAccess s t ∧
        (if cpu = .P then t.cpuP else t.cpuC) = BitVec.ofNat 32 (freeValue s a.toNat w.bytes)) ∧
    (s.schedule = .cpuStore cpu w a v :: rest →
      (∃ r ∈ f.input :: f.written, r.overlaps ⟨a.toNat, w.bytes⟩ = true) →
      ∃ t, step s = .next t ∧ t.findsRace q f ∧ PlainAccess s t)) ∧
  ∀ (s : State) (f : FftRegions), s.fftRegions s.active.peer = some f →
    (∀ (i : Instr) (t : State), exec i s = .next t →
      (∀ x, Accesses s i x → x.racesWith f → t.findsRace s.active.peer f) ∧
      (∀ x, (∃ r ∈ f.input :: f.written, r.has x = true) → t.mem.byte x ≠ s.mem.byte x → t.findsRace s.active.peer f)) ∧
    (∀ a, (∃ r ∈ f.written, Region.overlaps ⟨a, 4⟩ r = true) → let free := BitVec.ofNat 32 (freeValue s a 4)
      (s.atomicWord a → ∃ t, exec .atLoad s = .next t ∧ Ended t .ok ∧ t.act.res0 = free ∧ SameMemory s t) ∧
      (s.atomicWritable a →
        (∃ t, exec .atCas s = .next t ∧ Ended t .ok ∧ t.act.res0 = free ∧
          (free = s.latch.a1 → t.act.res1 = 1 ∧ t.mem.word a = s.latch.a2) ∧
          (free ≠ s.latch.a1 → t.act.res1 = 0 ∧ SameMemory s t)) ∧
        ∃ t, exec .atFadd s = .next t ∧ Ended t .ok ∧ t.act.res0 = free ∧ t.mem.word a = free + s.latch.a1) ∧
      (s.cbValid = true →
        (∀ i : BitVec 1, s.latch.a0 = i.zeroExtend 32 → a = s.cfg.cbBase + 0x40 * i.toNat →
          ∃ t, exec .bmState s = .next t ∧ Ended t .ok ∧ t.act.res0 = free ∧ SameMemory s t) ∧
        ∀ k, (k, a, 4) ∈ statFields s.cfg →
          ∃ t, exec (.bmStats k) s = .next t ∧ Ended t .ok ∧ t.act.res0 = free ∧ SameMemory s t)) ∧
    (∀ k a, (∃ r ∈ f.written, Region.overlaps ⟨a, 8⟩ r = true) → s.cbValid = true → (k, a, 8) ∈ statFields s.cfg →
      ∃ t, exec (.bmStats k) s = .next t ∧ Ended t .ok ∧ SameMemory s t ∧
        t.act.res0.toNat = freeValue s a 8 % 2 ^ 32 ∧ t.act.res1.toNat = freeValue s a 8 / 2 ^ 32)

/-! ## The FFT engine: results -/

/-- `43_fft_commands.md` R285, R286: FFT_RFFT, its checks passed and no race, leaves the forward transform of the source,
read as complex samples, in the source, as `42_fft_arith.md` R252 writes it, and its split into N bins in the
destination; nothing else changes. -/
def Obligations.RfftTransforms : Prop :=
  ∀ (s : State) (k : Nat) (t : InstSlot), s.hasEngine → s.inst k = some t → t.valid = true → SlotOk t →
    let n := t.n.toNat
    let src : Region := ⟨s.latch.a0.toNat, 2 * n⟩
    let dst : Region := ⟨s.latch.a1.toNat, 4 * n⟩
    src.base ≠ 0 → dst.base ≠ 0 → src.base % 4 = 0 → dst.base % 4 = 0 → inWindow s.cfg src = true →
    inWindow s.cfg dst = true → src.overlaps dst = false → s.unraced ⟨src, [src, dst]⟩ →
    ∃ u, exec (.fftRfft k) s = .next u ∧ Ended u .ok ∧ EngineFreed s u ∧ u.workFree = s.workFree ∧ SameSlots s u ∧
      SameResults s u ∧ SameMemoryOutside [src, dst] s u ∧
      CfftRule s.cfg.variant (n / 2) false true (s.mem.samples src.base (n / 2)) (u.mem.samples src.base (n / 2)) ∧
      u.mem.samples src.base (n / 2) = cfft s.cfg.variant (n / 2) false true (s.mem.samples src.base (n / 2)) ∧
      u.mem.samples dst.base n = split n (cfft s.cfg.variant (n / 2) false true (s.mem.samples src.base (n / 2)))

/-- `43_fft_commands.md` R287: FFT_CFFT, its checks passed and no race, replaces the M samples of its buffer by their
transform in the direction and order its flags say, as `42_fft_arith.md` R252 writes it; nothing else changes. -/
def Obligations.CfftTransforms : Prop :=
  ∀ (s : State) (inv br : Bool), s.hasEngine → let m := s.latch.a1.toNat
    let buf : Region := ⟨s.latch.a0.toNat, 4 * m⟩
    m ∈ [16, 32, 64, 128, 256, 512, 1024, 2048, 4096] → buf.base ≠ 0 → buf.base % 4 = 0 → inWindow s.cfg buf = true →
    s.unraced ⟨buf, [buf]⟩ →
    ∃ u, exec (.fftCfft inv br) s = .next u ∧ Ended u .ok ∧ EngineFreed s u ∧ u.workFree = s.workFree ∧ SameSlots s u ∧
      SameResults s u ∧ SameMemoryOutside [buf] s u ∧
      CfftRule s.cfg.variant m inv br (s.mem.samples buf.base m) (u.mem.samples buf.base m) ∧
      u.mem.samples buf.base m = cfft s.cfg.variant m inv br (s.mem.samples buf.base m)

/-- `43_fft_commands.md` R289: FFT_BITREV, its checks passed and no race, moves sample `i` of its buffer to the place
whose number is `i` with its log2 M bits reversed; nothing else changes. Where the command reads bytes that the other
port's BUSY FFT command writes, a race (`20_memory.md` R97; that a waiting command takes part is log 12), the model reads
`20_memory.md` R97 so that each read races by itself (log 11, DEDUCED): only the samples read there are any value, and
every other sample still moves as the rule says. -/
def Obligations.BitrevPermutes : Prop :=
  ∀ (s : State) (bits : Nat), s.hasEngine → let m := s.latch.a1.toNat
    let buf : Region := ⟨s.latch.a0.toNat, 4 * m⟩
    m = 2 ^ bits → 4 ≤ bits → bits ≤ 12 → buf.base ≠ 0 → buf.base % 4 = 0 → inWindow s.cfg buf = true →
    s.untouched ⟨buf, [buf]⟩ →
    ∃ u, exec .fftBitrev s = .next u ∧ Ended u .ok ∧ EngineFreed s u ∧ u.workFree = s.workFree ∧ SameSlots s u ∧
      SameResults s u ∧ SameMemoryOutside [buf] s u ∧
      ∀ i j, i < m → j < m → (∀ b, b < bits → j.testBit b = i.testBit (bits - 1 - b)) →
        s.quietOn ⟨buf.base + 4 * i, 4⟩ → u.mem.sample buf.base j = s.mem.sample buf.base i

/-- `43_fft_commands.md` R300: FFT_TOPBINS, its checks passed and no race, stores the K kept bin indices of the source's
spectrum and returns the largest kept magnitude; it writes no other memory. Its working buffers, of MAX_N and 2*MAX_N
values, are left unspecified (`10_state.md` R51, log 4). -/
def Obligations.TopbinsSelects : Prop :=
  ∀ (s : State) (k : Nat), s.hasEngine → let n := s.latch.a2.toNat
    let src : Region := ⟨s.latch.a0.toNat, 2 * n⟩
    let out : Region := ⟨s.latch.a3.toNat, 2 * k⟩
    n ∈ [4096, 8192] → s.latch.a1 = s.latch.a2 → 1 ≤ k → k ≤ n / 2 → src.base ≠ 0 → out.base ≠ 0 →
    src.base % 2 = 0 → out.base % 2 = 0 → inWindow s.cfg src = true → inWindow s.cfg out = true →
    s.unraced ⟨src, [out]⟩ →
    let kept := topBins n k (split n (cfft s.cfg.variant (n / 2) false true (s.mem.samples src.base (n / 2))))
    ∃ u, exec (.fftTopbins k) s = .next u ∧ Ended u .ok ∧ EngineFreed s u ∧ SameSlots s u ∧
      SameMemoryOutside [out] s u ∧ kept.length = k ∧
      (∀ j (r : TopBin), kept[j]? = some r → leValue (u.mem.read (out.base + 2 * j) 2) = r.index) ∧
      (∀ r : TopBin, kept.head? = some r → u.act.res0.toNat = r.mag) ∧
      u.act.res1 = s.act.res1 ∧ u.act.res2 = s.act.res2 ∧ u.act.res3 = s.act.res3 ∧
      u.wb.length = 8192 ∧ u.ob.length = 16384 ∧ ∀ q ∈ u.wb ++ u.ob, IsQ15 q

/-! ## The FFT engine: arithmetic -/

/-- `42_fft_arith.md` R238: every twiddle factor is the floor of the exact cosine and sine, saturated. -/
def Obligations.TwiddlesAreExactFloors : Prop :=
  ∀ L ∈ [4, 8, 16, 32, 64, 128, 256, 512, 1024, 2048, 4096], ∀ k : Nat,
    twiddle L k = (sat16 ⌊32768 * Real.cos (2 * Real.pi * k / L)⌋, sat16 ⌊32768 * Real.sin (2 * Real.pi * k / L)⌋)

/-- `42_fft_arith.md` R240: every real-FFT coefficient is the exact value rounded half away from zero, saturated. -/
def Obligations.RealCoefficientsAreRounded : Prop :=
  let rnd : ℝ → Int := fun x => sat16 (if 0 ≤ x then ⌊32768 * x + 1 / 2⌋ else -⌊32768 * -x + 1 / 2⌋)
  ∀ N ∈ [4096, 8192], ∀ i : Nat, i < N →
    realCoef N i = ⟨rnd (0.5 * (1 - Real.sin (2 * Real.pi * i / N))), rnd (-0.5 * Real.cos (2 * Real.pi * i / N)),
      rnd (0.5 * (1 + Real.sin (2 * Real.pi * i / N))), rnd (0.5 * Real.cos (2 * Real.pi * i / N))⟩

/-- `42_fft_arith.md` R243, R244, R245: the first, the middle and the last stages on `blocks` blocks of `4 * q` samples
give each butterfly the sums, the halving, the leg and the twiddle factor that its rule names, for both arithmetic
variants and both directions. For any butterfly `f` a stage takes and leaves the samples in the same four places. -/
def Obligations.StagesPlaceButterflies : Prop :=
  (∀ (f : Nat → Sample → Sample → Sample → Sample → Quad) (blocks q b j : Nat) (x : List Sample) (z : Quad),
    x.length = blocks * (4 * q) → b < blocks → j < q → QuadAt x (4 * q * b + j) q z →
    QuadAt (fftStage f (blocks * (4 * q)) (4 * q) x) (4 * q * b + j) q (f j z.s0 z.s1 z.s2 z.s3)) ∧
  ∀ (v : ArithVariant) (inv : Bool) (blocks q : Nat) (x : List Sample), 0 < q → x.length = blocks * (4 * q) →
    StageRule (FirstRule v inv (4 * q)) (4 * q) x
      (fftStage (firstButterfly v inv (4 * q)) (blocks * (4 * q)) (4 * q) x) ∧
    StageRule (MiddleRule v inv (4 * q)) (4 * q) x
      (fftStage (middleButterfly v inv (4 * q)) (blocks * (4 * q)) (4 * q) x) ∧
    (q = 1 → StageRule (fun _ => LastRule v inv) 4 x (fftStage (lastButterfly v inv) (blocks * (4 * q)) 4 x))

/-- `42_fft_arith.md` R235, R236, R242 to R252: a complex transform of M samples is what the rules say: radix-4 in its
stages for a power of 4, else the pre-pass, two radix-4 transforms and the post-scale; then the bit reversal, if asked
for; with PORTABLE and with SIMD halving, forward and inverse. -/
def Obligations.TransformsFollowTheRules : Prop :=
  ∀ (v : ArithVariant) (M : Nat) (inv br : Bool) (x : List Sample), M ∈ Config.cfftSizes → x.length = M →
    CfftRule v M inv br x (cfft v M inv br x)

/-- `42_fft_arith.md` R233, R252: halving sums and differences of Q15 values stay in Q15 without saturation, and so does
every sample of a complex transform of M samples, of which there are M. -/
def Obligations.TransformsStayInRange : Prop :=
  ∀ v : ArithVariant,
    (∀ a b, IsQ15 a → IsQ15 b → IsQ15 (hadd v a b) ∧ IsQ15 (hsub v a b)) ∧
    ∀ M ∈ Config.cfftSizes, ∀ (inv br : Bool) (x : List Sample), x.length = M → (∀ z ∈ x, IsQ15Sample z) →
      (cfft v M inv br x).length = M ∧ ∀ z ∈ cfft v M inv br x, IsQ15Sample z

/-- `42_fft_arith.md` R253, R254, R255: the split gives N bins; bins 0 and N/2 are real; bin i and bin N-i come from the
same exact sums, the second with the imaginary part negated before it is saturated. -/
def Obligations.SplitBinsAreConjugate : Prop :=
  ∀ N ∈ [4096, 8192], ∀ z : List Sample, z.length = N / 2 →
    (split N z).length = N ∧
    (∀ z0, z[0]? = some z0 → (split N z)[0]? = some (sat16 ((z0.1 + z0.2) / 2), 0) ∧
      (split N z)[N / 2]? = some (sat16 ((z0.1 - z0.2) / 2), 0)) ∧
    ∀ i, 1 ≤ i → i < N / 2 → ∀ x y, z[i]? = some x → z[N / 2 - i]? = some y → let k := realCoef N i
      let vR := (x.1 * k.ar - x.2 * k.ai + y.1 * k.br + y.2 * k.bi) / 65536
      let vI := (y.1 * k.bi - y.2 * k.br + x.2 * k.ar + x.1 * k.ai) / 65536
      (split N z)[i]? = some (sat16 vR, sat16 vI) ∧ (split N z)[N - i]? = some (sat16 vR, sat16 (-vI))

/-- `42_fft_arith.md` R251: bit reversal applied twice is the identity. -/
def Obligations.BitReversalIsInvolution : Prop :=
  ∀ (bits : Nat) (x : List Sample), 1 ≤ bits → x.length = 2 ^ bits →
    bitReverse (2 ^ bits) (bitReverse (2 ^ bits) x) = x

/-- `43_fft_commands.md` R290: FFT_BITREV issued twice on the same buffer, without a race and with nothing written
between, restores every byte of memory. -/
def Obligations.BitrevTwiceRestoresMemory : Prop :=
  ∀ s t u w : State, let m := s.latch.a1.toNat
    let buf : Region := ⟨s.latch.a0.toNat, 4 * m⟩
    s.hasEngine → m ∈ Config.cfftSizes → buf.base ≠ 0 → buf.base % 4 = 0 → inWindow s.cfg buf = true →
    s.unraced ⟨buf, [buf]⟩ → exec .fftBitrev s = .next t →
    u.hasEngine → u.cfg = s.cfg → u.latch.a0 = s.latch.a0 → u.latch.a1 = s.latch.a1 → u.mem = t.mem →
    u.unraced ⟨buf, [buf]⟩ → exec .fftBitrev u = .next w → SameMemory s w

/-- `43_fft_commands.md` R300, R301: the kept records are K, in descending order of magnitude with the lower bin first
among equals; each is a distinct bin 1 .. N/2 with its magnitude, not 0, or the empty record; and a bin that is not kept
is no larger than any kept record, and where it equals one that is not empty it is a later bin: at the cut, as before it,
the earlier of two equal bins is kept. -/
def Obligations.TopBinsAreTheLargest : Prop :=
  ∀ (N K : Nat) (bins : List Sample), 1 ≤ K →
    let kept := topBins N K bins
    kept.length = K ∧
    kept.Pairwise (fun r t => t.mag < r.mag ∨ t.mag = r.mag ∧ (r.mag = 0 ∨ r.index < t.index)) ∧
    (∀ r ∈ kept, r = ⟨0, 0⟩ ∨
      1 ≤ r.index ∧ r.index ≤ N / 2 ∧ 0 < r.mag ∧ r.mag = magSquared (bins.getD r.index (0, 0))) ∧
    ∀ b, 1 ≤ b → b ≤ N / 2 → (∀ r ∈ kept, r.index ≠ b) → ∀ r ∈ kept,
      magSquared (bins.getD b (0, 0)) ≤ r.mag ∧
      (r ≠ ⟨0, 0⟩ → magSquared (bins.getD b (0, 0)) = r.mag → r.index < b)

/-- `43_fft_commands.md` R302 (b): a constant real input has a zero spectrum outside DC in both variants, so every kept
record of FFT_TOPBINS is the empty one. -/
def Obligations.ConstantInputHasNoBins : Prop :=
  ∀ (v : ArithVariant) (c : Int), IsQ15 c → ∀ N ∈ [4096, 8192],
    let bins := (realFft v N (List.replicate (N / 2) (c, c))).2
    (∀ i, 1 ≤ i → i < N → bins[i]? = some (0, 0)) ∧ ∀ K, topBins N K bins = List.replicate K ⟨0, 0⟩

/-! ## Invariants and rules of the whole machine -/

/-- `20_memory.md` R81, R82: every step keeps memory in its canonical form, with nothing listed outside the shared
window. The canonical form is the model's. -/
def Obligations.StepKeepsMemory : Prop :=
  ∀ s t : State, s.cfg.wf = true → s.memoryOk → step s = .next t → t.memoryOk ∧ t.cfg = s.cfg

/-- `10_state.md` R38, R39, R44, R48, `60_exceptions.md` R330, `70_reset_and_hazards.md` R370: every step keeps the
control state: a port holds only while BUSY and has no in-flight state otherwise, no reserved code is written, a slot is
empty or as FFT_RINIT fills it, the engine is busy only for an FFT command on memory in flight, and nothing is in flight
while reset is asserted. -/
def Obligations.StepKeepsControl : Prop :=
  ∀ s t : State, s.ControlOk → step s = .next t → t.ControlOk

/-- The machine after power-up meets both invariants, whatever its parameters. `State.reset` is that machine with the
default parameters and an empty memory, which are the model's choice (log 1, log 2, log 3), as are the zeros of the idle
latch (log 5). -/
def Obligations.ResetMeetsInvariants : Prop :=
  (∀ c : Config, (State.powerUp c []).memoryOk ∧ (State.powerUp c []).ControlOk) ∧
    State.reset = State.powerUp Config.default [] ∧ Config.default.wf = true ∧ State.reset.memoryOk ∧
    State.reset.ControlOk

/-- `10_state.md` R34, clause (2): the counters of each buffer agree with its state word after every step, if they do
before it, while no CPU stores to the defined fields (R375) and no FFT command writes them (log 25). -/
def Obligations.StepKeepsCounters : Prop :=
  ∀ (s t : State) (b : BitVec 1), s.cfg.wf = true → s.fieldsQuiet →
    (∀ e, s.nextEvent = some e → ¬ e.storesInto (definedFields s.cfg)) →
    s.countersAgree b → step s = .next t → t.countersAgree b

/-- `40_buffer_manager.md` R151, `10_state.md` R34: BM_INIT makes the counters of both buffers agree with their states. -/
def Obligations.BmInitMakesCountersAgree : Prop :=
  ∀ s t : State, s.cfg.wf = true → s.active = .C → exec .bmInit s = .next t → ∀ b, t.countersAgree b

/-- `40_buffer_manager.md` R166, `10_state.md` R34, clause (3): a command changes a state word only along an edge of the
ownership machine: by the command and on the port that the edge names. A command that writes the defined fields as an
FFT region is left out (log 25). -/
def Obligations.StateWordsMoveByEdges : Prop :=
  ∀ (i : Instr) (s t : State) (b : BitVec 1), s.quietOn (definedFields s.cfg) →
    (∀ f, fftCheck s s.latch i = some (.ok f) → ∀ r ∈ f.written, r.overlaps (definedFields s.cfg) = false) →
    exec i s = .next t →
    t.bufferState b = s.bufferState b ∨ StateEdge i s.active (s.bufferState b) (t.bufferState b)

/-- `10_state.md` R38, R42, R43, R46, `41_notifier_atomics.md` R205: a command raises a doorbell only as BM_COMMIT,
BM_RELEASE or a notify and clears none; only BM_ACQW changes LAST_USED, only BM_INIT sets CB_VALID and nothing clears it,
only FFT_RINIT changes a slot, and only FFT_TOPBINS the working buffers (`10_state.md` R51). -/
def Obligations.CommandsWriteOnlyTheirOwn : Prop :=
  ∀ (i : Instr) (s t : State), exec i s = .next t →
    ((s.port .C).db = false → (t.port .C).db = true → i = .bmCommit ∨ i = .ntNotifyC) ∧
    ((s.port .P).db = false → (t.port .P).db = true → i = .bmRelease ∨ i = .ntNotifyP) ∧
    (∀ p, (s.port p).db = true → (t.port p).db = true) ∧
    (t.lastUsed ≠ s.lastUsed → i = .bmAcqw) ∧
    (s.cbValid = true → t.cbValid = true) ∧ (t.cbValid ≠ s.cbValid → i = .bmInit) ∧
    (∀ k, t.inst k ≠ s.inst k → i = .fftRinit k) ∧
    (t.wb = s.wb ∧ t.ob = s.ob ∨ ∃ k, i = .fftTopbins k)

/-- `60_exceptions.md` R331, R332: a command of a BUSY port that ends with a code other than OK and TIMEOUT has changed
no memory, RES register, doorbell, buffer-manager register or instance slot. -/
def Obligations.FailedCommandsHaveNoEffect : Prop :=
  ∀ (i : Instr) (s t : State), s.act.busy = true → exec i s = .next t → t.act.busy = false → t.act.code ≠ .ok →
    t.act.code ≠ .timeout →
    Frame s t ∧ SameMemory s t ∧ SameResults s t ∧ SameDoorbells s t ∧ SameBuffers s t ∧ SameSlots s t

/-- `10_state.md` R37, R39, R48, `70_reset_and_hazards.md` R379: while a port's command is in flight no step changes its
latched word, its arguments or its start time, nor its code and its RES registers, and the overrun flag is not cleared. -/
def Obligations.InFlightCommandIsFixed : Prop :=
  ∀ (s t : State) (p : Port), step s = .next t → (s.port p).busy = true → (t.port p).busy = true →
    (t.port p).latch.word = (s.port p).latch.word ∧ (t.port p).latch.a0 = (s.port p).latch.a0 ∧
    (t.port p).latch.a1 = (s.port p).latch.a1 ∧ (t.port p).latch.a2 = (s.port p).latch.a2 ∧
    (t.port p).latch.a3 = (s.port p).latch.a3 ∧ (t.port p).latch.t0 = (s.port p).latch.t0 ∧
    ((s.port p).latch.counted = true → (t.port p).latch.counted = true) ∧ (t.port p).code = (s.port p).code ∧
    (t.port p).cmd = (s.port p).cmd ∧ (t.port p).res0 = (s.port p).res0 ∧ (t.port p).res1 = (s.port p).res1 ∧
    (t.port p).res2 = (s.port p).res2 ∧ (t.port p).res3 = (s.port p).res3

/-- `10_state.md` R34, clause (4), `40_buffer_manager.md` R156: `overrun_count` changes only by BM_INIT, to 0, or by a
BM_ACQW that has not counted, by 1, which then has counted or has ended: with `InFlightCommandIsFixed`, at most once a
command. -/
def Obligations.OverrunIsCountedOnce : Prop :=
  ∀ (i : Instr) (s t : State), s.cfg.wf = true → s.quietOn (definedFields s.cfg) →
    (∀ f, fftCheck s s.latch i = some (.ok f) → ∀ r ∈ f.written, r.overlaps (definedFields s.cfg) = false) →
    exec i s = .next t → t.overrunCount ≠ s.overrunCount →
    (i = .bmInit ∧ t.overrunCount = 0) ∨
    (i = .bmAcqw ∧ s.latch.counted = false ∧ t.overrunCount = s.overrunCount + 1 ∧
      (t.latch.counted = true ∨ Ended t .timeout))
end

