-- ==== Sys2Proof/Laws/Memory.lean ====
section
/-! SUPPORT. The laws of shared memory: what a byte reads as after a write, that every write keeps the canonical form,
that equal bytes mean equal memories, and the round trips of little-endian values. -/

namespace Sys2Proof.Machine

/-! ## Lookups -/

theorem lookup_eq_none_of_keys {m : Memory} {x : Nat} (h : ∀ c ∈ m, c.1 ≠ x) : m.lookup x = none := by
  induction m with
  | nil => rfl
  | cons c m ih =>
    obtain ⟨k, b⟩ := c
    have hk : (x == k) = false := by
      have := h (k, b) (by simp)
      simpa using fun e : x = k => this e.symm
    rw [List.lookup_cons, hk]
    exact ih fun d hd => h d (by simp [hd])

theorem lookup_filter_of_pos {m : Memory} {x : Nat} {p : Nat → Bool} (h : p x = true) :
    (m.filter (fun c => p c.1)).lookup x = m.lookup x := by
  induction m with
  | nil => rfl
  | cons c m ih =>
    obtain ⟨k, b⟩ := c
    by_cases hp : p k = true
    · simp only [List.filter_cons, hp, if_true, List.lookup_cons, ih]
    · have hk : (x == k) = false := by
        simp only [beq_eq_false_iff_ne]
        rintro rfl
        exact hp h
      simp only [List.filter_cons, hp, List.lookup_cons, hk]
      simpa using ih

theorem lookup_filter_of_neg {m : Memory} {x : Nat} {p : Nat → Bool} (h : p x = false) :
    (m.filter (fun c => p c.1)).lookup x = none := by
  apply lookup_eq_none_of_keys
  intro c hc
  have := (List.mem_filter.mp hc).2
  rintro rfl
  simp [h] at this

theorem cells_keys {a : Nat} {bs : List Byte} {c : Host.Cell} (h : c ∈ Memory.cells a bs) :
    a ≤ c.1 ∧ c.1 < a + bs.length ∧ c.2 ≠ Memory.unlisted := by
  induction bs generalizing a with
  | nil => simp [Memory.cells] at h
  | cons b bs ih =>
    unfold Memory.cells at h
    split at h
    · have := ih h
      simp only [List.length_cons]
      exact ⟨by omega, by omega, this.2.2⟩
    · next hb =>
      rcases List.mem_cons.mp h with rfl | h
      · exact ⟨le_refl _, by simp, hb⟩
      · have := ih h
        simp only [List.length_cons]
        exact ⟨by omega, by omega, this.2.2⟩

theorem lookup_cells {a x : Nat} {bs : List Byte} :
    ((Memory.cells a bs).lookup x).getD Memory.unlisted =
      if a ≤ x then bs.getD (x - a) Memory.unlisted else Memory.unlisted := by
  induction bs generalizing a with
  | nil => simp [Memory.cells]
  | cons b bs ih =>
    unfold Memory.cells
    by_cases hx : x = a
    · subst hx
      have hn : (Memory.cells (x + 1) bs).lookup x = none :=
        lookup_eq_none_of_keys fun c hc => by have := (cells_keys hc).1; omega
      split
      · next hb => simp [hn, hb]
      · simp
    · have hb : (x == a) = false := by simpa using hx
      have hr : ((Memory.cells (a + 1) bs).lookup x).getD Memory.unlisted =
          if a ≤ x then (b :: bs).getD (x - a) Memory.unlisted else Memory.unlisted := by
        rw [ih]
        by_cases hle : a ≤ x
        · have h1 : a + 1 ≤ x := by omega
          have h2 : x - a = (x - (a + 1)) + 1 := by omega
          simp [hle, h1, h2]
        · have h1 : ¬ a + 1 ≤ x := by omega
          simp [hle, h1]
      split
      · exact hr
      · simpa [List.lookup_cons, hb] using hr

/-! ## Bytes after a write -/

/-- What a byte reads as after a run of bytes is stored: one of the run inside it, what it was outside. -/
theorem Memory.byte_write (m : Memory) (a : Nat) (bs : List Byte) (x : Nat) :
    (m.write a bs).byte x =
      if a ≤ x ∧ x < a + bs.length then bs.getD (x - a) Memory.unlisted else m.byte x := by
  have hlow := @lookup_filter_of_pos m x (fun k => decide (k < a))
  have hlow' := @lookup_filter_of_neg m x (fun k => decide (k < a))
  have hhigh := @lookup_filter_of_pos m x (fun k => decide (a + bs.length ≤ k))
  have hhigh' := @lookup_filter_of_neg m x (fun k => decide (a + bs.length ≤ k))
  unfold Memory.write Memory.byte
  simp only [List.lookup_append]
  by_cases h1 : x < a
  · have hc : (Memory.cells a bs).lookup x = none :=
      lookup_eq_none_of_keys fun c hc => by have := (cells_keys hc).1; omega
    have h2 : ¬ (a ≤ x ∧ x < a + bs.length) := by omega
    have h3 : ¬ a + bs.length ≤ x := by omega
    rw [hlow (by simpa using h1), hhigh' (by simpa using h3), hc]
    simp [h2]
  · rw [hlow' (by simpa using h1)]
    by_cases h2 : x < a + bs.length
    · rw [hhigh' (by simp only [decide_eq_false_iff_not]; omega)]
      have := @lookup_cells a x bs
      simp only [Option.none_or, Option.or_none]
      rw [this]
      have : a ≤ x := by omega
      simp [this, h2]
    · have hc : (Memory.cells a bs).lookup x = none :=
        lookup_eq_none_of_keys fun c hc => by have := (cells_keys hc).2.1; omega
      rw [hhigh (by simp only [decide_eq_true_eq]; omega), hc]
      simp [h2]

/-- A write leaves every byte outside its run alone. -/
theorem Memory.byte_write_outside {m : Memory} {a : Nat} {bs : List Byte} {x : Nat}
    (h : x < a ∨ a + bs.length ≤ x) : (m.write a bs).byte x = m.byte x := by
  rw [Memory.byte_write, if_neg (by omega)]

/-- A byte inside the run reads as stored. -/
theorem Memory.byte_write_inside {m : Memory} {a k : Nat} {bs : List Byte} (h : k < bs.length) :
    (m.write a bs).byte (a + k) = bs[k] := by
  rw [Memory.byte_write, if_pos (by omega)]
  simp [h]

/-- What a byte reads as after a run is zeroed. -/
theorem Memory.byte_zero (m : Memory) (a n x : Nat) :
    (m.zero a n).byte x = if a ≤ x ∧ x < a + n then 0 else m.byte x := by
  have hlow := @lookup_filter_of_pos m x (fun k => decide (k < a))
  have hlow' := @lookup_filter_of_neg m x (fun k => decide (k < a))
  have hhigh := @lookup_filter_of_pos m x (fun k => decide (a + n ≤ k))
  have hhigh' := @lookup_filter_of_neg m x (fun k => decide (a + n ≤ k))
  unfold Memory.zero Memory.byte
  simp only [List.lookup_append]
  by_cases h1 : x < a
  · have h2 : ¬ (a ≤ x ∧ x < a + n) := by omega
    have h3 : ¬ a + n ≤ x := by omega
    rw [hlow (by simpa using h1), hhigh' (by simpa using h3)]
    simp [h2]
  · rw [hlow' (by simpa using h1)]
    by_cases h2 : x < a + n
    · rw [hhigh' (by simp only [decide_eq_false_iff_not]; omega)]
      have : a ≤ x := by omega
      simp [this, h2, Memory.unlisted]
    · rw [hhigh (by simp only [decide_eq_true_eq]; omega)]
      simp [h2]

/-! ## Runs of bytes -/

@[simp] theorem Memory.length_read (m : Memory) (a n : Nat) : (m.read a n).length = n := by simp [Memory.read]

/-- A run just stored reads back. -/
theorem Memory.read_write_same (m : Memory) (a : Nat) (bs : List Byte) : (m.write a bs).read a bs.length = bs := by
  apply List.ext_getElem
  · simp
  · intro k h1 h2
    simp only [Memory.read, List.getElem_map, List.getElem_range]
    exact Memory.byte_write_inside h2

/-- A run that shares no byte with the stored one reads as before. -/
theorem Memory.read_write_disjoint {m : Memory} {a b n : Nat} {bs : List Byte}
    (h : b + n ≤ a ∨ a + bs.length ≤ b) : (m.write a bs).read b n = m.read b n := by
  apply List.map_congr_left
  intro k hk
  have := List.mem_range.mp hk
  exact Memory.byte_write_outside (by omega)

/-- Runs are equal when their bytes are. -/
theorem Memory.read_congr {m m' : Memory} {a n : Nat} (h : ∀ x, a ≤ x → x < a + n → m.byte x = m'.byte x) :
    m.read a n = m'.read a n := by
  apply List.map_congr_left
  intro k hk
  have := List.mem_range.mp hk
  exact h _ (by omega) (by omega)

/-! ## The canonical form -/

theorem Memory.wf_iff (m : Memory) :
    m.wf = true ↔ m.Pairwise (fun a b => a.1 < b.1) ∧ ∀ c ∈ m, c.2 ≠ Memory.unlisted := by
  simp [Memory.wf]

theorem cells_rising (a : Nat) (bs : List Byte) : (Memory.cells a bs).Pairwise (fun a b => a.1 < b.1) := by
  induction bs generalizing a with
  | nil => simp [Memory.cells]
  | cons b bs ih =>
    unfold Memory.cells
    split
    · exact ih _
    · exact List.pairwise_cons.mpr ⟨fun c hc => by have := (cells_keys hc).1; simp; omega, ih _⟩

/-- Every write keeps the canonical form. -/
theorem Memory.wf_write {m : Memory} (h : m.wf = true) (a : Nat) (bs : List Byte) : (m.write a bs).wf = true := by
  rw [Memory.wf_iff] at h ⊢
  obtain ⟨hp, hb⟩ := h
  constructor
  · unfold Memory.write
    rw [List.append_assoc, List.pairwise_append, List.pairwise_append]
    refine ⟨hp.filter _, ⟨cells_rising a bs, hp.filter _, ?_⟩, ?_⟩
    · intro c hc d hd
      have h1 := cells_keys hc
      have h2 := (List.mem_filter.mp hd).2
      simp only [decide_eq_true_eq] at h2
      omega
    · intro c hc d hd
      have h1 := (List.mem_filter.mp hc).2
      simp only [decide_eq_true_eq] at h1
      rcases List.mem_append.mp hd with hd | hd
      · have h2 := cells_keys hd
        omega
      · have h2 := (List.mem_filter.mp hd).2
        simp only [decide_eq_true_eq] at h2
        omega
  · intro c hc
    unfold Memory.write at hc
    rcases List.mem_append.mp hc with hc | hc
    · rcases List.mem_append.mp hc with hc | hc
      · exact hb c (List.mem_filter.mp hc).1
      · exact (cells_keys hc).2.2
    · exact hb c (List.mem_filter.mp hc).1

/-- Zeroing keeps the canonical form. -/
theorem Memory.wf_zero {m : Memory} (h : m.wf = true) (a n : Nat) : (m.zero a n).wf = true := by
  rw [Memory.wf_iff] at h ⊢
  obtain ⟨hp, hb⟩ := h
  constructor
  · unfold Memory.zero
    rw [List.pairwise_append]
    refine ⟨hp.filter _, hp.filter _, ?_⟩
    intro c hc d hd
    have h1 := (List.mem_filter.mp hc).2
    have h2 := (List.mem_filter.mp hd).2
    simp only [decide_eq_true_eq] at h1 h2
    omega
  · intro c hc
    unfold Memory.zero at hc
    rcases List.mem_append.mp hc with hc | hc
    · exact hb c (List.mem_filter.mp hc).1
    · exact hb c (List.mem_filter.mp hc).1

/-- The entries after a write are old ones or lie in the written run. -/
theorem Memory.mem_write {m : Memory} {a : Nat} {bs : List Byte} {c : Host.Cell} (h : c ∈ m.write a bs) :
    c ∈ m ∨ (a ≤ c.1 ∧ c.1 < a + bs.length) := by
  unfold Memory.write at h
  rcases List.mem_append.mp h with h | h
  · rcases List.mem_append.mp h with h | h
    · exact .inl (List.mem_filter.mp h).1
    · exact .inr ⟨(cells_keys h).1, (cells_keys h).2.1⟩
  · exact .inl (List.mem_filter.mp h).1

/-- The entries after zeroing are old ones. -/
theorem Memory.mem_zero {m : Memory} {a n : Nat} {c : Host.Cell} (h : c ∈ m.zero a n) : c ∈ m := by
  unfold Memory.zero at h
  rcases List.mem_append.mp h with h | h <;> exact (List.mem_filter.mp h).1

theorem byte_head {c : Host.Cell} {m : Memory} : Memory.byte (c :: m) c.1 = c.2 := by
  obtain ⟨k, b⟩ := c
  simp [Memory.byte]

theorem byte_of_lt_head {m : Memory} {x : Nat} (h : ∀ c ∈ m, x < c.1) : m.byte x = Memory.unlisted := by
  rw [Memory.byte, lookup_eq_none_of_keys fun c hc => by have := h c hc; omega]
  rfl

/-- In canonical form, memories whose bytes are equal are equal. -/
theorem Memory.ext_bytes {m m' : Memory} (h : m.wf = true) (h' : m'.wf = true) (e : ∀ x, m.byte x = m'.byte x) :
    m = m' := by
  rw [Memory.wf_iff] at h h'
  obtain ⟨hp, hb⟩ := h
  obtain ⟨hp', hb'⟩ := h'
  induction m generalizing m' with
  | nil =>
    cases m' with
    | nil => rfl
    | cons d m' =>
      have := e d.1
      rw [byte_head] at this
      exact absurd this.symm (by simpa [Memory.byte] using hb' d (by simp))
  | cons c m ih =>
    cases m' with
    | nil =>
      have := e c.1
      rw [byte_head] at this
      exact absurd this (by simpa [Memory.byte] using hb c (by simp))
    | cons d m' =>
      have hc := List.pairwise_cons.mp hp
      have hd := List.pairwise_cons.mp hp'
      have hk : c.1 = d.1 := by
        rcases lt_trichotomy c.1 d.1 with hlt | heq | hgt
        · have h1 := e c.1
          rw [byte_head, byte_of_lt_head (m := d :: m')] at h1
          · exact absurd h1 (hb c (by simp))
          · intro x hx
            rcases List.mem_cons.mp hx with rfl | hx
            · exact hlt
            · exact hlt.trans (hd.1 x hx)
        · exact heq
        · have h1 := e d.1
          rw [byte_head, byte_of_lt_head (m := c :: m)] at h1
          · exact absurd h1.symm (hb' d (by simp))
          · intro x hx
            rcases List.mem_cons.mp hx with rfl | hx
            · exact hgt
            · exact hgt.trans (hc.1 x hx)
      have hv : c.2 = d.2 := by
        have h1 := e c.1
        rw [byte_head, hk, byte_head] at h1
        exact h1
      have hcd : c = d := Prod.ext hk hv
      subst hcd
      congr 1
      refine ih (fun x => ?_) hc.2 (fun y hy => hb y (by simp [hy])) hd.2 (fun y hy => hb' y (by simp [hy]))
      by_cases hx : x = c.1
      · subst hx
        rw [byte_of_lt_head fun y hy => hc.1 y hy, byte_of_lt_head fun y hy => hd.1 y hy]
      · have h1 := e x
        obtain ⟨k, v⟩ := c
        have hb : (x == k) = false := by simpa using hx
        simpa [Memory.byte, List.lookup_cons, hb] using h1

/-! ## Little-endian values -/

@[simp] theorem length_leBytes (n v : Nat) : (leBytes n v).length = n := by
  induction n generalizing v with
  | zero => rfl
  | succ n ih => simp [leBytes, ih]

@[simp] theorem length_wordBytes (v : Word) : (wordBytes v).length = 4 := by simp [wordBytes]

@[simp] theorem length_dwordBytes (v : DWord) : (dwordBytes v).length = 8 := by simp [dwordBytes]

/-- The bytes of a number give it back, modulo their width. -/
theorem leValue_leBytes (n v : Nat) : leValue (leBytes n v) = v % 256 ^ n := by
  induction n generalizing v with
  | zero => simp [leBytes, leValue, Nat.mod_one]
  | succ n ih =>
    have hb : (BitVec.ofNat 8 v).toNat = v % 256 := by simp
    rw [leBytes, leValue, ih, hb, pow_succ, Nat.mul_comm (256 ^ n) 256, Nat.mod_mul]

theorem leValue_lt (bs : List Byte) : leValue bs < 256 ^ bs.length := by
  induction bs with
  | nil => simp [leValue]
  | cons b bs ih =>
    have := b.isLt
    simp only [leValue, List.length_cons, Nat.pow_succ]
    omega

/-- A word just stored reads back. -/
theorem Memory.word_write_same (m : Memory) (a : Nat) (v : Word) : (m.write a (wordBytes v)).word a = v := by
  have h := Memory.read_write_same m a (wordBytes v)
  rw [length_wordBytes] at h
  rw [Memory.word, h, wordBytes, leValue_leBytes]
  apply BitVec.eq_of_toNat_eq
  have := v.isLt
  simp only [BitVec.toNat_ofNat]
  omega

/-- A double word just stored reads back. -/
theorem Memory.dword_write_same (m : Memory) (a : Nat) (v : DWord) : (m.write a (dwordBytes v)).dword a = v := by
  have h := Memory.read_write_same m a (dwordBytes v)
  rw [length_dwordBytes] at h
  rw [Memory.dword, h, dwordBytes, leValue_leBytes]
  apply BitVec.eq_of_toNat_eq
  have := v.isLt
  simp only [BitVec.toNat_ofNat]
  omega

/-- A word that shares no byte with a stored run reads as before. -/
theorem Memory.word_write_disjoint {m : Memory} {a b : Nat} {bs : List Byte}
    (h : b + 4 ≤ a ∨ a + bs.length ≤ b) : (m.write a bs).word b = m.word b := by
  rw [Memory.word, Memory.word, Memory.read_write_disjoint h]

/-- A double word that shares no byte with a stored run reads as before. -/
theorem Memory.dword_write_disjoint {m : Memory} {a b : Nat} {bs : List Byte}
    (h : b + 8 ≤ a ∨ a + bs.length ≤ b) : (m.write a bs).dword b = m.dword b := by
  rw [Memory.dword, Memory.dword, Memory.read_write_disjoint h]

/-- A word outside a zeroed run reads as before. -/
theorem Memory.word_zero_disjoint {m : Memory} {a n b : Nat} (h : b + 4 ≤ a ∨ a + n ≤ b) :
    (m.zero a n).word b = m.word b := by
  have : (m.zero a n).read b 4 = m.read b 4 := Memory.read_congr fun x h1 h2 => by
    rw [Memory.byte_zero, if_neg (by omega)]
  rw [Memory.word, Memory.word, this]

end Sys2Proof.Machine
end

