-- ==== Sys2Proof/Laws/State.lean ====
section
/-! SUPPORT. One lemma for each field of `State` under each named update, so that no proof unfolds a record update. -/

namespace Sys2Proof.Machine

/-! ## Ports -/

@[simp] theorem port_setPort (s : State) (p q : Port) (ps : PortState) :
    (s.setPort p ps).port q = if q = p then ps else s.port q := by
  cases p <;> cases q <;> rfl

@[simp] theorem port_updPort (s : State) (p q : Port) (f : PortState → PortState) :
    (s.updPort p f).port q = if q = p then f (s.port q) else s.port q := by
  cases p <;> cases q <;> rfl

@[simp] theorem peer_ne (p : Port) : p.peer ≠ p := by cases p <;> decide

@[simp] theorem ne_peer (p : Port) : p ≠ p.peer := by cases p <;> decide

/-- A port other than a given one is its peer. -/
theorem eq_peer_of_ne {p q : Port} (h : q ≠ p) : q = p.peer := by
  cases p <;> cases q <;> simp_all [Port.peer]

/-- The machine is told apart by its ports and its other fields. -/
theorem port_P (s : State) : s.port .P = s.portP := rfl

theorem port_C (s : State) : s.port .C = s.portC := rfl

/-! ## setPort -/
@[simp] theorem cfg_setPort (s : State) (p : Port) (ps : PortState) : (s.setPort p ps).cfg = s.cfg := by cases p <;> rfl
@[simp] theorem lastUsed_setPort (s : State) (p : Port) (ps : PortState) : (s.setPort p ps).lastUsed = s.lastUsed := by cases p <;> rfl
@[simp] theorem cbValid_setPort (s : State) (p : Port) (ps : PortState) : (s.setPort p ps).cbValid = s.cbValid := by cases p <;> rfl
@[simp] theorem feBusy_setPort (s : State) (p : Port) (ps : PortState) : (s.setPort p ps).feBusy = s.feBusy := by cases p <;> rfl
@[simp] theorem feOwner_setPort (s : State) (p : Port) (ps : PortState) : (s.setPort p ps).feOwner = s.feOwner := by cases p <;> rfl
@[simp] theorem inst0_setPort (s : State) (p : Port) (ps : PortState) : (s.setPort p ps).inst0 = s.inst0 := by cases p <;> rfl
@[simp] theorem inst1_setPort (s : State) (p : Port) (ps : PortState) : (s.setPort p ps).inst1 = s.inst1 := by cases p <;> rfl
@[simp] theorem inst2_setPort (s : State) (p : Port) (ps : PortState) : (s.setPort p ps).inst2 = s.inst2 := by cases p <;> rfl
@[simp] theorem inst3_setPort (s : State) (p : Port) (ps : PortState) : (s.setPort p ps).inst3 = s.inst3 := by cases p <;> rfl
@[simp] theorem workFree_setPort (s : State) (p : Port) (ps : PortState) : (s.setPort p ps).workFree = s.workFree := by cases p <;> rfl
@[simp] theorem mem_setPort (s : State) (p : Port) (ps : PortState) : (s.setPort p ps).mem = s.mem := by cases p <;> rfl
@[simp] theorem inReset_setPort (s : State) (p : Port) (ps : PortState) : (s.setPort p ps).inReset = s.inReset := by cases p <;> rfl
@[simp] theorem cpuP_setPort (s : State) (p : Port) (ps : PortState) : (s.setPort p ps).cpuP = s.cpuP := by cases p <;> rfl
@[simp] theorem cpuC_setPort (s : State) (p : Port) (ps : PortState) : (s.setPort p ps).cpuC = s.cpuC := by cases p <;> rfl
@[simp] theorem active_setPort (s : State) (p : Port) (ps : PortState) : (s.setPort p ps).active = s.active := by cases p <;> rfl
@[simp] theorem schedule_setPort (s : State) (p : Port) (ps : PortState) : (s.setPort p ps).schedule = s.schedule := by cases p <;> rfl
@[simp] theorem tick_setPort (s : State) (p : Port) (ps : PortState) : (s.setPort p ps).tick = s.tick := by cases p <;> rfl

/-! ## updPort -/
@[simp] theorem cfg_updPort (s : State) (p : Port) (f : PortState → PortState) : (s.updPort p f).cfg = s.cfg := by simp [State.updPort]
@[simp] theorem lastUsed_updPort (s : State) (p : Port) (f : PortState → PortState) : (s.updPort p f).lastUsed = s.lastUsed := by simp [State.updPort]
@[simp] theorem cbValid_updPort (s : State) (p : Port) (f : PortState → PortState) : (s.updPort p f).cbValid = s.cbValid := by simp [State.updPort]
@[simp] theorem feBusy_updPort (s : State) (p : Port) (f : PortState → PortState) : (s.updPort p f).feBusy = s.feBusy := by simp [State.updPort]
@[simp] theorem feOwner_updPort (s : State) (p : Port) (f : PortState → PortState) : (s.updPort p f).feOwner = s.feOwner := by simp [State.updPort]
@[simp] theorem inst0_updPort (s : State) (p : Port) (f : PortState → PortState) : (s.updPort p f).inst0 = s.inst0 := by simp [State.updPort]
@[simp] theorem inst1_updPort (s : State) (p : Port) (f : PortState → PortState) : (s.updPort p f).inst1 = s.inst1 := by simp [State.updPort]
@[simp] theorem inst2_updPort (s : State) (p : Port) (f : PortState → PortState) : (s.updPort p f).inst2 = s.inst2 := by simp [State.updPort]
@[simp] theorem inst3_updPort (s : State) (p : Port) (f : PortState → PortState) : (s.updPort p f).inst3 = s.inst3 := by simp [State.updPort]
@[simp] theorem workFree_updPort (s : State) (p : Port) (f : PortState → PortState) : (s.updPort p f).workFree = s.workFree := by simp [State.updPort]
@[simp] theorem mem_updPort (s : State) (p : Port) (f : PortState → PortState) : (s.updPort p f).mem = s.mem := by simp [State.updPort]
@[simp] theorem inReset_updPort (s : State) (p : Port) (f : PortState → PortState) : (s.updPort p f).inReset = s.inReset := by simp [State.updPort]
@[simp] theorem cpuP_updPort (s : State) (p : Port) (f : PortState → PortState) : (s.updPort p f).cpuP = s.cpuP := by simp [State.updPort]
@[simp] theorem cpuC_updPort (s : State) (p : Port) (f : PortState → PortState) : (s.updPort p f).cpuC = s.cpuC := by simp [State.updPort]
@[simp] theorem active_updPort (s : State) (p : Port) (f : PortState → PortState) : (s.updPort p f).active = s.active := by simp [State.updPort]
@[simp] theorem schedule_updPort (s : State) (p : Port) (f : PortState → PortState) : (s.updPort p f).schedule = s.schedule := by simp [State.updPort]
@[simp] theorem tick_updPort (s : State) (p : Port) (f : PortState → PortState) : (s.updPort p f).tick = s.tick := by simp [State.updPort]

/-! ## setMem -/
@[simp] theorem cfg_setMem (s : State) (m : Memory) : (s.setMem m).cfg = s.cfg := rfl
@[simp] theorem lastUsed_setMem (s : State) (m : Memory) : (s.setMem m).lastUsed = s.lastUsed := rfl
@[simp] theorem cbValid_setMem (s : State) (m : Memory) : (s.setMem m).cbValid = s.cbValid := rfl
@[simp] theorem feBusy_setMem (s : State) (m : Memory) : (s.setMem m).feBusy = s.feBusy := rfl
@[simp] theorem feOwner_setMem (s : State) (m : Memory) : (s.setMem m).feOwner = s.feOwner := rfl
@[simp] theorem inst0_setMem (s : State) (m : Memory) : (s.setMem m).inst0 = s.inst0 := rfl
@[simp] theorem inst1_setMem (s : State) (m : Memory) : (s.setMem m).inst1 = s.inst1 := rfl
@[simp] theorem inst2_setMem (s : State) (m : Memory) : (s.setMem m).inst2 = s.inst2 := rfl
@[simp] theorem inst3_setMem (s : State) (m : Memory) : (s.setMem m).inst3 = s.inst3 := rfl
@[simp] theorem workFree_setMem (s : State) (m : Memory) : (s.setMem m).workFree = s.workFree := rfl
@[simp] theorem mem_setMem (s : State) (m : Memory) : (s.setMem m).mem = m := rfl
@[simp] theorem inReset_setMem (s : State) (m : Memory) : (s.setMem m).inReset = s.inReset := rfl
@[simp] theorem cpuP_setMem (s : State) (m : Memory) : (s.setMem m).cpuP = s.cpuP := rfl
@[simp] theorem cpuC_setMem (s : State) (m : Memory) : (s.setMem m).cpuC = s.cpuC := rfl
@[simp] theorem active_setMem (s : State) (m : Memory) : (s.setMem m).active = s.active := rfl
@[simp] theorem schedule_setMem (s : State) (m : Memory) : (s.setMem m).schedule = s.schedule := rfl
@[simp] theorem tick_setMem (s : State) (m : Memory) : (s.setMem m).tick = s.tick := rfl
@[simp] theorem port_setMem (s : State) (m : Memory) (q : Port) : (s.setMem m).port q = s.port q := by cases q <;> rfl
@[simp] theorem inst_setMem (s : State) (m : Memory) (k : Nat) : (s.setMem m).inst k = s.inst k := by
  rcases k with _ | _ | _ | _ | k <;> rfl

/-! ## setFeBusy -/
@[simp] theorem cfg_setFeBusy (s : State) (b : Bool) : (s.setFeBusy b).cfg = s.cfg := rfl
@[simp] theorem lastUsed_setFeBusy (s : State) (b : Bool) : (s.setFeBusy b).lastUsed = s.lastUsed := rfl
@[simp] theorem cbValid_setFeBusy (s : State) (b : Bool) : (s.setFeBusy b).cbValid = s.cbValid := rfl
@[simp] theorem feBusy_setFeBusy (s : State) (b : Bool) : (s.setFeBusy b).feBusy = b := rfl
@[simp] theorem feOwner_setFeBusy (s : State) (b : Bool) : (s.setFeBusy b).feOwner = s.feOwner := rfl
@[simp] theorem inst0_setFeBusy (s : State) (b : Bool) : (s.setFeBusy b).inst0 = s.inst0 := rfl
@[simp] theorem inst1_setFeBusy (s : State) (b : Bool) : (s.setFeBusy b).inst1 = s.inst1 := rfl
@[simp] theorem inst2_setFeBusy (s : State) (b : Bool) : (s.setFeBusy b).inst2 = s.inst2 := rfl
@[simp] theorem inst3_setFeBusy (s : State) (b : Bool) : (s.setFeBusy b).inst3 = s.inst3 := rfl
@[simp] theorem workFree_setFeBusy (s : State) (b : Bool) : (s.setFeBusy b).workFree = s.workFree := rfl
@[simp] theorem mem_setFeBusy (s : State) (b : Bool) : (s.setFeBusy b).mem = s.mem := rfl
@[simp] theorem inReset_setFeBusy (s : State) (b : Bool) : (s.setFeBusy b).inReset = s.inReset := rfl
@[simp] theorem cpuP_setFeBusy (s : State) (b : Bool) : (s.setFeBusy b).cpuP = s.cpuP := rfl
@[simp] theorem cpuC_setFeBusy (s : State) (b : Bool) : (s.setFeBusy b).cpuC = s.cpuC := rfl
@[simp] theorem active_setFeBusy (s : State) (b : Bool) : (s.setFeBusy b).active = s.active := rfl
@[simp] theorem schedule_setFeBusy (s : State) (b : Bool) : (s.setFeBusy b).schedule = s.schedule := rfl
@[simp] theorem tick_setFeBusy (s : State) (b : Bool) : (s.setFeBusy b).tick = s.tick := rfl
@[simp] theorem port_setFeBusy (s : State) (b : Bool) (q : Port) : (s.setFeBusy b).port q = s.port q := by cases q <;> rfl
@[simp] theorem inst_setFeBusy (s : State) (b : Bool) (k : Nat) : (s.setFeBusy b).inst k = s.inst k := by
  rcases k with _ | _ | _ | _ | k <;> rfl

/-! ## setFeOwner -/
@[simp] theorem cfg_setFeOwner (s : State) (p : Port) : (s.setFeOwner p).cfg = s.cfg := rfl
@[simp] theorem lastUsed_setFeOwner (s : State) (p : Port) : (s.setFeOwner p).lastUsed = s.lastUsed := rfl
@[simp] theorem cbValid_setFeOwner (s : State) (p : Port) : (s.setFeOwner p).cbValid = s.cbValid := rfl
@[simp] theorem feBusy_setFeOwner (s : State) (p : Port) : (s.setFeOwner p).feBusy = s.feBusy := rfl
@[simp] theorem feOwner_setFeOwner (s : State) (p : Port) : (s.setFeOwner p).feOwner = p := rfl
@[simp] theorem inst0_setFeOwner (s : State) (p : Port) : (s.setFeOwner p).inst0 = s.inst0 := rfl
@[simp] theorem inst1_setFeOwner (s : State) (p : Port) : (s.setFeOwner p).inst1 = s.inst1 := rfl
@[simp] theorem inst2_setFeOwner (s : State) (p : Port) : (s.setFeOwner p).inst2 = s.inst2 := rfl
@[simp] theorem inst3_setFeOwner (s : State) (p : Port) : (s.setFeOwner p).inst3 = s.inst3 := rfl
@[simp] theorem workFree_setFeOwner (s : State) (p : Port) : (s.setFeOwner p).workFree = s.workFree := rfl
@[simp] theorem mem_setFeOwner (s : State) (p : Port) : (s.setFeOwner p).mem = s.mem := rfl
@[simp] theorem inReset_setFeOwner (s : State) (p : Port) : (s.setFeOwner p).inReset = s.inReset := rfl
@[simp] theorem cpuP_setFeOwner (s : State) (p : Port) : (s.setFeOwner p).cpuP = s.cpuP := rfl
@[simp] theorem cpuC_setFeOwner (s : State) (p : Port) : (s.setFeOwner p).cpuC = s.cpuC := rfl
@[simp] theorem active_setFeOwner (s : State) (p : Port) : (s.setFeOwner p).active = s.active := rfl
@[simp] theorem schedule_setFeOwner (s : State) (p : Port) : (s.setFeOwner p).schedule = s.schedule := rfl
@[simp] theorem tick_setFeOwner (s : State) (p : Port) : (s.setFeOwner p).tick = s.tick := rfl
@[simp] theorem port_setFeOwner (s : State) (p : Port) (q : Port) : (s.setFeOwner p).port q = s.port q := by cases q <;> rfl
@[simp] theorem inst_setFeOwner (s : State) (p : Port) (k : Nat) : (s.setFeOwner p).inst k = s.inst k := by
  rcases k with _ | _ | _ | _ | k <;> rfl

/-! ## setLastUsed -/
@[simp] theorem cfg_setLastUsed (s : State) (i : BitVec 1) : (s.setLastUsed i).cfg = s.cfg := rfl
@[simp] theorem lastUsed_setLastUsed (s : State) (i : BitVec 1) : (s.setLastUsed i).lastUsed = i := rfl
@[simp] theorem cbValid_setLastUsed (s : State) (i : BitVec 1) : (s.setLastUsed i).cbValid = s.cbValid := rfl
@[simp] theorem feBusy_setLastUsed (s : State) (i : BitVec 1) : (s.setLastUsed i).feBusy = s.feBusy := rfl
@[simp] theorem feOwner_setLastUsed (s : State) (i : BitVec 1) : (s.setLastUsed i).feOwner = s.feOwner := rfl
@[simp] theorem inst0_setLastUsed (s : State) (i : BitVec 1) : (s.setLastUsed i).inst0 = s.inst0 := rfl
@[simp] theorem inst1_setLastUsed (s : State) (i : BitVec 1) : (s.setLastUsed i).inst1 = s.inst1 := rfl
@[simp] theorem inst2_setLastUsed (s : State) (i : BitVec 1) : (s.setLastUsed i).inst2 = s.inst2 := rfl
@[simp] theorem inst3_setLastUsed (s : State) (i : BitVec 1) : (s.setLastUsed i).inst3 = s.inst3 := rfl
@[simp] theorem workFree_setLastUsed (s : State) (i : BitVec 1) : (s.setLastUsed i).workFree = s.workFree := rfl
@[simp] theorem mem_setLastUsed (s : State) (i : BitVec 1) : (s.setLastUsed i).mem = s.mem := rfl
@[simp] theorem inReset_setLastUsed (s : State) (i : BitVec 1) : (s.setLastUsed i).inReset = s.inReset := rfl
@[simp] theorem cpuP_setLastUsed (s : State) (i : BitVec 1) : (s.setLastUsed i).cpuP = s.cpuP := rfl
@[simp] theorem cpuC_setLastUsed (s : State) (i : BitVec 1) : (s.setLastUsed i).cpuC = s.cpuC := rfl
@[simp] theorem active_setLastUsed (s : State) (i : BitVec 1) : (s.setLastUsed i).active = s.active := rfl
@[simp] theorem schedule_setLastUsed (s : State) (i : BitVec 1) : (s.setLastUsed i).schedule = s.schedule := rfl
@[simp] theorem tick_setLastUsed (s : State) (i : BitVec 1) : (s.setLastUsed i).tick = s.tick := rfl
@[simp] theorem port_setLastUsed (s : State) (i : BitVec 1) (q : Port) : (s.setLastUsed i).port q = s.port q := by cases q <;> rfl
@[simp] theorem inst_setLastUsed (s : State) (i : BitVec 1) (k : Nat) : (s.setLastUsed i).inst k = s.inst k := by
  rcases k with _ | _ | _ | _ | k <;> rfl

/-! ## setCbValid -/
@[simp] theorem cfg_setCbValid (s : State) (b : Bool) : (s.setCbValid b).cfg = s.cfg := rfl
@[simp] theorem lastUsed_setCbValid (s : State) (b : Bool) : (s.setCbValid b).lastUsed = s.lastUsed := rfl
@[simp] theorem cbValid_setCbValid (s : State) (b : Bool) : (s.setCbValid b).cbValid = b := rfl
@[simp] theorem feBusy_setCbValid (s : State) (b : Bool) : (s.setCbValid b).feBusy = s.feBusy := rfl
@[simp] theorem feOwner_setCbValid (s : State) (b : Bool) : (s.setCbValid b).feOwner = s.feOwner := rfl
@[simp] theorem inst0_setCbValid (s : State) (b : Bool) : (s.setCbValid b).inst0 = s.inst0 := rfl
@[simp] theorem inst1_setCbValid (s : State) (b : Bool) : (s.setCbValid b).inst1 = s.inst1 := rfl
@[simp] theorem inst2_setCbValid (s : State) (b : Bool) : (s.setCbValid b).inst2 = s.inst2 := rfl
@[simp] theorem inst3_setCbValid (s : State) (b : Bool) : (s.setCbValid b).inst3 = s.inst3 := rfl
@[simp] theorem workFree_setCbValid (s : State) (b : Bool) : (s.setCbValid b).workFree = s.workFree := rfl
@[simp] theorem mem_setCbValid (s : State) (b : Bool) : (s.setCbValid b).mem = s.mem := rfl
@[simp] theorem inReset_setCbValid (s : State) (b : Bool) : (s.setCbValid b).inReset = s.inReset := rfl
@[simp] theorem cpuP_setCbValid (s : State) (b : Bool) : (s.setCbValid b).cpuP = s.cpuP := rfl
@[simp] theorem cpuC_setCbValid (s : State) (b : Bool) : (s.setCbValid b).cpuC = s.cpuC := rfl
@[simp] theorem active_setCbValid (s : State) (b : Bool) : (s.setCbValid b).active = s.active := rfl
@[simp] theorem schedule_setCbValid (s : State) (b : Bool) : (s.setCbValid b).schedule = s.schedule := rfl
@[simp] theorem tick_setCbValid (s : State) (b : Bool) : (s.setCbValid b).tick = s.tick := rfl
@[simp] theorem port_setCbValid (s : State) (b : Bool) (q : Port) : (s.setCbValid b).port q = s.port q := by cases q <;> rfl
@[simp] theorem inst_setCbValid (s : State) (b : Bool) (k : Nat) : (s.setCbValid b).inst k = s.inst k := by
  rcases k with _ | _ | _ | _ | k <;> rfl

/-! ## setWorkFree -/
@[simp] theorem cfg_setWorkFree (s : State) (t : Nat) : (s.setWorkFree t).cfg = s.cfg := rfl
@[simp] theorem lastUsed_setWorkFree (s : State) (t : Nat) : (s.setWorkFree t).lastUsed = s.lastUsed := rfl
@[simp] theorem cbValid_setWorkFree (s : State) (t : Nat) : (s.setWorkFree t).cbValid = s.cbValid := rfl
@[simp] theorem feBusy_setWorkFree (s : State) (t : Nat) : (s.setWorkFree t).feBusy = s.feBusy := rfl
@[simp] theorem feOwner_setWorkFree (s : State) (t : Nat) : (s.setWorkFree t).feOwner = s.feOwner := rfl
@[simp] theorem inst0_setWorkFree (s : State) (t : Nat) : (s.setWorkFree t).inst0 = s.inst0 := rfl
@[simp] theorem inst1_setWorkFree (s : State) (t : Nat) : (s.setWorkFree t).inst1 = s.inst1 := rfl
@[simp] theorem inst2_setWorkFree (s : State) (t : Nat) : (s.setWorkFree t).inst2 = s.inst2 := rfl
@[simp] theorem inst3_setWorkFree (s : State) (t : Nat) : (s.setWorkFree t).inst3 = s.inst3 := rfl
@[simp] theorem workFree_setWorkFree (s : State) (t : Nat) : (s.setWorkFree t).workFree = t := rfl
@[simp] theorem mem_setWorkFree (s : State) (t : Nat) : (s.setWorkFree t).mem = s.mem := rfl
@[simp] theorem inReset_setWorkFree (s : State) (t : Nat) : (s.setWorkFree t).inReset = s.inReset := rfl
@[simp] theorem cpuP_setWorkFree (s : State) (t : Nat) : (s.setWorkFree t).cpuP = s.cpuP := rfl
@[simp] theorem cpuC_setWorkFree (s : State) (t : Nat) : (s.setWorkFree t).cpuC = s.cpuC := rfl
@[simp] theorem active_setWorkFree (s : State) (t : Nat) : (s.setWorkFree t).active = s.active := rfl
@[simp] theorem schedule_setWorkFree (s : State) (t : Nat) : (s.setWorkFree t).schedule = s.schedule := rfl
@[simp] theorem tick_setWorkFree (s : State) (t : Nat) : (s.setWorkFree t).tick = s.tick := rfl
@[simp] theorem port_setWorkFree (s : State) (t : Nat) (q : Port) : (s.setWorkFree t).port q = s.port q := by cases q <;> rfl
@[simp] theorem inst_setWorkFree (s : State) (t : Nat) (k : Nat) : (s.setWorkFree t).inst k = s.inst k := by
  rcases k with _ | _ | _ | _ | k <;> rfl

/-! ## setActive -/
@[simp] theorem cfg_setActive (s : State) (p : Port) : (s.setActive p).cfg = s.cfg := rfl
@[simp] theorem lastUsed_setActive (s : State) (p : Port) : (s.setActive p).lastUsed = s.lastUsed := rfl
@[simp] theorem cbValid_setActive (s : State) (p : Port) : (s.setActive p).cbValid = s.cbValid := rfl
@[simp] theorem feBusy_setActive (s : State) (p : Port) : (s.setActive p).feBusy = s.feBusy := rfl
@[simp] theorem feOwner_setActive (s : State) (p : Port) : (s.setActive p).feOwner = s.feOwner := rfl
@[simp] theorem inst0_setActive (s : State) (p : Port) : (s.setActive p).inst0 = s.inst0 := rfl
@[simp] theorem inst1_setActive (s : State) (p : Port) : (s.setActive p).inst1 = s.inst1 := rfl
@[simp] theorem inst2_setActive (s : State) (p : Port) : (s.setActive p).inst2 = s.inst2 := rfl
@[simp] theorem inst3_setActive (s : State) (p : Port) : (s.setActive p).inst3 = s.inst3 := rfl
@[simp] theorem workFree_setActive (s : State) (p : Port) : (s.setActive p).workFree = s.workFree := rfl
@[simp] theorem mem_setActive (s : State) (p : Port) : (s.setActive p).mem = s.mem := rfl
@[simp] theorem inReset_setActive (s : State) (p : Port) : (s.setActive p).inReset = s.inReset := rfl
@[simp] theorem cpuP_setActive (s : State) (p : Port) : (s.setActive p).cpuP = s.cpuP := rfl
@[simp] theorem cpuC_setActive (s : State) (p : Port) : (s.setActive p).cpuC = s.cpuC := rfl
@[simp] theorem active_setActive (s : State) (p : Port) : (s.setActive p).active = p := rfl
@[simp] theorem schedule_setActive (s : State) (p : Port) : (s.setActive p).schedule = s.schedule := rfl
@[simp] theorem tick_setActive (s : State) (p : Port) : (s.setActive p).tick = s.tick := rfl
@[simp] theorem port_setActive (s : State) (p : Port) (q : Port) : (s.setActive p).port q = s.port q := by cases q <;> rfl
@[simp] theorem inst_setActive (s : State) (p : Port) (k : Nat) : (s.setActive p).inst k = s.inst k := by
  rcases k with _ | _ | _ | _ | k <;> rfl

/-! ## setSchedule -/
@[simp] theorem cfg_setSchedule (s : State) (es : List Event) : (s.setSchedule es).cfg = s.cfg := rfl
@[simp] theorem lastUsed_setSchedule (s : State) (es : List Event) : (s.setSchedule es).lastUsed = s.lastUsed := rfl
@[simp] theorem cbValid_setSchedule (s : State) (es : List Event) : (s.setSchedule es).cbValid = s.cbValid := rfl
@[simp] theorem feBusy_setSchedule (s : State) (es : List Event) : (s.setSchedule es).feBusy = s.feBusy := rfl
@[simp] theorem feOwner_setSchedule (s : State) (es : List Event) : (s.setSchedule es).feOwner = s.feOwner := rfl
@[simp] theorem inst0_setSchedule (s : State) (es : List Event) : (s.setSchedule es).inst0 = s.inst0 := rfl
@[simp] theorem inst1_setSchedule (s : State) (es : List Event) : (s.setSchedule es).inst1 = s.inst1 := rfl
@[simp] theorem inst2_setSchedule (s : State) (es : List Event) : (s.setSchedule es).inst2 = s.inst2 := rfl
@[simp] theorem inst3_setSchedule (s : State) (es : List Event) : (s.setSchedule es).inst3 = s.inst3 := rfl
@[simp] theorem workFree_setSchedule (s : State) (es : List Event) : (s.setSchedule es).workFree = s.workFree := rfl
@[simp] theorem mem_setSchedule (s : State) (es : List Event) : (s.setSchedule es).mem = s.mem := rfl
@[simp] theorem inReset_setSchedule (s : State) (es : List Event) : (s.setSchedule es).inReset = s.inReset := rfl
@[simp] theorem cpuP_setSchedule (s : State) (es : List Event) : (s.setSchedule es).cpuP = s.cpuP := rfl
@[simp] theorem cpuC_setSchedule (s : State) (es : List Event) : (s.setSchedule es).cpuC = s.cpuC := rfl
@[simp] theorem active_setSchedule (s : State) (es : List Event) : (s.setSchedule es).active = s.active := rfl
@[simp] theorem schedule_setSchedule (s : State) (es : List Event) : (s.setSchedule es).schedule = es := rfl
@[simp] theorem tick_setSchedule (s : State) (es : List Event) : (s.setSchedule es).tick = s.tick := rfl
@[simp] theorem port_setSchedule (s : State) (es : List Event) (q : Port) : (s.setSchedule es).port q = s.port q := by cases q <;> rfl
@[simp] theorem inst_setSchedule (s : State) (es : List Event) (k : Nat) : (s.setSchedule es).inst k = s.inst k := by
  rcases k with _ | _ | _ | _ | k <;> rfl

/-! ## ticked -/
@[simp] theorem cfg_ticked (s : State) : (s.ticked).cfg = s.cfg := rfl
@[simp] theorem lastUsed_ticked (s : State) : (s.ticked).lastUsed = s.lastUsed := rfl
@[simp] theorem cbValid_ticked (s : State) : (s.ticked).cbValid = s.cbValid := rfl
@[simp] theorem feBusy_ticked (s : State) : (s.ticked).feBusy = s.feBusy := rfl
@[simp] theorem feOwner_ticked (s : State) : (s.ticked).feOwner = s.feOwner := rfl
@[simp] theorem inst0_ticked (s : State) : (s.ticked).inst0 = s.inst0 := rfl
@[simp] theorem inst1_ticked (s : State) : (s.ticked).inst1 = s.inst1 := rfl
@[simp] theorem inst2_ticked (s : State) : (s.ticked).inst2 = s.inst2 := rfl
@[simp] theorem inst3_ticked (s : State) : (s.ticked).inst3 = s.inst3 := rfl
@[simp] theorem workFree_ticked (s : State) : (s.ticked).workFree = s.workFree := rfl
@[simp] theorem mem_ticked (s : State) : (s.ticked).mem = s.mem := rfl
@[simp] theorem inReset_ticked (s : State) : (s.ticked).inReset = s.inReset := rfl
@[simp] theorem cpuP_ticked (s : State) : (s.ticked).cpuP = s.cpuP := rfl
@[simp] theorem cpuC_ticked (s : State) : (s.ticked).cpuC = s.cpuC := rfl
@[simp] theorem active_ticked (s : State) : (s.ticked).active = s.active := rfl
@[simp] theorem schedule_ticked (s : State) : (s.ticked).schedule = s.schedule := rfl
@[simp] theorem tick_ticked (s : State) : (s.ticked).tick = s.tick + 1 := rfl
@[simp] theorem port_ticked (s : State)  (q : Port) : (s.ticked).port q = s.port q := by cases q <;> rfl
@[simp] theorem inst_ticked (s : State)  (k : Nat) : (s.ticked).inst k = s.inst k := by
  rcases k with _ | _ | _ | _ | k <;> rfl

/-! ## finish -/
@[simp] theorem cfg_finish (s : State) (c : Code) : (s.finish c).cfg = s.cfg := by simp [State.finish]
@[simp] theorem lastUsed_finish (s : State) (c : Code) : (s.finish c).lastUsed = s.lastUsed := by simp [State.finish]
@[simp] theorem cbValid_finish (s : State) (c : Code) : (s.finish c).cbValid = s.cbValid := by simp [State.finish]
@[simp] theorem feBusy_finish (s : State) (c : Code) : (s.finish c).feBusy = s.feBusy := by simp [State.finish]
@[simp] theorem feOwner_finish (s : State) (c : Code) : (s.finish c).feOwner = s.feOwner := by simp [State.finish]
@[simp] theorem inst0_finish (s : State) (c : Code) : (s.finish c).inst0 = s.inst0 := by simp [State.finish]
@[simp] theorem inst1_finish (s : State) (c : Code) : (s.finish c).inst1 = s.inst1 := by simp [State.finish]
@[simp] theorem inst2_finish (s : State) (c : Code) : (s.finish c).inst2 = s.inst2 := by simp [State.finish]
@[simp] theorem inst3_finish (s : State) (c : Code) : (s.finish c).inst3 = s.inst3 := by simp [State.finish]
@[simp] theorem workFree_finish (s : State) (c : Code) : (s.finish c).workFree = s.workFree := by simp [State.finish]
@[simp] theorem mem_finish (s : State) (c : Code) : (s.finish c).mem = s.mem := by simp [State.finish]
@[simp] theorem inReset_finish (s : State) (c : Code) : (s.finish c).inReset = s.inReset := by simp [State.finish]
@[simp] theorem cpuP_finish (s : State) (c : Code) : (s.finish c).cpuP = s.cpuP := by simp [State.finish]
@[simp] theorem cpuC_finish (s : State) (c : Code) : (s.finish c).cpuC = s.cpuC := by simp [State.finish]
@[simp] theorem active_finish (s : State) (c : Code) : (s.finish c).active = s.active := by simp [State.finish]
@[simp] theorem schedule_finish (s : State) (c : Code) : (s.finish c).schedule = s.schedule := by simp [State.finish]
@[simp] theorem tick_finish (s : State) (c : Code) : (s.finish c).tick = s.tick := by simp [State.finish]

@[simp] theorem port_finish (s : State) (c : Code) (q : Port) :
    (s.finish c).port q =
      if q = s.active then { s.port q with code := c, busy := false, hold := false, latch := Latch.idle }
      else s.port q := by
  simp [State.finish]

/-! ## finishFft -/
@[simp] theorem cfg_finishFft (s : State) (c : Code) : (s.finishFft c).cfg = s.cfg := by simp [State.finishFft]
@[simp] theorem lastUsed_finishFft (s : State) (c : Code) : (s.finishFft c).lastUsed = s.lastUsed := by simp [State.finishFft]
@[simp] theorem cbValid_finishFft (s : State) (c : Code) : (s.finishFft c).cbValid = s.cbValid := by simp [State.finishFft]
@[simp] theorem feBusy_finishFft (s : State) (c : Code) : (s.finishFft c).feBusy = false := by simp [State.finishFft]
@[simp] theorem feOwner_finishFft (s : State) (c : Code) : (s.finishFft c).feOwner = s.feOwner := by simp [State.finishFft]
@[simp] theorem inst0_finishFft (s : State) (c : Code) : (s.finishFft c).inst0 = s.inst0 := by simp [State.finishFft]
@[simp] theorem inst1_finishFft (s : State) (c : Code) : (s.finishFft c).inst1 = s.inst1 := by simp [State.finishFft]
@[simp] theorem inst2_finishFft (s : State) (c : Code) : (s.finishFft c).inst2 = s.inst2 := by simp [State.finishFft]
@[simp] theorem inst3_finishFft (s : State) (c : Code) : (s.finishFft c).inst3 = s.inst3 := by simp [State.finishFft]
@[simp] theorem workFree_finishFft (s : State) (c : Code) : (s.finishFft c).workFree = s.workFree := by simp [State.finishFft]
@[simp] theorem mem_finishFft (s : State) (c : Code) : (s.finishFft c).mem = s.mem := by simp [State.finishFft]
@[simp] theorem inReset_finishFft (s : State) (c : Code) : (s.finishFft c).inReset = s.inReset := by simp [State.finishFft]
@[simp] theorem cpuP_finishFft (s : State) (c : Code) : (s.finishFft c).cpuP = s.cpuP := by simp [State.finishFft]
@[simp] theorem cpuC_finishFft (s : State) (c : Code) : (s.finishFft c).cpuC = s.cpuC := by simp [State.finishFft]
@[simp] theorem active_finishFft (s : State) (c : Code) : (s.finishFft c).active = s.active := by simp [State.finishFft]
@[simp] theorem schedule_finishFft (s : State) (c : Code) : (s.finishFft c).schedule = s.schedule := by simp [State.finishFft]
@[simp] theorem tick_finishFft (s : State) (c : Code) : (s.finishFft c).tick = s.tick := by simp [State.finishFft]

@[simp] theorem port_finishFft (s : State) (c : Code) (q : Port) : (s.finishFft c).port q = (s.finish c).port q := by
  simp [State.finishFft]

/-! ## wait -/
@[simp] theorem cfg_wait (s : State) : (s.wait).cfg = s.cfg := by simp [State.wait]
@[simp] theorem lastUsed_wait (s : State) : (s.wait).lastUsed = s.lastUsed := by simp [State.wait]
@[simp] theorem cbValid_wait (s : State) : (s.wait).cbValid = s.cbValid := by simp [State.wait]
@[simp] theorem feBusy_wait (s : State) : (s.wait).feBusy = s.feBusy := by simp [State.wait]
@[simp] theorem feOwner_wait (s : State) : (s.wait).feOwner = s.feOwner := by simp [State.wait]
@[simp] theorem inst0_wait (s : State) : (s.wait).inst0 = s.inst0 := by simp [State.wait]
@[simp] theorem inst1_wait (s : State) : (s.wait).inst1 = s.inst1 := by simp [State.wait]
@[simp] theorem inst2_wait (s : State) : (s.wait).inst2 = s.inst2 := by simp [State.wait]
@[simp] theorem inst3_wait (s : State) : (s.wait).inst3 = s.inst3 := by simp [State.wait]
@[simp] theorem workFree_wait (s : State) : (s.wait).workFree = s.workFree := by simp [State.wait]
@[simp] theorem mem_wait (s : State) : (s.wait).mem = s.mem := by simp [State.wait]
@[simp] theorem inReset_wait (s : State) : (s.wait).inReset = s.inReset := by simp [State.wait]
@[simp] theorem cpuP_wait (s : State) : (s.wait).cpuP = s.cpuP := by simp [State.wait]
@[simp] theorem cpuC_wait (s : State) : (s.wait).cpuC = s.cpuC := by simp [State.wait]
@[simp] theorem active_wait (s : State) : (s.wait).active = s.active := by simp [State.wait]
@[simp] theorem schedule_wait (s : State) : (s.wait).schedule = s.schedule := by simp [State.wait]
@[simp] theorem tick_wait (s : State) : (s.wait).tick = s.tick := by simp [State.wait]

@[simp] theorem port_wait (s : State) (q : Port) :
    s.wait.port q = if q = s.active then { s.port q with hold := true } else s.port q := by
  simp [State.wait]

/-! ## raiseDoorbell -/
@[simp] theorem cfg_raiseDoorbell (s : State) (p : Port) : (s.raiseDoorbell p).cfg = s.cfg := by simp [State.raiseDoorbell]
@[simp] theorem lastUsed_raiseDoorbell (s : State) (p : Port) : (s.raiseDoorbell p).lastUsed = s.lastUsed := by simp [State.raiseDoorbell]
@[simp] theorem cbValid_raiseDoorbell (s : State) (p : Port) : (s.raiseDoorbell p).cbValid = s.cbValid := by simp [State.raiseDoorbell]
@[simp] theorem feBusy_raiseDoorbell (s : State) (p : Port) : (s.raiseDoorbell p).feBusy = s.feBusy := by simp [State.raiseDoorbell]
@[simp] theorem feOwner_raiseDoorbell (s : State) (p : Port) : (s.raiseDoorbell p).feOwner = s.feOwner := by simp [State.raiseDoorbell]
@[simp] theorem inst0_raiseDoorbell (s : State) (p : Port) : (s.raiseDoorbell p).inst0 = s.inst0 := by simp [State.raiseDoorbell]
@[simp] theorem inst1_raiseDoorbell (s : State) (p : Port) : (s.raiseDoorbell p).inst1 = s.inst1 := by simp [State.raiseDoorbell]
@[simp] theorem inst2_raiseDoorbell (s : State) (p : Port) : (s.raiseDoorbell p).inst2 = s.inst2 := by simp [State.raiseDoorbell]
@[simp] theorem inst3_raiseDoorbell (s : State) (p : Port) : (s.raiseDoorbell p).inst3 = s.inst3 := by simp [State.raiseDoorbell]
@[simp] theorem workFree_raiseDoorbell (s : State) (p : Port) : (s.raiseDoorbell p).workFree = s.workFree := by simp [State.raiseDoorbell]
@[simp] theorem mem_raiseDoorbell (s : State) (p : Port) : (s.raiseDoorbell p).mem = s.mem := by simp [State.raiseDoorbell]
@[simp] theorem inReset_raiseDoorbell (s : State) (p : Port) : (s.raiseDoorbell p).inReset = s.inReset := by simp [State.raiseDoorbell]
@[simp] theorem cpuP_raiseDoorbell (s : State) (p : Port) : (s.raiseDoorbell p).cpuP = s.cpuP := by simp [State.raiseDoorbell]
@[simp] theorem cpuC_raiseDoorbell (s : State) (p : Port) : (s.raiseDoorbell p).cpuC = s.cpuC := by simp [State.raiseDoorbell]
@[simp] theorem active_raiseDoorbell (s : State) (p : Port) : (s.raiseDoorbell p).active = s.active := by simp [State.raiseDoorbell]
@[simp] theorem schedule_raiseDoorbell (s : State) (p : Port) : (s.raiseDoorbell p).schedule = s.schedule := by simp [State.raiseDoorbell]
@[simp] theorem tick_raiseDoorbell (s : State) (p : Port) : (s.raiseDoorbell p).tick = s.tick := by simp [State.raiseDoorbell]

@[simp] theorem port_raiseDoorbell (s : State) (p q : Port) :
    (s.raiseDoorbell p).port q = if q = p then { s.port q with db := true } else s.port q := by
  simp [State.raiseDoorbell]

/-! ## fullFence -/

@[simp] theorem fullFence_eq (s : State) : s.fullFence = s := rfl

/-! ## setRes0 -/
@[simp] theorem cfg_setRes0 (s : State) (v : Word) : (s.setRes0 v).cfg = s.cfg := by simp [State.setRes0]
@[simp] theorem lastUsed_setRes0 (s : State) (v : Word) : (s.setRes0 v).lastUsed = s.lastUsed := by simp [State.setRes0]
@[simp] theorem cbValid_setRes0 (s : State) (v : Word) : (s.setRes0 v).cbValid = s.cbValid := by simp [State.setRes0]
@[simp] theorem feBusy_setRes0 (s : State) (v : Word) : (s.setRes0 v).feBusy = s.feBusy := by simp [State.setRes0]
@[simp] theorem feOwner_setRes0 (s : State) (v : Word) : (s.setRes0 v).feOwner = s.feOwner := by simp [State.setRes0]
@[simp] theorem inst0_setRes0 (s : State) (v : Word) : (s.setRes0 v).inst0 = s.inst0 := by simp [State.setRes0]
@[simp] theorem inst1_setRes0 (s : State) (v : Word) : (s.setRes0 v).inst1 = s.inst1 := by simp [State.setRes0]
@[simp] theorem inst2_setRes0 (s : State) (v : Word) : (s.setRes0 v).inst2 = s.inst2 := by simp [State.setRes0]
@[simp] theorem inst3_setRes0 (s : State) (v : Word) : (s.setRes0 v).inst3 = s.inst3 := by simp [State.setRes0]
@[simp] theorem workFree_setRes0 (s : State) (v : Word) : (s.setRes0 v).workFree = s.workFree := by simp [State.setRes0]
@[simp] theorem mem_setRes0 (s : State) (v : Word) : (s.setRes0 v).mem = s.mem := by simp [State.setRes0]
@[simp] theorem inReset_setRes0 (s : State) (v : Word) : (s.setRes0 v).inReset = s.inReset := by simp [State.setRes0]
@[simp] theorem cpuP_setRes0 (s : State) (v : Word) : (s.setRes0 v).cpuP = s.cpuP := by simp [State.setRes0]
@[simp] theorem cpuC_setRes0 (s : State) (v : Word) : (s.setRes0 v).cpuC = s.cpuC := by simp [State.setRes0]
@[simp] theorem active_setRes0 (s : State) (v : Word) : (s.setRes0 v).active = s.active := by simp [State.setRes0]
@[simp] theorem schedule_setRes0 (s : State) (v : Word) : (s.setRes0 v).schedule = s.schedule := by simp [State.setRes0]
@[simp] theorem tick_setRes0 (s : State) (v : Word) : (s.setRes0 v).tick = s.tick := by simp [State.setRes0]

@[simp] theorem port_setRes0 (s : State) (v : Word) (q : Port) :
    (s.setRes0 v).port q = if q = s.active then { s.port q with res0 := v } else s.port q := by
  simp [State.setRes0]

/-! ## setRes1 -/
@[simp] theorem cfg_setRes1 (s : State) (v : Word) : (s.setRes1 v).cfg = s.cfg := by simp [State.setRes1]
@[simp] theorem lastUsed_setRes1 (s : State) (v : Word) : (s.setRes1 v).lastUsed = s.lastUsed := by simp [State.setRes1]
@[simp] theorem cbValid_setRes1 (s : State) (v : Word) : (s.setRes1 v).cbValid = s.cbValid := by simp [State.setRes1]
@[simp] theorem feBusy_setRes1 (s : State) (v : Word) : (s.setRes1 v).feBusy = s.feBusy := by simp [State.setRes1]
@[simp] theorem feOwner_setRes1 (s : State) (v : Word) : (s.setRes1 v).feOwner = s.feOwner := by simp [State.setRes1]
@[simp] theorem inst0_setRes1 (s : State) (v : Word) : (s.setRes1 v).inst0 = s.inst0 := by simp [State.setRes1]
@[simp] theorem inst1_setRes1 (s : State) (v : Word) : (s.setRes1 v).inst1 = s.inst1 := by simp [State.setRes1]
@[simp] theorem inst2_setRes1 (s : State) (v : Word) : (s.setRes1 v).inst2 = s.inst2 := by simp [State.setRes1]
@[simp] theorem inst3_setRes1 (s : State) (v : Word) : (s.setRes1 v).inst3 = s.inst3 := by simp [State.setRes1]
@[simp] theorem workFree_setRes1 (s : State) (v : Word) : (s.setRes1 v).workFree = s.workFree := by simp [State.setRes1]
@[simp] theorem mem_setRes1 (s : State) (v : Word) : (s.setRes1 v).mem = s.mem := by simp [State.setRes1]
@[simp] theorem inReset_setRes1 (s : State) (v : Word) : (s.setRes1 v).inReset = s.inReset := by simp [State.setRes1]
@[simp] theorem cpuP_setRes1 (s : State) (v : Word) : (s.setRes1 v).cpuP = s.cpuP := by simp [State.setRes1]
@[simp] theorem cpuC_setRes1 (s : State) (v : Word) : (s.setRes1 v).cpuC = s.cpuC := by simp [State.setRes1]
@[simp] theorem active_setRes1 (s : State) (v : Word) : (s.setRes1 v).active = s.active := by simp [State.setRes1]
@[simp] theorem schedule_setRes1 (s : State) (v : Word) : (s.setRes1 v).schedule = s.schedule := by simp [State.setRes1]
@[simp] theorem tick_setRes1 (s : State) (v : Word) : (s.setRes1 v).tick = s.tick := by simp [State.setRes1]

@[simp] theorem port_setRes1 (s : State) (v : Word) (q : Port) :
    (s.setRes1 v).port q = if q = s.active then { s.port q with res1 := v } else s.port q := by
  simp [State.setRes1]

/-! ## writeHandle -/
@[simp] theorem cfg_writeHandle (s : State) (i : BitVec 1) : (s.writeHandle i).cfg = s.cfg := by simp [State.writeHandle]
@[simp] theorem lastUsed_writeHandle (s : State) (i : BitVec 1) : (s.writeHandle i).lastUsed = s.lastUsed := by simp [State.writeHandle]
@[simp] theorem cbValid_writeHandle (s : State) (i : BitVec 1) : (s.writeHandle i).cbValid = s.cbValid := by simp [State.writeHandle]
@[simp] theorem feBusy_writeHandle (s : State) (i : BitVec 1) : (s.writeHandle i).feBusy = s.feBusy := by simp [State.writeHandle]
@[simp] theorem feOwner_writeHandle (s : State) (i : BitVec 1) : (s.writeHandle i).feOwner = s.feOwner := by simp [State.writeHandle]
@[simp] theorem inst0_writeHandle (s : State) (i : BitVec 1) : (s.writeHandle i).inst0 = s.inst0 := by simp [State.writeHandle]
@[simp] theorem inst1_writeHandle (s : State) (i : BitVec 1) : (s.writeHandle i).inst1 = s.inst1 := by simp [State.writeHandle]
@[simp] theorem inst2_writeHandle (s : State) (i : BitVec 1) : (s.writeHandle i).inst2 = s.inst2 := by simp [State.writeHandle]
@[simp] theorem inst3_writeHandle (s : State) (i : BitVec 1) : (s.writeHandle i).inst3 = s.inst3 := by simp [State.writeHandle]
@[simp] theorem workFree_writeHandle (s : State) (i : BitVec 1) : (s.writeHandle i).workFree = s.workFree := by simp [State.writeHandle]
@[simp] theorem mem_writeHandle (s : State) (i : BitVec 1) : (s.writeHandle i).mem = s.mem := by simp [State.writeHandle]
@[simp] theorem inReset_writeHandle (s : State) (i : BitVec 1) : (s.writeHandle i).inReset = s.inReset := by simp [State.writeHandle]
@[simp] theorem cpuP_writeHandle (s : State) (i : BitVec 1) : (s.writeHandle i).cpuP = s.cpuP := by simp [State.writeHandle]
@[simp] theorem cpuC_writeHandle (s : State) (i : BitVec 1) : (s.writeHandle i).cpuC = s.cpuC := by simp [State.writeHandle]
@[simp] theorem active_writeHandle (s : State) (i : BitVec 1) : (s.writeHandle i).active = s.active := by simp [State.writeHandle]
@[simp] theorem schedule_writeHandle (s : State) (i : BitVec 1) : (s.writeHandle i).schedule = s.schedule := by simp [State.writeHandle]
@[simp] theorem tick_writeHandle (s : State) (i : BitVec 1) : (s.writeHandle i).tick = s.tick := by simp [State.writeHandle]

@[simp] theorem port_writeHandle (s : State) (i : BitVec 1) (q : Port) :
    (s.writeHandle i).port q =
      if q = s.active then
        { s.port q with
          res0 := i.zeroExtend 32
          res1 := BitVec.ofNat 32 (bodyAddr s.cfg i)
          res2 := s.cfg.bufSize
          res3 := BitVec.ofNat 32 (stateAddr s.cfg i) }
      else s.port q := by
  simp [State.writeHandle]

/-! ## takeEngine -/
@[simp] theorem cfg_takeEngine (s : State) : (s.takeEngine).cfg = s.cfg := by simp [State.takeEngine]
@[simp] theorem lastUsed_takeEngine (s : State) : (s.takeEngine).lastUsed = s.lastUsed := by simp [State.takeEngine]
@[simp] theorem cbValid_takeEngine (s : State) : (s.takeEngine).cbValid = s.cbValid := by simp [State.takeEngine]
@[simp] theorem feBusy_takeEngine (s : State) : (s.takeEngine).feBusy = true := by simp [State.takeEngine]
@[simp] theorem feOwner_takeEngine (s : State) : (s.takeEngine).feOwner = s.active := by simp [State.takeEngine]
@[simp] theorem inst0_takeEngine (s : State) : (s.takeEngine).inst0 = s.inst0 := by simp [State.takeEngine]
@[simp] theorem inst1_takeEngine (s : State) : (s.takeEngine).inst1 = s.inst1 := by simp [State.takeEngine]
@[simp] theorem inst2_takeEngine (s : State) : (s.takeEngine).inst2 = s.inst2 := by simp [State.takeEngine]
@[simp] theorem inst3_takeEngine (s : State) : (s.takeEngine).inst3 = s.inst3 := by simp [State.takeEngine]
@[simp] theorem workFree_takeEngine (s : State) : (s.takeEngine).workFree = s.workFree := by simp [State.takeEngine]
@[simp] theorem mem_takeEngine (s : State) : (s.takeEngine).mem = s.mem := by simp [State.takeEngine]
@[simp] theorem inReset_takeEngine (s : State) : (s.takeEngine).inReset = s.inReset := by simp [State.takeEngine]
@[simp] theorem cpuP_takeEngine (s : State) : (s.takeEngine).cpuP = s.cpuP := by simp [State.takeEngine]
@[simp] theorem cpuC_takeEngine (s : State) : (s.takeEngine).cpuC = s.cpuC := by simp [State.takeEngine]
@[simp] theorem active_takeEngine (s : State) : (s.takeEngine).active = s.active := by simp [State.takeEngine]
@[simp] theorem schedule_takeEngine (s : State) : (s.takeEngine).schedule = s.schedule := by simp [State.takeEngine]
@[simp] theorem tick_takeEngine (s : State) : (s.takeEngine).tick = s.tick := by simp [State.takeEngine]

@[simp] theorem port_takeEngine (s : State) (q : Port) :
    s.takeEngine.port q = if q = s.active then { s.port q with hold := false } else s.port q := by
  simp [State.takeEngine]

/-! ## returnToCpu -/
@[simp] theorem cfg_returnToCpu (s : State) (p : Port) (v : Word) : (s.returnToCpu p v).cfg = s.cfg := by cases p <;> rfl
@[simp] theorem lastUsed_returnToCpu (s : State) (p : Port) (v : Word) : (s.returnToCpu p v).lastUsed = s.lastUsed := by cases p <;> rfl
@[simp] theorem cbValid_returnToCpu (s : State) (p : Port) (v : Word) : (s.returnToCpu p v).cbValid = s.cbValid := by cases p <;> rfl
@[simp] theorem feBusy_returnToCpu (s : State) (p : Port) (v : Word) : (s.returnToCpu p v).feBusy = s.feBusy := by cases p <;> rfl
@[simp] theorem feOwner_returnToCpu (s : State) (p : Port) (v : Word) : (s.returnToCpu p v).feOwner = s.feOwner := by cases p <;> rfl
@[simp] theorem inst0_returnToCpu (s : State) (p : Port) (v : Word) : (s.returnToCpu p v).inst0 = s.inst0 := by cases p <;> rfl
@[simp] theorem inst1_returnToCpu (s : State) (p : Port) (v : Word) : (s.returnToCpu p v).inst1 = s.inst1 := by cases p <;> rfl
@[simp] theorem inst2_returnToCpu (s : State) (p : Port) (v : Word) : (s.returnToCpu p v).inst2 = s.inst2 := by cases p <;> rfl
@[simp] theorem inst3_returnToCpu (s : State) (p : Port) (v : Word) : (s.returnToCpu p v).inst3 = s.inst3 := by cases p <;> rfl
@[simp] theorem workFree_returnToCpu (s : State) (p : Port) (v : Word) : (s.returnToCpu p v).workFree = s.workFree := by cases p <;> rfl
@[simp] theorem mem_returnToCpu (s : State) (p : Port) (v : Word) : (s.returnToCpu p v).mem = s.mem := by cases p <;> rfl
@[simp] theorem inReset_returnToCpu (s : State) (p : Port) (v : Word) : (s.returnToCpu p v).inReset = s.inReset := by cases p <;> rfl
@[simp] theorem active_returnToCpu (s : State) (p : Port) (v : Word) : (s.returnToCpu p v).active = s.active := by cases p <;> rfl
@[simp] theorem schedule_returnToCpu (s : State) (p : Port) (v : Word) : (s.returnToCpu p v).schedule = s.schedule := by cases p <;> rfl
@[simp] theorem tick_returnToCpu (s : State) (p : Port) (v : Word) : (s.returnToCpu p v).tick = s.tick := by cases p <;> rfl

@[simp] theorem port_returnToCpu (s : State) (p q : Port) (v : Word) : (s.returnToCpu p v).port q = s.port q := by
  cases p <;> cases q <;> rfl

/-! ## advanceClock -/
@[simp] theorem cfg_advanceClock (s : State) (p : Port) (ms : DWord) : (s.advanceClock p ms).cfg = s.cfg := by simp [State.advanceClock]
@[simp] theorem lastUsed_advanceClock (s : State) (p : Port) (ms : DWord) : (s.advanceClock p ms).lastUsed = s.lastUsed := by simp [State.advanceClock]
@[simp] theorem cbValid_advanceClock (s : State) (p : Port) (ms : DWord) : (s.advanceClock p ms).cbValid = s.cbValid := by simp [State.advanceClock]
@[simp] theorem feBusy_advanceClock (s : State) (p : Port) (ms : DWord) : (s.advanceClock p ms).feBusy = s.feBusy := by simp [State.advanceClock]
@[simp] theorem feOwner_advanceClock (s : State) (p : Port) (ms : DWord) : (s.advanceClock p ms).feOwner = s.feOwner := by simp [State.advanceClock]
@[simp] theorem inst0_advanceClock (s : State) (p : Port) (ms : DWord) : (s.advanceClock p ms).inst0 = s.inst0 := by simp [State.advanceClock]
@[simp] theorem inst1_advanceClock (s : State) (p : Port) (ms : DWord) : (s.advanceClock p ms).inst1 = s.inst1 := by simp [State.advanceClock]
@[simp] theorem inst2_advanceClock (s : State) (p : Port) (ms : DWord) : (s.advanceClock p ms).inst2 = s.inst2 := by simp [State.advanceClock]
@[simp] theorem inst3_advanceClock (s : State) (p : Port) (ms : DWord) : (s.advanceClock p ms).inst3 = s.inst3 := by simp [State.advanceClock]
@[simp] theorem workFree_advanceClock (s : State) (p : Port) (ms : DWord) : (s.advanceClock p ms).workFree = s.workFree := by simp [State.advanceClock]
@[simp] theorem mem_advanceClock (s : State) (p : Port) (ms : DWord) : (s.advanceClock p ms).mem = s.mem := by simp [State.advanceClock]
@[simp] theorem inReset_advanceClock (s : State) (p : Port) (ms : DWord) : (s.advanceClock p ms).inReset = s.inReset := by simp [State.advanceClock]
@[simp] theorem cpuP_advanceClock (s : State) (p : Port) (ms : DWord) : (s.advanceClock p ms).cpuP = s.cpuP := by simp [State.advanceClock]
@[simp] theorem cpuC_advanceClock (s : State) (p : Port) (ms : DWord) : (s.advanceClock p ms).cpuC = s.cpuC := by simp [State.advanceClock]
@[simp] theorem active_advanceClock (s : State) (p : Port) (ms : DWord) : (s.advanceClock p ms).active = s.active := by simp [State.advanceClock]
@[simp] theorem schedule_advanceClock (s : State) (p : Port) (ms : DWord) : (s.advanceClock p ms).schedule = s.schedule := by simp [State.advanceClock]
@[simp] theorem tick_advanceClock (s : State) (p : Port) (ms : DWord) : (s.advanceClock p ms).tick = s.tick := by simp [State.advanceClock]

@[simp] theorem port_advanceClock (s : State) (p q : Port) (ms : DWord) :
    (s.advanceClock p ms).port q = if q = p then { s.port q with clock := (s.port q).clock + ms } else s.port q := by
  simp [State.advanceClock]

/-! ## setInst -/
@[simp] theorem cfg_setInst (s : State) (k : Nat) (v : InstSlot) : (s.setInst k v).cfg = s.cfg := by
  unfold State.setInst; split <;> rfl
@[simp] theorem lastUsed_setInst (s : State) (k : Nat) (v : InstSlot) : (s.setInst k v).lastUsed = s.lastUsed := by
  unfold State.setInst; split <;> rfl
@[simp] theorem cbValid_setInst (s : State) (k : Nat) (v : InstSlot) : (s.setInst k v).cbValid = s.cbValid := by
  unfold State.setInst; split <;> rfl
@[simp] theorem feBusy_setInst (s : State) (k : Nat) (v : InstSlot) : (s.setInst k v).feBusy = s.feBusy := by
  unfold State.setInst; split <;> rfl
@[simp] theorem feOwner_setInst (s : State) (k : Nat) (v : InstSlot) : (s.setInst k v).feOwner = s.feOwner := by
  unfold State.setInst; split <;> rfl
@[simp] theorem workFree_setInst (s : State) (k : Nat) (v : InstSlot) : (s.setInst k v).workFree = s.workFree := by
  unfold State.setInst; split <;> rfl
@[simp] theorem mem_setInst (s : State) (k : Nat) (v : InstSlot) : (s.setInst k v).mem = s.mem := by
  unfold State.setInst; split <;> rfl
@[simp] theorem inReset_setInst (s : State) (k : Nat) (v : InstSlot) : (s.setInst k v).inReset = s.inReset := by
  unfold State.setInst; split <;> rfl
@[simp] theorem cpuP_setInst (s : State) (k : Nat) (v : InstSlot) : (s.setInst k v).cpuP = s.cpuP := by
  unfold State.setInst; split <;> rfl
@[simp] theorem cpuC_setInst (s : State) (k : Nat) (v : InstSlot) : (s.setInst k v).cpuC = s.cpuC := by
  unfold State.setInst; split <;> rfl
@[simp] theorem active_setInst (s : State) (k : Nat) (v : InstSlot) : (s.setInst k v).active = s.active := by
  unfold State.setInst; split <;> rfl
@[simp] theorem schedule_setInst (s : State) (k : Nat) (v : InstSlot) : (s.setInst k v).schedule = s.schedule := by
  unfold State.setInst; split <;> rfl
@[simp] theorem tick_setInst (s : State) (k : Nat) (v : InstSlot) : (s.setInst k v).tick = s.tick := by
  unfold State.setInst; split <;> rfl

@[simp] theorem port_setInst (s : State) (k : Nat) (v : InstSlot) (q : Port) : (s.setInst k v).port q = s.port q := by
  unfold State.setInst
  split <;> cases q <;> rfl

/-- The slot written holds the new value, the others keep theirs. -/
theorem inst_setInst (s : State) (k j : Nat) (v : InstSlot) :
    (s.setInst k v).inst j = if j = k ∧ k < 4 then some v else s.inst j := by
  rcases k with _ | _ | _ | _ | k <;> rcases j with _ | _ | _ | _ | j <;> simp [State.setInst, State.inst]

/-! ## The active port -/

@[simp] theorem latch_finish (s : State) (c : Code) : (s.finish c).latch = Latch.idle := by simp [State.latch]

/-- Slots depend on the slot fields alone. -/
theorem inst_congr {s t : State} (h0 : t.inst0 = s.inst0) (h1 : t.inst1 = s.inst1) (h2 : t.inst2 = s.inst2)
    (h3 : t.inst3 = s.inst3) (k : Nat) : t.inst k = s.inst k := by
  unfold State.inst
  split <;> simp_all

@[simp] theorem inst_setPort (s : State) (p : Port) (ps : PortState) (k : Nat) : (s.setPort p ps).inst k = s.inst k :=
  inst_congr (by simp) (by simp) (by simp) (by simp) k
@[simp] theorem inst_updPort (s : State) (p : Port) (f : PortState → PortState) (k : Nat) : (s.updPort p f).inst k = s.inst k :=
  inst_congr (by simp) (by simp) (by simp) (by simp) k
@[simp] theorem inst_finish (s : State) (c : Code) (k : Nat) : (s.finish c).inst k = s.inst k :=
  inst_congr (by simp) (by simp) (by simp) (by simp) k
@[simp] theorem inst_finishFft (s : State) (c : Code) (k : Nat) : (s.finishFft c).inst k = s.inst k :=
  inst_congr (by simp) (by simp) (by simp) (by simp) k
@[simp] theorem inst_wait (s : State)  (k : Nat) : (s.wait).inst k = s.inst k :=
  inst_congr (by simp) (by simp) (by simp) (by simp) k
@[simp] theorem inst_raiseDoorbell (s : State) (p : Port) (k : Nat) : (s.raiseDoorbell p).inst k = s.inst k :=
  inst_congr (by simp) (by simp) (by simp) (by simp) k
@[simp] theorem inst_setRes0 (s : State) (v : Word) (k : Nat) : (s.setRes0 v).inst k = s.inst k :=
  inst_congr (by simp) (by simp) (by simp) (by simp) k
@[simp] theorem inst_setRes1 (s : State) (v : Word) (k : Nat) : (s.setRes1 v).inst k = s.inst k :=
  inst_congr (by simp) (by simp) (by simp) (by simp) k
@[simp] theorem inst_writeHandle (s : State) (i : BitVec 1) (k : Nat) : (s.writeHandle i).inst k = s.inst k :=
  inst_congr (by simp) (by simp) (by simp) (by simp) k
@[simp] theorem inst_takeEngine (s : State)  (k : Nat) : (s.takeEngine).inst k = s.inst k :=
  inst_congr (by simp) (by simp) (by simp) (by simp) k
@[simp] theorem inst_returnToCpu (s : State) (p : Port) (v : Word) (k : Nat) : (s.returnToCpu p v).inst k = s.inst k :=
  inst_congr (by simp) (by simp) (by simp) (by simp) k
@[simp] theorem inst_advanceClock (s : State) (p : Port) (ms : DWord) (k : Nat) : (s.advanceClock p ms).inst k = s.inst k :=
  inst_congr (by simp) (by simp) (by simp) (by simp) k

end Sys2Proof.Machine
end

