-- ==== Sys2Proof/Laws/Ops.lean ====
section
/-! SUPPORT. For each shared operation, what it does, said once: records of accesses, reads, stores, CAS32 and FADD32,
and the checks of FFT commands, which depend on the parameters, the slots and the latched command alone. -/

namespace Sys2Proof.Machine

/-! ## FFT commands in flight -/

theorem rfftCheck_congr {s t : State} (hc : t.cfg = s.cfg) (hi : ∀ k, t.inst k = s.inst k) (l : Latch) (k : Nat) :
    rfftCheck t l k = rfftCheck s l k := by
  simp only [rfftCheck, hc, hi]

theorem cfftCheck_congr {s t : State} (hc : t.cfg = s.cfg) (l : Latch) : cfftCheck t l = cfftCheck s l := by
  simp only [cfftCheck, hc]

theorem topbinsCheck_congr {s t : State} (hc : t.cfg = s.cfg) (l : Latch) (k : Nat) :
    topbinsCheck t l k = topbinsCheck s l k := by
  simp only [topbinsCheck, hc]

/-- The checks read the arguments of the latch alone. -/
theorem fftCheck_congr {s t : State} (hc : t.cfg = s.cfg) (hi : ∀ k, t.inst k = s.inst k) {l l' : Latch}
    (h0 : l'.a0 = l.a0) (h1 : l'.a1 = l.a1) (h2 : l'.a2 = l.a2) (h3 : l'.a3 = l.a3) (i : Instr) :
    fftCheck t l' i = fftCheck s l i := by
  cases i <;> simp only [fftCheck, rfftCheck, cfftCheck, topbinsCheck, hc, hi, h0, h1, h2, h3]

/-- What a record of accesses leaves of a port. -/
structure SameCommand (a b : PortState) : Prop where
  busy : a.busy = b.busy
  word : a.latch.word = b.latch.word
  a0 : a.latch.a0 = b.latch.a0
  a1 : a.latch.a1 = b.latch.a1
  a2 : a.latch.a2 = b.latch.a2
  a3 : a.latch.a3 = b.latch.a3

theorem SameCommand.refl (a : PortState) : SameCommand a a := ⟨rfl, rfl, rfl, rfl, rfl, rfl⟩

/-- The FFT command in flight on a port depends on the parameters, the slots and that port's command alone. -/
theorem fftInFlight_congr {s t : State} (hc : t.cfg = s.cfg) (hi : ∀ k, t.inst k = s.inst k) {q : Port}
    (hq : SameCommand (t.port q) (s.port q)) : t.fftInFlight q = s.fftInFlight q := by
  unfold State.fftInFlight
  rw [hq.busy, hq.word]
  split
  · split
    · exact fftCheck_congr hc hi hq.a0 hq.a1 hq.a2 hq.a3 _
    · rfl
  · rfl

theorem fftRegions_congr {s t : State} (hc : t.cfg = s.cfg) (hi : ∀ k, t.inst k = s.inst k) {q : Port}
    (hq : SameCommand (t.port q) (s.port q)) : t.fftRegions q = s.fftRegions q := by
  unfold State.fftRegions
  rw [fftInFlight_congr hc hi hq]

/-- Whether a read races depends on the commands of the other agents' ports. -/
theorem readRaces_congr {s t : State} (hc : t.cfg = s.cfg) (hi : ∀ k, t.inst k = s.inst k) {agent : Option Port}
    (hq : ∀ q, agent ≠ some q → SameCommand (t.port q) (s.port q)) (r : Region) :
    t.readRaces agent r = s.readRaces agent r := by
  unfold State.readRaces
  congr 1
  funext q
  by_cases h : agent = some q
  · simp [h]
  · rw [fftRegions_congr hc hi (hq q h)]

/-- Bytes read depend on the memory, the step and the commands of the other agents' ports. -/
theorem peek_congr {s t : State} (hc : t.cfg = s.cfg) (hi : ∀ k, t.inst k = s.inst k) (ht : t.tick = s.tick)
    (hm : t.mem = s.mem) {agent : Option Port} (hq : ∀ q, agent ≠ some q → SameCommand (t.port q) (s.port q))
    (a n : Nat) : t.peek agent a n = s.peek agent a n := by
  unfold State.peek
  rw [readRaces_congr hc hi hq, ht, hm]

/-! ## note -/

/-- The record of an access changes the `touched` list of some ports and nothing else. -/
def PortState.touchedBy (ps : PortState) (t : Touch) : PortState :=
  { ps with latch := { ps.latch with touched := t :: ps.latch.touched } }

/-- What `note` does to the ports: an FFT command on memory in flight that is not the agent's own is told. -/
theorem port_note (s : State) (agent : Option Port) (t : Touch) (q : Port) :
    (s.note agent t).port q =
      if agent ≠ some q ∧ (s.fftInFlight q).isSome then (s.port q).touchedBy t else s.port q := by
  have hC : ∀ f, (s.updPort .P f).fftInFlight .C = s.fftInFlight .C := fun f =>
    fftInFlight_congr (by simp) (fun k => inst_congr (by simp) (by simp) (by simp) (by simp) k)
      (by simpa using SameCommand.refl _)
  unfold State.note ports
  simp only [List.foldl_cons, List.foldl_nil]
  by_cases hP : agent ≠ some Port.P ∧ (s.fftInFlight .P).isSome = true
  · by_cases hCc : agent ≠ some Port.C ∧ (s.fftInFlight .C).isSome = true
    · cases q <;> simp [hP, hCc, hC, PortState.touchedBy]
    · cases q <;> simp [hP, hCc, hC, PortState.touchedBy]
  · by_cases hCc : agent ≠ some Port.C ∧ (s.fftInFlight .C).isSome = true
    · cases q <;> simp [hP, hCc, PortState.touchedBy]
    · cases q <;> simp [hP, hCc]

@[simp] theorem cfg_note (s : State) (agent : Option Port) (t : Touch) : (s.note agent t).cfg = s.cfg := by
  unfold State.note ports
  simp only [List.foldl_cons, List.foldl_nil]
  split <;> split <;> simp

@[simp] theorem lastUsed_note (s : State) (agent : Option Port) (t : Touch) : (s.note agent t).lastUsed = s.lastUsed := by
  unfold State.note ports
  simp only [List.foldl_cons, List.foldl_nil]
  split <;> split <;> simp

@[simp] theorem cbValid_note (s : State) (agent : Option Port) (t : Touch) : (s.note agent t).cbValid = s.cbValid := by
  unfold State.note ports
  simp only [List.foldl_cons, List.foldl_nil]
  split <;> split <;> simp

@[simp] theorem feBusy_note (s : State) (agent : Option Port) (t : Touch) : (s.note agent t).feBusy = s.feBusy := by
  unfold State.note ports
  simp only [List.foldl_cons, List.foldl_nil]
  split <;> split <;> simp

@[simp] theorem feOwner_note (s : State) (agent : Option Port) (t : Touch) : (s.note agent t).feOwner = s.feOwner := by
  unfold State.note ports
  simp only [List.foldl_cons, List.foldl_nil]
  split <;> split <;> simp

@[simp] theorem inst0_note (s : State) (agent : Option Port) (t : Touch) : (s.note agent t).inst0 = s.inst0 := by
  unfold State.note ports
  simp only [List.foldl_cons, List.foldl_nil]
  split <;> split <;> simp

@[simp] theorem inst1_note (s : State) (agent : Option Port) (t : Touch) : (s.note agent t).inst1 = s.inst1 := by
  unfold State.note ports
  simp only [List.foldl_cons, List.foldl_nil]
  split <;> split <;> simp

@[simp] theorem inst2_note (s : State) (agent : Option Port) (t : Touch) : (s.note agent t).inst2 = s.inst2 := by
  unfold State.note ports
  simp only [List.foldl_cons, List.foldl_nil]
  split <;> split <;> simp

@[simp] theorem inst3_note (s : State) (agent : Option Port) (t : Touch) : (s.note agent t).inst3 = s.inst3 := by
  unfold State.note ports
  simp only [List.foldl_cons, List.foldl_nil]
  split <;> split <;> simp

@[simp] theorem workFree_note (s : State) (agent : Option Port) (t : Touch) : (s.note agent t).workFree = s.workFree := by
  unfold State.note ports
  simp only [List.foldl_cons, List.foldl_nil]
  split <;> split <;> simp

@[simp] theorem mem_note (s : State) (agent : Option Port) (t : Touch) : (s.note agent t).mem = s.mem := by
  unfold State.note ports
  simp only [List.foldl_cons, List.foldl_nil]
  split <;> split <;> simp

@[simp] theorem inReset_note (s : State) (agent : Option Port) (t : Touch) : (s.note agent t).inReset = s.inReset := by
  unfold State.note ports
  simp only [List.foldl_cons, List.foldl_nil]
  split <;> split <;> simp

@[simp] theorem cpuP_note (s : State) (agent : Option Port) (t : Touch) : (s.note agent t).cpuP = s.cpuP := by
  unfold State.note ports
  simp only [List.foldl_cons, List.foldl_nil]
  split <;> split <;> simp

@[simp] theorem cpuC_note (s : State) (agent : Option Port) (t : Touch) : (s.note agent t).cpuC = s.cpuC := by
  unfold State.note ports
  simp only [List.foldl_cons, List.foldl_nil]
  split <;> split <;> simp

@[simp] theorem active_note (s : State) (agent : Option Port) (t : Touch) : (s.note agent t).active = s.active := by
  unfold State.note ports
  simp only [List.foldl_cons, List.foldl_nil]
  split <;> split <;> simp

@[simp] theorem schedule_note (s : State) (agent : Option Port) (t : Touch) : (s.note agent t).schedule = s.schedule := by
  unfold State.note ports
  simp only [List.foldl_cons, List.foldl_nil]
  split <;> split <;> simp

@[simp] theorem tick_note (s : State) (agent : Option Port) (t : Touch) : (s.note agent t).tick = s.tick := by
  unfold State.note ports
  simp only [List.foldl_cons, List.foldl_nil]
  split <;> split <;> simp

@[simp] theorem cfg_poke (s : State) (agent : Option Port) (a : Nat) (bs : List Byte) :
    (s.poke agent a bs).cfg = s.cfg := by simp [State.poke]

@[simp] theorem lastUsed_poke (s : State) (agent : Option Port) (a : Nat) (bs : List Byte) :
    (s.poke agent a bs).lastUsed = s.lastUsed := by simp [State.poke]

@[simp] theorem cbValid_poke (s : State) (agent : Option Port) (a : Nat) (bs : List Byte) :
    (s.poke agent a bs).cbValid = s.cbValid := by simp [State.poke]

@[simp] theorem feBusy_poke (s : State) (agent : Option Port) (a : Nat) (bs : List Byte) :
    (s.poke agent a bs).feBusy = s.feBusy := by simp [State.poke]

@[simp] theorem feOwner_poke (s : State) (agent : Option Port) (a : Nat) (bs : List Byte) :
    (s.poke agent a bs).feOwner = s.feOwner := by simp [State.poke]

@[simp] theorem inst0_poke (s : State) (agent : Option Port) (a : Nat) (bs : List Byte) :
    (s.poke agent a bs).inst0 = s.inst0 := by simp [State.poke]

@[simp] theorem inst1_poke (s : State) (agent : Option Port) (a : Nat) (bs : List Byte) :
    (s.poke agent a bs).inst1 = s.inst1 := by simp [State.poke]

@[simp] theorem inst2_poke (s : State) (agent : Option Port) (a : Nat) (bs : List Byte) :
    (s.poke agent a bs).inst2 = s.inst2 := by simp [State.poke]

@[simp] theorem inst3_poke (s : State) (agent : Option Port) (a : Nat) (bs : List Byte) :
    (s.poke agent a bs).inst3 = s.inst3 := by simp [State.poke]

@[simp] theorem workFree_poke (s : State) (agent : Option Port) (a : Nat) (bs : List Byte) :
    (s.poke agent a bs).workFree = s.workFree := by simp [State.poke]

@[simp] theorem mem_poke (s : State) (agent : Option Port) (a : Nat) (bs : List Byte) :
    (s.poke agent a bs).mem = s.mem.write a bs := by simp [State.poke]

@[simp] theorem inReset_poke (s : State) (agent : Option Port) (a : Nat) (bs : List Byte) :
    (s.poke agent a bs).inReset = s.inReset := by simp [State.poke]

@[simp] theorem cpuP_poke (s : State) (agent : Option Port) (a : Nat) (bs : List Byte) :
    (s.poke agent a bs).cpuP = s.cpuP := by simp [State.poke]

@[simp] theorem cpuC_poke (s : State) (agent : Option Port) (a : Nat) (bs : List Byte) :
    (s.poke agent a bs).cpuC = s.cpuC := by simp [State.poke]

@[simp] theorem active_poke (s : State) (agent : Option Port) (a : Nat) (bs : List Byte) :
    (s.poke agent a bs).active = s.active := by simp [State.poke]

@[simp] theorem schedule_poke (s : State) (agent : Option Port) (a : Nat) (bs : List Byte) :
    (s.poke agent a bs).schedule = s.schedule := by simp [State.poke]

@[simp] theorem tick_poke (s : State) (agent : Option Port) (a : Nat) (bs : List Byte) :
    (s.poke agent a bs).tick = s.tick := by simp [State.poke]

@[simp] theorem cfg_storeZero (s : State) (r : Region) : (s.storeZero r).cfg = s.cfg := by
  simp [State.storeZero]

@[simp] theorem lastUsed_storeZero (s : State) (r : Region) : (s.storeZero r).lastUsed = s.lastUsed := by
  simp [State.storeZero]

@[simp] theorem cbValid_storeZero (s : State) (r : Region) : (s.storeZero r).cbValid = s.cbValid := by
  simp [State.storeZero]

@[simp] theorem feBusy_storeZero (s : State) (r : Region) : (s.storeZero r).feBusy = s.feBusy := by
  simp [State.storeZero]

@[simp] theorem feOwner_storeZero (s : State) (r : Region) : (s.storeZero r).feOwner = s.feOwner := by
  simp [State.storeZero]

@[simp] theorem inst0_storeZero (s : State) (r : Region) : (s.storeZero r).inst0 = s.inst0 := by
  simp [State.storeZero]

@[simp] theorem inst1_storeZero (s : State) (r : Region) : (s.storeZero r).inst1 = s.inst1 := by
  simp [State.storeZero]

@[simp] theorem inst2_storeZero (s : State) (r : Region) : (s.storeZero r).inst2 = s.inst2 := by
  simp [State.storeZero]

@[simp] theorem inst3_storeZero (s : State) (r : Region) : (s.storeZero r).inst3 = s.inst3 := by
  simp [State.storeZero]

@[simp] theorem workFree_storeZero (s : State) (r : Region) : (s.storeZero r).workFree = s.workFree := by
  simp [State.storeZero]

@[simp] theorem mem_storeZero (s : State) (r : Region) : (s.storeZero r).mem = s.mem.zero r.base r.len := by
  simp [State.storeZero]

@[simp] theorem inReset_storeZero (s : State) (r : Region) : (s.storeZero r).inReset = s.inReset := by
  simp [State.storeZero]

@[simp] theorem cpuP_storeZero (s : State) (r : Region) : (s.storeZero r).cpuP = s.cpuP := by
  simp [State.storeZero]

@[simp] theorem cpuC_storeZero (s : State) (r : Region) : (s.storeZero r).cpuC = s.cpuC := by
  simp [State.storeZero]

@[simp] theorem active_storeZero (s : State) (r : Region) : (s.storeZero r).active = s.active := by
  simp [State.storeZero]

@[simp] theorem schedule_storeZero (s : State) (r : Region) : (s.storeZero r).schedule = s.schedule := by
  simp [State.storeZero]

@[simp] theorem tick_storeZero (s : State) (r : Region) : (s.storeZero r).tick = s.tick := by
  simp [State.storeZero]

@[simp] theorem cfg_noteRead (s : State) (a n : Nat) : (s.noteRead a n).cfg = s.cfg := by simp [State.noteRead]

@[simp] theorem lastUsed_noteRead (s : State) (a n : Nat) : (s.noteRead a n).lastUsed = s.lastUsed := by simp [State.noteRead]

@[simp] theorem cbValid_noteRead (s : State) (a n : Nat) : (s.noteRead a n).cbValid = s.cbValid := by simp [State.noteRead]

@[simp] theorem feBusy_noteRead (s : State) (a n : Nat) : (s.noteRead a n).feBusy = s.feBusy := by simp [State.noteRead]

@[simp] theorem feOwner_noteRead (s : State) (a n : Nat) : (s.noteRead a n).feOwner = s.feOwner := by simp [State.noteRead]

@[simp] theorem inst0_noteRead (s : State) (a n : Nat) : (s.noteRead a n).inst0 = s.inst0 := by simp [State.noteRead]

@[simp] theorem inst1_noteRead (s : State) (a n : Nat) : (s.noteRead a n).inst1 = s.inst1 := by simp [State.noteRead]

@[simp] theorem inst2_noteRead (s : State) (a n : Nat) : (s.noteRead a n).inst2 = s.inst2 := by simp [State.noteRead]

@[simp] theorem inst3_noteRead (s : State) (a n : Nat) : (s.noteRead a n).inst3 = s.inst3 := by simp [State.noteRead]

@[simp] theorem workFree_noteRead (s : State) (a n : Nat) : (s.noteRead a n).workFree = s.workFree := by simp [State.noteRead]

@[simp] theorem mem_noteRead (s : State) (a n : Nat) : (s.noteRead a n).mem = s.mem := by simp [State.noteRead]

@[simp] theorem inReset_noteRead (s : State) (a n : Nat) : (s.noteRead a n).inReset = s.inReset := by simp [State.noteRead]

@[simp] theorem cpuP_noteRead (s : State) (a n : Nat) : (s.noteRead a n).cpuP = s.cpuP := by simp [State.noteRead]

@[simp] theorem cpuC_noteRead (s : State) (a n : Nat) : (s.noteRead a n).cpuC = s.cpuC := by simp [State.noteRead]

@[simp] theorem active_noteRead (s : State) (a n : Nat) : (s.noteRead a n).active = s.active := by simp [State.noteRead]

@[simp] theorem schedule_noteRead (s : State) (a n : Nat) : (s.noteRead a n).schedule = s.schedule := by simp [State.noteRead]

@[simp] theorem tick_noteRead (s : State) (a n : Nat) : (s.noteRead a n).tick = s.tick := by simp [State.noteRead]

@[simp] theorem cfg_store (s : State) (a : Nat) (bs : List Byte) : (s.store a bs).cfg = s.cfg := by
  simp [State.store]

@[simp] theorem lastUsed_store (s : State) (a : Nat) (bs : List Byte) : (s.store a bs).lastUsed = s.lastUsed := by
  simp [State.store]

@[simp] theorem cbValid_store (s : State) (a : Nat) (bs : List Byte) : (s.store a bs).cbValid = s.cbValid := by
  simp [State.store]

@[simp] theorem feBusy_store (s : State) (a : Nat) (bs : List Byte) : (s.store a bs).feBusy = s.feBusy := by
  simp [State.store]

@[simp] theorem feOwner_store (s : State) (a : Nat) (bs : List Byte) : (s.store a bs).feOwner = s.feOwner := by
  simp [State.store]

@[simp] theorem inst0_store (s : State) (a : Nat) (bs : List Byte) : (s.store a bs).inst0 = s.inst0 := by
  simp [State.store]

@[simp] theorem inst1_store (s : State) (a : Nat) (bs : List Byte) : (s.store a bs).inst1 = s.inst1 := by
  simp [State.store]

@[simp] theorem inst2_store (s : State) (a : Nat) (bs : List Byte) : (s.store a bs).inst2 = s.inst2 := by
  simp [State.store]

@[simp] theorem inst3_store (s : State) (a : Nat) (bs : List Byte) : (s.store a bs).inst3 = s.inst3 := by
  simp [State.store]

@[simp] theorem workFree_store (s : State) (a : Nat) (bs : List Byte) : (s.store a bs).workFree = s.workFree := by
  simp [State.store]

@[simp] theorem mem_store (s : State) (a : Nat) (bs : List Byte) : (s.store a bs).mem = s.mem.write a bs := by
  simp [State.store]

@[simp] theorem inReset_store (s : State) (a : Nat) (bs : List Byte) : (s.store a bs).inReset = s.inReset := by
  simp [State.store]

@[simp] theorem cpuP_store (s : State) (a : Nat) (bs : List Byte) : (s.store a bs).cpuP = s.cpuP := by
  simp [State.store]

@[simp] theorem cpuC_store (s : State) (a : Nat) (bs : List Byte) : (s.store a bs).cpuC = s.cpuC := by
  simp [State.store]

@[simp] theorem active_store (s : State) (a : Nat) (bs : List Byte) : (s.store a bs).active = s.active := by
  simp [State.store]

@[simp] theorem schedule_store (s : State) (a : Nat) (bs : List Byte) : (s.store a bs).schedule = s.schedule := by
  simp [State.store]

@[simp] theorem tick_store (s : State) (a : Nat) (bs : List Byte) : (s.store a bs).tick = s.tick := by
  simp [State.store]

@[simp] theorem cfg_store32 (s : State) (a : Nat) (v : Word) : (s.store32 a v).cfg = s.cfg := by
  simp [State.store32, State.store]

@[simp] theorem lastUsed_store32 (s : State) (a : Nat) (v : Word) : (s.store32 a v).lastUsed = s.lastUsed := by
  simp [State.store32, State.store]

@[simp] theorem cbValid_store32 (s : State) (a : Nat) (v : Word) : (s.store32 a v).cbValid = s.cbValid := by
  simp [State.store32, State.store]

@[simp] theorem feBusy_store32 (s : State) (a : Nat) (v : Word) : (s.store32 a v).feBusy = s.feBusy := by
  simp [State.store32, State.store]

@[simp] theorem feOwner_store32 (s : State) (a : Nat) (v : Word) : (s.store32 a v).feOwner = s.feOwner := by
  simp [State.store32, State.store]

@[simp] theorem inst0_store32 (s : State) (a : Nat) (v : Word) : (s.store32 a v).inst0 = s.inst0 := by
  simp [State.store32, State.store]

@[simp] theorem inst1_store32 (s : State) (a : Nat) (v : Word) : (s.store32 a v).inst1 = s.inst1 := by
  simp [State.store32, State.store]

@[simp] theorem inst2_store32 (s : State) (a : Nat) (v : Word) : (s.store32 a v).inst2 = s.inst2 := by
  simp [State.store32, State.store]

@[simp] theorem inst3_store32 (s : State) (a : Nat) (v : Word) : (s.store32 a v).inst3 = s.inst3 := by
  simp [State.store32, State.store]

@[simp] theorem workFree_store32 (s : State) (a : Nat) (v : Word) : (s.store32 a v).workFree = s.workFree := by
  simp [State.store32, State.store]

@[simp] theorem mem_store32 (s : State) (a : Nat) (v : Word) : (s.store32 a v).mem = s.mem.write a (wordBytes v) := by
  simp [State.store32, State.store]

@[simp] theorem inReset_store32 (s : State) (a : Nat) (v : Word) : (s.store32 a v).inReset = s.inReset := by
  simp [State.store32, State.store]

@[simp] theorem cpuP_store32 (s : State) (a : Nat) (v : Word) : (s.store32 a v).cpuP = s.cpuP := by
  simp [State.store32, State.store]

@[simp] theorem cpuC_store32 (s : State) (a : Nat) (v : Word) : (s.store32 a v).cpuC = s.cpuC := by
  simp [State.store32, State.store]

@[simp] theorem active_store32 (s : State) (a : Nat) (v : Word) : (s.store32 a v).active = s.active := by
  simp [State.store32, State.store]

@[simp] theorem schedule_store32 (s : State) (a : Nat) (v : Word) : (s.store32 a v).schedule = s.schedule := by
  simp [State.store32, State.store]

@[simp] theorem tick_store32 (s : State) (a : Nat) (v : Word) : (s.store32 a v).tick = s.tick := by
  simp [State.store32, State.store]

@[simp] theorem cfg_store64 (s : State) (a : Nat) (v : DWord) : (s.store64 a v).cfg = s.cfg := by
  simp [State.store64, State.store]

@[simp] theorem lastUsed_store64 (s : State) (a : Nat) (v : DWord) : (s.store64 a v).lastUsed = s.lastUsed := by
  simp [State.store64, State.store]

@[simp] theorem cbValid_store64 (s : State) (a : Nat) (v : DWord) : (s.store64 a v).cbValid = s.cbValid := by
  simp [State.store64, State.store]

@[simp] theorem feBusy_store64 (s : State) (a : Nat) (v : DWord) : (s.store64 a v).feBusy = s.feBusy := by
  simp [State.store64, State.store]

@[simp] theorem feOwner_store64 (s : State) (a : Nat) (v : DWord) : (s.store64 a v).feOwner = s.feOwner := by
  simp [State.store64, State.store]

@[simp] theorem inst0_store64 (s : State) (a : Nat) (v : DWord) : (s.store64 a v).inst0 = s.inst0 := by
  simp [State.store64, State.store]

@[simp] theorem inst1_store64 (s : State) (a : Nat) (v : DWord) : (s.store64 a v).inst1 = s.inst1 := by
  simp [State.store64, State.store]

@[simp] theorem inst2_store64 (s : State) (a : Nat) (v : DWord) : (s.store64 a v).inst2 = s.inst2 := by
  simp [State.store64, State.store]

@[simp] theorem inst3_store64 (s : State) (a : Nat) (v : DWord) : (s.store64 a v).inst3 = s.inst3 := by
  simp [State.store64, State.store]

@[simp] theorem workFree_store64 (s : State) (a : Nat) (v : DWord) : (s.store64 a v).workFree = s.workFree := by
  simp [State.store64, State.store]

@[simp] theorem mem_store64 (s : State) (a : Nat) (v : DWord) : (s.store64 a v).mem = s.mem.write a (dwordBytes v) := by
  simp [State.store64, State.store]

@[simp] theorem inReset_store64 (s : State) (a : Nat) (v : DWord) : (s.store64 a v).inReset = s.inReset := by
  simp [State.store64, State.store]

@[simp] theorem cpuP_store64 (s : State) (a : Nat) (v : DWord) : (s.store64 a v).cpuP = s.cpuP := by
  simp [State.store64, State.store]

@[simp] theorem cpuC_store64 (s : State) (a : Nat) (v : DWord) : (s.store64 a v).cpuC = s.cpuC := by
  simp [State.store64, State.store]

@[simp] theorem active_store64 (s : State) (a : Nat) (v : DWord) : (s.store64 a v).active = s.active := by
  simp [State.store64, State.store]

@[simp] theorem schedule_store64 (s : State) (a : Nat) (v : DWord) : (s.store64 a v).schedule = s.schedule := by
  simp [State.store64, State.store]

@[simp] theorem tick_store64 (s : State) (a : Nat) (v : DWord) : (s.store64 a v).tick = s.tick := by
  simp [State.store64, State.store]

@[simp] theorem cfg_cas32 (s : State) (a : Nat) (e n : Word) : (s.cas32 a e n).cfg = s.cfg := by
  unfold State.cas32; dsimp only; split <;> simp

@[simp] theorem lastUsed_cas32 (s : State) (a : Nat) (e n : Word) : (s.cas32 a e n).lastUsed = s.lastUsed := by
  unfold State.cas32; dsimp only; split <;> simp

@[simp] theorem cbValid_cas32 (s : State) (a : Nat) (e n : Word) : (s.cas32 a e n).cbValid = s.cbValid := by
  unfold State.cas32; dsimp only; split <;> simp

@[simp] theorem feBusy_cas32 (s : State) (a : Nat) (e n : Word) : (s.cas32 a e n).feBusy = s.feBusy := by
  unfold State.cas32; dsimp only; split <;> simp

@[simp] theorem feOwner_cas32 (s : State) (a : Nat) (e n : Word) : (s.cas32 a e n).feOwner = s.feOwner := by
  unfold State.cas32; dsimp only; split <;> simp

@[simp] theorem inst0_cas32 (s : State) (a : Nat) (e n : Word) : (s.cas32 a e n).inst0 = s.inst0 := by
  unfold State.cas32; dsimp only; split <;> simp

@[simp] theorem inst1_cas32 (s : State) (a : Nat) (e n : Word) : (s.cas32 a e n).inst1 = s.inst1 := by
  unfold State.cas32; dsimp only; split <;> simp

@[simp] theorem inst2_cas32 (s : State) (a : Nat) (e n : Word) : (s.cas32 a e n).inst2 = s.inst2 := by
  unfold State.cas32; dsimp only; split <;> simp

@[simp] theorem inst3_cas32 (s : State) (a : Nat) (e n : Word) : (s.cas32 a e n).inst3 = s.inst3 := by
  unfold State.cas32; dsimp only; split <;> simp

@[simp] theorem workFree_cas32 (s : State) (a : Nat) (e n : Word) : (s.cas32 a e n).workFree = s.workFree := by
  unfold State.cas32; dsimp only; split <;> simp

@[simp] theorem inReset_cas32 (s : State) (a : Nat) (e n : Word) : (s.cas32 a e n).inReset = s.inReset := by
  unfold State.cas32; dsimp only; split <;> simp

@[simp] theorem cpuP_cas32 (s : State) (a : Nat) (e n : Word) : (s.cas32 a e n).cpuP = s.cpuP := by
  unfold State.cas32; dsimp only; split <;> simp

@[simp] theorem cpuC_cas32 (s : State) (a : Nat) (e n : Word) : (s.cas32 a e n).cpuC = s.cpuC := by
  unfold State.cas32; dsimp only; split <;> simp

@[simp] theorem active_cas32 (s : State) (a : Nat) (e n : Word) : (s.cas32 a e n).active = s.active := by
  unfold State.cas32; dsimp only; split <;> simp

@[simp] theorem schedule_cas32 (s : State) (a : Nat) (e n : Word) : (s.cas32 a e n).schedule = s.schedule := by
  unfold State.cas32; dsimp only; split <;> simp

@[simp] theorem tick_cas32 (s : State) (a : Nat) (e n : Word) : (s.cas32 a e n).tick = s.tick := by
  unfold State.cas32; dsimp only; split <;> simp

/-- CAS32 writes the word exactly when the old value is the expected one (rule R94). -/
@[simp] theorem mem_cas32 (s : State) (a : Nat) (e n : Word) :
    (s.cas32 a e n).mem = if s.peek32 a = e then s.mem.write a (wordBytes n) else s.mem := by
  unfold State.cas32; dsimp only; split <;> simp

@[simp] theorem cfg_fadd32 (s : State) (a : Nat) (d : Word) : (s.fadd32 a d).cfg = s.cfg := by
  simp [State.fadd32]

@[simp] theorem lastUsed_fadd32 (s : State) (a : Nat) (d : Word) : (s.fadd32 a d).lastUsed = s.lastUsed := by
  simp [State.fadd32]

@[simp] theorem cbValid_fadd32 (s : State) (a : Nat) (d : Word) : (s.fadd32 a d).cbValid = s.cbValid := by
  simp [State.fadd32]

@[simp] theorem feBusy_fadd32 (s : State) (a : Nat) (d : Word) : (s.fadd32 a d).feBusy = s.feBusy := by
  simp [State.fadd32]

@[simp] theorem feOwner_fadd32 (s : State) (a : Nat) (d : Word) : (s.fadd32 a d).feOwner = s.feOwner := by
  simp [State.fadd32]

@[simp] theorem inst0_fadd32 (s : State) (a : Nat) (d : Word) : (s.fadd32 a d).inst0 = s.inst0 := by
  simp [State.fadd32]

@[simp] theorem inst1_fadd32 (s : State) (a : Nat) (d : Word) : (s.fadd32 a d).inst1 = s.inst1 := by
  simp [State.fadd32]

@[simp] theorem inst2_fadd32 (s : State) (a : Nat) (d : Word) : (s.fadd32 a d).inst2 = s.inst2 := by
  simp [State.fadd32]

@[simp] theorem inst3_fadd32 (s : State) (a : Nat) (d : Word) : (s.fadd32 a d).inst3 = s.inst3 := by
  simp [State.fadd32]

@[simp] theorem workFree_fadd32 (s : State) (a : Nat) (d : Word) : (s.fadd32 a d).workFree = s.workFree := by
  simp [State.fadd32]

@[simp] theorem mem_fadd32 (s : State) (a : Nat) (d : Word) : (s.fadd32 a d).mem = s.mem.write a (wordBytes (s.peek32 a + d)) := by
  simp [State.fadd32]

@[simp] theorem inReset_fadd32 (s : State) (a : Nat) (d : Word) : (s.fadd32 a d).inReset = s.inReset := by
  simp [State.fadd32]

@[simp] theorem cpuP_fadd32 (s : State) (a : Nat) (d : Word) : (s.fadd32 a d).cpuP = s.cpuP := by
  simp [State.fadd32]

@[simp] theorem cpuC_fadd32 (s : State) (a : Nat) (d : Word) : (s.fadd32 a d).cpuC = s.cpuC := by
  simp [State.fadd32]

@[simp] theorem active_fadd32 (s : State) (a : Nat) (d : Word) : (s.fadd32 a d).active = s.active := by
  simp [State.fadd32]

@[simp] theorem schedule_fadd32 (s : State) (a : Nat) (d : Word) : (s.fadd32 a d).schedule = s.schedule := by
  simp [State.fadd32]

@[simp] theorem tick_fadd32 (s : State) (a : Nat) (d : Word) : (s.fadd32 a d).tick = s.tick := by
  simp [State.fadd32]

/-! ## Ports under memory operations -/

theorem sameCommand_touchedBy (ps : PortState) (t : Touch) : SameCommand (ps.touchedBy t) ps :=
  ⟨rfl, rfl, rfl, rfl, rfl, rfl⟩

theorem sameCommand_note (s : State) (agent : Option Port) (t : Touch) (q : Port) :
    SameCommand ((s.note agent t).port q) (s.port q) := by
  rw [port_note]
  split
  · exact sameCommand_touchedBy _ _
  · exact SameCommand.refl _

@[simp] theorem inst_note (s : State) (agent : Option Port) (t : Touch) (k : Nat) :
    (s.note agent t).inst k = s.inst k := inst_congr (by simp) (by simp) (by simp) (by simp) k

@[simp] theorem fftInFlight_note (s : State) (agent : Option Port) (t : Touch) (q : Port) :
    (s.note agent t).fftInFlight q = s.fftInFlight q :=
  fftInFlight_congr (by simp) (by simp) (sameCommand_note s agent t q)

@[simp] theorem fftRegions_note (s : State) (agent : Option Port) (t : Touch) (q : Port) :
    (s.note agent t).fftRegions q = s.fftRegions q :=
  fftRegions_congr (by simp) (by simp) (sameCommand_note s agent t q)

@[simp] theorem readRaces_note (s : State) (agent by' : Option Port) (t : Touch) (r : Region) :
    (s.note agent t).readRaces by' r = s.readRaces by' r :=
  readRaces_congr (by simp) (by simp) (fun q _ => sameCommand_note s agent t q) r

@[simp] theorem peek_note (s : State) (agent by' : Option Port) (t : Touch) (a n : Nat) :
    (s.note agent t).peek by' a n = s.peek by' a n :=
  peek_congr (by simp) (by simp) (by simp) (by simp) (fun q _ => sameCommand_note s agent t q) a n

@[simp] theorem peek32_noteRead (s : State) (b n a : Nat) : (s.noteRead b n).peek32 a = s.peek32 a := by
  simp [State.peek32, State.noteRead]

@[simp] theorem peek64_noteRead (s : State) (b n a : Nat) : (s.noteRead b n).peek64 a = s.peek64 a := by
  simp [State.peek64, State.noteRead]

/-- A store leaves a port as the record of the store does. -/
theorem port_poke (s : State) (agent : Option Port) (a : Nat) (bs : List Byte) (q : Port) :
    (s.poke agent a bs).port q = (s.note agent ⟨true, ⟨a, bs.length⟩⟩).port q := by
  cases q <;> rfl

theorem port_storeZero (s : State) (r : Region) (q : Port) :
    (s.storeZero r).port q = (s.note (some s.active) ⟨true, r⟩).port q := by
  cases q <;> rfl

@[simp] theorem port_note_self (s : State) (p : Port) (t : Touch) : (s.note (some p) t).port p = s.port p := by
  simp [port_note]

@[simp] theorem port_noteRead_active (s : State) (a n : Nat) : (s.noteRead a n).port s.active = s.port s.active := by
  simp [State.noteRead]

@[simp] theorem port_store_active (s : State) (a : Nat) (bs : List Byte) :
    (s.store a bs).port s.active = s.port s.active := by
  simp [State.store, port_poke]

@[simp] theorem port_store32_active (s : State) (a : Nat) (v : Word) :
    (s.store32 a v).port s.active = s.port s.active := by
  simp [State.store32]

@[simp] theorem port_store64_active (s : State) (a : Nat) (v : DWord) :
    (s.store64 a v).port s.active = s.port s.active := by
  simp [State.store64]

@[simp] theorem port_storeZero_active (s : State) (r : Region) :
    (s.storeZero r).port s.active = s.port s.active := by
  simp [port_storeZero]

@[simp] theorem port_cas32_active (s : State) (a : Nat) (e n : Word) :
    (s.cas32 a e n).port s.active = s.port s.active := by
  unfold State.cas32
  dsimp only
  split
  · have := port_store32_active (s.noteRead a 4) a n
    simpa using this
  · simp

@[simp] theorem port_fadd32_active (s : State) (a : Nat) (d : Word) :
    (s.fadd32 a d).port s.active = s.port s.active := by
  have := port_store32_active (s.noteRead a 4) a (s.peek32 a + d)
  simpa [State.fadd32] using this

/-! ## Operations of the active port that only touch memory and the other port's record -/

/-- What a memory operation of the active port leaves: every field but memory and the record of accesses in the other
port's latch. -/
structure MemoryOp (s t : State) : Prop where
  cfg : t.cfg = s.cfg
  lastUsed : t.lastUsed = s.lastUsed
  cbValid : t.cbValid = s.cbValid
  feBusy : t.feBusy = s.feBusy
  feOwner : t.feOwner = s.feOwner
  inst : ∀ k, t.inst k = s.inst k
  workFree : t.workFree = s.workFree
  inReset : t.inReset = s.inReset
  cpuP : t.cpuP = s.cpuP
  cpuC : t.cpuC = s.cpuC
  active : t.active = s.active
  schedule : t.schedule = s.schedule
  tick : t.tick = s.tick
  own : t.port s.active = s.port s.active
  other : ∃ ts, t.port s.active.peer =
    { s.port s.active.peer with latch := { (s.port s.active.peer).latch with touched := ts } }
  quiet : s.fftInFlight s.active.peer = none → t.port s.active.peer = s.port s.active.peer

theorem MemoryOp.refl (s : State) : MemoryOp s s where
  cfg := rfl
  lastUsed := rfl
  cbValid := rfl
  feBusy := rfl
  feOwner := rfl
  inst := fun _ => rfl
  workFree := rfl
  inReset := rfl
  cpuP := rfl
  cpuC := rfl
  active := rfl
  schedule := rfl
  tick := rfl
  own := rfl
  other := ⟨_, rfl⟩
  quiet := fun _ => rfl

/-- A memory operation keeps the command of each port. -/
theorem MemoryOp.sameCommand {s t : State} (h : MemoryOp s t) (q : Port) : SameCommand (t.port q) (s.port q) := by
  by_cases hq : q = s.active
  · subst hq
    rw [h.own]
    exact SameCommand.refl _
  · rw [eq_peer_of_ne hq]
    obtain ⟨ts, e⟩ := h.other
    rw [e]
    exact ⟨rfl, rfl, rfl, rfl, rfl, rfl⟩

theorem MemoryOp.fftInFlight {s t : State} (h : MemoryOp s t) (q : Port) : t.fftInFlight q = s.fftInFlight q :=
  fftInFlight_congr h.cfg h.inst (h.sameCommand q)

theorem MemoryOp.fftRegions {s t : State} (h : MemoryOp s t) (q : Port) : t.fftRegions q = s.fftRegions q :=
  fftRegions_congr h.cfg h.inst (h.sameCommand q)

theorem MemoryOp.readRaces {s t : State} (h : MemoryOp s t) (agent : Option Port) (r : Region) :
    t.readRaces agent r = s.readRaces agent r :=
  readRaces_congr h.cfg h.inst (fun q _ => h.sameCommand q) r

theorem MemoryOp.trans {s t u : State} (h : MemoryOp s t) (k : MemoryOp t u) : MemoryOp s u where
  cfg := k.cfg.trans h.cfg
  lastUsed := k.lastUsed.trans h.lastUsed
  cbValid := k.cbValid.trans h.cbValid
  feBusy := k.feBusy.trans h.feBusy
  feOwner := k.feOwner.trans h.feOwner
  inst := fun j => (k.inst j).trans (h.inst j)
  workFree := k.workFree.trans h.workFree
  inReset := k.inReset.trans h.inReset
  cpuP := k.cpuP.trans h.cpuP
  cpuC := k.cpuC.trans h.cpuC
  active := k.active.trans h.active
  schedule := k.schedule.trans h.schedule
  tick := k.tick.trans h.tick
  own := by
    have := k.own
    rw [h.active] at this
    exact this.trans h.own
  other := by
    obtain ⟨ts, e⟩ := h.other
    obtain ⟨us, f⟩ := k.other
    rw [h.active, e] at f
    exact ⟨us, f⟩
  quiet := fun hq => by
    have := k.quiet
    rw [h.active, h.fftInFlight] at this
    exact (this hq).trans (h.quiet hq)

theorem MemoryOp.note (s : State) (t : Touch) : MemoryOp s (s.note (some s.active) t) where
  cfg := by simp
  lastUsed := by simp
  cbValid := by simp
  feBusy := by simp
  feOwner := by simp
  inst := by simp
  workFree := by simp
  inReset := by simp
  cpuP := by simp
  cpuC := by simp
  active := by simp
  schedule := by simp
  tick := by simp
  own := by simp
  other := by
    rw [port_note]
    split
    · exact ⟨_, rfl⟩
    · exact ⟨_, rfl⟩
  quiet := fun hq => by simp [port_note, hq]

theorem MemoryOp.noteRead (s : State) (a n : Nat) : MemoryOp s (s.noteRead a n) := MemoryOp.note s _

theorem MemoryOp.setMem (s : State) (m : Memory) : MemoryOp s { s with mem := m } where
  cfg := rfl
  lastUsed := rfl
  cbValid := rfl
  feBusy := rfl
  feOwner := rfl
  inst := fun k => inst_congr rfl rfl rfl rfl k
  workFree := rfl
  inReset := rfl
  cpuP := rfl
  cpuC := rfl
  active := rfl
  schedule := rfl
  tick := rfl
  own := by cases h : s.active <;> rfl
  other := ⟨(s.port s.active.peer).latch.touched, by cases h : s.active <;> rfl⟩
  quiet := fun _ => by cases h : s.active <;> rfl

theorem MemoryOp.store (s : State) (a : Nat) (bs : List Byte) : MemoryOp s (s.store a bs) :=
  (MemoryOp.note s _).trans (MemoryOp.setMem _ _)

theorem MemoryOp.store32 (s : State) (a : Nat) (v : Word) : MemoryOp s (s.store32 a v) := MemoryOp.store s a _

theorem MemoryOp.store64 (s : State) (a : Nat) (v : DWord) : MemoryOp s (s.store64 a v) := MemoryOp.store s a _

theorem MemoryOp.storeZero (s : State) (r : Region) : MemoryOp s (s.storeZero r) :=
  (MemoryOp.note s _).trans (MemoryOp.setMem _ _)

theorem MemoryOp.cas32 (s : State) (a : Nat) (e n : Word) : MemoryOp s (s.cas32 a e n) := by
  unfold State.cas32
  dsimp only
  split
  · exact (MemoryOp.noteRead s a 4).trans (MemoryOp.store32 _ _ _)
  · exact MemoryOp.noteRead s a 4

theorem MemoryOp.fadd32 (s : State) (a : Nat) (d : Word) : MemoryOp s (s.fadd32 a d) :=
  (MemoryOp.noteRead s a 4).trans (MemoryOp.store32 _ _ _)

/-- A fold of memory operations is one. -/
theorem MemoryOp.foldl {α : Type} {f : State → α → State} (hf : ∀ s x, MemoryOp s (f s x)) (l : List α) (s : State) :
    MemoryOp s (l.foldl f s) := by
  induction l generalizing s with
  | nil => exact MemoryOp.refl s
  | cons x l ih => exact (hf s x).trans (ih _)

theorem MemoryOp.fftStore (s : State) (f : FftRegions) (results : List (Nat × List Byte)) :
    MemoryOp s (s.fftStore f results) := by
  unfold State.fftStore
  dsimp only
  split
  · exact (MemoryOp.noteRead s _ _).trans (MemoryOp.foldl (fun u r => MemoryOp.store u _ _) _ _)
  · exact (MemoryOp.noteRead s _ _).trans (MemoryOp.foldl (fun u w => MemoryOp.store u _ _) _ _)

/-! ## Reads after memory operations -/

/-- A read that no FFT command in flight makes race is a read of memory. -/
theorem peek_of_no_race {s : State} {agent : Option Port} {a n : Nat} (h : s.readRaces agent ⟨a, n⟩ = false) :
    s.peek agent a n = s.mem.read a n := by
  simp [State.peek, h]

theorem peek32_of_no_race {s : State} {a : Nat} (h : s.readRaces (some s.active) ⟨a, 4⟩ = false) :
    s.peek32 a = s.mem.word a := by
  simp [State.peek32, peek_of_no_race h, Memory.word]

theorem peek64_of_no_race {s : State} {a : Nat} (h : s.readRaces (some s.active) ⟨a, 8⟩ = false) :
    s.peek64 a = s.mem.dword a := by
  simp [State.peek64, peek_of_no_race h, Memory.dword]

/-- With no FFT command in flight on the other port, no read of the active port's command races. -/
theorem readRaces_of_quiet {s : State} (h : s.fftInFlight s.active.peer = none) (r : Region) :
    s.readRaces (some s.active) r = false := by
  unfold State.readRaces ports
  cases hp : s.active <;> simp_all [Port.peer, State.fftRegions]

/-- Memory operations keep a word they leave alone, raced or not. -/
theorem MemoryOp.peek32 {s t : State} (h : MemoryOp s t) {a : Nat}
    (hm : ∀ x, a ≤ x → x < a + 4 → t.mem.byte x = s.mem.byte x) : t.peek32 a = s.peek32 a := by
  unfold State.peek32 State.peek
  rw [h.active, h.readRaces, h.tick, Memory.read_congr hm]

end Sys2Proof.Machine
end

