-- ==== Sys2Proof/Laws/Commands.lean ====
section
/-! SUPPORT. What the shared operations leave alone, in the terms of `Safety.lean`, and reads without a race. -/

namespace Sys2Proof.Machine

/-! ## Reads without a race -/

theorem overlaps_comm (r t : Region) : r.overlaps t = t.overlaps r := by
  simp [Region.overlaps, max_comm, min_comm]

theorem overlaps_eq_false {r t : Region} :
    r.overlaps t = false ↔ min (r.base + r.len) (t.base + t.len) ≤ max r.base t.base := by
  simp only [Region.overlaps, decide_eq_false_iff_not, not_lt]

/-- A part of a region that no write reaches is not reached either. -/
theorem overlaps_sub {w r t : Region} (h : w.overlaps t = false) (h1 : t.base ≤ r.base)
    (h2 : r.base + r.len ≤ t.base + t.len) : w.overlaps r = false := by
  rw [overlaps_eq_false] at *
  omega

theorem State.quietOn.sub {s : State} {r t : Region} (h : s.quietOn t) (h1 : t.base ≤ r.base)
    (h2 : r.base + r.len ≤ t.base + t.len) : s.quietOn r :=
  fun f hf w hw => overlaps_sub (h f hf w hw) h1 h2

theorem State.quietOn.no_race {s : State} {r : Region} (h : s.quietOn r) : s.readRaces (some s.active) r = false := by
  unfold State.readRaces ports
  simp only [List.any_cons, List.any_nil, Bool.or_false, Bool.or_eq_false_iff, Bool.and_eq_false_iff,
    decide_eq_false_iff_not, not_not]
  have key : ∀ q : Port, some s.active = some q ∨
      (match s.fftRegions q with
        | some f => f.written.any fun t => t.overlaps r
        | none => false) = false := by
    intro q
    by_cases hq : s.active = q
    · exact .inl (by rw [hq])
    · refine .inr ?_
      have hq' : q = s.active.peer := eq_peer_of_ne (fun e => hq e.symm)
      subst hq'
      cases hf : s.fftRegions s.active.peer with
      | none => rfl
      | some f =>
        simp only [List.any_eq_false]
        intro w hw
        simpa using h f hf w hw
  exact ⟨key .P, key .C⟩

theorem State.quietOn.peek {s : State} {a n : Nat} (h : s.quietOn ⟨a, n⟩) :
    s.peek (some s.active) a n = s.mem.read a n := peek_of_no_race h.no_race

theorem State.quietOn.peek32 {s : State} {a : Nat} (h : s.quietOn ⟨a, 4⟩) : s.peek32 a = s.mem.word a :=
  peek32_of_no_race h.no_race

theorem State.quietOn.peek64 {s : State} {a : Nat} (h : s.quietOn ⟨a, 8⟩) : s.peek64 a = s.mem.dword a :=
  peek64_of_no_race h.no_race

theorem MemoryOp.quietOn {s t : State} (h : MemoryOp s t) {r : Region} (hq : s.quietOn r) : t.quietOn r := by
  intro f hf w hw
  rw [h.active, h.fftRegions] at hf
  exact hq f hf w hw

/-! ## Frames -/

theorem Frame.refl (s : State) : Frame s s where
  cfg := rfl
  inReset := rfl
  cpuP := rfl
  cpuC := rfl
  active := rfl
  schedule := rfl
  tick := rfl
  cmd := rfl
  lost := rfl
  arg0 := rfl
  arg1 := rfl
  arg2 := rfl
  arg3 := rfl
  ie := rfl
  timeHi := rfl
  clock := rfl
  peer := ⟨_, _, rfl⟩
  peerQuiet := fun _ => ⟨_, rfl⟩

theorem MemoryOp.act {s t : State} (h : MemoryOp s t) : t.act = s.act := by
  unfold State.act
  rw [h.active, h.own]

theorem MemoryOp.frame {s t : State} (h : MemoryOp s t) : Frame s t where
  cfg := h.cfg
  inReset := h.inReset
  cpuP := h.cpuP
  cpuC := h.cpuC
  active := h.active
  schedule := h.schedule
  tick := h.tick
  cmd := by rw [h.act]
  lost := by rw [h.act]
  arg0 := by rw [h.act]
  arg1 := by rw [h.act]
  arg2 := by rw [h.act]
  arg3 := by rw [h.act]
  ie := by rw [h.act]
  timeHi := by rw [h.act]
  clock := by rw [h.act]
  peer := by
    obtain ⟨ts, e⟩ := h.other
    exact ⟨_, ts, e⟩
  peerQuiet := fun hq => ⟨_, h.quiet hq⟩

/-- A change of other fields than the frame's keeps it. -/
theorem Frame.congr {s t u : State} (h : Frame s t) (hcfg : u.cfg = t.cfg) (hr : u.inReset = t.inReset)
    (hp : u.cpuP = t.cpuP) (hc : u.cpuC = t.cpuC) (ha : u.active = t.active) (hs : u.schedule = t.schedule)
    (ht : u.tick = t.tick) (hq : ∀ q, u.port q = t.port q) : Frame s u := by
  have hact : u.act = t.act := by
    unfold State.act
    rw [ha, hq]
  exact {
    cfg := hcfg.trans h.cfg
    inReset := hr.trans h.inReset
    cpuP := hp.trans h.cpuP
    cpuC := hc.trans h.cpuC
    active := ha.trans h.active
    schedule := hs.trans h.schedule
    tick := ht.trans h.tick
    cmd := by rw [hact, h.cmd]
    lost := by rw [hact, h.lost]
    arg0 := by rw [hact, h.arg0]
    arg1 := by rw [hact, h.arg1]
    arg2 := by rw [hact, h.arg2]
    arg3 := by rw [hact, h.arg3]
    ie := by rw [hact, h.ie]
    timeHi := by rw [hact, h.timeHi]
    clock := by rw [hact, h.clock]
    peer := by
      rw [hq]
      exact h.peer
    peerQuiet := by
      rw [hq]
      exact h.peerQuiet }

/-- A change of the active port that leaves what a command leaves keeps the frame. -/
theorem Frame.updActive {s t : State} (h : Frame s t) {f : PortState → PortState}
    (hf : ∀ q, (f q).cmd = q.cmd ∧ (f q).lost = q.lost ∧ (f q).arg0 = q.arg0 ∧ (f q).arg1 = q.arg1 ∧
      (f q).arg2 = q.arg2 ∧ (f q).arg3 = q.arg3 ∧ (f q).ie = q.ie ∧ (f q).timeHi = q.timeHi ∧ (f q).clock = q.clock) :
    Frame s (t.updPort t.active f) := by
  have hact : (t.updPort t.active f).act = f t.act := by
    unfold State.act
    rw [active_updPort, port_updPort, if_pos rfl]
  have hpeer : (t.updPort t.active f).port s.active.peer = t.port s.active.peer := by
    rw [port_updPort, if_neg (by rw [h.active]; exact peer_ne _)]
  obtain ⟨h1, h2, h3, h4, h5, h6, h7, h8, h9⟩ := hf t.act
  exact {
    cfg := by rw [cfg_updPort, h.cfg]
    inReset := by rw [inReset_updPort, h.inReset]
    cpuP := by rw [cpuP_updPort, h.cpuP]
    cpuC := by rw [cpuC_updPort, h.cpuC]
    active := by rw [active_updPort, h.active]
    schedule := by rw [schedule_updPort, h.schedule]
    tick := by rw [tick_updPort, h.tick]
    cmd := by rw [hact, h1, h.cmd]
    lost := by rw [hact, h2, h.lost]
    arg0 := by rw [hact, h3, h.arg0]
    arg1 := by rw [hact, h4, h.arg1]
    arg2 := by rw [hact, h5, h.arg2]
    arg3 := by rw [hact, h6, h.arg3]
    ie := by rw [hact, h7, h.ie]
    timeHi := by rw [hact, h8, h.timeHi]
    clock := by rw [hact, h9, h.clock]
    peer := by
      rw [hpeer]
      exact h.peer
    peerQuiet := by
      rw [hpeer]
      exact h.peerQuiet }

theorem Frame.finish {s t : State} (h : Frame s t) (c : Code) : Frame s (t.finish c) :=
  h.updActive fun _ => ⟨rfl, rfl, rfl, rfl, rfl, rfl, rfl, rfl, rfl⟩

theorem Frame.finishFft {s t : State} (h : Frame s t) (c : Code) : Frame s (t.finishFft c) :=
  (h.finish c).congr rfl rfl rfl rfl rfl rfl rfl (fun q => by cases q <;> rfl)

theorem Frame.wait {s t : State} (h : Frame s t) : Frame s t.wait :=
  h.updActive fun _ => ⟨rfl, rfl, rfl, rfl, rfl, rfl, rfl, rfl, rfl⟩

theorem Frame.setRes0 {s t : State} (h : Frame s t) (v : Word) : Frame s (t.setRes0 v) :=
  h.updActive fun _ => ⟨rfl, rfl, rfl, rfl, rfl, rfl, rfl, rfl, rfl⟩

theorem Frame.setRes1 {s t : State} (h : Frame s t) (v : Word) : Frame s (t.setRes1 v) :=
  h.updActive fun _ => ⟨rfl, rfl, rfl, rfl, rfl, rfl, rfl, rfl, rfl⟩

theorem Frame.writeHandle {s t : State} (h : Frame s t) (i : BitVec 1) : Frame s (t.writeHandle i) :=
  h.updActive fun _ => ⟨rfl, rfl, rfl, rfl, rfl, rfl, rfl, rfl, rfl⟩

theorem Frame.takeEngine {s t : State} (h : Frame s t) : Frame s t.takeEngine :=
  (h.updActive (f := fun ps => { ps with hold := false })
    fun _ => ⟨rfl, rfl, rfl, rfl, rfl, rfl, rfl, rfl, rfl⟩).congr rfl rfl rfl rfl rfl rfl rfl
      (fun q => by cases q <;> rfl)

theorem Frame.raiseDoorbell {s t : State} (h : Frame s t) (p : Port) : Frame s (t.raiseDoorbell p) := by
  by_cases hp : p = t.active
  · subst hp
    exact h.updActive fun _ => ⟨rfl, rfl, rfl, rfl, rfl, rfl, rfl, rfl, rfl⟩
  · have hact : (t.raiseDoorbell p).act = t.act := by
      unfold State.act
      rw [active_raiseDoorbell, port_raiseDoorbell, if_neg (fun e => hp e.symm)]
    have hp' : p = s.active.peer := by
      rw [← h.active]
      exact eq_peer_of_ne hp
    exact {
      cfg := by rw [cfg_raiseDoorbell, h.cfg]
      inReset := by rw [inReset_raiseDoorbell, h.inReset]
      cpuP := by rw [cpuP_raiseDoorbell, h.cpuP]
      cpuC := by rw [cpuC_raiseDoorbell, h.cpuC]
      active := by rw [active_raiseDoorbell, h.active]
      schedule := by rw [schedule_raiseDoorbell, h.schedule]
      tick := by rw [tick_raiseDoorbell, h.tick]
      cmd := by rw [hact, h.cmd]
      lost := by rw [hact, h.lost]
      arg0 := by rw [hact, h.arg0]
      arg1 := by rw [hact, h.arg1]
      arg2 := by rw [hact, h.arg2]
      arg3 := by rw [hact, h.arg3]
      ie := by rw [hact, h.ie]
      timeHi := by rw [hact, h.timeHi]
      clock := by rw [hact, h.clock]
      peer := by
        obtain ⟨db, ts, e⟩ := h.peer
        rw [port_raiseDoorbell, hp', if_pos rfl, e]
        exact ⟨true, ts, rfl⟩
      peerQuiet := fun hq => by
        obtain ⟨db, e⟩ := h.peerQuiet hq
        rw [port_raiseDoorbell, hp', if_pos rfl, e]
        exact ⟨true, rfl⟩ }

/-! ## Ends -/

theorem Ended.finish (t : State) (c : Code) : Ended (t.finish c) c := by
  have hact : (t.finish c).act = { t.act with code := c, busy := false, hold := false, latch := Latch.idle } := by
    unfold State.act
    rw [active_finish, port_finish, if_pos rfl]
  exact ⟨by rw [hact], by rw [hact], by rw [hact], by rw [hact]⟩

theorem Ended.finishFft (t : State) (c : Code) : Ended (t.finishFft c) c := by
  have h := Ended.finish t c
  have hact : (t.finishFft c).act = (t.finish c).act := by
    unfold State.act
    rw [active_finishFft, active_finish, port_finishFft]
  exact ⟨by rw [hact, h.code], by rw [hact, h.busy], by rw [hact, h.hold], by rw [hact, h.latch]⟩

theorem MemoryOp.sameDoorbells {s t : State} (h : MemoryOp s t) : SameDoorbells s t := by
  intro p
  by_cases hp : p = s.active
  · rw [hp, h.own]
  · rw [eq_peer_of_ne hp]
    obtain ⟨ts, e⟩ := h.other
    rw [e]

/-! ## The active port under the shared operations -/

@[simp] theorem act_finish (s : State) (c : Code) :
    (s.finish c).act = { s.act with code := c, busy := false, hold := false, latch := Latch.idle } := by
  simp [State.act]

@[simp] theorem act_finishFft (s : State) (c : Code) : (s.finishFft c).act = (s.finish c).act := by simp [State.act]

@[simp] theorem act_wait (s : State) : s.wait.act = { s.act with hold := true } := by simp [State.act]

@[simp] theorem act_setRes0 (s : State) (v : Word) : (s.setRes0 v).act = { s.act with res0 := v } := by
  simp [State.act]

@[simp] theorem act_setRes1 (s : State) (v : Word) : (s.setRes1 v).act = { s.act with res1 := v } := by
  simp [State.act]

@[simp] theorem act_writeHandle (s : State) (i : BitVec 1) :
    (s.writeHandle i).act = { s.act with
      res0 := i.zeroExtend 32
      res1 := BitVec.ofNat 32 (bodyAddr s.cfg i)
      res2 := s.cfg.bufSize
      res3 := BitVec.ofNat 32 (stateAddr s.cfg i) } := by
  simp [State.act]

@[simp] theorem act_setLastUsed (s : State) (i : BitVec 1) : (s.setLastUsed i).act = s.act := by simp [State.act]

@[simp] theorem act_setCbValid (s : State) (b : Bool) : (s.setCbValid b).act = s.act := by simp [State.act]

@[simp] theorem act_setWorkFree (s : State) (t : Nat) : (s.setWorkFree t).act = s.act := by simp [State.act]

theorem act_raiseDoorbell (s : State) (p : Port) :
    (s.raiseDoorbell p).act = if s.active = p then { s.act with db := true } else s.act := by
  simp [State.act]

/-! ## What the operations of every command but the FFT ones leave alone -/

theorem MemoryOp.undisturbed {s t : State} (h : MemoryOp s t) : Undisturbed s t :=
  ⟨h.frame, ⟨h.feBusy, h.feOwner, h.workFree⟩, h.inst⟩

theorem Undisturbed.refl (s : State) : Undisturbed s s := (MemoryOp.refl s).undisturbed

/-- A change that leaves the engine and the slots alone. -/
theorem Undisturbed.step {s t u : State} (h : Undisturbed s t) (hf : Frame s u) (hb : u.feBusy = t.feBusy)
    (ho : u.feOwner = t.feOwner) (hw : u.workFree = t.workFree) (hi : ∀ k, u.inst k = t.inst k) : Undisturbed s u :=
  ⟨hf, ⟨hb.trans h.engine.1, ho.trans h.engine.2.1, hw.trans h.engine.2.2⟩, fun k => (hi k).trans (h.slots k)⟩

/-- A memory operation after what kept the frame and the slots keeps the frame. -/
theorem Frame.memoryOp {s u v : State} (h : Frame s u) (hs : SameSlots s u) (hm : MemoryOp u v) : Frame s v where
  cfg := hm.cfg.trans h.cfg
  inReset := hm.inReset.trans h.inReset
  cpuP := hm.cpuP.trans h.cpuP
  cpuC := hm.cpuC.trans h.cpuC
  active := hm.active.trans h.active
  schedule := hm.schedule.trans h.schedule
  tick := hm.tick.trans h.tick
  cmd := by rw [hm.act, h.cmd]
  lost := by rw [hm.act, h.lost]
  arg0 := by rw [hm.act, h.arg0]
  arg1 := by rw [hm.act, h.arg1]
  arg2 := by rw [hm.act, h.arg2]
  arg3 := by rw [hm.act, h.arg3]
  ie := by rw [hm.act, h.ie]
  timeHi := by rw [hm.act, h.timeHi]
  clock := by rw [hm.act, h.clock]
  peer := by
    obtain ⟨db, ts, e1⟩ := h.peer
    obtain ⟨us, e2⟩ := hm.other
    rw [h.active] at e2
    rw [e2, e1]
    exact ⟨db, us, rfl⟩
  peerQuiet := fun hq => by
    obtain ⟨db, e1⟩ := h.peerQuiet hq
    have hq' : u.fftInFlight u.active.peer = none := by
      rw [h.active, fftInFlight_congr h.cfg hs (q := s.active.peer) (by rw [e1]; exact ⟨rfl, rfl, rfl, rfl, rfl, rfl⟩)]
      exact hq
    have e2 := hm.quiet hq'
    rw [h.active] at e2
    rw [e2]
    exact ⟨db, e1⟩

theorem Undisturbed.memoryOp {s u v : State} (h : Undisturbed s u) (hm : MemoryOp u v) : Undisturbed s v :=
  h.step (h.frame.memoryOp h.slots hm) hm.feBusy hm.feOwner hm.workFree hm.inst

theorem Undisturbed.finish {s t : State} (h : Undisturbed s t) (c : Code) : Undisturbed s (t.finish c) :=
  h.step (h.frame.finish c) (by simp) (by simp) (by simp) (by simp)

theorem Undisturbed.wait {s t : State} (h : Undisturbed s t) : Undisturbed s t.wait :=
  h.step h.frame.wait (by simp) (by simp) (by simp) (by simp)

theorem Undisturbed.setRes0 {s t : State} (h : Undisturbed s t) (v : Word) : Undisturbed s (t.setRes0 v) :=
  h.step (h.frame.setRes0 v) (by simp) (by simp) (by simp) (by simp)

theorem Undisturbed.setRes1 {s t : State} (h : Undisturbed s t) (v : Word) : Undisturbed s (t.setRes1 v) :=
  h.step (h.frame.setRes1 v) (by simp) (by simp) (by simp) (by simp)

theorem Undisturbed.writeHandle {s t : State} (h : Undisturbed s t) (i : BitVec 1) : Undisturbed s (t.writeHandle i) :=
  h.step (h.frame.writeHandle i) (by simp) (by simp) (by simp) (by simp)

theorem Undisturbed.raiseDoorbell {s t : State} (h : Undisturbed s t) (p : Port) : Undisturbed s (t.raiseDoorbell p) :=
  h.step (h.frame.raiseDoorbell p) (by simp) (by simp) (by simp) (by simp)

theorem Undisturbed.setLastUsed {s t : State} (h : Undisturbed s t) (i : BitVec 1) : Undisturbed s (t.setLastUsed i) :=
  h.step (h.frame.congr (by simp) (by simp) (by simp) (by simp) (by simp) (by simp) (by simp) (by simp))
    (by simp) (by simp) (by simp) (by simp)

theorem Undisturbed.setCbValid {s t : State} (h : Undisturbed s t) (b : Bool) : Undisturbed s (t.setCbValid b) :=
  h.step (h.frame.congr (by simp) (by simp) (by simp) (by simp) (by simp) (by simp) (by simp) (by simp))
    (by simp) (by simp) (by simp) (by simp)

theorem SameDoorbells.refl (s : State) : SameDoorbells s s := fun _ => rfl

/-- An update of the active port that keeps its latch. -/
theorem SameDoorbells.updPort {s t : State} (h : SameDoorbells s t) {p : Port} {f : PortState → PortState}
    (hf : ∀ q, (f q).db = q.db) : SameDoorbells s (t.updPort p f) := by
  intro q
  rw [port_updPort]
  split
  · rw [hf, h q]
  · exact h q

theorem SameDoorbells.finish {s t : State} (h : SameDoorbells s t) (c : Code) : SameDoorbells s (t.finish c) :=
  h.updPort fun _ => rfl

theorem SameDoorbells.wait {s t : State} (h : SameDoorbells s t) : SameDoorbells s t.wait := h.updPort fun _ => rfl

theorem SameDoorbells.setRes0 {s t : State} (h : SameDoorbells s t) (v : Word) : SameDoorbells s (t.setRes0 v) :=
  h.updPort fun _ => rfl

theorem SameDoorbells.setRes1 {s t : State} (h : SameDoorbells s t) (v : Word) : SameDoorbells s (t.setRes1 v) :=
  h.updPort fun _ => rfl

theorem SameDoorbells.writeHandle {s t : State} (h : SameDoorbells s t) (i : BitVec 1) :
    SameDoorbells s (t.writeHandle i) := h.updPort fun _ => rfl

/-- Ending a command leaves the other port alone. -/
@[simp] theorem samePeer_finish (s : State) (c : Code) : SamePeer s (s.finish c) := by
  simp [SamePeer, State.finish, port_updPort]

@[simp] theorem samePeer_finishFft (s : State) (c : Code) : SamePeer s (s.finishFft c) := by
  simp [SamePeer, State.finishFft, State.finish, port_updPort]

/-- A command that does nothing but end. -/
theorem JustEnds.of_finish {i : Instr} {s : State} {c : Code} (h : exec i s = .next (s.finish c)) : JustEnds i s c :=
  ⟨_, h, ⟨Ended.finish s c, (Undisturbed.refl s).finish c, (SameDoorbells.refl s).finish c, by simp [SameBuffers],
    by simp [SameResults], by simp [SameMemory]⟩, samePeer_finish s c⟩

/-! ## Memory as bytes -/

theorem word_congr {m m' : Memory} {a : Nat} (h : ∀ x, a ≤ x → x < a + 4 → m.byte x = m'.byte x) :
    m.word a = m'.word a := by
  rw [Memory.word, Memory.read_congr h, ← Memory.word]

theorem dword_congr {m m' : Memory} {a : Nat} (h : ∀ x, a ≤ x → x < a + 8 → m.byte x = m'.byte x) :
    m.dword a = m'.dword a := by
  rw [Memory.dword, Memory.read_congr h, ← Memory.dword]

/-- A write leaves the words outside its region. -/
theorem word_write_of_not_overlaps {m : Memory} {a b : Nat} {bs : List Byte}
    (h : Region.overlaps ⟨a, bs.length⟩ ⟨b, 4⟩ = false) : (m.write a bs).word b = m.word b := by
  rw [overlaps_eq_false] at h
  dsimp only at h
  rcases Nat.eq_zero_or_pos bs.length with h0 | h0
  · apply word_congr
    intro x _ _
    apply Memory.byte_write_outside
    omega
  · exact Memory.word_write_disjoint (by omega)

/-- A write leaves the bytes outside its region. -/
theorem byte_write_of_not_has {m : Memory} {a x : Nat} {bs : List Byte} (h : Region.has ⟨a, bs.length⟩ x = false) :
    (m.write a bs).byte x = m.byte x := by
  apply Memory.byte_write_outside
  simp only [Region.has, Bool.and_eq_false_iff, decide_eq_false_iff_not] at h
  omega

end Sys2Proof.Machine
end

