-- ==== Sys2Proof/Laws/Exec.lean ====
section
/-! SUPPORT. What one step of any command can do to the ports, the engine and the slots, said once: it ends the
command, or leaves it waiting, or takes the engine for it. -/

namespace Sys2Proof.Machine

/-- The command has ended: its frame, a code that may be written, and the engine as it was or free. -/
structure ExecEnds (i : Instr) (s t : State) : Prop where
  frame : Frame s t
  ended : ∃ c, c ≠ .overrun ∧ Ended t c
  engine : t.feBusy = false ∨ fftOnMemory i = false ∧ t.feBusy = s.feBusy ∧ t.feOwner = s.feOwner
  slots : ∀ k, t.inst k = s.inst k ∨ ∃ n : Word, n.toNat ∈ Config.rfftSizes ∧ t.inst k = some (initialisedSlot n)

/-- The command waits: nothing of it has changed but HOLD and, perhaps, the overrun flag. -/
structure ExecWaits (s t : State) : Prop where
  frame : Frame s t
  act : ∃ b, (s.act.latch.counted = true → b = true) ∧
    t.act = { s.act with hold := true, latch := { s.act.latch with counted := b } }
  feBusy : t.feBusy = s.feBusy
  feOwner : t.feOwner = s.feOwner
  slots : ∀ k, t.inst k = s.inst k

theorem ExecEnds.of_undisturbed {i : Instr} {s t : State} {c : Code} (hi : fftOnMemory i = false)
    (h : Undisturbed s t) (hc : c ≠ .overrun) (he : Ended t c) : ExecEnds i s t where
  frame := h.frame
  ended := ⟨c, hc, he⟩
  engine := .inr ⟨hi, h.engine.1, h.engine.2.1⟩
  slots := fun k => .inl (h.slots k)

theorem ExecEnds.finish {i : Instr} {s t : State} {c : Code} (hi : fftOnMemory i = false) (h : Undisturbed s t)
    (hc : c ≠ .overrun) : ExecEnds i s (t.finish c) :=
  .of_undisturbed hi (h.finish c) hc (Ended.finish t c)

theorem ExecEnds.finishFft {i : Instr} {s t : State} {c : Code} (hf : Frame s t) (hs : ∀ k, t.inst k = s.inst k)
    (hc : c ≠ .overrun) : ExecEnds i s (t.finishFft c) where
  frame := hf.finishFft c
  ended := ⟨c, hc, Ended.finishFft t c⟩
  engine := .inl (by simp)
  slots := fun k => .inl (by simpa using hs k)

theorem ExecWaits.wait {s t : State} (h : MemoryOp s t) : ExecWaits s t.wait where
  frame := h.frame.wait
  act := ⟨s.act.latch.counted, id, by rw [act_wait, h.act]⟩
  feBusy := by simpa using h.feBusy
  feOwner := by simpa using h.feOwner
  slots := by simpa using h.inst

theorem MemoryOp.latch {s t : State} (h : MemoryOp s t) : t.latch = s.latch := by
  unfold State.latch
  rw [h.active, h.own]

theorem MemoryOp.noteScan (s : State) : MemoryOp s s.noteScan :=
  (MemoryOp.noteRead _ _ _).trans (MemoryOp.noteRead _ _ _)

theorem MemoryOp.noteStamps (s : State) : MemoryOp s s.noteStamps := by
  unfold State.noteStamps
  dsimp only
  split <;> split
  · exact (MemoryOp.noteRead _ _ _).trans (MemoryOp.noteRead _ _ _)
  · exact MemoryOp.noteRead _ _ _
  · exact MemoryOp.noteRead _ _ _
  · exact MemoryOp.refl _

/-- What counting the overrun leaves: the flag set, memory and records as a memory operation leaves them. -/
theorem countOverrun_frame (s : State) :
    Undisturbed s s.countOverrun ∧ SameDoorbells s s.countOverrun ∧ SameBuffers s s.countOverrun ∧
      s.countOverrun.act = { s.act with latch := { s.act.latch with counted := true } } := by
  unfold State.countOverrun
  split
  · rename_i hc
    refine ⟨Undisturbed.refl s, SameDoorbells.refl s, ⟨rfl, rfl⟩, ?_⟩
    have : ({ s.act.latch with counted := true } : Latch) = s.act.latch := by
      have : s.act.latch.counted = true := hc
      rw [← this]
    rw [this]
  · have h := MemoryOp.fadd32 s (overrunAddr s.cfg) 1
    have ha := h.active
    refine ⟨?_, h.sameDoorbells.updPort fun _ => rfl, ⟨by simp, by simp⟩, ?_⟩
    · refine h.undisturbed.step ?_ (by simp) (by simp) (by simp) (by simp)
      rw [← ha]
      exact h.frame.updActive fun _ => ⟨rfl, rfl, rfl, rfl, rfl, rfl, rfl, rfl, rfl⟩
    · simp only [State.act, active_updPort, port_updPort, ha, if_true]
      rw [h.own]

/-- An attempt that found no buffer, from a state that the scan and the overrun count left. -/
theorem timeoutOrWait_cases {i : Instr} {s u : State} (hi : fftOnMemory i = false) (h : Undisturbed s u)
    (hact : ∃ b, (s.act.latch.counted = true → b = true) ∧ u.act = { s.act with latch := { s.act.latch with counted := b } })
    (e : Bool) : ExecEnds i s (u.timeoutOrWait e) ∨ ExecWaits s (u.timeoutOrWait e) := by
  unfold State.timeoutOrWait
  split
  · have hm := MemoryOp.fadd32 u (timeoutAddr u.cfg) 1
    refine .inl (.of_undisturbed hi ?_ (by decide) (Ended.finish _ _))
    exact (h.memoryOp hm).finish _
  · refine .inr ⟨h.frame.wait, ?_, by simpa using h.engine.1, by simpa using h.engine.2.1, by simpa [SameSlots] using h.slots⟩
    obtain ⟨b, hb, hu⟩ := hact
    exact ⟨b, hb, by rw [act_wait, hu]⟩

/-- A check that fails ends the command there and then. -/
theorem bmCheck_code {s : State} {role : Option Port} {c : Code} (h : s.bmCheck role = some c) : c ≠ .overrun := by
  unfold State.bmCheck at h
  split at h
  · simp only [Option.some.injEq] at h
    subst h
    decide
  · split at h
    · split at h
      · simp at h
      · simp only [Option.some.injEq] at h
        subst h
        decide
    · simp at h

theorem grant_frame {s u : State} (h : MemoryOp s u) (i : BitVec 1) (free taken : Word) :
    Undisturbed s (u.grant i free taken) ∧ Ended (u.grant i free taken) .ok :=
  ⟨(((h.trans (MemoryOp.cas32 u _ free taken)).undisturbed).writeHandle i).finish .ok, Ended.finish _ _⟩

theorem handOff_cases {i : Instr} (hi : fftOnMemory i = false) (s : State) (st counter stamp : Nat)
    (held given : Word) (p : Port) : ExecEnds i s (s.handOff st counter stamp held given p) := by
  unfold State.handOff
  split
  · have h1 := (MemoryOp.cas32 s st held given).trans (MemoryOp.fadd32 _ counter 1)
    exact .finish hi ((h1.trans (MemoryOp.store64 _ stamp _)).undisturbed.raiseDoorbell p) (by decide)
  · exact .finish hi (MemoryOp.noteRead s st 4).undisturbed (by decide)

theorem stat32_ends {i : Instr} (hi : fftOnMemory i = false) (s : State) (a : Nat) : ExecEnds i s (s.stat32 a) :=
  .finish hi ((MemoryOp.noteRead s a 4).undisturbed.setRes0 _) (by decide)

theorem stat64_ends {i : Instr} (hi : fftOnMemory i = false) (s : State) (a : Nat) : ExecEnds i s (s.stat64 a) :=
  .finish hi (((MemoryOp.noteRead s a 8).undisturbed.setRes0 _).setRes1 _) (by decide)

theorem refused_ends {i : Instr} (hi : fftOnMemory i = false) (s : State) {c : Code} (hc : c ≠ .overrun) :
    ExecEnds i s (s.finish c) := .finish hi (Undisturbed.refl s) hc

theorem MemoryOp.snapshotReads (s : State) (l : List (Nat × Nat)) :
    MemoryOp s (l.foldl (fun u f => u.noteRead f.1 f.2) s) :=
  MemoryOp.foldl (fun u f => MemoryOp.noteRead u f.1 f.2) l s

theorem stats_ends {i : Instr} (hi : fftOnMemory i = false) (s : State) (k : Nat) : ExecEnds i s (s.stats k) := by
  unfold State.stats
  split
  all_goals first
    | exact stat32_ends hi s _
    | exact stat64_ends hi s _
    | skip
  · unfold State.snapshot
    dsimp only
    split
    · exact refused_ends hi s (by decide)
    · exact .finish hi ((MemoryOp.snapshotReads s _).trans (MemoryOp.store _ _ _)).undisturbed (by decide)
  · exact refused_ends hi s (by decide)

theorem initControlBlock_undisturbed (s : State) : Undisturbed s s.initControlBlock := by
  have h1 := (MemoryOp.storeZero s (controlBlock s.cfg)).trans (MemoryOp.store32 _ (stateAddr s.cfg 0) stIdle)
  have h2 := (h1.trans (MemoryOp.store32 _ (stateAddr s.cfg 1) stIdle)).trans
    (MemoryOp.store32 _ (bufferSizeAddr s.cfg) s.cfg.bufSize)
  have h3 := (h2.trans (MemoryOp.store32 _ (timeoutMsAddr s.cfg) s.cfg.timeoutMs)).trans
    (MemoryOp.store32 _ (consumerReadyAddr s.cfg) 1)
  exact h3.undisturbed.setCbValid true

/-- Taking the engine and then ending or not: for a command on memory. -/
theorem withEngine_cases {i : Instr} (hi : fftOnMemory i = true) (s : State) (body : State → State)
    (h : s.feBusy = true → ExecEnds i s (body s)) :
    ExecEnds i s (s.withEngine body) ∨ ExecWaits s (s.withEngine body) ∨
      (fftOnMemory i = true ∧ s.feBusy = false ∧ s.withEngine body = s.takeEngine) := by
  unfold State.withEngine
  cases hb : s.feBusy with
  | false => exact .inr (.inr ⟨hi, rfl, rfl⟩)
  | true =>
    by_cases ho : s.feOwner = s.active
    · simp only [ho, if_true]
      exact .inl (h hb)
    · simp only [ho, if_true, if_false]
      exact .inr (.inl (.wait (MemoryOp.refl s)))

theorem inPlaceBody_ends {i : Instr} (s : State) (f : FftRegions) (tr : List Sample → List Sample) :
    ExecEnds i s (s.inPlaceBody f tr) :=
  have h := MemoryOp.fftStore s f [(s.latch.a0.toNat, bytesOfSamples (tr (s.loadSamples f.input)))]
  .finishFft h.frame h.inst (by decide)

theorem rfftBody_ends {i : Instr} (s : State) (k : Nat) (f : FftRegions) : ExecEnds i s (s.rfftBody k f) :=
  have h := MemoryOp.fftStore s f _
  .finishFft h.frame h.inst (by decide)

/-- The end of an FFT command that also returns a result and leaves the working buffers unspecified. -/
theorem finishTopbins_ends {i : Instr} {s u : State} (h : MemoryOp s u) (v : Word) (n : Nat) :
    ExecEnds i s (((u.setRes0 v).finishFft .ok).setWorkFree n) where
  frame := ((h.frame.setRes0 v).finishFft .ok).congr (by simp) (by simp) (by simp) (by simp) (by simp) (by simp)
    (by simp) (by simp)
  ended := ⟨.ok, by decide, ⟨by simp, by simp, by simp, by simp⟩⟩
  engine := .inl (by simp)
  slots := fun j => .inl (by simpa using h.inst j)

theorem topbinsBody_ends {i : Instr} (s : State) (k : Nat) (f : FftRegions) : ExecEnds i s (s.topbinsBody k f) :=
  finishTopbins_ends (MemoryOp.fftStore s f _) _ _

theorem rfftCheck_code {s : State} {l : Latch} {k : Nat} {c : Code} (h : rfftCheck s l k = .error c) : c ≠ .overrun := by
  unfold rfftCheck at h
  dsimp only at h
  repeat' split at h
  all_goals first
    | (simp only [Except.error.injEq] at h; subst h; decide)
    | (simp at h)

theorem cfftCheck_code {s : State} {l : Latch} {c : Code} (h : cfftCheck s l = .error c) : c ≠ .overrun := by
  unfold cfftCheck at h
  dsimp only at h
  repeat' split at h
  all_goals first
    | (simp only [Except.error.injEq] at h; subst h; decide)
    | (simp at h)

theorem topbinsCheck_code {s : State} {l : Latch} {k : Nat} {c : Code} (h : topbinsCheck s l k = .error c) :
    c ≠ .overrun := by
  unfold topbinsCheck at h
  dsimp only at h
  repeat' split at h
  all_goals first
    | (simp only [Except.error.injEq] at h; subst h; decide)
    | (simp at h)

theorem rinit_ends {i : Instr} (s : State) (k : Nat) : ExecEnds i s (s.takeEngine.rinit k) := by
  have hf := (Frame.refl s).takeEngine
  unfold State.rinit
  split
  · exact .finishFft hf (by simp) (by decide)
  · split
    · exact .finishFft hf (by simp) (by decide)
    · rename_i hN
      have hl : s.takeEngine.latch = s.latch := by simp [State.latch]
      exact {
        frame := (hf.congr (by simp) (by simp) (by simp) (by simp) (by simp) (by simp) (by simp) (by simp)).finishFft _
        ended := ⟨.ok, by decide, Ended.finishFft _ _⟩
        engine := .inl (by simp)
        slots := fun j => by
          rw [inst_finishFft, inst_setInst]
          split
          · exact .inr ⟨_, by simpa using hN, rfl⟩
          · exact .inl (by simp) }

/-- One step of a command: it ends it, leaves it waiting, or takes the engine for it. -/
theorem exec_cases {i : Instr} {s t : State} (h : exec i s = .next t) :
    ExecEnds i s t ∨ ExecWaits s t ∨ (fftOnMemory i = true ∧ s.feBusy = false ∧ t = s.takeEngine) := by
  have next_inj : ∀ {a b : State}, (Host.Outcome.next a : Host.Outcome State Fault Refusal) = .next b → a = b := by
    intro a b e
    simpa using e
  cases i with
  | nop => exact .inl (next_inj h ▸ refused_ends rfl s (by decide))
  | fence => exact .inl (next_inj h ▸ refused_ends rfl s (by decide))
  | ntNotifyC => exact .inl (next_inj h ▸ .finish rfl ((Undisturbed.refl s).raiseDoorbell .C) (by decide))
  | ntNotifyP => exact .inl (next_inj h ▸ .finish rfl ((Undisturbed.refl s).raiseDoorbell .P) (by decide))
  | bmInit =>
    simp only [exec, execBmInit] at h
    split at h
    · exact .inl (next_inj h ▸ .finish rfl (initControlBlock_undisturbed s) (by decide))
    · exact .inl (next_inj h ▸ refused_ends rfl s (by decide))
  | bmAcqw =>
    simp only [exec, execBmAcqw] at h
    split at h
    · rename_i hc
      exact .inl (next_inj h ▸ refused_ends rfl s (bmCheck_code hc))
    · rw [← next_inj h]
      unfold State.acqwAttempt
      dsimp only
      have key : ∀ i, ExecEnds .bmAcqw s (s.noteScan.grantWrite i) := fun i => by
        obtain ⟨hu, he⟩ := grant_frame (MemoryOp.noteScan s) i stIdle stWriting
        exact .of_undisturbed (c := .ok) rfl (hu.setLastUsed i) (by decide)
          ⟨by simpa [State.grantWrite] using he.code, by simpa [State.grantWrite] using he.busy,
            by simpa [State.grantWrite] using he.hold, by simpa [State.grantWrite] using he.latch⟩
      split
      · exact .inl (key _)
      · split
        · exact .inl (key _)
        · have hm := MemoryOp.noteScan s
          obtain ⟨h1, _, _, h4⟩ := countOverrun_frame s.noteScan
          have hu : Undisturbed s s.noteScan.countOverrun := by
            unfold State.countOverrun
            split
            · exact hm.undisturbed
            · have h2 := hm.trans (MemoryOp.fadd32 s.noteScan (overrunAddr s.noteScan.cfg) 1)
              refine h2.undisturbed.step ?_ (by simp) (by simp) (by simp) (by simp)
              rw [hm.active, ← h2.active]
              exact h2.frame.updActive fun _ => ⟨rfl, rfl, rfl, rfl, rfl, rfl, rfl, rfl, rfl⟩
          rcases timeoutOrWait_cases (i := .bmAcqw) rfl hu ⟨true, fun _ => rfl, by rw [h4, hm.act]⟩ s.timedOut with h | h
          · exact .inl h
          · exact .inr (.inl h)
  | bmCommit =>
    simp only [exec, execBmCommit] at h
    split at h
    · rename_i hc
      exact .inl (next_inj h ▸ refused_ends rfl s (bmCheck_code hc))
    · split at h
      · exact .inl (next_inj h ▸ refused_ends rfl s (by decide))
      · exact .inl (next_inj h ▸ handOff_cases rfl s _ _ _ _ _ _)
  | bmAcqr =>
    simp only [exec, execBmAcqr] at h
    split at h
    · rename_i hc
      exact .inl (next_inj h ▸ refused_ends rfl s (bmCheck_code hc))
    · rw [← next_inj h]
      unfold State.acqrAttempt
      split
      · obtain ⟨hu, he⟩ := grant_frame ((MemoryOp.noteStamps s).trans (MemoryOp.noteScan _)) _ stReady stReading
        exact .inl (.of_undisturbed rfl hu (by decide) he)
      · have hm := MemoryOp.noteScan s
        rcases timeoutOrWait_cases (i := .bmAcqr) rfl hm.undisturbed ⟨s.act.latch.counted, id, hm.act⟩ s.timedOut
          with h | h
        · exact .inl h
        · exact .inr (.inl h)
  | bmRelease =>
    simp only [exec, execBmRelease] at h
    split at h
    · rename_i hc
      exact .inl (next_inj h ▸ refused_ends rfl s (bmCheck_code hc))
    · split at h
      · exact .inl (next_inj h ▸ refused_ends rfl s (by decide))
      · exact .inl (next_inj h ▸ handOff_cases rfl s _ _ _ _ _ _)
  | bmState =>
    simp only [exec, execBmState] at h
    split at h
    · rename_i hc
      exact .inl (next_inj h ▸ refused_ends rfl s (bmCheck_code hc))
    · split at h
      · exact .inl (next_inj h ▸ refused_ends rfl s (by decide))
      · exact .inl (next_inj h ▸ stat32_ends rfl s _)
  | bmStats k =>
    simp only [exec, execBmStats] at h
    split at h
    · rename_i hc
      exact .inl (next_inj h ▸ refused_ends rfl s (bmCheck_code hc))
    · exact .inl (next_inj h ▸ stats_ends rfl s k)
  | atLoad =>
    simp only [exec, execAtLoad] at h
    split at h
    · exact .inl (next_inj h ▸ refused_ends rfl s (by decide))
    · exact .inl (next_inj h ▸ stat32_ends rfl s _)
  | atCas =>
    simp only [exec, execAtCas] at h
    split at h
    · exact .inl (next_inj h ▸ refused_ends rfl s (by decide))
    · exact .inl (next_inj h ▸
        .finish rfl (((MemoryOp.cas32 s _ s.latch.a1 s.latch.a2).undisturbed.setRes0 _).setRes1 _) (by decide))
  | atFadd =>
    simp only [exec, execAtFadd] at h
    split at h
    · exact .inl (next_inj h ▸ refused_ends rfl s (by decide))
    · exact .inl (next_inj h ▸ .finish rfl ((MemoryOp.fadd32 s _ s.latch.a1).undisturbed.setRes0 _) (by decide))
  | fftRinit k =>
    simp only [exec, execFftRinit] at h
    split at h
    · exact .inr (.inl (next_inj h ▸ .wait (MemoryOp.refl s)))
    · exact .inl (next_inj h ▸ rinit_ends s k)
  | fftRfft k =>
    rw [← next_inj h]
    refine withEngine_cases rfl s _ fun _ => ?_
    split
    · rename_i hc
      exact .finishFft (Frame.refl s) (fun _ => rfl) (rfftCheck_code hc)
    · exact rfftBody_ends s k _
  | fftCfft inv br =>
    rw [← next_inj h]
    refine withEngine_cases rfl s _ fun _ => ?_
    split
    · rename_i hc
      exact .finishFft (Frame.refl s) (fun _ => rfl) (cfftCheck_code hc)
    · exact inPlaceBody_ends s _ _
  | fftBitrev =>
    rw [← next_inj h]
    refine withEngine_cases rfl s _ fun _ => ?_
    split
    · rename_i hc
      exact .finishFft (Frame.refl s) (fun _ => rfl) (cfftCheck_code hc)
    · exact inPlaceBody_ends s _ _
  | fftTopbins k =>
    rw [← next_inj h]
    refine withEngine_cases rfl s _ fun _ => ?_
    split
    · rename_i hc
      exact .finishFft (Frame.refl s) (fun _ => rfl) (topbinsCheck_code hc)
    · exact topbinsBody_ends s k _

end Sys2Proof.Machine
end

