-- ==== Sys2Proof/Laws/FftArith.lean ====
section
/-! SUPPORT. The FFT engine's functions keep lengths and stay in Q15: what `43_fft_commands.md` needs to write their
results back (`42_fft_arith.md` rules R230, R233). -/

namespace Sys2Proof.Machine

/-! ## Q15 ranges -/

theorem sat16_q15 (v : Int) : IsQ15 (sat16 v) := by
  unfold sat16 IsQ15
  split
  · omega
  · split <;> omega

theorem sat16_of_q15 {v : Int} (h : IsQ15 v) : sat16 v = v := by
  unfold sat16 IsQ15 at *
  rw [if_neg (by omega), if_neg (by omega)]

theorem asr_q15 {v : Int} (h : IsQ15 v) (s : Nat) : IsQ15 (asr v s) := by
  unfold asr IsQ15 at *
  have hp : (0 : Int) < 2 ^ s := by positivity
  have h1 : (1 : Int) ≤ 2 ^ s := hp
  constructor
  · apply (Int.le_ediv_iff_mul_le hp).mpr
    nlinarith
  · apply Int.le_of_lt_add_one
    apply (Int.ediv_lt_iff_lt_mul hp).mpr
    nlinarith

/-- Halving sums stay in Q15 (rule R233). -/
theorem hadd_q15 (v : ArithVariant) {a b : Int} (ha : IsQ15 a) (hb : IsQ15 b) : IsQ15 (hadd v a b) := by
  unfold IsQ15 at *
  cases v <;> simp only [hadd, asr] <;> omega

/-- Halving differences stay in Q15 (rule R233). -/
theorem hsub_q15 (v : ArithVariant) {a b : Int} (ha : IsQ15 a) (hb : IsQ15 b) : IsQ15 (hsub v a b) := by
  unfold IsQ15 at *
  cases v <;> simp only [hsub, asr] <;> omega

theorem qadd_q15 (a b : Int) : IsQ15 (qadd a b) := sat16_q15 _

theorem qsub_q15 (a b : Int) : IsQ15 (qsub a b) := sat16_q15 _

theorem twmul_q15 (inv : Bool) (tw r : Sample) : IsQ15Sample (twmul inv tw r) := by
  cases inv <;> exact ⟨sat16_q15 _, sat16_q15 _⟩

theorem zero_q15 : IsQ15Sample (0, 0) := by simp [IsQ15Sample, IsQ15]

/-- A sample of a Q15 sequence, or the zero that stands beyond its end. -/
theorem getD_q15 {x : List Sample} (h : ∀ z ∈ x, IsQ15Sample z) (i : Nat) : IsQ15Sample (x.getD i (0, 0)) := by
  by_cases hi : i < x.length
  · have : x.getD i (0, 0) = x[i] := by simp [List.getD, hi]
    rw [this]
    exact h _ (List.getElem_mem hi)
  · have : x.getD i (0, 0) = (0, 0) := by simp [List.getD, hi]
    rw [this]
    exact zero_q15

/-! ## The primitives, as the rules write them -/

theorem sat16_eq_clamp (v : Int) : sat16 v = clamp v := by
  unfold sat16 clamp
  split
  · omega
  · split <;> omega

theorem hadd_eq_halfSum (v : ArithVariant) (a b : Int) : hadd v a b = halfSum v a b := by
  cases v <;> simp [hadd, halfSum, asr]

theorem hsub_eq_halfDiff (v : ArithVariant) (a b : Int) : hsub v a b = halfDiff v a b := by
  cases v <;> simp [hsub, halfDiff, asr]

/-- `twmul` is the twiddle multiply of rule R235, in both directions. -/
theorem twmul_turned (inv : Bool) (tw r : Sample) : Turned inv tw r (twmul inv tw r) := by
  cases inv <;> simp [Turned, twmul, twmulFwd, twmulInv, mulsum, asr, sat16_eq_clamp, sub_eq_add_neg]

theorem butterflySums_eq (a b c d : Sample) : butterflySums a b c d = sumsOf ⟨a, b, c, d⟩ := by
  simp [butterflySums, sumsOf, qadd, qsub, sat16_eq_clamp]

/-! ## Butterflies -/

/-- The four results of a butterfly are Q15. -/
structure Quad.Q15 (q : Quad) : Prop where
  s0 : IsQ15Sample q.s0
  s1 : IsQ15Sample q.s1
  s2 : IsQ15Sample q.s2
  s3 : IsQ15Sample q.s3

/-- The butterfly gives Q15 results from Q15 samples. -/
def KeepsQ15 (f : Nat → Sample → Sample → Sample → Sample → Quad) : Prop :=
  ∀ j a b c d, IsQ15Sample a → IsQ15Sample b → IsQ15Sample c → IsQ15Sample d → (f j a b c d).Q15

theorem firstButterfly_q15 (v : ArithVariant) (inv : Bool) (L : Nat) : KeepsQ15 (firstButterfly v inv L) :=
  fun _ _ _ _ _ _ _ _ _ =>
    ⟨⟨hadd_q15 v (qadd_q15 _ _) (qadd_q15 _ _), hadd_q15 v (qadd_q15 _ _) (qadd_q15 _ _)⟩, twmul_q15 _ _ _,
      twmul_q15 _ _ _, twmul_q15 _ _ _⟩

theorem middleButterfly_q15 (v : ArithVariant) (inv : Bool) (n1 : Nat) : KeepsQ15 (middleButterfly v inv n1) :=
  fun _ _ _ _ _ _ _ _ _ =>
    ⟨⟨asr_q15 (hadd_q15 v (qadd_q15 _ _) (qadd_q15 _ _)) 1, asr_q15 (hadd_q15 v (qadd_q15 _ _) (qadd_q15 _ _)) 1⟩,
      twmul_q15 _ _ _, twmul_q15 _ _ _, twmul_q15 _ _ _⟩

theorem crossDown_q15 (v : ArithVariant) {s u : Sample} (hs : IsQ15Sample s) (hu : IsQ15Sample u) :
    IsQ15Sample (crossDown (hadd v) (hsub v) s u) :=
  ⟨hadd_q15 v hs.1 hu.2, hsub_q15 v hs.2 hu.1⟩

theorem crossUp_q15 (v : ArithVariant) {s u : Sample} (hs : IsQ15Sample s) (hu : IsQ15Sample u) :
    IsQ15Sample (crossUp (hadd v) (hsub v) s u) :=
  ⟨hsub_q15 v hs.1 hu.2, hadd_q15 v hs.2 hu.1⟩

theorem lastButterfly_q15 (v : ArithVariant) (inv : Bool) : KeepsQ15 (lastButterfly v inv) := by
  intro j a b c d _ _ _ _
  have hs : IsQ15Sample (butterflySums a b c d).s := ⟨qsub_q15 _ _, qsub_q15 _ _⟩
  have hu : IsQ15Sample (butterflySums a b c d).u := ⟨qsub_q15 _ _, qsub_q15 _ _⟩
  refine ⟨⟨hadd_q15 v (qadd_q15 _ _) (qadd_q15 _ _), hadd_q15 v (qadd_q15 _ _) (qadd_q15 _ _)⟩,
    ⟨hsub_q15 v (qadd_q15 _ _) (qadd_q15 _ _), hsub_q15 v (qadd_q15 _ _) (qadd_q15 _ _)⟩, ?_, ?_⟩
  · cases inv
    · exact crossDown_q15 v hs hu
    · exact crossUp_q15 v hs hu
  · cases inv
    · exact crossUp_q15 v hs hu
    · exact crossDown_q15 v hs hu

/-! ## Stages -/

theorem butterflyBlock_length (f : Nat → Sample → Sample → Sample → Sample → Quad) (q : Nat) (x : List Sample) :
    (butterflyBlock f q x).length = 4 * q := by
  simp [butterflyBlock]
  omega

theorem butterflyBlock_q15 {f : Nat → Sample → Sample → Sample → Sample → Quad} (hf : KeepsQ15 f) (q : Nat)
    {x : List Sample} (h : ∀ z ∈ x, IsQ15Sample z) : ∀ z ∈ butterflyBlock f q x, IsQ15Sample z := by
  intro z hz
  unfold butterflyBlock at hz
  simp only [List.mem_append, List.mem_map, List.mem_range] at hz
  rcases hz with ((⟨_, ⟨j, _, rfl⟩, rfl⟩ | ⟨_, ⟨j, _, rfl⟩, rfl⟩) | ⟨_, ⟨j, _, rfl⟩, rfl⟩) | ⟨_, ⟨j, _, rfl⟩, rfl⟩
  · exact (hf j _ _ _ _ (getD_q15 h _) (getD_q15 h _) (getD_q15 h _) (getD_q15 h _)).s0
  · exact (hf j _ _ _ _ (getD_q15 h _) (getD_q15 h _) (getD_q15 h _) (getD_q15 h _)).s1
  · exact (hf j _ _ _ _ (getD_q15 h _) (getD_q15 h _) (getD_q15 h _) (getD_q15 h _)).s2
  · exact (hf j _ _ _ _ (getD_q15 h _) (getD_q15 h _) (getD_q15 h _) (getD_q15 h _)).s3

theorem fftStage_length (f : Nat → Sample → Sample → Sample → Sample → Quad) (L n1 : Nat) (x : List Sample) :
    (fftStage f L n1 x).length = L / n1 * (4 * (n1 / 4)) := by
  simp [fftStage, List.length_flatMap, butterflyBlock_length]

theorem fftStage_q15 {f : Nat → Sample → Sample → Sample → Sample → Quad} (hf : KeepsQ15 f) (L n1 : Nat)
    {x : List Sample} (h : ∀ z ∈ x, IsQ15Sample z) : ∀ z ∈ fftStage f L n1 x, IsQ15Sample z := by
  intro z hz
  unfold fftStage at hz
  obtain ⟨b, _, hz⟩ := List.mem_flatMap.mp hz
  exact butterflyBlock_q15 hf _ (fun z hz => h z (List.mem_of_mem_drop (List.mem_of_mem_take hz))) z hz

theorem middleStages_q15 (v : ArithVariant) (inv : Bool) (L fuel n1 : Nat) {x : List Sample}
    (h : ∀ z ∈ x, IsQ15Sample z) : ∀ z ∈ middleStages v inv L fuel n1 x, IsQ15Sample z := by
  induction fuel generalizing n1 x with
  | zero => exact h
  | succ fuel ih =>
    unfold middleStages
    split
    · exact ih _ (fftStage_q15 (middleButterfly_q15 v inv n1) L n1 h)
    · exact h

theorem radix4_length (v : ArithVariant) (inv : Bool) (L : Nat) (x : List Sample) :
    (radix4 v inv L x).length = 4 * (L / 4) := by
  rw [radix4, fftStage_length]
  omega

theorem radix4_q15 (v : ArithVariant) (inv : Bool) (L : Nat) {x : List Sample} (h : ∀ z ∈ x, IsQ15Sample z) :
    ∀ z ∈ radix4 v inv L x, IsQ15Sample z :=
  fftStage_q15 (lastButterfly_q15 v inv) _ _
    (middleStages_q15 v inv L 4 _ (fftStage_q15 (firstButterfly_q15 v inv L) _ _ h))

theorem radix4by2_length (v : ArithVariant) (inv : Bool) (M : Nat) (x : List Sample) :
    (radix4by2 v inv M x).length = 8 * (M / 8) := by
  simp [radix4by2, radix4_length]
  omega

theorem radix4by2_q15 (v : ArithVariant) (inv : Bool) (M : Nat) (x : List Sample) :
    ∀ z ∈ radix4by2 v inv M x, IsQ15Sample z := by
  intro z hz
  unfold radix4by2 at hz
  obtain ⟨_, _, rfl⟩ := List.mem_map.mp hz
  exact ⟨sat16_q15 _, sat16_q15 _⟩

/-! ## Bit reversal, the complex FFT and the real split -/

@[simp] theorem bitReverse_length (M : Nat) (x : List Sample) : (bitReverse M x).length = M := by simp [bitReverse]

theorem bitReverse_q15 (M : Nat) {x : List Sample} (h : ∀ z ∈ x, IsQ15Sample z) :
    ∀ z ∈ bitReverse M x, IsQ15Sample z := by
  intro z hz
  obtain ⟨i, _, rfl⟩ := List.mem_map.mp hz
  exact getD_q15 h _

theorem cfft_length (v : ArithVariant) {M : Nat} (inv br : Bool) (x : List Sample)
    (hM : Config.cfftSizes.contains M = true ∨ br = true) : (cfft v M inv br x).length = M := by
  unfold cfft
  cases br with
  | true => simp
  | false =>
    have hM : M ∈ Config.cfftSizes := by simpa using hM
    have h8 : M % 8 = 0 := by
      unfold Config.cfftSizes at hM
      fin_cases hM <;> rfl
    dsimp only
    rw [if_neg (by decide)]
    split
    · rw [radix4_length]
      omega
    · rw [radix4by2_length]
      omega

theorem cfft_q15 (v : ArithVariant) (M : Nat) (inv br : Bool) {x : List Sample} (h : ∀ z ∈ x, IsQ15Sample z) :
    ∀ z ∈ cfft v M inv br x, IsQ15Sample z := by
  have hy : ∀ z ∈ (if powerOfFour M then radix4 v inv M x else radix4by2 v inv M x), IsQ15Sample z := by
    split
    · exact radix4_q15 v inv M h
    · exact radix4by2_q15 v inv M x
  unfold cfft
  cases br
  · simpa using hy
  · exact bitReverse_q15 M hy

@[simp] theorem split_length (N : Nat) (z : List Sample) : (split N z).length = N := by simp [split]

theorem split_q15 (N : Nat) (z : List Sample) : ∀ y ∈ split N z, IsQ15Sample y := by
  intro y hy
  obtain ⟨i, _, rfl⟩ := List.mem_map.mp hy
  have h0 : IsQ15 0 := zero_q15.1
  split
  · exact ⟨sat16_q15 _, h0⟩
  · split
    · exact ⟨sat16_q15 _, sat16_q15 _⟩
    · split
      · exact ⟨sat16_q15 _, h0⟩
      · exact ⟨sat16_q15 _, sat16_q15 _⟩

/-! ## The kept records of the top-N selector -/

theorem keepBin_length (kept : List TopBin) (new : TopBin) : (keepBin kept new).length = kept.length := by
  unfold keepBin
  split
  · have h : (kept.findIdx fun r => decide (r.mag < new.mag)) ≤ kept.length := List.findIdx_le_length
    simp
    omega
  · rfl

theorem topBins_length (N K : Nat) (bins : List Sample) : (topBins N K bins).length = K := by
  have h : ∀ (l : List Nat) (kept : List TopBin),
      (l.foldl (fun kept j => keepBin kept ⟨j + 1, magSquared (bins.getD (j + 1) (0, 0))⟩) kept).length = kept.length := by
    intro l
    induction l with
    | nil => exact fun _ => rfl
    | cons j l ih => exact fun kept => (ih _).trans (keepBin_length _ _)
  rw [topBins, h]
  simp

end Sys2Proof.Machine
end

