-- ==== Sys2Proof/Laws/Samples.lean ====
section
/-! SUPPORT. Complex samples in memory: what the FFT engine reads is what `Memory.samples` says, and the samples it stores
read back. -/

namespace Sys2Proof.Machine

/-- Bytes as halfwords, two by two. -/
def halvesOfBytes : List Byte → List Int
  | b0 :: b1 :: bs => (b1 ++ b0 : BitVec 16).toInt :: halvesOfBytes bs
  | _ => []

theorem read_succ (m : Memory) (a n : Nat) : m.read a (n + 1) = m.byte a :: m.read (a + 1) n := by
  simp only [Memory.read, List.range_succ_eq_map, List.map_cons, List.map_map, Nat.add_zero]
  congr 1
  apply List.map_congr_left
  intro k _
  simp only [Function.comp_apply]
  congr 1
  omega

/-- Two bytes as one number, the second more significant (rule R80). -/
theorem toNat_append_bytes (b0 b1 : Byte) : (b1 ++ b0 : BitVec 16).toNat = b0.toNat + 256 * b1.toNat := by
  have h0 := b0.isLt
  rw [BitVec.toNat_append, Nat.shiftLeft_eq, Nat.mul_comm _ (2 ^ 8), ← Nat.two_pow_add_eq_or_of_lt h0]
  omega

/-- A halfword is its two bytes (rule R80). -/
theorem half_eq (m : Memory) (a : Nat) : m.half a = (m.byte (a + 1) ++ m.byte a : BitVec 16).toInt := by
  unfold Memory.half
  congr 1
  apply BitVec.eq_of_toNat_eq
  have h0 := (m.byte a).isLt
  have h1 := (m.byte (a + 1)).isLt
  have e : m.read a 2 = [m.byte a, m.byte (a + 1)] := by rw [read_succ, read_succ]; rfl
  rw [e, toNat_append_bytes]
  simp only [leValue, BitVec.toNat_ofNat]
  omega

theorem halvesOfBytes_read (m : Memory) (n : Nat) (a : Nat) :
    halvesOfBytes (m.read a (2 * n)) = (List.range n).map fun k => m.half (a + 2 * k) := by
  induction n generalizing a with
  | zero => rfl
  | succ n ih =>
    rw [show 2 * (n + 1) = 2 * n + 1 + 1 by omega, read_succ, read_succ, halvesOfBytes, ih, List.range_succ_eq_map,
      List.map_cons, List.map_map, half_eq]
    congr 1
    apply List.map_congr_left
    intro k _
    simp only [Function.comp_apply]
    congr 1
    omega

theorem samplesOfHalves_map (f : Nat → Int) (n : Nat) :
    samplesOfHalves ((List.range (2 * n)).map f) = (List.range n).map fun k => (f (2 * k), f (2 * k + 1)) := by
  induction n generalizing f with
  | zero => rfl
  | succ n ih =>
    rw [show 2 * (n + 1) = 2 * n + 1 + 1 by omega, List.range_succ_eq_map, List.map_cons, List.map_map,
      List.range_succ_eq_map, List.map_cons, List.map_map, samplesOfHalves, ih, List.range_succ_eq_map, List.map_cons,
      List.map_map]
    congr 1

/-- The samples of an array are those of its bytes. -/
theorem samples_eq (m : Memory) (a n : Nat) :
    samplesOfHalves (halvesOfBytes (m.read a (4 * n))) = m.samples a n := by
  rw [show 4 * n = 2 * (2 * n) by omega, halvesOfBytes_read, samplesOfHalves_map]
  apply List.map_congr_left
  intro k _
  simp only [Memory.sample]
  congr 2
  · congr 1
    omega
  · omega

/-- A halfword that no other command in flight writes is read as memory holds it. -/
theorem State.quietOn.peek16 {s : State} {a : Nat} (h : s.quietOn ⟨a, 2⟩) : s.peek16 a = s.mem.half a := by
  rw [State.peek16, h.peek, Memory.half]

/-- Each halfword races by itself (rule R97): one that is quiet is read as memory holds it, whatever the others do. -/
theorem loadHalves_get {s : State} {a n k : Nat} (hk : k < n) (h : s.quietOn ⟨a + 2 * k, 2⟩) :
    (s.loadHalves a n)[k]? = some (s.mem.half (a + 2 * k)) := by
  simp [State.loadHalves, hk, h.peek16]

theorem loadHalves_of_quiet {s : State} {a n : Nat} (h : s.quietOn ⟨a, 2 * n⟩) :
    s.loadHalves a n = (List.range n).map fun k => s.mem.half (a + 2 * k) := by
  apply List.map_congr_left
  intro k hk
  have := List.mem_range.mp hk
  exact (h.sub (by simp) (by simp; omega)).peek16

/-- The samples the engine reads are pairs of its halfwords. -/
theorem loadSamples_eq (s : State) (a n : Nat) :
    s.loadSamples ⟨a, 4 * n⟩ = (List.range n).map fun k => (s.peek16 (a + 4 * k), s.peek16 (a + 4 * k + 2)) := by
  have e : 4 * n / 2 = 2 * n := by omega
  rw [State.loadSamples, e, State.loadHalves, samplesOfHalves_map]
  apply List.map_congr_left
  intro k _
  congr 2
  · dsimp only
    omega
  · dsimp only
    omega

@[simp] theorem length_loadSamples (s : State) (a n : Nat) : (s.loadSamples ⟨a, 4 * n⟩).length = n := by
  simp [loadSamples_eq]

/-- A sample that no other command in flight writes is read as memory holds it, whatever happens to the others. -/
theorem loadSamples_get {s : State} {a n k : Nat} (hk : k < n) (h : s.quietOn ⟨a + 4 * k, 4⟩) :
    (s.loadSamples ⟨a, 4 * n⟩)[k]? = some (s.mem.sample a k) := by
  have h1 : s.quietOn ⟨a + 4 * k, 2⟩ := h.sub (by simp) (by simp)
  have h2 : s.quietOn ⟨a + 4 * k + 2, 2⟩ := h.sub (by simp) (by simp)
  simp [loadSamples_eq, hk, h1.peek16, h2.peek16, Memory.sample]

/-- Without a race the engine reads the samples of its input. -/
theorem loadSamples_of_quiet {s : State} {a n : Nat} (h : s.quietOn ⟨a, 4 * n⟩) :
    s.loadSamples ⟨a, 4 * n⟩ = s.mem.samples a n := by
  apply List.ext_getElem?
  intro k
  by_cases hk : k < n
  · rw [loadSamples_get hk (h.sub (by simp) (by simp; omega))]
    simp [Memory.samples, hk]
  · rw [List.getElem?_eq_none (by simp; omega), List.getElem?_eq_none (by simp [Memory.samples]; omega)]

/-- What the engine reads are Q15 samples, in a race too. -/
theorem loadSamples_q15 (s : State) (a n : Nat) : ∀ z ∈ s.loadSamples ⟨a, 4 * n⟩, IsQ15Sample z := by
  have key : ∀ b, IsQ15 (s.peek16 b) := fun b => by
    have h1 := BitVec.le_toInt (BitVec.ofNat 16 (leValue (s.peek (some s.active) b 2)))
    have h2 := BitVec.toInt_lt (x := BitVec.ofNat 16 (leValue (s.peek (some s.active) b 2)))
    unfold IsQ15 State.peek16
    omega
  intro z hz
  rw [loadSamples_eq] at hz
  obtain ⟨k, _, rfl⟩ := List.mem_map.mp hz
  exact ⟨key _, key _⟩

theorem bytesOfHalves_cons (v : Int) (vs : List Int) : bytesOfHalves (v :: vs) =
    BitVec.ofNat 8 (BitVec.ofInt 16 v).toNat :: BitVec.ofNat 8 ((BitVec.ofInt 16 v).toNat / 256) :: bytesOfHalves vs := rfl

theorem halvesOfSamples_cons (z : Sample) (x : List Sample) :
    halvesOfSamples (z :: x) = z.1 :: z.2 :: halvesOfSamples x := rfl

theorem halvesOfBytes_bytesOfHalves {vs : List Int} (h : ∀ v ∈ vs, IsQ15 v) : halvesOfBytes (bytesOfHalves vs) = vs := by
  induction vs with
  | nil => rfl
  | cons v vs ih =>
    have hv : IsQ15 v := h v (List.mem_cons_self ..)
    rw [bytesOfHalves_cons, halvesOfBytes, ih fun w hw => h w (List.mem_cons_of_mem _ hw)]
    congr 1
    have e : (BitVec.ofNat 8 ((BitVec.ofInt 16 v).toNat / 256) ++ BitVec.ofNat 8 (BitVec.ofInt 16 v).toNat : BitVec 16) =
        BitVec.ofInt 16 v := by
      apply BitVec.eq_of_toNat_eq
      have hl := (BitVec.ofInt 16 v).isLt
      rw [toNat_append_bytes]
      simp only [BitVec.toNat_ofNat]
      omega
    rw [e]
    unfold IsQ15 at hv
    rw [BitVec.toInt_ofInt, Int.bmod_def]
    omega

theorem samplesOfHalves_halvesOfSamples (x : List Sample) : samplesOfHalves (halvesOfSamples x) = x := by
  induction x with
  | nil => rfl
  | cons z x ih => rw [halvesOfSamples_cons, samplesOfHalves, ih]

@[simp] theorem length_bytesOfSamples (x : List Sample) : (bytesOfSamples x).length = 4 * x.length := by
  induction x with
  | nil => rfl
  | cons z x ih =>
    unfold bytesOfSamples at *
    rw [halvesOfSamples_cons, bytesOfHalves_cons, bytesOfHalves_cons]
    simp only [List.length_cons, ih]
    omega

/-- Q15 samples read back as stored. -/
theorem samples_write_same (m : Memory) (a : Nat) {x : List Sample} (h : ∀ z ∈ x, IsQ15Sample z) :
    (m.write a (bytesOfSamples x)).samples a x.length = x := by
  have e := Memory.read_write_same m a (bytesOfSamples x)
  rw [length_bytesOfSamples] at e
  rw [← samples_eq, e, bytesOfSamples, halvesOfBytes_bytesOfHalves, samplesOfHalves_halvesOfSamples]
  intro v hv
  obtain ⟨z, hz, hv⟩ := List.mem_flatMap.mp hv
  simp only [List.mem_cons, List.not_mem_nil, or_false] at hv
  rcases hv with rfl | rfl
  · exact (h z hz).1
  · exact (h z hz).2

theorem samples_congr {m m' : Memory} {a n : Nat} (h : ∀ x, a ≤ x → x < a + 4 * n → m.byte x = m'.byte x) :
    m.samples a n = m'.samples a n := by
  rw [← samples_eq, ← samples_eq, Memory.read_congr h]

/-- Samples that share no byte with a stored run read as before. -/
theorem samples_write_disjoint {m : Memory} {a b n : Nat} {bs : List Byte} (h : b + 4 * n ≤ a ∨ a + bs.length ≤ b) :
    (m.write a bs).samples b n = m.samples b n :=
  samples_congr fun x h1 h2 => Memory.byte_write_outside (by omega)

theorem sample_q15 (m : Memory) (a k : Nat) : IsQ15Sample (m.sample a k) := by
  have key : ∀ a, IsQ15 (m.half a) := fun a => by
    have h1 := BitVec.le_toInt (BitVec.ofNat 16 (leValue (m.read a 2)))
    have h2 := BitVec.toInt_lt (x := BitVec.ofNat 16 (leValue (m.read a 2)))
    unfold IsQ15 Memory.half
    omega
  exact ⟨key _, key _⟩

/-- What memory holds are Q15 samples (rule R13). -/
theorem samples_q15 (m : Memory) (a n : Nat) : ∀ z ∈ m.samples a n, IsQ15Sample z := by
  intro z hz
  obtain ⟨k, _, rfl⟩ := List.mem_map.mp hz
  exact sample_q15 m a k

@[simp] theorem length_samples (m : Memory) (a n : Nat) : (m.samples a n).length = n := by simp [Memory.samples]

end Sys2Proof.Machine
end

