-- ==== Sys2Proof/Laws/Fft.lean ====
section
/-! SUPPORT. What an FFT command that has the engine does, in terms of its regions: how it ends, when it races, what it
stores. -/

namespace Sys2Proof.Machine

theorem State.untouched.not_raced {s : State} {f : FftRegions} (h : s.untouched f) : s.raced f = false := by
  simp only [State.raced, List.any_eq_false, Bool.or_eq_true, Bool.and_eq_true, not_or, not_and, List.any_eq_true,
    not_exists]
  intro t ht
  obtain ⟨h1, h2⟩ := h t ht
  exact ⟨fun hw => by simp [h1 hw], fun r hr ho => by simp [h2 r hr] at ho⟩

theorem State.untouched.not_inputRaced {s : State} {f : FftRegions} (h : s.untouched f) : s.inputRaced f = false := by
  simp only [State.inputRaced, List.any_eq_false, Bool.and_eq_true, not_and]
  intro t ht hw
  simp [(h t ht).1 hw]

/-- A race is an access of another agent to a region, as rule R97 says. -/
theorem raced_iff {s : State} {f : FftRegions} :
    s.raced f = true ↔ ∃ u ∈ s.latch.touched, (u.write = true ∧ u.region.overlaps f.input = true) ∨
      ∃ r ∈ f.written, u.region.overlaps r = true := by
  simp [State.raced]

/-- Memory after stores one after the other. -/
def Memory.writes (m : Memory) (ws : List (Nat × List Byte)) : Memory := ws.foldl (fun m w => m.write w.1 w.2) m

theorem mem_foldl_store (ws : List (Nat × List Byte)) (s : State) :
    (ws.foldl (fun u w => u.store w.1 w.2) s).mem = s.mem.writes ws := by
  induction ws generalizing s with
  | nil => rfl
  | cons w ws ih => simp only [List.foldl_cons, ih, mem_store, Memory.writes]

/-- Without a race the body's results are stored in their order. -/
theorem mem_fftStore {s : State} {f : FftRegions} (h : s.raced f = false) (ws : List (Nat × List Byte)) :
    (s.fftStore f ws).mem = s.mem.writes ws := by
  simp only [State.fftStore, h, Bool.false_eq_true, if_false, mem_foldl_store, mem_noteRead]

/-- In a race every region that the command writes holds free values. -/
theorem mem_fftStore_raced {s : State} {f : FftRegions} (h : s.raced f = true) (ws : List (Nat × List Byte)) :
    (s.fftStore f ws).mem = s.mem.writes (f.written.map fun r => (r.base, freeBytes s.tick r)) := by
  have e : ∀ (l : List Region) (u : State) , (l.foldl (fun u r => u.store r.base (freeBytes s.tick r)) u).mem =
      u.mem.writes (l.map fun r => (r.base, freeBytes s.tick r)) := by
    intro l
    induction l with
    | nil => exact fun u => rfl
    | cons r l ih =>
      intro u
      rw [List.foldl_cons, ih, mem_store]
      rfl
  simp only [State.fftStore, h, if_true, e, mem_noteRead]

/-- What stores one after the other leave outside all of them. -/
theorem byte_writes_of_not_has {m : Memory} {x : Nat} {ws : List (Nat × List Byte)}
    (h : ∀ w ∈ ws, Region.has ⟨w.1, w.2.length⟩ x = false) : (m.writes ws).byte x = m.byte x := by
  induction ws generalizing m with
  | nil => rfl
  | cons w ws ih =>
    show ((m.write w.1 w.2).writes ws).byte x = _
    rw [ih fun v hv => h v (List.mem_cons_of_mem _ hv), byte_write_of_not_has (h w (List.mem_cons_self ..))]

/-- An FFT command that ends after a memory operation has freed the engine and changed nothing else of the machine. -/
theorem EngineFreed.finishFft {s u : State} (h : MemoryOp s u) (c : Code) : EngineFreed s (u.finishFft c) where
  frame := h.frame.finishFft c
  feBusy := by simp
  feOwner := by simpa using h.feOwner
  doorbells := fun p => by
    have e : ((u.finishFft c).port p).db = (u.port p).db := by
      simp only [State.finishFft, port_setFeBusy, State.finish, port_updPort]
      split <;> rfl
    rw [e, h.sameDoorbells p]
  buffers := ⟨by simpa using h.lastUsed, by simpa using h.cbValid⟩

theorem SameResults.finishFft {s u : State} (h : MemoryOp s u) (c : Code) : SameResults s (u.finishFft c) := by
  have e : (u.finishFft c).act = { s.act with code := c, busy := false, hold := false, latch := Latch.idle } := by
    rw [← h.act]
    simp [State.act, State.finishFft, State.finish, port_updPort]
  simp [SameResults, e]

/-- A check that fails ends the command and does nothing else. -/
theorem FftJustEnds.of_finish {i : Instr} {s : State} {c : Code} (h : exec i s = .next (s.finishFft c)) :
    FftJustEnds i s c :=
  ⟨_, h, Ended.finishFft s c, .finishFft (.refl s) c, by simp, fun k => by simp, .finishFft (.refl s) c,
    fun x => by simp, samePeer_finishFft s c⟩

theorem withEngine_of_hasEngine {s : State} (h : s.hasEngine) (body : State → State) : s.withEngine body = body s := by
  simp [State.withEngine, h.1, h.2]

/-- What the body of an in-place command does to the samples it reads, if no other agent touched its buffer, for a
function that keeps length and range. -/
theorem inPlaceBody_spec {s : State} {n : Nat} (tr : List Sample → List Sample) {r : Region}
    (hr : r = ⟨s.latch.a0.toNat, 4 * n⟩) (hu : s.untouched ⟨r, [r]⟩) (ht : (tr (s.loadSamples r)).length = n)
    (hq : ∀ z ∈ tr (s.loadSamples r), IsQ15Sample z) :
    let u := s.inPlaceBody ⟨r, [r]⟩ tr
    Ended u .ok ∧ EngineFreed s u ∧ u.workFree = s.workFree ∧ SameSlots s u ∧ SameResults s u ∧
      SameMemoryOutside [r] s u ∧ u.mem.samples s.latch.a0.toNat n = tr (s.loadSamples r) := by
  intro u
  have hm := MemoryOp.fftStore s ⟨r, [r]⟩ [(s.latch.a0.toNat, bytesOfSamples (tr (s.loadSamples r)))]
  have hmem : u.mem = s.mem.write s.latch.a0.toNat (bytesOfSamples (tr (s.loadSamples r))) := by
    show ((s.fftStore _ _).finishFft .ok).mem = _
    rw [mem_finishFft, mem_fftStore hu.not_raced]
    rfl
  refine ⟨Ended.finishFft _ _, .finishFft hm _, ?_, ?_, .finishFft hm _, ?_, ?_⟩
  · show ((s.fftStore _ _).finishFft .ok).workFree = _
    simpa using hm.workFree
  · intro k
    show ((s.fftStore _ _).finishFft .ok).inst k = _
    simpa using hm.inst k
  · intro x hx
    rw [hmem]
    apply byte_write_of_not_has
    rw [length_bytesOfSamples, ht, ← hr]
    exact hx _ (List.mem_cons_self ..)
  · have e := samples_write_same s.mem s.latch.a0.toNat hq
    rw [ht] at e
    rw [hmem, e]

/-! ## The working buffers -/

/-- WB holds MAX_N values (rule R51). -/
@[simp] theorem wb_length (s : State) : s.wb.length = 8192 := by simp [State.wb, Config.maxN]

/-- OB holds 2*MAX_N values (rule R51). -/
@[simp] theorem ob_length (s : State) : s.ob.length = 16384 := by simp [State.ob, Config.maxN]

theorem wb_congr {s t : State} (h : t.workFree = s.workFree) : t.wb = s.wb := by rw [State.wb, h, ← State.wb]

theorem ob_congr {s t : State} (h : t.workFree = s.workFree) : t.ob = s.ob := by rw [State.ob, h, ← State.ob]

/-- A buffer keeps its size where the values fit. -/
theorem overwrite_length {buffer vs : List Int} (h : vs.length ≤ buffer.length) :
    (overwrite buffer vs).length = buffer.length := by
  simp only [overwrite, List.length_append, List.length_drop]
  omega

/-- What was stored is read back, whatever the buffer held. -/
theorem take_overwrite (buffer vs : List Int) : (overwrite buffer vs).take vs.length = vs := by simp [overwrite]

theorem samplesOfHalves_append (x : List Sample) (vs : List Int) :
    samplesOfHalves (halvesOfSamples x ++ vs) = x ++ samplesOfHalves vs := by
  induction x with
  | nil => rfl
  | cons z x ih => rw [halvesOfSamples_cons, List.cons_append, List.cons_append, samplesOfHalves, ih, List.cons_append]

@[simp] theorem loadHalves_length (s : State) (a n : Nat) : (s.loadHalves a n).length = n := by simp [State.loadHalves]

/-- The selection reads no bin above N/2. -/
theorem topBins_append {N : Nat} (K : Nat) {bins : List Sample} (h : N / 2 < bins.length) (rest : List Sample) :
    topBins N K (bins ++ rest) = topBins N K bins := by
  unfold topBins
  have key : ∀ (l : List Nat) (kept : List TopBin), (∀ j ∈ l, j + 1 < bins.length) →
      l.foldl (fun kept j => keepBin kept ⟨j + 1, magSquared ((bins ++ rest).getD (j + 1) (0, 0))⟩) kept =
        l.foldl (fun kept j => keepBin kept ⟨j + 1, magSquared (bins.getD (j + 1) (0, 0))⟩) kept := by
    intro l
    induction l with
    | nil => exact fun _ _ => rfl
    | cons j l ih =>
      intro kept hl
      rw [List.foldl_cons, List.foldl_cons, ih _ fun i hi => hl i (List.mem_cons_of_mem _ hi)]
      have hj := hl j (List.mem_cons_self ..)
      rw [List.getD_append _ _ _ _ hj]
  exact key _ _ fun j hj => by
    have := List.mem_range.mp hj
    omega

/-- What the working buffers held before does not show: the kept records are those of the source's spectrum. -/
theorem topBins_topbinsSpectrum (s : State) {n : Nat} (hn : 0 < n) (k a : Nat) :
    topBins n k (s.topbinsSpectrum n a) =
      topBins n k (split n (cfft s.cfg.variant (n / 2) false true (samplesOfHalves (s.loadHalves a n)))) := by
  have e : (overwrite s.wb (s.loadHalves a n)).take n = s.loadHalves a n := by
    have := take_overwrite s.wb (s.loadHalves a n)
    rwa [loadHalves_length] at this
  simp only [State.topbinsSpectrum, e]
  rw [overwrite, samplesOfHalves_append, topBins_append]
  rw [split_length]
  omega

end Sys2Proof.Machine
end

