-- ==== Sys2Proof/Laws/PerInstr.lean ====
section
/-! SUPPORT. A statement for each command as syntax: the encoder stays inside the rows of rule R125. -/

namespace Sys2Proof.Laws

/-- The encoded word of a well-formed command is in a row of rule R125. -/
def EncodesInRow.Statement (i : Instr) : Prop :=
  i.wellFormed = true → encodingRows.any (fun r => r.selects (encode i)) = true

theorem EncodesInRow.nop : EncodesInRow.Statement .nop := fun _ => by decide
theorem EncodesInRow.bmInit : EncodesInRow.Statement .bmInit := fun _ => by decide
theorem EncodesInRow.bmAcqw : EncodesInRow.Statement .bmAcqw := fun _ => by decide
theorem EncodesInRow.bmCommit : EncodesInRow.Statement .bmCommit := fun _ => by decide
theorem EncodesInRow.bmAcqr : EncodesInRow.Statement .bmAcqr := fun _ => by decide
theorem EncodesInRow.bmRelease : EncodesInRow.Statement .bmRelease := fun _ => by decide
theorem EncodesInRow.bmState : EncodesInRow.Statement .bmState := fun _ => by decide
theorem EncodesInRow.ntNotifyC : EncodesInRow.Statement .ntNotifyC := fun _ => by decide
theorem EncodesInRow.ntNotifyP : EncodesInRow.Statement .ntNotifyP := fun _ => by decide
theorem EncodesInRow.atLoad : EncodesInRow.Statement .atLoad := fun _ => by decide
theorem EncodesInRow.atCas : EncodesInRow.Statement .atCas := fun _ => by decide
theorem EncodesInRow.atFadd : EncodesInRow.Statement .atFadd := fun _ => by decide
theorem EncodesInRow.fence : EncodesInRow.Statement .fence := fun _ => by decide
theorem EncodesInRow.fftBitrev : EncodesInRow.Statement .fftBitrev := fun _ => by decide

theorem EncodesInRow.fftCfft (inv br : Bool) : EncodesInRow.Statement (.fftCfft inv br) := fun _ => by
  revert inv br
  decide

/-- A word with an immediate and no flags is in the row of its OPCODE. -/
theorem assemble_selects (imm op : Nat) (r : EncodingRow) (hm : r.mask = 0x0000FFFF)
    (hb : r.bits = (BitVec.ofNat 8 op).zeroExtend 32) : r.selects (assemble imm 0 op) = true := by
  obtain ⟨bits, mask⟩ := r
  simp only at hm hb
  subst hm hb
  unfold EncodingRow.selects assemble
  rw [beq_iff_eq]
  apply BitVec.eq_of_toNat_eq
  have h8 : (BitVec.ofNat 8 op).toNat < 2 ^ 8 := (BitVec.ofNat 8 op).isLt
  rw [BitVec.toNat_and, show BitVec.toNat (0x0000FFFF : Word) = 2 ^ 16 - 1 by decide, Nat.and_two_pow_sub_one_eq_mod,
    BitVec.toNat_append, BitVec.toNat_append, ← Nat.shiftLeft_add_eq_or_of_lt h8]
  simp [Nat.shiftLeft_eq]
  omega

theorem EncodesInRow.bmStats (selector : Nat) : EncodesInRow.Statement (.bmStats selector) := fun _ =>
  List.any_eq_true.mpr ⟨⟨0x07, 0x0000FFFF⟩, by decide, assemble_selects selector 0x07 _ rfl rfl⟩

theorem EncodesInRow.fftRinit (slot : Nat) : EncodesInRow.Statement (.fftRinit slot) := fun _ =>
  List.any_eq_true.mpr ⟨⟨0x20, 0x0000FFFF⟩, by decide, assemble_selects slot 0x20 _ rfl rfl⟩

theorem EncodesInRow.fftRfft (slot : Nat) : EncodesInRow.Statement (.fftRfft slot) := fun _ =>
  List.any_eq_true.mpr ⟨⟨0x21, 0x0000FFFF⟩, by decide, assemble_selects slot 0x21 _ rfl rfl⟩

theorem EncodesInRow.fftTopbins (k : Nat) : EncodesInRow.Statement (.fftTopbins k) := fun _ =>
  List.any_eq_true.mpr ⟨⟨0x24, 0x0000FFFF⟩, by decide, assemble_selects k 0x24 _ rfl rfl⟩

end Sys2Proof.Laws
end

