-- ==== Sys2Proof/Laws/Records.lean ====
section
/-! SUPPORT. What the shared operations leave in the record of accesses of an FFT command in flight on another port
(`20_memory.md` rule R97, log 11): it only grows, and it covers every byte of memory that changes. -/

namespace Sys2Proof.Machine

/-- An FFT command on memory is in flight on port `q`, which is not the active port. -/
def State.watched (s : State) (q : Port) : Prop := s.active ≠ q ∧ (s.fftInFlight q).isSome = true

/-- The access stands in the record of port `q`'s command. -/
def State.recorded (s : State) (q : Port) (x : Touch) : Prop := x ∈ (s.port q).latch.touched

/-- From `s` to `t` the record of port `q`'s command grows by whatever changes memory, and the command stays in
flight. -/
structure Noted (q : Port) (s t : State) : Prop where
  active : t.active = s.active
  inFlight : t.fftInFlight q = s.fftInFlight q
  grows : ∀ x, s.recorded q x → t.recorded q x
  writes : ∀ x, t.mem.byte x ≠ s.mem.byte x → ∃ u, t.recorded q u ∧ u.write = true ∧ u.region.has x = true

theorem Noted.refl (q : Port) (s : State) : Noted q s s := ⟨rfl, rfl, fun _ h => h, fun _ h => absurd rfl h⟩

theorem Noted.trans {q : Port} {s t u : State} (h : Noted q s t) (k : Noted q t u) : Noted q s u where
  active := k.active.trans h.active
  inFlight := k.inFlight.trans h.inFlight
  grows := fun x hx => k.grows x (h.grows x hx)
  writes := fun x hx => by
    by_cases e : u.mem.byte x = t.mem.byte x
    · obtain ⟨r, hr, hw⟩ := h.writes x (e ▸ hx)
      exact ⟨r, k.grows r hr, hw⟩
    · exact k.writes x e

theorem Noted.watched {q : Port} {s t : State} (h : Noted q s t) (hs : s.watched q) : t.watched q :=
  ⟨h.active ▸ hs.1, h.inFlight ▸ hs.2⟩

/-- A change that leaves memory, the slots and port `q`'s command alone. -/
theorem Noted.of_same {q : Port} {s t : State} (ha : t.active = s.active) (hc : t.cfg = s.cfg)
    (hi : ∀ k, t.inst k = s.inst k) (hm : t.mem = s.mem) (hb : (t.port q).busy = (s.port q).busy)
    (hl : (t.port q).latch = (s.port q).latch) : Noted q s t where
  active := ha
  inFlight := fftInFlight_congr hc hi ⟨hb, by rw [hl], by rw [hl], by rw [hl], by rw [hl], by rw [hl]⟩
  grows := fun x h => by rwa [State.recorded, hl]
  writes := fun x h => absurd (by rw [hm]) h

/-- A change of the active port. -/
theorem Noted.updActive {q : Port} {s : State} (h : s.watched q) (f : PortState → PortState) :
    Noted q s (s.updPort s.active f) :=
  .of_same (by simp) (by simp) (by simp) (by simp) (by rw [port_updPort, if_neg (fun e => h.1 e.symm)])
    (by rw [port_updPort, if_neg (fun e => h.1 e.symm)])

theorem Noted.finish {q : Port} {s : State} (h : s.watched q) (c : Code) : Noted q s (s.finish c) := .updActive h _

theorem Noted.finishFft {q : Port} {s : State} (h : s.watched q) (c : Code) : Noted q s (s.finishFft c) :=
  (Noted.finish h c).trans (.of_same rfl rfl (fun k => by simp) rfl (by cases q <;> rfl) (by cases q <;> rfl))

theorem Noted.wait {q : Port} {s : State} (h : s.watched q) : Noted q s s.wait := .updActive h _

theorem Noted.setRes0 {q : Port} {s : State} (h : s.watched q) (v : Word) : Noted q s (s.setRes0 v) := .updActive h _

theorem Noted.setRes1 {q : Port} {s : State} (h : s.watched q) (v : Word) : Noted q s (s.setRes1 v) := .updActive h _

theorem Noted.writeHandle {q : Port} {s : State} (h : s.watched q) (i : BitVec 1) : Noted q s (s.writeHandle i) :=
  .updActive h _

theorem Noted.raiseDoorbell (q : Port) (s : State) (p : Port) : Noted q s (s.raiseDoorbell p) :=
  .of_same (by simp) (by simp) (by simp) (by simp) (by rw [port_raiseDoorbell]; split <;> rfl)
    (by rw [port_raiseDoorbell]; split <;> rfl)

/-- An access of the active port's command is recorded. -/
theorem Noted.note {q : Port} {s : State} (h : s.watched q) (x : Touch) :
    Noted q s (s.note (some s.active) x) ∧ (s.note (some s.active) x).recorded q x := by
  have e : (s.note (some s.active) x).port q = (s.port q).touchedBy x := by
    rw [port_note, if_pos ⟨fun e => h.1 (Option.some.inj e), h.2⟩]
  refine ⟨⟨by simp, by simp, fun y hy => ?_, fun y hy => absurd (by simp) hy⟩, ?_⟩
  · rw [State.recorded, e]
    exact List.mem_cons_of_mem _ hy
  · rw [State.recorded, e]
    exact List.mem_cons_self

theorem Noted.noteRead {q : Port} {s : State} (h : s.watched q) (a n : Nat) :
    Noted q s (s.noteRead a n) ∧ (s.noteRead a n).recorded q ⟨false, ⟨a, n⟩⟩ := Noted.note h _

/-- What changes memory after its record was made. -/
theorem Noted.setMem {q : Port} {s : State} (h : s.watched q) (r : Region) (m : Memory)
    (hm : ∀ x, r.has x = false → m.byte x = s.mem.byte x) :
    Noted q s ((s.note (some s.active) ⟨true, r⟩).setMem m) ∧
      ((s.note (some s.active) ⟨true, r⟩).setMem m).recorded q ⟨true, r⟩ := by
  obtain ⟨hn, hr⟩ := Noted.note h ⟨true, r⟩
  have hp : ((s.note (some s.active) ⟨true, r⟩).setMem m).port q = (s.note (some s.active) ⟨true, r⟩).port q := by
    cases q <;> rfl
  have hr' : ((s.note (some s.active) ⟨true, r⟩).setMem m).recorded q ⟨true, r⟩ := by rwa [State.recorded, hp]
  refine ⟨⟨hn.active, ?_, fun x hx => ?_, fun x hx => ⟨_, hr', rfl, ?_⟩⟩, hr'⟩
  · rw [← hn.inFlight]
    exact fftInFlight_congr rfl (fun k => by cases k <;> rfl) (by rw [hp]; exact SameCommand.refl _)
  · rw [State.recorded, hp]
    exact hn.grows x hx
  · cases e : r.has x
    · exact absurd (hm x e) hx
    · rfl

theorem Noted.store {q : Port} {s : State} (h : s.watched q) (a : Nat) (bs : List Byte) :
    Noted q s (s.store a bs) ∧ (s.store a bs).recorded q ⟨true, ⟨a, bs.length⟩⟩ := by
  have k := Noted.setMem h ⟨a, bs.length⟩ (s.mem.write a bs) (fun x hx => byte_write_of_not_has hx)
  simpa [State.store, State.poke] using k

theorem Noted.store32 {q : Port} {s : State} (h : s.watched q) (a : Nat) (v : Word) :
    Noted q s (s.store32 a v) ∧ (s.store32 a v).recorded q ⟨true, ⟨a, 4⟩⟩ := by
  simpa [State.store32] using Noted.store h a (wordBytes v)

theorem Noted.store64 {q : Port} {s : State} (h : s.watched q) (a : Nat) (v : DWord) :
    Noted q s (s.store64 a v) ∧ (s.store64 a v).recorded q ⟨true, ⟨a, 8⟩⟩ := by
  simpa [State.store64] using Noted.store h a (dwordBytes v)

theorem Noted.storeZero {q : Port} {s : State} (h : s.watched q) (r : Region) :
    Noted q s (s.storeZero r) ∧ (s.storeZero r).recorded q ⟨true, r⟩ := by
  have k := Noted.setMem h r (s.mem.zero r.base r.len) (fun x hx => by
    simp only [Region.has, Bool.and_eq_false_iff, decide_eq_false_iff_not] at hx
    rw [Memory.byte_zero, if_neg (by omega)])
  simpa [State.storeZero] using k

/-- CAS32 reads its word, and writes it exactly when it swaps. -/
theorem Noted.cas32 {q : Port} {s : State} (h : s.watched q) (a : Nat) (e n : Word) :
    Noted q s (s.cas32 a e n) ∧ (s.cas32 a e n).recorded q ⟨false, ⟨a, 4⟩⟩ ∧
      (s.peek32 a = e → (s.cas32 a e n).recorded q ⟨true, ⟨a, 4⟩⟩) := by
  obtain ⟨hr, hx⟩ := Noted.noteRead h a 4
  unfold State.cas32
  dsimp only
  split
  · obtain ⟨hw, hy⟩ := Noted.store32 (hr.watched h) a n
    exact ⟨hr.trans hw, hw.grows _ hx, fun _ => hy⟩
  · exact ⟨hr, hx, fun he => absurd he ‹_›⟩

/-- FADD32 reads and writes its word. -/
theorem Noted.fadd32 {q : Port} {s : State} (h : s.watched q) (a : Nat) (d : Word) :
    Noted q s (s.fadd32 a d) ∧ ∀ w, (s.fadd32 a d).recorded q ⟨w, ⟨a, 4⟩⟩ := by
  obtain ⟨hr, hx⟩ := Noted.noteRead h a 4
  obtain ⟨hw, hy⟩ := Noted.store32 (hr.watched h) a (s.peek32 a + d)
  exact ⟨hr.trans hw, fun w => by cases w <;> [exact hw.grows _ hx; exact hy]⟩

/-- Operations in a row: each is recorded. -/
theorem Noted.foldl {q : Port} {α : Type} (op : State → α → State) (x : α → Touch)
    (hop : ∀ s a, s.watched q → Noted q s (op s a) ∧ (op s a).recorded q (x a)) :
    ∀ (l : List α) (s : State), s.watched q →
      Noted q s (l.foldl op s) ∧ ∀ a ∈ l, (l.foldl op s).recorded q (x a)
  | [], s, _ => ⟨.refl q s, fun _ h => absurd h List.not_mem_nil⟩
  | b :: l, s, hs => by
    obtain ⟨h1, r1⟩ := hop s b hs
    obtain ⟨h2, r2⟩ := Noted.foldl op x hop l (op s b) (h1.watched hs)
    refine ⟨h1.trans h2, fun a ha => ?_⟩
    rcases List.mem_cons.mp ha with rfl | ha
    · exact h2.grows _ r1
    · exact r2 a ha

/-- An FFT command's body reads its input and stores its results, or free bytes in all that it writes. -/
theorem Noted.fftStore {q : Port} {s : State} (h : s.watched q) (f : FftRegions) (ws : List (Nat × List Byte)) :
    Noted q s (s.fftStore f ws) ∧ (s.fftStore f ws).recorded q ⟨false, f.input⟩ ∧
      (s.raced f = true → ∀ r ∈ f.written, (s.fftStore f ws).recorded q ⟨true, r⟩) ∧
      (s.raced f = false → ∀ w ∈ ws, (s.fftStore f ws).recorded q ⟨true, ⟨w.1, w.2.length⟩⟩) := by
  obtain ⟨hr, hx⟩ := Noted.noteRead h f.input.base f.input.len
  unfold State.fftStore
  dsimp only
  split
  · obtain ⟨h2, r2⟩ := Noted.foldl (fun u (r : Region) => u.store r.base (freeBytes s.tick r)) (fun r => ⟨true, r⟩)
      (fun u r hu => by simpa [freeBytes] using Noted.store hu r.base (freeBytes s.tick r)) f.written _ (hr.watched h)
    exact ⟨hr.trans h2, h2.grows _ hx, fun _ => r2, fun e => absurd ‹s.raced f = true› (by simp [e])⟩
  · obtain ⟨h2, r2⟩ := Noted.foldl (fun u (w : Nat × List Byte) => u.store w.1 w.2)
      (fun w => ⟨true, ⟨w.1, w.2.length⟩⟩) (fun u w hu => Noted.store hu w.1 w.2) ws _ (hr.watched h)
    exact ⟨hr.trans h2, h2.grows _ hx, fun e => absurd e ‹_›, fun _ => r2⟩

/-- A record of a racing access is what the command's body looks for. -/
theorem findsRace_of_recorded {t : State} {q : Port} {f : FftRegions} {x : Touch} (h : t.recorded q x)
    (hx : x.racesWith f) : t.findsRace q f := by
  simp only [State.findsRace, State.raced, List.any_eq_true, Bool.or_eq_true, Bool.and_eq_true]
  refine ⟨x, ?_, ?_⟩
  · have : (t.setActive q).latch = (t.port q).latch := by cases q <;> rfl
    rw [this]
    exact h
  · rcases hx with ⟨h1, h2⟩ | ⟨r, hr, h3⟩
    · exact .inl ⟨h1, h2⟩
    · exact .inr ⟨r, hr, h3⟩

/-- What changes a byte of the command's regions is a race with it. -/
theorem Noted.findsRace {q : Port} {s t : State} (h : Noted q s t) {f : FftRegions} {x : Nat}
    (hx : ∃ r ∈ f.input :: f.written, r.has x = true) (hm : t.mem.byte x ≠ s.mem.byte x) : t.findsRace q f := by
  obtain ⟨u, hu, hw, hb⟩ := h.writes x hm
  obtain ⟨r, hr, hrx⟩ := hx
  have ho : u.region.overlaps r = true := by
    simp only [Region.has, Region.overlaps, Bool.and_eq_true, decide_eq_true_eq] at *
    omega
  refine findsRace_of_recorded hu ?_
  rcases List.mem_cons.mp hr with rfl | hr
  · exact .inl ⟨hw, ho⟩
  · exact .inr ⟨r, hr, ho⟩

end Sys2Proof.Machine
end

