-- ==== Sys2Proof/Laws/Step.lean ====
section
/-! SUPPORT. What one step does, by the event it performs, and where a CPU access goes. -/

namespace Sys2Proof.Machine

/-- A step of a schedule that goes on performs its first event. -/
theorem step_of_schedule {s : State} {e : Event} {rest : List Event} (h : s.schedule = e :: rest) :
    step s = countStep (perform e (s.setSchedule rest)) := by
  rw [step, nextMove, h]

/-- Whatever event a step performs, it performs it on the state with that event taken off the schedule. -/
theorem step_cases (s : State) :
    (s.nextEvent = none ∧ step s = .next s.ticked) ∨
      ∃ e rest, s.nextEvent = some e ∧ step s = countStep (perform e (s.setSchedule rest)) := by
  unfold State.nextEvent step nextMove
  cases hs : s.schedule with
  | cons e rest => exact .inr ⟨e, rest, rfl, rfl⟩
  | nil =>
    cases hd : s.dueEvent with
    | none => exact .inl ⟨rfl, rfl⟩
    | some e =>
      have : s.setSchedule [] = s := by rw [← hs]; rfl
      exact .inr ⟨e, [], rfl, by rw [this]⟩

theorem countStep_next {o : Host.Outcome State Fault Refusal} {t : State} (h : countStep o = .next t) :
    ∃ u, o = .next u ∧ t = u.ticked := by
  cases o with
  | next u =>
    simp only [countStep, Host.Outcome.next.injEq] at h
    exact ⟨u, rfl, h.symm⟩
  | fault _ => simp [countStep] at h
  | refused _ => simp [countStep] at h

/-- A command processor's step: nothing, a step of the command, or the end of an illegal word. -/
theorem runCommand_cases (p : Port) (s : State) :
    ((s.inReset = true ∨ (s.port p).busy = false) ∧ runCommand p s = .next s) ∨
    (s.inReset = false ∧ (s.port p).busy = true ∧
      ((∃ i, decodeWord (s.port p).latch.word = .ok i ∧ runCommand p s = exec i (s.setActive p)) ∨
       (∃ e, decodeWord (s.port p).latch.word = .error e ∧
        runCommand p s = .next ((s.setActive p).finish .illegal)))) := by
  unfold runCommand
  by_cases h : s.inReset = true ∨ (s.port p).busy = false
  · exact .inl ⟨h, by rw [if_pos h]⟩
  · have h' : s.inReset = false ∧ (s.port p).busy = true := by simpa using h
    refine .inr ⟨h'.1, h'.2, ?_⟩
    rw [if_neg h]
    cases hd : decodeWord (s.port p).latch.word with
    | ok i => exact .inl ⟨i, rfl, rfl⟩
    | error e => exact .inr ⟨e, rfl, rfl⟩

theorem target_register {c : Config} {a o n : Nat} (h : a = c.coreBase.toNat + o) (hn : 0 < n) (ho : o + n ≤ 0x300) :
    target c a n = .register o := by
  subst h
  have h1 : c.coreBase.toNat + o < c.coreBase.toNat + 0x300 := by omega
  have h2 : c.coreBase.toNat + o + n ≤ c.coreBase.toNat + 0x300 := by omega
  simp only [target, Config.registerWindowSize, Nat.le_add_right, h1, h2, and_self, if_true, Nat.add_sub_cancel_left]

theorem Width.bytes_pos (w : Width) : 0 < w.bytes := by cases w <;> decide

theorem Width.bytes_le (w : Width) : w.bytes ≤ 4 := by cases w <;> decide

theorem target_shared {c : Config} {a n : Nat} (h1 : c.sharedBase.toNat ≤ a) (h2 : a + n ≤ c.windowEnd)
    (h : a < c.coreBase.toNat ∨ c.coreBase.toNat + 0x300 ≤ a) : target c a n = .shared := by
  have hr : ¬ (c.coreBase.toNat ≤ a ∧ a < c.coreBase.toNat + 0x300) := by omega
  simp [target, Config.registerWindowSize, hr, inWindow, h1, h2]

/-- The accesses that `OutsideCore` names are those that go to neither window. -/
theorem outsideCore_iff (c : Config) (w : Width) (a : Nat) : OutsideCore c w a ↔ target c a w.bytes = .outside := by
  unfold OutsideCore InRegisters target Config.registerWindowSize
  by_cases h1 : c.coreBase.toNat ≤ a ∧ a < c.coreBase.toNat + 0x300
  · by_cases h2 : a + w.bytes ≤ c.coreBase.toNat + 0x300
    · simp [h1, h2]
    · simp [h1, h2]
      omega
  · by_cases h2 : inWindow c ⟨a, w.bytes⟩ = true
    · have h3 := h2
      simp only [inWindow, Bool.and_eq_true, decide_eq_true_eq] at h3
      simp [h1, h2]
      omega
    · have h3 := h2
      simp only [inWindow, Bool.and_eq_true, decide_eq_true_eq] at h3
      simp [h1, h2]
      omega

/-- The accesses that `MisalignedRegister` names are those of 32 bits at a register offset that is no multiple of 4. -/
theorem misalignedRegister_iff (c : Config) (w : Width) (a : Nat) :
    MisalignedRegister c w a ↔ ∃ o, target c a w.bytes = .register o ∧ w = .word ∧ o % 4 ≠ 0 := by
  unfold MisalignedRegister InRegisters target Config.registerWindowSize
  by_cases h1 : c.coreBase.toNat ≤ a ∧ a < c.coreBase.toNat + 0x300
  · by_cases h2 : a + w.bytes ≤ c.coreBase.toNat + 0x300
    · simp [h1, h2]
    · simp [h1, h2]
  · by_cases h2 : inWindow c ⟨a, w.bytes⟩ = true
    · simp [h1, h2]
    · simp [h1, h2]

/-- A store to a register of a port's window is the port's own (rule R35). -/
theorem writeReg_port (s : State) (p : Port) {o : Nat} (v : Word) (h : o < 0x100) :
    s.writeReg (portWindow p + o) v = s.setPort p ((s.port p).writeReg v o) := by
  cases p with
  | P => simp [portWindow, State.writeReg, h, State.port]
  | C =>
    have h1 : ¬ (256 + o < 256) := by omega
    have h2 : 256 + o < 512 := by omega
    simp [portWindow, State.writeReg, h1, h2, State.port]

/-- A load of a register of a port's window is the port's own (rule R35). -/
theorem readReg_port (s : State) (p : Port) {o : Nat} (h : o < 0x100) :
    s.readReg (portWindow p + o) = (s.port p).readReg o := by
  cases p with
  | P => simp [portWindow, State.readReg, h, State.port]
  | C =>
    have h1 : ¬ (256 + o < 256) := by omega
    have h2 : 256 + o < 512 := by omega
    simp [portWindow, State.readReg, h1, h2, State.port]

theorem afterReadReg_port (s : State) (p : Port) {o : Nat} (h : o < 0x100) :
    s.afterReadReg (portWindow p + o) = s.setPort p ((s.port p).afterRead o) := by
  cases p with
  | P => simp [portWindow, State.afterReadReg, h, State.port]
  | C =>
    have h1 : ¬ (256 + o < 256) := by omega
    have h2 : 256 + o < 512 := by omega
    simp [portWindow, State.afterReadReg, h1, h2, State.port]

theorem setPort_port (s : State) (p : Port) : s.setPort p (s.port p) = s := by cases p <;> rfl

theorem setPort_setSchedule (s : State) (p : Port) (ps : PortState) (es : List Event) :
    (s.setSchedule es).setPort p ps = (s.setPort p ps).setSchedule es := by cases p <;> rfl

theorem returnToCpu_setSchedule (s : State) (p : Port) (v : Word) (es : List Event) :
    (s.setSchedule es).returnToCpu p v = (s.returnToCpu p v).setSchedule es := by cases p <;> rfl

/-- What a register holds does not depend on the schedule. -/
@[simp] theorem readReg_setSchedule (s : State) (es : List Event) (o : Nat) :
    (s.setSchedule es).readReg o = s.readReg o := by
  simp only [State.readReg, State.readGlobal, State.bmStatusWord, State.feStatusWord, inst_setSchedule,
    cfg_setSchedule, cbValid_setSchedule, lastUsed_setSchedule, feBusy_setSchedule, feOwner_setSchedule, ← port_P,
    ← port_C, port_setSchedule]

theorem afterReadReg_setSchedule (s : State) (es : List Event) (o : Nat) :
    (s.setSchedule es).afterReadReg o = (s.afterReadReg o).setSchedule es := by
  simp only [State.afterReadReg, ← port_P, ← port_C, port_setSchedule, setPort_setSchedule]
  by_cases h1 : o < 0x100
  · simp only [h1, if_true]
  · by_cases h2 : o < 0x200
    · simp only [h1, h2, if_true, if_false]
    · simp only [h1, h2, if_false]

@[simp] theorem registerBytes_setSchedule (s : State) (es : List Event) (o n : Nat) :
    (s.setSchedule es).registerBytes o n = s.registerBytes o n := by
  simp only [State.registerBytes, State.registerByte, readReg_setSchedule]

/-- A byte of the register window is the byte of its register. -/
theorem registerByte_toNat (s : State) (o : Nat) :
    (s.registerByte o).toNat = (s.readReg (o - o % 4)).toNat / 256 ^ (o % 4) % 256 := by
  simp only [State.registerByte, BitVec.extractLsb'_toNat, Nat.shiftRight_eq_div_pow, Nat.pow_mul]

end Sys2Proof.Machine
end

