-- ==== Sys2Proof/Laws/Tables.lean ====
section
/-! SUPPORT. The quarter wave of `Machine/Tables.lean` holds the floors of the exact sines (rule R238): a chain of
rotations by 2*pi/8192 in 60-bit fixed point, whose error is bounded, stays clear of every integer boundary. -/

namespace Sys2Proof.Machine

/-- The angle of one table step, 2*pi/8192. -/
noncomputable def tableStep : ℝ := 2 * Real.pi / 8192

/-- `2^60 * sin(2*pi/8192)`, rounded down. -/
def stepSine : Int := 884279632303724

/-- `2^60 * cos(2*pi/8192)`, rounded down. -/
def stepCosine : Int := 1152921165489838583

/-- The sine and cosine of `r` table steps in 60-bit fixed point, by repeated rotation. -/
def rotated : Nat → Int × Int
  | 0 => (0, 2 ^ 60)
  | r + 1 =>
    (((rotated r).1 * stepCosine + (rotated r).2 * stepSine) / 2 ^ 60,
      ((rotated r).2 * stepCosine - (rotated r).1 * stepSine) / 2 ^ 60)

/-- The distance to a boundary that the rotation's error must not bridge: `2^60 * 8.6e-9`. -/
def margin : Int := 10000000000

/-- The table entry brackets the rotated sine with the margin, for `fuel` entries from `r` on. -/
def brackets : Nat → Nat → Int → Int → Bool
  | 0, _, _, _ => true
  | fuel + 1, r, s, c =>
    decide ((quarterSine r : Int) * 2 ^ 45 + margin ≤ s) && decide (s + margin ≤ ((quarterSine r : Int) + 1) * 2 ^ 45)
      && brackets fuel (r + 1) ((s * stepCosine + c * stepSine) / 2 ^ 60) ((c * stepCosine - s * stepSine) / 2 ^ 60)

theorem brackets_table : brackets 2047 1 (rotated 1).1 (rotated 1).2 = true := by decide +kernel

theorem brackets_at {fuel r : Nat} {s c : Int} (h : brackets fuel r s c = true) (hs : s = (rotated r).1)
    (hc : c = (rotated r).2) {k : Nat} (hk : k < fuel) :
    (quarterSine (r + k) : Int) * 2 ^ 45 + margin ≤ (rotated (r + k)).1 ∧
      (rotated (r + k)).1 + margin ≤ ((quarterSine (r + k) : Int) + 1) * 2 ^ 45 := by
  induction fuel generalizing r s c k with
  | zero => omega
  | succ fuel ih =>
    unfold brackets at h
    simp only [Bool.and_eq_true, decide_eq_true_eq] at h
    obtain ⟨⟨h1, h2⟩, h3⟩ := h
    cases k with
    | zero =>
      subst hs
      exact ⟨h1, h2⟩
    | succ k =>
      have := ih h3 (by rw [hs, hc, rotated]) (by rw [hs, hc, rotated]) (k := k) (by omega)
      rwa [show r + 1 + k = r + (k + 1) by omega] at this

/-! ## The error of the rotation -/

theorem tableStep_bounds : 0.000766990393942820614 < tableStep ∧ tableStep < 0.000766990393942820615 := by
  unfold tableStep
  constructor
  · linarith [Real.pi_gt_d20]
  · linarith [Real.pi_lt_d20]

theorem stepSine_error : |(stepSine : ℝ) / 2 ^ 60 - Real.sin tableStep| ≤ 4e-14 := by
  obtain ⟨hl, hu⟩ := tableStep_bounds
  have hb := Real.sin_bound (x := tableStep) (by rw [abs_le]; constructor <;> linarith)
  have h5 : |tableStep| ^ 5 ≤ 0.000766990393942820615 ^ 5 :=
    pow_le_pow_left₀ (abs_nonneg _) (by rw [abs_of_pos (by linarith)]; linarith) 5
  have h3l : (0.000766990393942820614 : ℝ) ^ 3 ≤ tableStep ^ 3 := pow_le_pow_left₀ (by norm_num) hl.le 3
  have h3u : tableStep ^ 3 ≤ (0.000766990393942820615 : ℝ) ^ 3 := pow_le_pow_left₀ (by linarith) hu.le 3
  rw [abs_le] at hb ⊢
  norm_num [stepSine] at *
  constructor <;> linarith

theorem stepCosine_error : |(stepCosine : ℝ) / 2 ^ 60 - Real.cos tableStep| ≤ 4e-14 := by
  obtain ⟨hl, hu⟩ := tableStep_bounds
  have hb := Real.cos_bound (x := tableStep) (by rw [abs_le]; constructor <;> linarith)
  have h4 : |tableStep| ^ 4 ≤ 0.000766990393942820615 ^ 4 :=
    pow_le_pow_left₀ (abs_nonneg _) (by rw [abs_of_pos (by linarith)]; linarith) 4
  have h2l : (0.000766990393942820614 : ℝ) ^ 2 ≤ tableStep ^ 2 := pow_le_pow_left₀ (by norm_num) hl.le 2
  have h2u : tableStep ^ 2 ≤ (0.000766990393942820615 : ℝ) ^ 2 := pow_le_pow_left₀ (by linarith) hu.le 2
  rw [abs_le] at hb ⊢
  norm_num [stepCosine] at *
  constructor <;> linarith

/-- The bound on the error of `r` rotations. -/
noncomputable def rotationError (r : Nat) : ℝ := 9e-11 * (1.001 ^ r - 1)

/-- A division by `2^60` rounds down by less than one unit. -/
theorem div_unit (v : Int) : (v : ℝ) / 2 ^ 60 - 1 ≤ ((v / 2 ^ 60 : Int) : ℝ) ∧ ((v / 2 ^ 60 : Int) : ℝ) ≤ (v : ℝ) / 2 ^ 60 := by
  have h1 : v % 2 ^ 60 = v - 2 ^ 60 * (v / 2 ^ 60) := Int.emod_def v _
  have h2 : 0 ≤ v % 2 ^ 60 := Int.emod_nonneg _ (by norm_num)
  have h3 : v % 2 ^ 60 < 2 ^ 60 := Int.emod_lt_of_pos _ (by norm_num)
  have e1 : 2 ^ 60 * (v / 2 ^ 60) ≤ v := by omega
  have e2 : v ≤ 2 ^ 60 * (v / 2 ^ 60) + 2 ^ 60 := by omega
  have r1 : (2 : ℝ) ^ 60 * ((v / 2 ^ 60 : Int) : ℝ) ≤ (v : ℝ) := by exact_mod_cast e1
  have r2 : (v : ℝ) ≤ (2 : ℝ) ^ 60 * ((v / 2 ^ 60 : Int) : ℝ) + 2 ^ 60 := by exact_mod_cast e2
  constructor
  · rw [sub_le_iff_le_add, div_le_iff₀ (by norm_num)]
    linarith
  · rw [le_div_iff₀ (by norm_num)]
    linarith

/-- One rotation: from errors `e` of the running pair and `d` of the step's pair. -/
theorem rotation_error {x y x' y' a b a' b' e d : ℝ} (hx : |x' - x| ≤ e) (hy : |y' - y| ≤ e) (ha : |a' - a| ≤ d)
    (hb : |b' - b| ≤ d) (x1 : |x| ≤ 1) (y1 : |y| ≤ 1) (hab : |a'| + |b'| ≤ 1.001) :
    |(x' * a' + y' * b') - (x * a + y * b)| ≤ 1.001 * e + 2 * d := by
  have he : 0 ≤ e := (abs_nonneg _).trans hx
  have hd : 0 ≤ d := (abs_nonneg _).trans ha
  have e1 : (x' * a' + y' * b') - (x * a + y * b) = (x' - x) * a' + x * (a' - a) + ((y' - y) * b' + y * (b' - b)) := by
    ring
  rw [e1]
  have p1 : |(x' - x) * a'| ≤ e * |a'| := by rw [abs_mul]; exact mul_le_mul_of_nonneg_right hx (abs_nonneg _)
  have p2 : |x * (a' - a)| ≤ 1 * d := by rw [abs_mul]; exact mul_le_mul x1 ha (abs_nonneg _) (by norm_num)
  have p3 : |(y' - y) * b'| ≤ e * |b'| := by rw [abs_mul]; exact mul_le_mul_of_nonneg_right hy (abs_nonneg _)
  have p4 : |y * (b' - b)| ≤ 1 * d := by rw [abs_mul]; exact mul_le_mul y1 hb (abs_nonneg _) (by norm_num)
  have t1 := abs_add_le ((x' - x) * a' + x * (a' - a)) ((y' - y) * b' + y * (b' - b))
  have t2 := abs_add_le ((x' - x) * a') (x * (a' - a))
  have t3 := abs_add_le ((y' - y) * b') (y * (b' - b))
  nlinarith

theorem step_pair_small : |(stepCosine : ℝ) / 2 ^ 60| + |(stepSine : ℝ) / 2 ^ 60| ≤ 1.001 := by
  norm_num [stepSine, stepCosine, abs_of_pos]

theorem rotated_error (r : Nat) :
    |((rotated r).1 : ℝ) / 2 ^ 60 - Real.sin (r * tableStep)| ≤ rotationError r ∧
      |((rotated r).2 : ℝ) / 2 ^ 60 - Real.cos (r * tableStep)| ≤ rotationError r := by
  induction r with
  | zero => norm_num [rotated, rotationError]
  | succ r ih =>
    obtain ⟨hs, hc⟩ := ih
    have step : 1.001 * rotationError r + 2 * 4e-14 + 1 / 2 ^ 60 ≤ rotationError (r + 1) := by
      unfold rotationError
      rw [pow_succ (1.001 : ℝ) r]
      linarith
    have sinS : Real.sin ((r + 1 : ℕ) * tableStep) =
        Real.sin (r * tableStep) * Real.cos tableStep + Real.cos (r * tableStep) * Real.sin tableStep := by
      rw [← Real.sin_add]
      congr 1
      push_cast
      ring
    have cosS : Real.cos ((r + 1 : ℕ) * tableStep) =
        Real.cos (r * tableStep) * Real.cos tableStep + Real.sin (r * tableStep) * -Real.sin tableStep := by
      rw [show Real.cos (r * tableStep) * Real.cos tableStep + Real.sin (r * tableStep) * -Real.sin tableStep =
        Real.cos (r * tableStep) * Real.cos tableStep - Real.sin (r * tableStep) * Real.sin tableStep by ring,
        ← Real.cos_add]
      congr 1
      push_cast
      ring
    have negS : |(-((stepSine : ℝ) / 2 ^ 60)) - -Real.sin tableStep| ≤ 4e-14 := by
      rw [show (-((stepSine : ℝ) / 2 ^ 60)) - -Real.sin tableStep = -((stepSine : ℝ) / 2 ^ 60 - Real.sin tableStep) by ring,
        abs_neg]
      exact stepSine_error
    have r1 := rotation_error hs hc stepCosine_error stepSine_error (Real.abs_sin_le_one _) (Real.abs_cos_le_one _)
      step_pair_small
    have r2 := rotation_error hc hs stepCosine_error negS (Real.abs_cos_le_one _) (Real.abs_sin_le_one _)
      (by rw [abs_neg]; exact step_pair_small)
    constructor
    · obtain ⟨d1, d2⟩ := div_unit ((rotated r).1 * stepCosine + (rotated r).2 * stepSine)
      rw [sinS, rotated]
      push_cast at d1 d2
      rw [abs_le] at r1 ⊢
      norm_num at r1 d1 d2 step ⊢
      constructor <;> linarith
    · obtain ⟨d1, d2⟩ := div_unit ((rotated r).2 * stepCosine - (rotated r).1 * stepSine)
      rw [cosS, rotated]
      push_cast at d1 d2
      rw [abs_le] at r2 ⊢
      norm_num at r2 d1 d2 step ⊢
      constructor <;> linarith

theorem rotationError_small {r : Nat} (h : r ≤ 2048) : rotationError r ≤ 7e-10 := by
  have h1 : (1.001 : ℝ) ^ r ≤ 1.001 ^ 2048 := pow_le_pow_right₀ (by norm_num) h
  have h2 : (1.001 : ℝ) ^ 2048 ≤ 8 := by
    have p1 : (1.001 : ℝ) ^ 16 ≤ 1.0162 := by norm_num
    have p2 : (1.0162 : ℝ) ^ 16 ≤ 1.2933 := by norm_num
    have p3 : (1.2933 : ℝ) ^ 8 ≤ 8 := by norm_num
    calc (1.001 : ℝ) ^ 2048 = ((1.001 ^ 16) ^ 16) ^ 8 := by rw [← pow_mul, ← pow_mul]
      _ ≤ (1.0162 ^ 16) ^ 8 := pow_le_pow_left₀ (by positivity) (pow_le_pow_left₀ (by positivity) p1 16) 8
      _ ≤ 1.2933 ^ 8 := pow_le_pow_left₀ (by positivity) p2 8
      _ ≤ 8 := p3
  have h3 := h1.trans h2
  clear h1 h2
  unfold rotationError
  linarith

/-- The quarter wave: every entry but the two ends is strictly between the exact sine and one below it. -/
theorem quarterSine_bounds {r : Nat} (h0 : 0 < r) (h1 : r < 2048) :
    (quarterSine r : ℝ) < 32768 * Real.sin (r * tableStep) ∧ 32768 * Real.sin (r * tableStep) < quarterSine r + 1 := by
  have hb := brackets_at brackets_table rfl rfl (k := r - 1) (by omega)
  rw [show 1 + (r - 1) = r by omega] at hb
  obtain ⟨b1, b2⟩ := hb
  have e := (rotated_error r).1
  have es := rotationError_small (r := r) (by omega)
  have c1 : (quarterSine r : ℝ) * 2 ^ 45 + 10000000000 ≤ ((rotated r).1 : ℝ) := by exact_mod_cast b1
  have c2 : ((rotated r).1 : ℝ) + 10000000000 ≤ ((quarterSine r : ℝ) + 1) * 2 ^ 45 := by exact_mod_cast b2
  rw [abs_le] at e
  norm_num at e c1 c2 es
  constructor <;> linarith

end Sys2Proof.Machine
end

