-- ==== Sys2Proof/Tests/Slice0.lean ====
section
/-! SUPPORT. Tests. Expected values come from the spec: its encoding tables, its examples, its test vectors (named at
each test) or a calculation by hand. The last part shows, for each obligation with premises, a concrete state and operands
that meet them all. -/

namespace Sys2Proof.Tests

open Sys2Proof.Machine

/-! ## Ill-formed terms are refused -/

theorem test_refuses_wide_selector : (Instr.bmStats 65536).wellFormed = false := by decide
theorem test_refuses_wide_rinit_slot : (Instr.fftRinit 65536).wellFormed = false := by decide
theorem test_refuses_wide_rfft_slot : (Instr.fftRfft 65536).wellFormed = false := by decide
theorem test_refuses_wide_count : (Instr.fftTopbins 65536).wellFormed = false := by decide
theorem test_accepts_widest_count : (Instr.fftTopbins 65535).wellFormed = true := by decide

/-! ## Words written out from the patterns of `30_encoding.md` R125: IMM16, FLAGS, OPCODE -/

theorem test_decode_nop : decodeWord (0b0000000000000000#16 ++ 0b00000000#8 ++ 0b00000000#8) = .ok .nop := by decide
theorem test_decode_init : decodeWord (0b0000000000000000#16 ++ 0b00000000#8 ++ 0b00000001#8) = .ok .bmInit := by decide
theorem test_decode_acqw : decodeWord (0b0000000000000000#16 ++ 0b00000000#8 ++ 0b00000010#8) = .ok .bmAcqw := by decide
theorem test_decode_commit :
    decodeWord (0b0000000000000000#16 ++ 0b00000000#8 ++ 0b00000011#8) = .ok .bmCommit := by decide
theorem test_decode_acqr : decodeWord (0b0000000000000000#16 ++ 0b00000000#8 ++ 0b00000100#8) = .ok .bmAcqr := by decide
theorem test_decode_release :
    decodeWord (0b0000000000000000#16 ++ 0b00000000#8 ++ 0b00000101#8) = .ok .bmRelease := by decide
theorem test_decode_state : decodeWord (0b0000000000000000#16 ++ 0b00000000#8 ++ 0b00000110#8) = .ok .bmState := by decide
theorem test_decode_stats :
    decodeWord (0b1000000000001101#16 ++ 0b00000000#8 ++ 0b00000111#8) = .ok (.bmStats 0x800D) := by decide
theorem test_decode_notify_c :
    decodeWord (0b0000000000000000#16 ++ 0b00000000#8 ++ 0b00010000#8) = .ok .ntNotifyC := by decide
theorem test_decode_notify_p :
    decodeWord (0b0000000000000000#16 ++ 0b00000000#8 ++ 0b00010001#8) = .ok .ntNotifyP := by decide
theorem test_decode_load : decodeWord (0b0000000000000000#16 ++ 0b00000000#8 ++ 0b00011000#8) = .ok .atLoad := by decide
theorem test_decode_cas : decodeWord (0b0000000000000000#16 ++ 0b00000000#8 ++ 0b00011001#8) = .ok .atCas := by decide
theorem test_decode_fadd : decodeWord (0b0000000000000000#16 ++ 0b00000000#8 ++ 0b00011010#8) = .ok .atFadd := by decide
theorem test_decode_fence : decodeWord (0b0000000000000000#16 ++ 0b00000000#8 ++ 0b00011011#8) = .ok .fence := by decide
theorem test_decode_rinit :
    decodeWord (0b0000000000000001#16 ++ 0b00000000#8 ++ 0b00100000#8) = .ok (.fftRinit 1) := by decide
theorem test_decode_rfft :
    decodeWord (0b0000000000000011#16 ++ 0b00000000#8 ++ 0b00100001#8) = .ok (.fftRfft 3) := by decide
theorem test_decode_cfft_inv :
    decodeWord (0b0000000000000000#16 ++ 0b00000001#8 ++ 0b00100010#8) = .ok (.fftCfft true false) := by decide
theorem test_decode_cfft_br :
    decodeWord (0b0000000000000000#16 ++ 0b00000010#8 ++ 0b00100010#8) = .ok (.fftCfft false true) := by decide
theorem test_decode_bitrev :
    decodeWord (0b0000000000000000#16 ++ 0b00000000#8 ++ 0b00100011#8) = .ok .fftBitrev := by decide
theorem test_decode_topbins :
    decodeWord (0b0000000000000010#16 ++ 0b00000000#8 ++ 0b00100100#8) = .ok (.fftTopbins 2) := by decide

/-- R127: a defined OPCODE with an immediate that it does not define. -/
theorem test_decode_refuses_imm :
    decodeWord (0b0000000000000001#16 ++ 0b00000000#8 ++ 0b00000000#8) = .error (.undefinedImm16 0) := by decide

/-- Little-endian bytes of FFT_RINIT #1 (R80, R131). -/
theorem test_decode_bytes : decode [0x20, 0x00, 0x01, 0x00] = .ok (.fftRinit 1, []) := by decide

theorem test_table_word : decodeTableWord 32 0x00050007 = some (.bmStats 5) := by decide

/-! ## Small states -/

/-- A port that runs the command of a word with these arguments. -/
def running (w a0 a1 a2 a3 : Word) : PortState :=
  { PortState.reset 0 with cmd := w, busy := true, latch := ⟨w, a0, a1, a2, a3, 0, false, []⟩ }

/-- Port P runs a command, with a valid Control Block in this memory. -/
def onP (ps : PortState) (m : Memory) : State :=
  { State.powerUp Config.default m with portP := ps, cbValid := true, active := .P }

/-- Port C runs a command, with a valid Control Block in this memory. -/
def onC (ps : PortState) (m : Memory) : State :=
  { State.powerUp Config.default m with portC := ps, cbValid := true, active := .C }

/-- Port P runs an FFT command that has the engine. -/
def onEngine (ps : PortState) (m : Memory) : State :=
  { onP ps m with feBusy := true, feOwner := .P, inst0 := initialisedSlot 4096 }

/-- The command answers a next state, of which this holds. -/
def runs (i : Instr) (s : State) (holds : State → Bool) : Bool :=
  match exec i s with
  | .next t => holds t
  | .fault _ => false
  | .refused _ => false

/-- CB_BASE of the default parameters is 0x20030000; this is the word that lies `o` bytes above it. -/
def cbWord (t : State) (o : Nat) : Nat := (t.mem.word (0x20030000 + o)).toNat

/-! ## One step of each command -/

/-- R200's example: STATUS is 0 afterwards. -/
theorem test_nop : runs .nop (onP (running 0 0 0 0 0) []) (fun t => t.portP.statusWord == 0) = true := by decide

/-- R151's example, from memory that holds other values. -/
theorem test_init :
    runs .bmInit (onC (running 1 0 0 0 0) [(0x20030000, 2), (0x20030080, 5)]) (fun t =>
      cbWord t 0 == 0 && cbWord t 0x80 == 0 && cbWord t 0x98 == 0x10000 && cbWord t 0x9C == 1000 && cbWord t 0xC0 == 1) =
      true := by decide

/-- R151: WRONG_STATE (3) on port P, nothing written. -/
theorem test_init_wrong_port :
    runs .bmInit (onP (running 1 0 0 0 0) []) (fun t => t.portP.statusWord == 3 && t.mem == []) = true := by decide

/-- R158's example: LAST_USED = 1, both IDLE; buffer 0 is taken with its handle. -/
theorem test_acqw :
    runs .bmAcqw (onP (running 2 1000 0 0 0) []) (fun t => t.portP.res0 == 0 && t.portP.res1 == 0x20010000 &&
      t.portP.res2 == 0x10000 && t.portP.res3 == 0x20030000 && cbWord t 0 == 1 && t.lastUsed == 0) = true := by
  decide

/-- R158 (c): both busy, a0 = 0: overrun and timeout counted, TIMEOUT (4). -/
theorem test_acqw_times_out :
    runs .bmAcqw (onP (running 2 0 0 0 0) [(0x20030000, 2), (0x20030040, 3)]) (fun t =>
      cbWord t 0x90 == 1 && cbWord t 0x94 == 1 && t.portP.statusWord == 4) = true := by decide

/-- R159's example: write_count 4 becomes 5, the timestamp is 1234. -/
theorem test_commit :
    runs .bmCommit (onP { running 3 0 0 0 0 with clock := 1234 } [(0x20030000, 1), (0x20030080, 4)]) (fun t =>
      cbWord t 0 == 2 && cbWord t 0x80 == 5 && cbWord t 0xA0 == 1234 && t.portC.db) = true := by decide

/-- R159: a second commit finds READY: WRONG_STATE (3). -/
theorem test_commit_twice :
    runs .bmCommit (onP (running 3 0 0 0 0) [(0x20030000, 2)]) (fun t => t.portP.statusWord == 3 && !t.portC.db) = true := by
  decide

/-- R162's example: timestamps 20 and 10, buffer 1 is taken. -/
theorem test_acqr :
    runs .bmAcqr (onC (running 4 0 0 0 0) [(0x20030000, 2), (0x20030040, 2), (0x200300A0, 20), (0x200300A8, 10)]) (fun t =>
      t.portC.res0 == 1 && cbWord t 0x40 == 3 && cbWord t 0 == 2) = true := by decide

/-- R160: no READY buffer and time left: HOLD and BUSY (bits 30, 31), nothing counted. -/
theorem test_acqr_waits :
    runs .bmAcqr (onC (running 4 1 0 0 0) [(0x20030000, 3)]) (fun t =>
      t.portC.statusWord == 0xC0000000 && cbWord t 0x94 == 0) = true := by decide

/-- R163's example: buffer 1, read_count 7 becomes 8, the timestamp is 99. -/
theorem test_release :
    runs .bmRelease (onC { running 5 1 0 0 0 with clock := 99 } [(0x20030040, 3), (0x2003008C, 7)]) (fun t =>
      cbWord t 0x40 == 0 && cbWord t 0x8C == 8 && cbWord t 0xB8 == 99 && t.portP.db) = true := by decide

/-- R163: a bad id is INVALID (1). -/
theorem test_release_bad_id :
    runs .bmRelease (onC (running 5 2 0 0 0) []) (fun t => t.portC.statusWord == 1) = true := by decide

/-- R164: the raw word, also one that is no state. -/
theorem test_state :
    runs .bmState (onP (running 6 1 0 0 0) [(0x20030040, 9)]) (fun t => t.portP.res0 == 9) = true := by decide

/-- R165: selector 6 is `last_write_ts[0]`, low and high half. -/
theorem test_stats :
    runs (.bmStats 6) (onC (running 0x60007 0 0 0 0) [(0x200300A0, 7), (0x200300A4, 1)]) (fun t =>
      t.portC.res0 == 7 && t.portC.res1 == 1) = true := by decide

/-- R165: the snapshot puts `timeout_count` at 20 and `last_read_ts[1]` at 48. -/
theorem test_stats_snapshot :
    runs (.bmStats 13) (onC (running 0xD0007 0x20010008 0 0 0) [(0x20030094, 6), (0x200300B8, 8)]) (fun t =>
      t.mem.word 0x2001001C == 6 && t.mem.word 0x20010038 == 8 && t.portC.statusWord == 0) = true := by decide

/-- R202's example: the doorbell and the line. -/
theorem test_notify_c :
    runs .ntNotifyC { onP (running 0x10 0 0 0 0) [] with portC := { PortState.reset 0 with ie := true } } (fun t =>
      t.portC.db && t.irq .C) = true := by decide

/-- R203's example. -/
theorem test_notify_p :
    runs .ntNotifyP (onC (running 0x11 0 0 0 0) []) (fun t => t.portP.db && !t.irq .P && !t.portC.db) = true := by
  decide

/-- R208's example: `buffer_size` read in the Control Block. -/
theorem test_load :
    runs .atLoad (onP (running 0x18 0x20030098 0 0 0) [(0x2003009A, 1)]) (fun t => t.portP.res0 == 0x10000) = true := by
  decide

/-- R209's example, the swap: word 5, expected 5, new 9. -/
theorem test_cas :
    runs .atCas (onP (running 0x19 0x20010000 5 9 0) [(0x20010000, 5)]) (fun t =>
      t.mem.word 0x20010000 == 9 && t.portP.res0 == 5 && t.portP.res1 == 1) = true := by decide

/-- R209's example, repeated: nothing is swapped. -/
theorem test_cas_fails :
    runs .atCas (onP (running 0x19 0x20010000 5 9 0) [(0x20010000, 9)]) (fun t =>
      t.mem.word 0x20010000 == 9 && t.portP.res0 == 9 && t.portP.res1 == 0) = true := by decide

/-- R210's example: 0xFFFFFFFF plus 2. -/
theorem test_fadd :
    runs .atFadd (onP (running 0x1A 0x20010000 2 0 0) (Memory.cells 0x20010000 [255, 255, 255, 255])) (fun t =>
      t.mem.word 0x20010000 == 1 && t.portP.res0 == 0xFFFFFFFF) = true := by decide

/-- R207: a state word is protected. -/
theorem test_fadd_protected :
    runs .atFadd (onP (running 0x1A 0x200300C0 2 0 0) []) (fun t => t.portP.statusWord == 1 && t.mem == []) = true := by
  decide

/-- R212's example. -/
theorem test_fence : runs .fence (onC (running 0x1B 0 0 0 0) []) (fun t => t.portC.statusWord == 0) = true := by
  decide

/-- R282's example: N = 4096 in slot 0. -/
theorem test_rinit :
    runs (.fftRinit 0) (onP (running 0x20 4096 0 0 0) []) (fun t =>
      t.inst0 == ⟨true, 4096, false, true, 2, 2048⟩ && !t.feBusy) = true := by decide

/-- R282: a bad slot is INVALID (1) before a bad size is INVALID_SIZE (2). -/
theorem test_rinit_bad_slot :
    runs (.fftRinit 4) (onP (running 0x40020 2048 0 0 0) []) (fun t => t.portP.statusWord == 1) = true := by decide

/-- R285, R253, by hand: 32 equal samples have the bin 0 alone, their mean (a slot of N = 32 is the test's own). -/
theorem test_rfft :
    runs (.fftRfft 0) { onEngine (running 0x21 0x20010000 0x20010100 0 0)
        (Memory.cells 0x20010000 (bytesOfHalves (List.replicate 32 16384))) with inst0 := ⟨true, 32, false, true, 256, 16⟩ }
      (fun t => t.mem.samples 0x20010100 32 == (16384, 0) :: List.replicate 31 (0, 0)) = true := by decide +kernel

/-- R285: a slot that is not initialised is INIT (5). -/
theorem test_rfft_init :
    runs (.fftRfft 1) (onEngine (running 0x10021 0x20010000 0x20020000 0 0) []) (fun t =>
      t.portP.statusWord == 5 && !t.feBusy) = true := by decide

/-- R288's example: 16 samples (16384, 0). -/
theorem test_cfft :
    runs (.fftCfft false true) (onEngine (running 0x222 0x20010000 16 0 0)
        (Memory.cells 0x20010000 (bytesOfSamples (List.replicate 16 (16384, 0)))))
      (fun t => t.mem.samples 0x20010000 16 == (16384, 0) :: List.replicate 15 (0, 0)) = true := by decide

/-- R280: with the engine free the command first takes it. -/
theorem test_cfft_takes_engine :
    runs (.fftCfft false false) (onP (running 0x22 0 16 0 0) []) (fun t =>
      t.feBusy && t.feStatusWord == 1 && t.portP.busy) = true := by decide

/-- R290's example: M = 16, sample k holds (k, -k). -/
theorem test_bitrev :
    runs .fftBitrev (onEngine (running 0x23 0x20010000 16 0 0)
        (Memory.cells 0x20010000 (bytesOfSamples ((List.range 16).map fun k => ((k : Int), -(k : Int))))))
      (fun t => (t.mem.samples 0x20010000 16).map Prod.fst == [0, 8, 4, 12, 2, 10, 6, 14, 1, 9, 5, 13, 3, 11, 7, 15]) =
      true := by decide

/-- R287, R330: a null buffer is NULL_POINTER (6). -/
theorem test_bitrev_null :
    runs .fftBitrev (onEngine (running 0x23 0 16 0 0) []) (fun t => t.portP.statusWord == 6) = true := by decide

/-- R302 (e): length 4095 for N = 4096 is INVALID_SIZE (2). -/
theorem test_topbins_size :
    runs (.fftTopbins 1) (onEngine (running 0x10024 0x20010000 4095 4096 0x20020000) []) (fun t => t.portP.statusWord == 2) =
      true := by decide

/-- R300, R301 by hand: magnitudes 25, 100, 25, 0 of bins 1 to 4: bin 2, then the earlier of the equal ones. -/
theorem test_topbins_order :
    topBins 8 2 [(99, 0), (3, 4), (-6, 8), (0, -5), (0, 0)] = [⟨2, 100⟩, ⟨1, 25⟩] := by decide

/-- R238's values of TW(16, k) in the four quadrants. -/
theorem test_twiddles :
    twiddle 16 1 = (30273, 12539) ∧ twiddle 16 5 = (-12540, 30273) ∧ twiddle 16 8 = (-32768, 0) ∧
      twiddle 16 11 = (-12540, -30274) := by decide

/-- R240's values of AB(8192, i). -/
theorem test_coefficients :
    realCoef 8192 0 = ⟨16384, -16384, 16384, 16384⟩ ∧ realCoef 8192 1 = ⟨16371, -16384, 16397, 16384⟩ ∧
      realCoef 8192 2 = ⟨16359, -16384, 16409, 16384⟩ := by decide

/-- R3, R39: a word placed as the next command runs in the next step. -/
theorem test_first_command :
    (match step (State.reset.withFetchWord 32 0x00000011) with
      | .next t => t.portP.db && !t.portP.busy
      | .fault _ => false
      | .refused _ => false) = true := by decide

/-- R127, R330: a reserved OPCODE ends with ILLEGAL (8). -/
theorem test_illegal_word :
    (match step (State.reset.withFetchWord 32 0x00000008) with
      | .next t => t.portP.statusWord == 8
      | .fault _ => false
      | .refused _ => false) = true := by decide

/-- R41: FE_STATUS with the engine busy (bit 0), port C its owner (bit 1) and SIMD (bit 2). -/
theorem test_engine_status :
    (match step { State.reset with schedule := [.cpuLoad .P .word 0x50000214], feBusy := true, feOwner := .C,
                                   cfg := { Config.default with variant := .simd } } with
      | .next t => t.cpuP == 7
      | .fault _ => false
      | .refused _ => false) = true := by decide

/-- R54, R41: 16 bits at byte 3 of ID (0x43, then byte 0 of CFG_BUF_SIZE, 0x00). -/
theorem test_narrow_load :
    (match step (State.reset.setSchedule [.cpuLoad .P .half 0x50000203]) with
      | .next t => t.cpuP == 0x0043
      | .fault _ => false
      | .refused _ => false) = true := by decide

/-! ## The premises of the obligations can be met

One theorem for each obligation that has premises; the operands stand at the ends of their ranges. -/

/-- With no command on the other port nothing races. -/
theorem quietOn_of_idle {s : State} (h : (s.port s.active.peer).busy = false) (r : Region) : s.quietOn r := by
  intro f hf
  simp [State.fftRegions, State.fftInFlight, h] at hf

theorem unraced_of_idle {s : State} (h : (s.port s.active.peer).busy = false) (ht : s.latch.touched = [])
    (f : FftRegions) : s.unraced f := by
  refine ⟨fun t hm => ?_, quietOn_of_idle h _⟩
  rw [ht] at hm
  simp at hm

theorem onEngine_hasEngine (ps : PortState) (m : Memory) : (onEngine ps m).hasEngine := ⟨rfl, rfl⟩

theorem fieldsQuiet_of_idle {s : State} (h : ∀ p, s.fftInFlight p = none) : s.fieldsQuiet := by
  intro q f hf
  simp [State.fftRegions, h q] at hf

/-- The machine after reset with events to come. -/
def next1 (e : Event) (s : State) : State := s.setSchedule [e]

theorem meets_DecodeAfterEncode : (Instr.fftTopbins 65535).wellFormed = true := by decide

theorem meets_LegalWordsMatchOneRow :
    decodeWord 0xFFFF0024 = .ok (.fftTopbins 65535) ∧ ⟨0x00000024, 0x0000FFFF⟩ ∈ encodingRows ∧
      EncodingRow.selects ⟨0x00000024, 0x0000FFFF⟩ 0xFFFF0024 = true := by decide

theorem meets_StepRunsDecodedCommand :
    (let s := next1 (.command .P) (onP (running 0x1B 0 0 0 0) [])
     s.schedule = .command .P :: [] ∧ s.inReset = false ∧ (s.port .P).busy = true ∧
      decodeWord (s.port .P).latch.word = .ok .fence) ∧
    (let s := onC (running 0x1B 0 0 0 0) []
     s.schedule = [] ∧ s.inReset = false ∧ (s.port .C).busy = true ∧ (s.port (Port.C).peer).busy = false ∧
      decodeWord (s.port .C).latch.word = .ok .fence) ∧
    (State.reset.schedule = [] ∧ State.reset.portP.busy = false ∧ State.reset.portC.busy = false) := by decide

theorem meets_IllegalWordEnds :
    let s := next1 (.command .P) (onP (running 0x00000402 0 0 0 0) [])
    s.schedule = .command .P :: [] ∧ s.inReset = false ∧ (s.port .P).busy = true ∧
      ∀ r ∈ encodingRows, r.selects (s.port .P).latch.word = false := by decide

theorem meets_CmdStoreAcceptsOrDrops :
    (let s := next1 (.cpuStore .P .word 0x50000100 2) State.reset
     s.schedule = [.cpuStore .P .word 0x50000100 2] ∧ s.inReset = false ∧
      (0x50000100 : Word).toNat = s.cfg.coreBase.toNat + portWindow .C + 0x00 ∧ (s.port .C).busy = false) ∧
    (let s := next1 (.cpuStore .P .word 0x50000000 2) (onP (running 2 0 0 0 0) [])
     s.schedule = [.cpuStore .P .word 0x50000000 2] ∧ s.inReset = false ∧
      (0x50000000 : Word).toNat = s.cfg.coreBase.toNat + portWindow .P + 0x00 ∧ (s.port .P).busy = true) := by decide

theorem meets_RegisterStores :
    ∀ o ∈ [0x04, 0x08, 0x0C, 0x10, 0x14, 0x18, 0x28, 0x2C, 0x30, 0xFC],
      let a : Word := BitVec.ofNat 32 (0x50000100 + o)
      let g : Word := BitVec.ofNat 32 (0x50000200 + o)
      let s := next1 (.cpuStore .C .word a 1) State.reset
      let u := next1 (.cpuStore .C .word g 1) State.reset
      (s.schedule = [.cpuStore .C .word a 1] ∧ s.inReset = false ∧
        a.toNat = s.cfg.coreBase.toNat + portWindow .C + o ∧ o < 0x100 ∧ o % 4 = 0) ∧
      (u.schedule = [.cpuStore .C .word g 1] ∧ u.inReset = false ∧ g.toNat = u.cfg.coreBase.toNat + 0x200 + o) := by
  decide

theorem meets_PortRegisterLoads :
    ∀ o ∈ [0x00, 0x04, 0x24, 0x28, 0x2C, 0x30, 0x34, 0x38, 0xFC],
      let a : Word := BitVec.ofNat 32 (0x50000000 + o)
      let s := next1 (.cpuLoad .C .word a) State.reset
      s.schedule = [.cpuLoad .C .word a] ∧ s.inReset = false ∧ a.toNat = s.cfg.coreBase.toNat + portWindow .P + o ∧
        (o, (0 : Word)) ∈ [(0x00, (s.port .P).cmd), (0x04, (s.port .P).statusWord), (0x24, (s.port .P).res3),
          (0x28, (s.port .P).dbStatusWord), (0x2C, (s.port .P).dbEnableWord), (0x30, 0), (0x34, (s.port .P).timeHi),
          (0x38, 0), (0xFC, 0)] := by decide

/-- The STATUS clause: two codes, with the flags around them. -/
theorem meets_PortRegisterLoads_codes :
    ∀ e ∈ [(Code.nullPointer, 6, (0x20000006 : Word)), (.illegal, 8, 0xE0000008)],
      let q : PortState :=
        { PortState.reset 0 with code := e.1, lost := true, hold := e.1 == .illegal, busy := e.1 == .illegal }
      let s := next1 (.cpuLoad .P .word 0x50000004) { State.reset with portP := q }
      s.schedule = [.cpuLoad .P .word 0x50000004] ∧ s.inReset = false ∧
        (0x50000004 : Word).toNat = s.cfg.coreBase.toNat + portWindow .P + 0x04 ∧
        e.2.2.toNat = e.2.1 + 2 ^ 29 * q.lost.toNat + 2 ^ 30 * q.hold.toNat + 2 ^ 31 * q.busy.toNat := by
  intro e h
  simp only [List.mem_cons, List.not_mem_nil, or_false] at h
  rcases h with rfl | rfl <;> decide

theorem meets_GlobalRegisterLoads :
    ∀ e ∈ [(0x00, 0x434F5245), (0x04, 65536), (0x08, 32768), (0x0C, 0x20010000), (0x10, 2), (0x14, 0), (0x18, 0),
        (0x1C, 0), (0x20, 0), (0x5C, 0), (0x60, 0), (0xFC, 0)],
      let a : Word := BitVec.ofNat 32 (0x50000200 + e.1)
      let s := next1 (.cpuLoad .P .word a) State.reset
      s.schedule = [.cpuLoad .P .word a] ∧ s.inReset = false ∧ a.toNat = s.cfg.coreBase.toNat + 0x200 + e.1 ∧
        s.readGlobal e.1 = e.2 ∧ s.inst 0 = some InstSlot.reset ∧ s.inst 3 = some InstSlot.reset := by decide

/-- The FE_STATUS clause: port C owns the busy engine of variant SIMD. -/
theorem meets_GlobalRegisterLoads_engine :
    let s := next1 (.cpuLoad .P .word 0x50000214)
      { State.reset with feBusy := true, feOwner := .C, cfg := { Config.default with variant := .simd } }
    s.schedule = [.cpuLoad .P .word 0x50000214] ∧ s.inReset = false ∧
      (0x50000214 : Word).toNat = s.cfg.coreBase.toNat + 0x200 + 0x14 ∧ (s.feOwner, 1) ∈ [(Port.P, 0), (.C, 1)] ∧
      (s.cfg.variant, 1) ∈ [(ArithVariant.portable, 0), (.simd, 1)] ∧
      (7 : Word).toNat = s.feBusy.toNat + 2 * 1 + 4 * 1 := by decide

/-- The byte 3 of ID, the half word of its byte 3 and the next register's byte 0, and the last half word of the window. -/
theorem meets_NarrowRegisterAccesses :
    (let s := next1 (.cpuStore .P .half 0x500002FE 7) State.reset
     s.schedule = [.cpuStore .P .half 0x500002FE 7] ∧ (0x500002FE : Word).toNat = s.cfg.coreBase.toNat + 0x2FE ∧
      0x2FE + Width.half.bytes ≤ 0x300) ∧
    (let s := next1 (.cpuLoad .P .byte 0x50000203) State.reset
     s.schedule = [.cpuLoad .P .byte 0x50000203] ∧ s.inReset = false ∧ (0x43 : Word).toNat < 256 ^ Width.byte.bytes ∧
      ∀ k, k < Width.byte.bytes → (0x43 : Word).toNat / 256 ^ k % 256 =
        (s.readReg (0x203 + k - (0x203 + k) % 4)).toNat / 256 ^ ((0x203 + k) % 4) % 256) ∧
    (let s := next1 (.cpuLoad .P .half 0x50000203) State.reset
     s.schedule = [.cpuLoad .P .half 0x50000203] ∧ s.inReset = false ∧ (0x0043 : Word).toNat < 256 ^ Width.half.bytes ∧
      ∀ k, k < Width.half.bytes → (0x0043 : Word).toNat / 256 ^ k % 256 =
        (s.readReg (0x203 + k - (0x203 + k) % 4)).toNat / 256 ^ ((0x203 + k) % 4) % 256) ∧
    (let s := next1 (.cpuStore .C .word 0x50000002 7) State.reset
     s.schedule = [.cpuStore .C .word 0x50000002 7] ∧ 0x002 % 4 ≠ 0) := by
  refine ⟨by decide, by decide, by decide, by decide⟩

/-- Each way to stop, at the ends of the windows, and an access next to it that goes on. -/
theorem meets_EveryCommandAnswers :
    (next1 (.cpuLoad .P .half 0x500002FF) State.reset).nextEvent = some (.cpuLoad .P .half 0x500002FF) ∧
    (Event.cpuLoad .P .half 0x500002FF).access (OutsideCore Config.default) ∧
    (Event.cpuStore .P .word 0x20037FFD 0).access (OutsideCore Config.default) ∧
    (Event.cpuLoad .C .word 0x500002FA).access (MisalignedRegister Config.default) ∧
    (Event.cpuLoad .P .half 0x500002FE).defined Config.default ∧ (Event.cpuLoad .P .half 0x500000FF).defined Config.default ∧
    (Event.cpuStore .P .word 0x20037FFC 0).defined Config.default := by
  have h1 : Config.default.coreBase.toNat = 0x50000000 := by decide
  have h2 : Config.default.windowEnd = 0x20038000 := by decide
  simp only [Event.defined, Event.access, OutsideCore, MisalignedRegister, InRegisters, h1, h2]
  refine ⟨rfl, ?_, ?_, ?_, ?_, ?_, ?_⟩ <;> decide

theorem meets_InterruptLines :
    (let s := next1 (.cpuStore .C .word 0x5000012C 1) State.reset
     s.schedule = [.cpuStore .C .word 0x5000012C 1] ∧ s.inReset = false ∧
      (0x5000012C : Word).toNat = s.cfg.coreBase.toNat + portWindow .C + 0x2C) ∧
    (let s := next1 (.cpuStore .P .word 0x50000028 1) State.reset
     s.schedule = [.cpuStore .P .word 0x50000028 1] ∧ s.inReset = false ∧
      (0x50000028 : Word).toNat = s.cfg.coreBase.toNat + portWindow .P + 0x28 ∧ (1 : Word).getLsbD 0 = true) := by decide

theorem meets_ResetInput :
    (next1 .resetAssert (onP (running 2 0 0 0 0) [])).schedule = [.resetAssert] ∧
    (let s := { next1 (.command .C) State.reset with inReset := true }
     s.schedule = [.command .C] ∧ s.inReset = true) ∧
    (let s := { next1 (.cpuStore .C .word 0x500002FC 1) State.reset with inReset := true }
     s.schedule = [.cpuStore .C .word 0x500002FC 1] ∧ s.inReset = true ∧
      (0x500002FC : Word).toNat = s.cfg.coreBase.toNat + 0x2FC) ∧
    (next1 .resetRelease State.reset).schedule = [.resetRelease] := by decide

theorem meets_PlainAccessesAndClocks :
    (∀ e ∈ [Event.cpuStore .P .word 0x20037FFC 5, .cpuLoad .C .word 0x20037FFC],
      let s := next1 e State.reset
      s.schedule = [e] ∧ s.cfg.sharedBase.toNat ≤ (0x20037FFC : Word).toNat ∧
        (0x20037FFC : Word).toNat + Width.word.bytes ≤
          s.cfg.sharedBase.toNat + 2 * s.cfg.bufSize.toNat + s.cfg.cbSize.toNat ∧
        (0x20037FFC : Word).toNat < s.cfg.coreBase.toNat ∧ ∀ q ∈ ports, s.fftRegions q = none) ∧
    (next1 (.clock .C 7) State.reset).schedule = [.clock .C 7] := by decide

/-- The first and the last word of the shared window. -/
theorem meets_AtLoadReads :
    ∀ a0 ∈ [(0x20010000 : Word), 0x20037FFC], let s := onP (running 0x18 a0 0 0 0) []
      let a := s.latch.a0.toNat
      a ≠ 0 ∧ a % 4 = 0 ∧ s.cfg.sharedBase.toNat ≤ a ∧ a + 4 ≤ s.cfg.windowEnd ∧ s.quietOn ⟨a, 4⟩ := by
  intro a0 h
  simp only [List.mem_cons, List.not_mem_nil, or_false] at h
  rcases h with rfl | rfl <;>
    exact ⟨by decide, by decide, by decide, by decide, quietOn_of_idle (by decide) _⟩

/-- The words next to the protected range, and both outcomes of AT_CAS. -/
theorem meets_AtCasSwaps :
    ∀ a0 ∈ [(0x2002FFFC : Word), 0x200300C4], let s := onP (running 0x19 a0 0 9 0) []
      let u := onP (running 0x19 a0 1 9 0) []
      let a := s.latch.a0.toNat
      (a ≠ 0 ∧ a % 4 = 0 ∧ s.cfg.sharedBase.toNat ≤ a ∧ a + 4 ≤ s.cfg.windowEnd ∧
        (a + 4 ≤ s.cfg.cbBase ∨ s.cfg.cbBase + 0x0C4 ≤ a) ∧ s.quietOn ⟨a, 4⟩ ∧ s.mem.word a = s.latch.a1) ∧
      u.quietOn ⟨a, 4⟩ ∧ u.mem.word a ≠ u.latch.a1 := by
  intro a0 h
  simp only [List.mem_cons, List.not_mem_nil, or_false] at h
  rcases h with rfl | rfl <;>
    exact ⟨⟨by decide, by decide, by decide, by decide, by decide, quietOn_of_idle (by decide) _, by decide⟩,
      quietOn_of_idle (by decide) _, by decide⟩

theorem meets_AtFaddAdds :
    ∀ a0 ∈ [(0x2002FFFC : Word), 0x200300C4], let s := onC (running 0x1A a0 2 0 0) []
      let a := s.latch.a0.toNat
      a ≠ 0 ∧ a % 4 = 0 ∧ s.cfg.sharedBase.toNat ≤ a ∧ a + 4 ≤ s.cfg.windowEnd ∧
        (a + 4 ≤ s.cfg.cbBase ∨ s.cfg.cbBase + 0x0C4 ≤ a) ∧ s.quietOn ⟨a, 4⟩ := by
  intro a0 h
  simp only [List.mem_cons, List.not_mem_nil, or_false] at h
  rcases h with rfl | rfl <;>
    exact ⟨by decide, by decide, by decide, by decide, by decide, quietOn_of_idle (by decide) _⟩

theorem meets_AtomicRefusals :
    (∀ a0 ∈ [(0 : Word), 0x20010001, 0x2000FFFC, 0x20038000],
      let s := onP (running 0x18 a0 0 0 0) []
      let a := s.latch.a0.toNat
      a = 0 ∨ a % 4 ≠ 0 ∨ a < s.cfg.sharedBase.toNat ∨ s.cfg.windowEnd < a + 4) ∧
    ∀ a0 ∈ [(0x20030000 : Word), 0x200300C0], let s := onP (running 0x1A a0 0 0 0) []
      s.cfg.cbBase < s.latch.a0.toNat + 4 ∧ s.latch.a0.toNat < s.cfg.cbBase + 0x0C4 := by
  constructor <;> intro a0 h <;> simp only [List.mem_cons, List.not_mem_nil, or_false] at h
  · rcases h with rfl | rfl | rfl | rfl <;> decide
  · rcases h with rfl | rfl <;> decide

theorem meets_BmInitClears :
    let s := onC (running 1 0 0 0 0) []
    s.cfg.wf = true ∧ s.active = .C ∧ (controlBlock s.cfg).has 0x20037FFF = true ∧
      Region.has ⟨bufferSizeAddr s.cfg, 8⟩ 0x20037FFF = false ∧
      Region.has ⟨consumerReadyAddr s.cfg, 4⟩ 0x20037FFF = false := by decide

theorem meets_BmChecksInOrder :
    (onP (running 1 0 0 0 0) []).active = .P ∧ State.reset.cbValid = false ∧
    (∀ a0 ∈ [(2 : Word), 0xFFFFFFFF],
      let s := onP (running 3 a0 0 0 0) []
      let u := onC (running 5 a0 0 0 0) []
      s.cbValid = true ∧ s.active = .P ∧ 1 < s.latch.a0.toNat ∧ u.cbValid = true ∧ u.active = .C ∧ 1 < u.latch.a0.toNat) ∧
    (let s := onP (running 3 1 0 0 0) [(0x20030040, 2)]
     s.cbValid = true ∧ s.active = .P ∧ s.latch.a0 = (1 : BitVec 1).zeroExtend 32 ∧ s.quietOn ⟨stateAddr s.cfg 1, 4⟩ ∧
      s.bufferState 1 ≠ stWriting) ∧
    (let s := onC (running 5 0 0 0 0) [(0x20030000, 2)]
     s.cbValid = true ∧ s.active = .C ∧ s.latch.a0 = (0 : BitVec 1).zeroExtend 32 ∧ s.quietOn ⟨stateAddr s.cfg 0, 4⟩ ∧
      s.bufferState 0 ≠ stReading) := by
  refine ⟨by decide, by decide, fun a0 h => ?_,
    ⟨by decide, by decide, by decide, quietOn_of_idle (by decide) _, by decide⟩,
    ⟨by decide, by decide, by decide, quietOn_of_idle (by decide) _, by decide⟩⟩
  simp only [List.mem_cons, List.not_mem_nil, or_false] at h
  rcases h with rfl | rfl <;> decide

/-- Both buffers IDLE, and only the one used last. -/
theorem meets_AcqwTakesIdleBuffer :
    (let s := onP (running 2 0 0 0 0) []
     s.cbValid = true ∧ s.active = .P ∧ s.quietOn (definedFields s.cfg) ∧ s.bufferState 0 = stIdle ∧
      (0 : BitVec 1) = s.lastUsed + 1) ∧
    (let s := onP (running 2 0 0 0 0) [(0x20030000, 2)]
     s.cbValid = true ∧ s.active = .P ∧ s.quietOn (definedFields s.cfg) ∧ s.bufferState 1 = stIdle ∧
      s.bufferState (s.lastUsed + 1) ≠ stIdle) :=
  ⟨⟨by decide, by decide, quietOn_of_idle (by decide) _, by decide, by decide⟩,
    by decide, by decide, quietOn_of_idle (by decide) _, by decide, by decide⟩

/-- The timeout just over, and one millisecond left. -/
theorem meets_AcqwFindsBothBusy :
    ∀ c ∈ [(5 : DWord), 4], let s := onP { running 2 5 0 0 0 with clock := c } [(0x20030000, 2), (0x20030040, 3)]
      s.cbValid = true ∧ s.active = .P ∧ s.quietOn (definedFields s.cfg) ∧ (∀ i, s.bufferState i ≠ stIdle) ∧
        (s.latch.a0.toNat ≤ (s.now - s.latch.t0).toNat ↔ c = 5) := by
  intro c h
  simp only [List.mem_cons, List.not_mem_nil, or_false] at h
  rcases h with rfl | rfl <;>
    exact ⟨by decide, by decide, quietOn_of_idle (by decide) _, by decide, by decide⟩

theorem meets_CommitHandsOff :
    let s := onP (running 3 1 0 0 0) [(0x20030040, 1)]
    s.cbValid = true ∧ s.active = .P ∧ s.latch.a0 = (1 : BitVec 1).zeroExtend 32 ∧ s.quietOn (definedFields s.cfg) ∧
      s.bufferState 1 = stWriting :=
  ⟨by decide, by decide, by decide, quietOn_of_idle (by decide) _, by decide⟩

/-- One READY buffer, the older of two, and a tie. -/
theorem meets_AcqrTakesOldestReady :
    (let s := onC (running 4 0 0 0 0) [(0x20030040, 2)]
     s.quietOn (definedFields s.cfg) ∧ s.bufferState 1 = stReady ∧ s.bufferState (1 + 1) ≠ stReady) ∧
    (let s := onC (running 4 0 0 0 0) [(0x20030000, 2), (0x20030040, 2), (0x200300A0, 1)]
     s.quietOn (definedFields s.cfg) ∧ s.bufferState 1 = stReady ∧
      (s.lastWriteTs 1).toNat < (s.lastWriteTs (1 + 1)).toNat) ∧
    (let s := onC (running 4 0 0 0 0) [(0x20030000, 2), (0x20030040, 2)]
     s.cbValid = true ∧ s.active = .C ∧ s.quietOn (definedFields s.cfg) ∧ s.bufferState 0 = stReady ∧
      s.lastWriteTs 0 = s.lastWriteTs (0 + 1)) :=
  ⟨⟨quietOn_of_idle (by decide) _, by decide, by decide⟩, ⟨quietOn_of_idle (by decide) _, by decide, by decide⟩,
    by decide, by decide, quietOn_of_idle (by decide) _, by decide, by decide⟩

theorem meets_AcqrFindsNoneReady :
    ∀ c ∈ [(5 : DWord), 4], let s := onC { running 4 5 0 0 0 with clock := c } [(0x20030000, 1), (0x20030040, 3)]
      s.cbValid = true ∧ s.active = .C ∧ s.quietOn (definedFields s.cfg) ∧ (∀ i, s.bufferState i ≠ stReady) ∧
        (s.latch.a0.toNat ≤ (s.now - s.latch.t0).toNat ↔ c = 5) := by
  intro c h
  simp only [List.mem_cons, List.not_mem_nil, or_false] at h
  rcases h with rfl | rfl <;>
    exact ⟨by decide, by decide, quietOn_of_idle (by decide) _, by decide, by decide⟩

theorem meets_ReleaseHandsOff :
    let s := onC (running 5 1 0 0 0) [(0x20030040, 3)]
    s.cbValid = true ∧ s.active = .C ∧ s.latch.a0 = (1 : BitVec 1).zeroExtend 32 ∧ s.quietOn (definedFields s.cfg) ∧
      s.bufferState 1 = stReading :=
  ⟨by decide, by decide, by decide, quietOn_of_idle (by decide) _, by decide⟩

theorem meets_BmStateAndStatsRead :
    let s := onC (running 6 1 0 0 0) []
    s.cbValid = true ∧ s.quietOn (definedFields s.cfg) ∧ s.latch.a0 = (1 : BitVec 1).zeroExtend 32 ∧
      (12, s.mem.word (consumerReadyAddr s.cfg)) ∈ [(12, (0 : Word))] ∧ (9, s.lastReadTs 1) ∈ [(9, (0 : DWord))] :=
  ⟨by decide, quietOn_of_idle (by decide) _, by decide, by decide, by decide⟩

/-- A snapshot that ends where the protected range starts, one right behind it, and the refused ones. -/
theorem meets_BmStatsSnapshots :
    (∀ a0 ∈ [(0x2002FFC8 : Word), 0x200300C8], let s := onP (running 0xD0007 a0 0 0 0) []
      let a := s.latch.a0.toNat
      s.cbValid = true ∧ a ≠ 0 ∧ a % 8 = 0 ∧ s.cfg.sharedBase.toNat ≤ a ∧ a + 56 ≤ s.cfg.windowEnd ∧
        (a + 56 ≤ s.cfg.cbBase ∨ s.cfg.cbBase + 0x0C4 ≤ a) ∧ s.quietOn (definedFields s.cfg)) ∧
    ∀ a0 ∈ [(0 : Word), 0x20010004, 0x2000FFF8, 0x20037FD0, 0x2002FFD0, 0x200300C0],
      let s := onP (running 0xD0007 a0 0 0 0) []
      let a := s.latch.a0.toNat
      s.cbValid = true ∧ (a = 0 ∨ a % 8 ≠ 0 ∨ a < s.cfg.sharedBase.toNat ∨ s.cfg.windowEnd < a + 56 ∨
        (s.cfg.cbBase < a + 56 ∧ a < s.cfg.cbBase + 0x0C4)) := by
  constructor <;> intro a0 h <;> simp only [List.mem_cons, List.not_mem_nil, or_false] at h
  · rcases h with rfl | rfl <;>
      exact ⟨by decide, by decide, by decide, by decide, by decide, by decide, quietOn_of_idle (by decide) _⟩
  · rcases h with rfl | rfl | rfl | rfl | rfl | rfl <;> decide

theorem meets_RinitFillsSlot :
    (∀ a0 ∈ [(4096 : Word), 8192, 2048], let s := onP (running 0x30020 a0 0 0 0) []
      (s.feBusy = false ∨ s.feOwner = s.active) ∧ (s.latch.a0 = 4096 ∨ s.latch.a0 = 8192 ∨
        s.latch.a0 ≠ 4096 ∧ s.latch.a0 ≠ 8192)) ∧
    (let s := onEngine (running 0x40020 4096 0 0 0) []
     s.feBusy = false ∨ s.feOwner = s.active) := by
  refine ⟨fun a0 h => ?_, by decide⟩
  simp only [List.mem_cons, List.not_mem_nil, or_false] at h
  rcases h with rfl | rfl | rfl <;> decide

theorem meets_EngineHeldTakenFreed :
    (let s := { onC (running 0x22 0 16 0 0) [] with feBusy := true, feOwner := .P }
     fftOnMemory (.fftCfft false false) = true ∧ s.feBusy = true ∧ s.feOwner ≠ s.active) ∧
    (onC (running 0x22 0 16 0 0) []).feBusy = false ∧ (onEngine (running 0x22 0 16 0 0) []).hasEngine :=
  ⟨by decide, by decide, by decide, by decide⟩

/-- Operands for every clause: the slots 4 and 1, null addresses, sizes, counts, and addresses at the window's end. -/
theorem meets_FftChecksInOrder :
    (let s := onEngine (running 0x21 0x20010000 0x20034004 0 0) []
     s.hasEngine ∧ (∃ t, s.inst 1 = some t ∧ t.valid = false) ∧ ∃ t, s.inst 0 = some t ∧ t.valid = true ∧
      s.latch.a0.toNat ≠ 0 ∧ s.latch.a1.toNat ≠ 0 ∧ inWindow s.cfg ⟨s.latch.a1.toNat, 4 * t.n.toNat⟩ = false) ∧
    (let s := onEngine (running 0x23 0x20037FC4 16 0 0) []
     s.hasEngine ∧ s.latch.a0.toNat ≠ 0 ∧ s.latch.a1.toNat ∈ [16, 32, 64, 128, 256, 512, 1024, 2048, 4096] ∧
      inWindow s.cfg ⟨s.latch.a0.toNat, 4 * s.latch.a1.toNat⟩ = false) ∧
    (let s := onEngine (running 0x23 1 8 0 0) []
     s.latch.a0.toNat ≠ 0 ∧ s.latch.a1.toNat ∉ [16, 32, 64, 128, 256, 512, 1024, 2048, 4096]) ∧
    (let s := onEngine (running 0x24 1 4095 4096 1) []
     s.latch.a0.toNat ≠ 0 ∧ s.latch.a3.toNat ≠ 0 ∧ s.latch.a1.toNat ≠ s.latch.a2.toNat) ∧
    (let s := onEngine (running 0x24 0x20010001 4096 4096 0x20020000) []
     s.hasEngine ∧ s.latch.a0.toNat ≠ 0 ∧ s.latch.a3.toNat ≠ 0 ∧ s.latch.a2.toNat ∈ [4096, 8192] ∧
      s.latch.a1.toNat = s.latch.a2.toNat ∧ s.latch.a2.toNat / 2 < 2049 ∧ 2048 ≤ s.latch.a2.toNat / 2 ∧
      s.latch.a0.toNat % 2 ≠ 0) :=
  ⟨⟨onEngine_hasEngine _ _, ⟨_, rfl, by decide⟩, _, rfl, by decide, by decide, by decide, by decide⟩,
    ⟨onEngine_hasEngine _ _, by decide, by decide, by decide⟩, ⟨by decide, by decide⟩, ⟨by decide, by decide, by decide⟩,
    onEngine_hasEngine _ _, by decide, by decide, by decide, by decide, by decide, by decide, by decide⟩

/-- FFT_CFFT on 16 samples whose first byte a CPU has written since: a race. -/
def racedState : State :=
  onEngine { running 0x22 0x20010000 16 0 0 with
    latch := ⟨0x22, 0x20010000, 16, 0, 0, 0, false, [⟨true, ⟨0x20010000, 1⟩⟩]⟩ } []

theorem meets_RacedFftLeavesFreeBytes :
    ∃ f, racedState.hasEngine ∧ fftCheck racedState racedState.latch (.fftCfft false false) = some (.ok f) ∧
      ∃ u ∈ racedState.latch.touched, u.write = true ∧ u.region.overlaps f.input = true :=
  ⟨⟨⟨0x20010000, 64⟩, [⟨0x20010000, 64⟩]⟩, onEngine_hasEngine _ _, by decide, ⟨true, ⟨0x20010000, 1⟩⟩, by decide, by decide, by decide⟩

/-- The last byte of the buffer of an FFT_CFFT in flight. -/
theorem meets_CpuAccessesRace :
    ∀ e ∈ [Event.cpuLoad .C .byte 0x2001003F, .cpuStore .C .byte 0x2001003F 1], let s := next1 e racedState
      s.schedule = [e] ∧ ∃ f, s.fftRegions .P = some f ∧ s.cfg.sharedBase.toNat ≤ (0x2001003F : Word).toNat ∧
        (0x2001003F : Word).toNat + Width.byte.bytes ≤ s.cfg.windowEnd ∧
        (0x2001003F : Word).toNat < s.cfg.coreBase.toNat ∧
        ∃ r ∈ f.written, r.overlaps ⟨(0x2001003F : Word).toNat, Width.byte.bytes⟩ = true := by
  intro e h
  simp only [List.mem_cons, List.not_mem_nil, or_false] at h
  rcases h with rfl | rfl <;>
    exact ⟨by decide, ⟨⟨0x20010000, 64⟩, [⟨0x20010000, 64⟩]⟩, by decide, by decide, by decide, by decide,
      ⟨0x20010000, 64⟩, by decide, by decide⟩

/-- Port C runs a command, with buffer 0 READY, while port P's FFT_CFFT of 16 samples is in flight. -/
def besideFft (ps : PortState) (buf : Word) : State :=
  { onC ps [(0x20030000, 2)] with portP := running 0x22 buf 16 0 0, feBusy := true, feOwner := .P }

/-- The last word of the buffer for an atomic command, which adds 1 to it or swaps a 0 for a 1. -/
theorem meets_CpuAccessesRace_atomics :
    ∀ w ∈ [(0x18 : Word), 0x19, 0x1A], let s := besideFft (running w 0x2001003C 0 1 0) 0x20010000
      s.fftRegions s.active.peer = some ⟨⟨0x20010000, 64⟩, [⟨0x20010000, 64⟩]⟩ ∧ s.atomicWritable 0x2001003C ∧
        Region.overlaps ⟨0x2001003C, 4⟩ ⟨0x20010000, 64⟩ = true ∧
        (⟨true, ⟨0x2001003C, 4⟩⟩ : Touch).racesWith ⟨⟨0x20010000, 64⟩, [⟨0x20010000, 64⟩]⟩ := by
  intro w h
  simp only [List.mem_cons, List.not_mem_nil, or_false] at h
  rcases h with rfl | rfl | rfl <;>
    exact ⟨by decide, ⟨⟨by decide, by decide, by decide, by decide, by decide⟩, by decide⟩, by decide,
      .inl ⟨rfl, by decide⟩⟩

/-- The state words under the buffer of an FFT_CFFT that starts at the Control Block, and a counter under one that starts
in its middle. -/
theorem meets_CpuAccessesRace_buffers :
    (let s := besideFft (running 6 0 0 0 0) 0x20030000
     s.fftRegions s.active.peer = some ⟨⟨0x20030000, 64⟩, [⟨0x20030000, 64⟩]⟩ ∧ s.cbValid = true ∧
      s.latch.a0 = (0 : BitVec 1).zeroExtend 32 ∧ Region.overlaps ⟨s.cfg.cbBase + 0x40 * 0, 4⟩ ⟨0x20030000, 64⟩ = true) ∧
    (let s := besideFft (running 0xB0007 0 0 0 0) 0x20030080
     s.fftRegions s.active.peer = some ⟨⟨0x20030080, 64⟩, [⟨0x20030080, 64⟩]⟩ ∧ s.cbValid = true ∧
      (0, s.cfg.cbBase + 0x080, 4) ∈ statFields s.cfg ∧ (9, s.cfg.cbBase + 0x0B8, 8) ∈ statFields s.cfg ∧
      Region.overlaps ⟨s.cfg.cbBase + 0x080, 4⟩ ⟨0x20030080, 64⟩ = true ∧
      Region.overlaps ⟨s.cfg.cbBase + 0x0B8, 8⟩ ⟨0x20030080, 64⟩ = true) :=
  ⟨⟨by decide, by decide, by decide, by decide⟩, by decide, by decide, by decide, by decide, by decide, by decide⟩

/-- BM_INIT changes a byte of port P's buffer, BM_RELEASE reads a word of it, and an FFT_CFFT on port C that has the engine
reads a buffer which ends in it. -/
theorem meets_CpuAccessesRace_commands :
    (let s := besideFft (running 1 0 0 0 0) 0x20030080
     ∃ t, exec .bmInit s = .next t ∧ Accesses s .bmInit ⟨true, ⟨0x20030000, 0x8000⟩⟩ ∧
      t.mem.byte 0x2003009A ≠ s.mem.byte 0x2003009A ∧ Region.has ⟨0x20030080, 64⟩ 0x2003009A = true) ∧
    (let s := besideFft (running 5 0 0 0 0) 0x20030000
     ∃ t, exec .bmRelease s = .next t ∧ Accesses s .bmRelease ⟨false, ⟨0x20030000, 4⟩⟩ ∧
      (⟨false, ⟨0x20030000, 4⟩⟩ : Touch).racesWith ⟨⟨0x20030000, 64⟩, [⟨0x20030000, 64⟩]⟩) ∧
    (let s := { besideFft (running 0x22 0x20010000 16 0 0) 0x20010020 with feOwner := .C }
     ∃ t, exec (.fftCfft false false) s = .next t ∧ Accesses s (.fftCfft false false) ⟨false, ⟨0x20010000, 64⟩⟩ ∧
      (⟨false, ⟨0x20010000, 64⟩⟩ : Touch).racesWith ⟨⟨0x20010020, 64⟩, [⟨0x20010020, 64⟩]⟩) :=
  ⟨⟨_, rfl, .init (by decide), by decide, by decide⟩,
    ⟨_, rfl, .release 0 ⟨by decide, by decide⟩ (by decide), .inr ⟨_, List.mem_cons_self, by decide⟩⟩,
    ⟨_, rfl, .fftInput (g := ⟨⟨0x20010000, 64⟩, [⟨0x20010000, 64⟩]⟩) ⟨rfl, rfl⟩ (by decide),
      .inr ⟨_, List.mem_cons_self, by decide⟩⟩⟩

/-- The destination ends where the window ends. -/
theorem meets_RfftTransforms :
    let s := onEngine (running 0x21 0x20010000 0x20034000 0 0) []
    s.hasEngine ∧ ∃ t, s.inst 0 = some t ∧ t.valid = true ∧ SlotOk t ∧
      (let src : Region := ⟨s.latch.a0.toNat, 2 * t.n.toNat⟩
       let dst : Region := ⟨s.latch.a1.toNat, 4 * t.n.toNat⟩
       src.base ≠ 0 ∧ dst.base ≠ 0 ∧ src.base % 4 = 0 ∧ dst.base % 4 = 0 ∧ inWindow s.cfg src = true ∧
        inWindow s.cfg dst = true ∧ src.overlaps dst = false ∧ s.unraced ⟨src, [src, dst]⟩) :=
  ⟨onEngine_hasEngine _ _, _, rfl, by decide, .inr (.inl (by decide)), by decide, by decide, by decide, by decide, by decide,
    by decide, by decide, unraced_of_idle (by decide) (by decide) _⟩

theorem meets_CfftTransforms :
    ∀ m ∈ [(16 : Word), 4096], let s := onEngine (running 0x22 0x20034000 m 0 0) []
      let buf : Region := ⟨s.latch.a0.toNat, 4 * s.latch.a1.toNat⟩
      s.hasEngine ∧ s.latch.a1.toNat ∈ [16, 32, 64, 128, 256, 512, 1024, 2048, 4096] ∧ buf.base ≠ 0 ∧ buf.base % 4 = 0 ∧
        inWindow s.cfg buf = true ∧ s.unraced ⟨buf, [buf]⟩ := by
  intro m h
  simp only [List.mem_cons, List.not_mem_nil, or_false] at h
  rcases h with rfl | rfl <;>
    exact ⟨onEngine_hasEngine _ _, by decide, by decide, by decide, by decide, unraced_of_idle (by decide) (by decide) _⟩

/-- M = 16, while port C's FFT_CFFT waits whose buffer ends in the middle: sample 8, of the quiet half, moves to place 1. -/
theorem meets_BitrevPermutes :
    let s := { onEngine (running 0x23 0x20010020 16 0 0) [] with portC := running 0x22 0x20010000 16 0 0 }
    let buf : Region := ⟨s.latch.a0.toNat, 4 * s.latch.a1.toNat⟩
    s.hasEngine ∧ s.latch.a1.toNat = 2 ^ 4 ∧ buf.base ≠ 0 ∧ buf.base % 4 = 0 ∧ inWindow s.cfg buf = true ∧
      s.untouched ⟨buf, [buf]⟩ ∧ (∀ b, b < 4 → (1 : Nat).testBit b = (8 : Nat).testBit (4 - 1 - b)) ∧
      s.quietOn ⟨buf.base + 4 * 8, 4⟩ := by
  refine ⟨⟨rfl, rfl⟩, by decide, by decide, by decide, by decide, fun t ht => ?_, by decide, fun f hf w hw => ?_⟩
  · exact absurd ht (by decide +revert)
  · have e : f = ⟨⟨0x20010000, 64⟩, [⟨0x20010000, 64⟩]⟩ := Option.some.inj (hf.symm.trans (by decide))
    subst e
    obtain rfl := List.mem_singleton.mp hw
    decide

/-- The largest count, 2048 bins of 4096 samples. -/
theorem meets_TopbinsSelects :
    let s := onEngine (running 0x8000024 0x20010000 4096 4096 0x20037000) []
    let src : Region := ⟨s.latch.a0.toNat, 2 * s.latch.a2.toNat⟩
    let out : Region := ⟨s.latch.a3.toNat, 2 * 2048⟩
    s.hasEngine ∧ s.latch.a2.toNat ∈ [4096, 8192] ∧ s.latch.a1 = s.latch.a2 ∧ 2048 ≤ s.latch.a2.toNat / 2 ∧
      src.base ≠ 0 ∧ out.base ≠ 0 ∧ src.base % 2 = 0 ∧ out.base % 2 = 0 ∧ inWindow s.cfg src = true ∧
      inWindow s.cfg out = true ∧ s.unraced ⟨src, [out]⟩ :=
  ⟨onEngine_hasEngine _ _, by decide, by decide, by decide, by decide, by decide, by decide, by decide, by decide, by decide,
    unraced_of_idle (by decide) (by decide) _⟩

theorem meets_TwiddlesAreExactFloors :
    4 ∈ [4, 8, 16, 32, 64, 128, 256, 512, 1024, 2048, 4096] ∧
      4096 ∈ [4, 8, 16, 32, 64, 128, 256, 512, 1024, 2048, 4096] := by decide

theorem meets_RealCoefficientsAreRounded : 8192 ∈ [4096, 8192] ∧ 8191 < 8192 := by decide

/-- A tie at the cut: bins 1 and 3 have magnitude 25, and bin 3 is not kept. -/
theorem meets_TopBinsAreTheLargest :
    let bins : List Sample := [(99, 0), (3, 4), (0, 0), (5, 0), (0, 0)]
    1 ≤ 1 ∧ 3 ≤ 8 / 2 ∧ (∀ r ∈ topBins 8 1 bins, r.index ≠ 3) ∧
      ∃ r ∈ topBins 8 1 bins, r ≠ ⟨0, 0⟩ ∧ magSquared (bins.getD 3 (0, 0)) = r.mag := by decide

/-- The last butterfly of two blocks. -/
theorem meets_StagesPlaceButterflies :
    let x : List Sample := [(1, 0), (2, 0), (3, 0), (4, 0), (5, 0), (6, 0), (7, 0), (8, 0)]
    x.length = 2 * (4 * 1) ∧ 1 < 2 ∧ 0 < 1 ∧ QuadAt x (4 * 1 * 1 + 0) 1 ⟨(5, 0), (6, 0), (7, 0), (8, 0)⟩ :=
  ⟨rfl, by decide, by decide, rfl, rfl, rfl, rfl⟩

/-- A power of 4 and twice one. -/
theorem meets_TransformsFollowTheRules :
    ∀ M ∈ [16, 2048], M ∈ Config.cfftSizes ∧ (List.replicate M ((1, 2) : Sample)).length = M := by
  intro M h
  refine ⟨?_, List.length_replicate⟩
  simp only [List.mem_cons, List.not_mem_nil, or_false] at h
  rcases h with rfl | rfl <;> decide

theorem meets_TransformsStayInRange :
    (List.replicate 16 (32767, -32768) : List Sample).length = 16 ∧ 16 ∈ Config.cfftSizes ∧
      ∀ z ∈ (List.replicate 16 (32767, -32768) : List Sample), IsQ15Sample z :=
  ⟨by decide, by decide, fun z hz => by
    rw [List.eq_of_mem_replicate hz]
    exact ⟨⟨by decide, by decide⟩, by decide, by decide⟩⟩

theorem meets_SplitBinsAreConjugate :
    let z : List Sample := List.replicate (4096 / 2) (1, 2)
    z.length = 4096 / 2 ∧ z[0]? = some (1, 2) ∧ z[2047]? = some (1, 2) ∧ z[4096 / 2 - 2047]? = some (1, 2) := by
  refine ⟨List.length_replicate, ?_, ?_, ?_⟩ <;> exact List.getElem?_replicate_of_lt (by omega)

theorem meets_BitReversalIsInvolution : ([(1, 0), (2, 0)] : List Sample).length = 2 ^ 1 := by decide

/-- The same command again, on the memory that the first one left. -/
theorem meets_BitrevTwiceRestoresMemory :
    ∃ s t u w : State, let m := s.latch.a1.toNat
      let buf : Region := ⟨s.latch.a0.toNat, 4 * m⟩
      s.hasEngine ∧ m ∈ Config.cfftSizes ∧ buf.base ≠ 0 ∧ buf.base % 4 = 0 ∧ inWindow s.cfg buf = true ∧
        s.unraced ⟨buf, [buf]⟩ ∧ exec .fftBitrev s = .next t ∧ u.hasEngine ∧ u.cfg = s.cfg ∧
        u.latch.a0 = s.latch.a0 ∧ u.latch.a1 = s.latch.a1 ∧ u.mem = t.mem ∧ u.unraced ⟨buf, [buf]⟩ ∧
        exec .fftBitrev u = .next w := by
  refine ⟨onEngine (running 0x23 0x20010000 16 0 0) [], _, onEngine (running 0x23 0x20010000 16 0 0) _, _,
    onEngine_hasEngine _ _, by decide, by decide, by decide, by decide, unraced_of_idle rfl rfl _, rfl, onEngine_hasEngine _ _, rfl, rfl, rfl,
    rfl, unraced_of_idle rfl rfl _, rfl⟩

theorem meets_ConstantInputHasNoBins : IsQ15 (-32768) ∧ IsQ15 32767 := ⟨⟨by decide, by decide⟩, by decide, by decide⟩

/-- A step that stores: BM_INIT is next. -/
def initNext : State := next1 (.command .C) { onC (running 1 0 0 0 0) [] with schedule := [] }

theorem meets_StepKeepsMemory : ∃ t, initNext.cfg.wf = true ∧ initNext.memoryOk ∧ step initNext = .next t :=
  ⟨_, by decide, ⟨by decide, fun c h => by simp [initNext, next1, onC, State.powerUp] at h⟩, rfl⟩

theorem meets_StepKeepsControl : ∃ t, initNext.ControlOk ∧ step initNext = .next t := by
  refine ⟨_, ⟨fun p => ?_, fun k t h => ?_, fun h => ?_, fun h => ?_⟩, rfl⟩
  · cases p <;> exact ⟨by decide, by decide, by decide⟩
  · match k, h with
    | 0, h => exact .inl (by simpa [State.inst, initNext, next1, onC, State.powerUp] using h.symm)
    | 1, h => exact .inl (by simpa [State.inst, initNext, next1, onC, State.powerUp] using h.symm)
    | 2, h => exact .inl (by simpa [State.inst, initNext, next1, onC, State.powerUp] using h.symm)
    | 3, h => exact .inl (by simpa [State.inst, initNext, next1, onC, State.powerUp] using h.symm)
    | k + 4, h => simp [State.inst] at h
  · exact absurd h (by decide)
  · exact absurd h (by decide)

/-- BM_COMMIT of a buffer that is WRITING is next. -/
def commitNext : State := next1 (.command .P) (onP (running 3 0 0 0 0) [(0x20030000, 1)])

theorem meets_StepKeepsCounters :
    ∃ t, commitNext.cfg.wf = true ∧ commitNext.fieldsQuiet ∧
      (∀ e, commitNext.nextEvent = some e → ¬ e.storesInto (definedFields commitNext.cfg)) ∧
      commitNext.countersAgree 0 ∧ step commitNext = .next t := by
  refine ⟨_, by decide, fieldsQuiet_of_idle (fun p => by cases p <;> decide), fun e h => ?_, ⟨by decide, by decide⟩, rfl⟩
  obtain rfl : Event.command .P = e := by simpa [State.nextEvent, commitNext, next1] using h
  exact id

theorem meets_BmInitMakesCountersAgree :
    ∃ t, (onC (running 1 0 0 0 0) []).cfg.wf = true ∧ (onC (running 1 0 0 0 0) []).active = .C ∧
      exec .bmInit (onC (running 1 0 0 0 0) []) = .next t := ⟨_, by decide, by decide, rfl⟩

/-- An edge is taken: from WRITING to READY. -/
theorem meets_StateWordsMoveByEdges :
    ∃ t, (onP (running 3 0 0 0 0) [(0x20030000, 1)]).quietOn (definedFields Config.default) ∧
      fftCheck (onP (running 3 0 0 0 0) [(0x20030000, 1)]) (running 3 0 0 0 0).latch .bmCommit = none ∧
      exec .bmCommit (onP (running 3 0 0 0 0) [(0x20030000, 1)]) = .next t :=
  ⟨_, quietOn_of_idle (by decide) _, by decide, rfl⟩

theorem meets_CommandsWriteOnlyTheirOwn :
    ∃ t, exec .ntNotifyC (onP (running 0x10 0 0 0 0) []) = .next t ∧ (t.port .C).db = true := ⟨_, rfl, by decide⟩

theorem meets_FailedCommandsHaveNoEffect :
    ∃ t, (onP (running 3 2 0 0 0) []).act.busy = true ∧ exec .bmCommit (onP (running 3 2 0 0 0) []) = .next t ∧
      t.act.busy = false ∧ t.act.code ≠ .ok ∧ t.act.code ≠ .timeout := ⟨_, by decide, rfl, by decide, by decide, by decide⟩

/-- Port P waits for the engine while port C rings. -/
theorem meets_InFlightCommandIsFixed :
    let s := next1 (.command .C) { onP (running 2 5 0 0 0) [] with portC := running 0x11 0 0 0 0 }
    ∃ t, step s = .next t ∧ (s.port .P).busy = true ∧ (t.port .P).busy = true := ⟨_, rfl, by decide, by decide⟩

theorem meets_OverrunIsCountedOnce :
    let s := onP (running 2 5 0 0 0) [(0x20030000, 2), (0x20030040, 3)]
    ∃ t, s.cfg.wf = true ∧ s.quietOn (definedFields s.cfg) ∧ exec .bmAcqw s = .next t ∧
      t.overrunCount ≠ s.overrunCount :=
  ⟨_, by decide, quietOn_of_idle (by decide) _, rfl, by decide⟩

end Sys2Proof.Tests
end

section
/-! ## Decoding, the encoder and the rows (`30_encoding.md` R120 to R127, R131) -/

namespace Sys2Proof

theorem flagsField_eq (w : Word) : flagsField w = w.toNat / 2 ^ 8 % 2 ^ 8 := by
  simp [flagsField, BitVec.extractLsb'_toNat, Nat.shiftRight_eq_div_pow]

theorem imm16Field_fits (w : Word) : fitsImm16 (imm16Field w) = true :=
  decide_eq_true (w.extractLsb' 16 16).isLt

/-- The three fields of R120 are the whole word. -/
theorem assemble_fields (w : Word) : assemble (imm16Field w) (flagsField w) (opcodeField w) = w := by
  unfold assemble imm16Field flagsField opcodeField
  simp only [BitVec.ofNat_toNat, BitVec.setWidth_eq]
  rw [BitVec.extractLsb'_append_extractLsb'_eq_extractLsb' (rfl : 16 = 8 + 8),
    BitVec.extractLsb'_append_extractLsb'_eq_extractLsb' (rfl : 8 = 0 + 8)]
  exact BitVec.extractLsb'_eq_self

/-- A word whose fields have these values is put together from them. -/
theorem assemble_eq {w : Word} {imm flags op : Nat} (hm : imm16Field w = imm) (hf : flagsField w = flags)
    (hop : opcodeField w = op) : assemble imm flags op = w := by
  rw [← hm, ← hf, ← hop, assemble_fields]

/-- Where no bit of FLAGS but INV and BR is set, FLAGS is what the encoder makes of these two (R122). -/
theorem flagsField_eq_of_lt {w : Word} (h : flagsField w < 4) :
    flagsField w = (w.getLsbD 8).toNat + 2 * (w.getLsbD 9).toNat := by
  rw [flagsField_eq] at h ⊢
  simp only [BitVec.getLsbD, Nat.toNat_testBit]
  omega

/-! ### When each shape of command decodes -/

theorem decodeNoFlags_eq_ok_iff {w : Word} {i j : Instr} :
    decodeNoFlags w i = .ok j ↔ flagsField w = 0 ∧ i = j := by
  unfold decodeNoFlags
  split <;> simp [*]

theorem decodeNoImm_eq_ok_iff {w : Word} {i j : Instr} :
    decodeNoImm w i = .ok j ↔ imm16Field w = 0 ∧ i = j := by
  unfold decodeNoImm
  split <;> simp [*]

theorem decodePlain_eq_ok_iff {w : Word} {i j : Instr} :
    decodePlain w i = .ok j ↔ flagsField w = 0 ∧ imm16Field w = 0 ∧ i = j := by
  unfold decodePlain
  cases h : decodeNoFlags w i with
  | ok k =>
    obtain ⟨hf, rfl⟩ := decodeNoFlags_eq_ok_iff.mp h
    simp [decodeNoImm_eq_ok_iff, hf]
  | error e =>
    have hf : flagsField w ≠ 0 := fun hf => by simp [decodeNoFlags_eq_ok_iff.mpr ⟨hf, rfl⟩] at h
    simp [hf]

theorem decodeCfft_eq_ok_iff {w : Word} {j : Instr} :
    decodeCfft w = .ok j ↔
      flagsField w < 4 ∧ imm16Field w = 0 ∧ .fftCfft (w.getLsbD 8) (w.getLsbD 9) = j := by
  unfold decodeCfft
  split <;> simp [decodeNoImm_eq_ok_iff, *]

/-! ### A word that decodes is the word of its command -/

/-- `w` is the command word of the well-formed command `i`. -/
def IsWordOf (w : Word) (i : Instr) : Prop := i.wellFormed = true ∧ encode i = w

theorem IsWordOf.of_decodePlain {w : Word} {i j : Instr} {op : Nat} (h : decodePlain w i = .ok j)
    (hop : opcodeField w = op) (hi : i.wellFormed = true) (he : encode i = assemble 0 0 op) : IsWordOf w j := by
  obtain ⟨hf, hm, rfl⟩ := decodePlain_eq_ok_iff.mp h
  exact ⟨hi, he.trans (assemble_eq hm hf hop)⟩

theorem IsWordOf.of_decodeNoFlags {w : Word} {i j : Instr} {op : Nat} (h : decodeNoFlags w i = .ok j)
    (hop : opcodeField w = op) (hi : i.wellFormed = true) (he : encode i = assemble (imm16Field w) 0 op) :
    IsWordOf w j := by
  obtain ⟨hf, rfl⟩ := decodeNoFlags_eq_ok_iff.mp h
  exact ⟨hi, he.trans (assemble_eq rfl hf hop)⟩

theorem IsWordOf.of_decodeCfft {w : Word} {j : Instr} (h : decodeCfft w = .ok j) (hop : opcodeField w = 0x22) :
    IsWordOf w j := by
  obtain ⟨hf, hm, rfl⟩ := decodeCfft_eq_ok_iff.mp h
  exact ⟨rfl, assemble_eq hm (flagsField_eq_of_lt hf) hop⟩

/-- A word that decodes is the word of the command it decodes to (R125, R126). The cases are the decoder's: first the four
commands with an IMM16 (0x07, 0x20, 0x21, 0x24), FFT_CFFT (0x22) and the reserved OPCODEs, then those of only an OPCODE. -/
theorem isWordOf_of_decodeWord {w : Word} {i : Instr} (h : decodeWord w = .ok i) : IsWordOf w i := by
  unfold decodeWord at h
  split at h
  case h_8 hop | h_15 hop | h_16 hop | h_19 hop => exact .of_decodeNoFlags h hop (imm16Field_fits w) rfl
  case h_17 hop => exact .of_decodeCfft h hop
  case h_20 => cases h
  all_goals exact .of_decodePlain h ‹opcodeField w = _› rfl rfl

/-! ### The rows of R125 -/

/-- Every well-formed command encodes into a row (R125): `Laws/PerInstr.lean` for all commands at once. -/
theorem encodesInRow (i : Instr) : Laws.EncodesInRow.Statement i := by
  cases i with
  | nop => exact Laws.EncodesInRow.nop
  | bmInit => exact Laws.EncodesInRow.bmInit
  | bmAcqw => exact Laws.EncodesInRow.bmAcqw
  | bmCommit => exact Laws.EncodesInRow.bmCommit
  | bmAcqr => exact Laws.EncodesInRow.bmAcqr
  | bmRelease => exact Laws.EncodesInRow.bmRelease
  | bmState => exact Laws.EncodesInRow.bmState
  | bmStats selector => exact Laws.EncodesInRow.bmStats selector
  | ntNotifyC => exact Laws.EncodesInRow.ntNotifyC
  | ntNotifyP => exact Laws.EncodesInRow.ntNotifyP
  | atLoad => exact Laws.EncodesInRow.atLoad
  | atCas => exact Laws.EncodesInRow.atCas
  | atFadd => exact Laws.EncodesInRow.atFadd
  | fence => exact Laws.EncodesInRow.fence
  | fftRinit slot => exact Laws.EncodesInRow.fftRinit slot
  | fftRfft slot => exact Laws.EncodesInRow.fftRfft slot
  | fftCfft inv br => exact Laws.EncodesInRow.fftCfft inv br
  | fftBitrev => exact Laws.EncodesInRow.fftBitrev
  | fftTopbins k => exact Laws.EncodesInRow.fftTopbins k

/-- A word that decodes is selected by a row. -/
theorem selected_of_decodeWord {w : Word} {i : Instr} (h : decodeWord w = .ok i) :
    ∃ r ∈ encodingRows, r.selects w = true := by
  obtain ⟨hi, he⟩ := isWordOf_of_decodeWord h
  exact he ▸ List.any_eq_true.mp (encodesInRow i hi)

/-- A word that no row selects is illegal (R127). -/
theorem decodeWord_error_of_unselected {w : Word} (h : ∀ r ∈ encodingRows, r.selects w = false) :
    ∃ e, decodeWord w = .error e := by
  cases hd : decodeWord w with
  | ok i =>
    obtain ⟨r, hr, hs⟩ := selected_of_decodeWord hd
    simp [h r hr] at hs
  | error e => exact ⟨e, rfl⟩

/-- Settles O3 by evaluating the decoder on each word of R131. -/
theorem workedEncodings : Obligations.WorkedEncodings := by
  refine ⟨?acqw, ?stats, ?cfftBr, ?cfftInvBr, ?cfftInv, ?cfft, ?rinit, ?topbins, ?reserved, ?flagOfAcqw, ?flagOfCfft⟩ <;>
    decide

end Sys2Proof

namespace Sys2Proof.Machine

/-! ## The end of an illegal word (`30_encoding.md` R127) -/

/-- Ending a command is all that `State.finish` does. -/
theorem EndsOnly.finish (s : State) (c : Code) : EndsOnly c s (s.finish c) where
  ended := .finish s c
  rest := (Undisturbed.refl s).finish c
  doorbells := (SameDoorbells.refl s).finish c
  buffers := by simp [SameBuffers]
  results := by simp [SameResults]
  memory := by simp [SameMemory]
  peer := samePeer_finish s c

theorem runCommand_of_illegal {s : State} {p : Port} {e : DecodeError} (hr : s.inReset = false)
    (hb : (s.port p).busy = true) (he : decodeWord (s.port p).latch.word = .error e) :
    runCommand p s = .next ((s.setActive p).finish .illegal) := by
  simp [runCommand, hr, hb, he]

/-- Counting the step commutes with ending the command. -/
theorem ticked_finish_setActive (s : State) (p : Port) (c : Code) :
    ((s.setActive p).finish c).ticked = (s.ticked.setActive p).finish c := by cases p <;> rfl

/-- A scheduled step of a port whose accepted word no row selects. -/
theorem step_of_illegal {s : State} {p : Port} {rest : List Event} (hs : s.schedule = .command p :: rest)
    (hr : s.inReset = false) (hb : (s.port p).busy = true)
    (hw : ∀ r ∈ encodingRows, r.selects (s.port p).latch.word = false) :
    step s = .next (((s.passed rest).setActive p).finish .illegal) := by
  obtain ⟨e, he⟩ := decodeWord_error_of_unselected hw
  have hrun : runCommand p (s.setSchedule rest) = .next (((s.setSchedule rest).setActive p).finish .illegal) :=
    runCommand_of_illegal (by simpa using hr) (by simpa using hb) (by simpa using he)
  rw [step_of_schedule hs, perform, hrun, countStep, ticked_finish_setActive, State.passed]

/-- Settles O5: a word outside every row does not decode (R125, R127), and the step of a port whose word does not decode
only ends the command. -/
theorem illegalWordEnds : Obligations.IllegalWordEnds :=
  fun _ _ _ hs hr hb hw => ⟨_, step_of_illegal hs hr hb hw, .finish _ _⟩

end Sys2Proof.Machine
end

section
/-! ## The buffer manager's checks (`40_buffer_manager.md` R150, R159, R163, R164) -/

namespace Sys2Proof.Machine

/-! ### The common checks -/

theorem bmCheck_of_invalid {s : State} (h : s.cbValid = false) (role : Option Port) :
    s.bmCheck role = some .init := by simp [State.bmCheck, h]

theorem bmCheck_of_wrongPort {s : State} {p : Port} (hv : s.cbValid = true) (ha : s.active ≠ p) :
    s.bmCheck (some p) = some .wrongState := by simp [State.bmCheck, hv, ha]

theorem bmCheck_of_port {s : State} {p : Port} (hv : s.cbValid = true) (ha : s.active = p) :
    s.bmCheck (some p) = none := by simp [State.bmCheck, hv, ha]

theorem bmCheck_of_anyPort {s : State} (hv : s.cbValid = true) : s.bmCheck none = none := by
  simp [State.bmCheck, hv]

/-- The BM commands that the common checks stand before, each with the port it belongs to, if it belongs to one (R150).
BM_INIT has a check of its own. -/
inductive BmRole : Instr → Option Port → Prop where
  | acqw : BmRole .bmAcqw (some .P)
  | commit : BmRole .bmCommit (some .P)
  | acqr : BmRole .bmAcqr (some .C)
  | release : BmRole .bmRelease (some .C)
  | state : BmRole .bmState none
  | stats (k : Nat) : BmRole (.bmStats k) none

/-- A common check that fails ends the command there and then, whatever its operands. -/
theorem BmRole.justEnds {i : Instr} {role : Option Port} {s : State} {c : Code} (hi : BmRole i role)
    (hc : s.bmCheck role = some c) : JustEnds i s c := by
  refine .of_finish ?_
  cases hi with
  | acqw => simp [exec, execBmAcqw, hc]
  | commit => simp [exec, execBmCommit, hc]
  | acqr => simp [exec, execBmAcqr, hc]
  | release => simp [exec, execBmRelease, hc]
  | state => simp [exec, execBmState, hc]
  | stats k => simp [exec, execBmStats, hc]

theorem BmRole.justEnds_init {i : Instr} {role : Option Port} {s : State} (hi : BmRole i role)
    (hv : s.cbValid = false) : JustEnds i s .init := hi.justEnds (bmCheck_of_invalid hv role)

theorem BmRole.justEnds_wrongPort {i : Instr} {p : Port} {s : State} (hi : BmRole i (some p))
    (hv : s.cbValid = true) (ha : s.active ≠ p) : JustEnds i s .wrongState := hi.justEnds (bmCheck_of_wrongPort hv ha)

/-! ### The id operand -/

theorem bufferId_of_gt {a : Word} (h : 1 < a.toNat) : bufferId a = none := by simp [bufferId, h]

theorem bufferId_zeroExtend (i : BitVec 1) : bufferId (i.zeroExtend 32) = some i := by
  obtain rfl | rfl := BitVec.eq_zero_or_eq_one i <;> rfl

/-! ### The commands with an id operand, past the common checks -/

theorem exec_bmCommit_of_badId {s : State} (hv : s.cbValid = true) (ha : s.active = .P)
    (hid : bufferId s.latch.a0 = none) : exec .bmCommit s = .next (s.finish .invalid) := by
  simp [exec, execBmCommit, bmCheck_of_port hv ha, hid]

theorem exec_bmRelease_of_badId {s : State} (hv : s.cbValid = true) (ha : s.active = .C)
    (hid : bufferId s.latch.a0 = none) : exec .bmRelease s = .next (s.finish .invalid) := by
  simp [exec, execBmRelease, bmCheck_of_port hv ha, hid]

theorem exec_bmState_of_badId {s : State} (hv : s.cbValid = true) (hid : bufferId s.latch.a0 = none) :
    exec .bmState s = .next (s.finish .invalid) := by
  simp [exec, execBmState, bmCheck_of_anyPort hv, hid]

theorem exec_bmCommit_of_id {s : State} {i : BitVec 1} (hv : s.cbValid = true) (ha : s.active = .P)
    (hid : bufferId s.latch.a0 = some i) :
    exec .bmCommit s = .next
      (s.handOff (stateAddr s.cfg i) (writeCountAddr s.cfg i) (lastWriteAddr s.cfg i) stWriting stReady .C) := by
  simp [exec, execBmCommit, bmCheck_of_port hv ha, hid]

theorem exec_bmRelease_of_id {s : State} {i : BitVec 1} (hv : s.cbValid = true) (ha : s.active = .C)
    (hid : bufferId s.latch.a0 = some i) :
    exec .bmRelease s = .next
      (s.handOff (stateAddr s.cfg i) (readCountAddr s.cfg i) (lastReadAddr s.cfg i) stReading stIdle .P) := by
  simp [exec, execBmRelease, bmCheck_of_port hv ha, hid]

theorem exec_bmInit_of_wrongPort {s : State} (ha : s.active = .P) :
    exec .bmInit s = .next (s.finish .wrongState) := by simp [exec, execBmInit, ha]

/-! ### A hand-off that finds another state word -/

/-- Where no FFT command writes the state word, a read of it returns it. -/
theorem peek32_stateAddr {s : State} {i : BitVec 1} (hq : s.quietOn ⟨stateAddr s.cfg i, 4⟩) :
    s.peek32 (stateAddr s.cfg i) = s.bufferState i := hq.peek32

/-- Ending after operations that left memory as it was is all that is seen of the command. -/
theorem EndsAfterReads.finish {s t : State} (h : MemoryOp s t) (hm : t.mem = s.mem) (c : Code) :
    EndsAfterReads c s (t.finish c) where
  ended := .finish t c
  rest := h.undisturbed.finish c
  doorbells := h.sameDoorbells.finish c
  buffers := by simp [SameBuffers, h.lastUsed, h.cbValid]
  results := by simp [SameResults, h.act]
  memory := by simp [SameMemory, hm]

theorem handOff_endsAfterReads {s : State} {st : Nat} {held : Word} (h : s.peek32 st ≠ held)
    (counter stamp : Nat) (given : Word) (p : Port) :
    EndsAfterReads .wrongState s (s.handOff st counter stamp held given p) := by
  rw [State.handOff, if_neg h]
  exact .finish (.noteRead s st 4) (by simp) _

/-- Settles O23: the checks stand one after the other, and each that fails ends the command. -/
theorem bmChecksInOrder : Obligations.BmChecksInOrder := by
  intro s
  refine ⟨fun ha => .of_finish (exec_bmInit_of_wrongPort ha), fun hv => ?notInitialised,
    fun hv => ⟨fun ha => ?onC, fun ha => ?onP, fun hid => ?badId, fun i hid hq => ?badState⟩⟩
  case notInitialised =>
    exact ⟨BmRole.acqw.justEnds_init hv, BmRole.commit.justEnds_init hv, BmRole.acqr.justEnds_init hv,
      BmRole.release.justEnds_init hv, BmRole.state.justEnds_init hv, fun k => (BmRole.stats k).justEnds_init hv⟩
  case onC =>
    have hP : s.active ≠ .P := by simp [ha]
    exact ⟨BmRole.acqw.justEnds_wrongPort hv hP, BmRole.commit.justEnds_wrongPort hv hP⟩
  case onP =>
    have hC : s.active ≠ .C := by simp [ha]
    exact ⟨BmRole.acqr.justEnds_wrongPort hv hC, BmRole.release.justEnds_wrongPort hv hC⟩
  case badId =>
    have hno := bufferId_of_gt hid
    exact ⟨fun ha => .of_finish (exec_bmCommit_of_badId hv ha hno),
      fun ha => .of_finish (exec_bmRelease_of_badId hv ha hno), .of_finish (exec_bmState_of_badId hv hno)⟩
  case badState =>
    have hi : bufferId s.latch.a0 = some i := hid ▸ bufferId_zeroExtend i
    rw [← peek32_stateAddr hq]
    exact ⟨fun ha hne => ⟨_, exec_bmCommit_of_id hv ha hi, handOff_endsAfterReads hne _ _ _ _⟩,
      fun ha hne => ⟨_, exec_bmRelease_of_id hv ha hi, handOff_endsAfterReads hne _ _ _ _⟩⟩

/-! ## Granting a buffer (`40_buffer_manager.md` R153, R155, R160) -/

section Grant

variable {s u : State} {i : BitVec 1} {free : Word}

/-- A grant stores the new state word where it finds the one that it expects. -/
theorem mem_grant (hf : u.peek32 (stateAddr u.cfg i) = free) (taken : Word) :
    (u.grant i free taken).mem = u.mem.write (stateAddr u.cfg i) (wordBytes taken) := by
  simp [State.grant, hf]

theorem bufferState_grant (hf : u.peek32 (stateAddr u.cfg i) = free) (taken : Word) :
    (u.grant i free taken).bufferState i = taken := by
  have hc : (u.grant i free taken).cfg = u.cfg := by simp [State.grant]
  rw [State.bufferState, mem_grant hf, hc]
  exact Memory.word_write_same u.mem (stateAddr u.cfg i) taken

theorem handleOf_grant (u : State) (i : BitVec 1) (free taken : Word) : HandleOf (u.grant i free taken) i := by
  have hi : i.toNat < 4294967296 := by omega
  simp [HandleOf, State.grant, bodyAddr, stateAddr, Config.cbBase, hi]

theorem sameBuffers_grant (h : MemoryOp s u) (i : BitVec 1) (free taken : Word) :
    SameBuffers s (u.grant i free taken) := by
  simp [SameBuffers, State.grant, h.lastUsed, h.cbValid]

theorem sameDoorbells_grant (h : MemoryOp s u) (i : BitVec 1) (free taken : Word) :
    SameDoorbells s (u.grant i free taken) :=
  ((h.trans (.cas32 u _ free taken)).sameDoorbells.writeHandle i).finish .ok

theorem sameMemoryOutside_grant (h : MemoryOp s u) (hm : u.mem = s.mem)
    (hf : u.peek32 (stateAddr u.cfg i) = free) (taken : Word) :
    SameMemoryOutside [⟨stateAddr s.cfg i, 4⟩] s (u.grant i free taken) := by
  intro x hx
  rw [mem_grant hf, hm, h.cfg]
  exact byte_write_of_not_has (by simpa using hx)

end Grant

/-! ## The buffer that BM_ACQR takes (`40_buffer_manager.md` R160, R161) -/

@[simp] theorem mem_noteScan (s : State) : s.noteScan.mem = s.mem := by simp [State.noteScan]

@[simp] theorem mem_noteStamps (s : State) : s.noteStamps.mem = s.mem := by
  unfold State.noteStamps
  dsimp only
  split <;> split <;> simp

/-- A state word lies in the defined fields. -/
theorem State.quietOn.stateWord {s : State} (h : s.quietOn (definedFields s.cfg)) (i : BitVec 1) :
    s.quietOn ⟨stateAddr s.cfg i, 4⟩ :=
  h.sub (by simp [definedFields, stateAddr]) (by simp only [definedFields, stateAddr]; omega)

/-- A write timestamp lies in the defined fields. -/
theorem State.quietOn.writeStamp {s : State} (h : s.quietOn (definedFields s.cfg)) (i : BitVec 1) :
    s.quietOn ⟨lastWriteAddr s.cfg i, 8⟩ :=
  h.sub (by simp only [definedFields, lastWriteAddr]; omega)
    (by simp only [definedFields, lastWriteAddr]; omega)

theorem peek64_lastWriteAddr {s : State} {i : BitVec 1} (hq : s.quietOn ⟨lastWriteAddr s.cfg i, 8⟩) :
    s.peek64 (lastWriteAddr s.cfg i) = s.lastWriteTs i := hq.peek64

/-- Without a race BM_ACQR chooses as R161 says: by cases on the buffer and on whether the other one is READY too. -/
theorem readyBuffer_eq_some {s : State} {i : BitVec 1} (hq : s.quietOn (definedFields s.cfg))
    (hready : s.bufferState i = stReady)
    (hother : s.bufferState (i + 1) ≠ stReady ∨ (s.lastWriteTs i).toNat < (s.lastWriteTs (i + 1)).toNat ∨
      s.lastWriteTs i = s.lastWriteTs (i + 1) ∧ i = 0) : s.readyBuffer = some i := by
  simp only [State.readyBuffer, peek32_stateAddr (hq.stateWord _), peek64_lastWriteAddr (hq.writeStamp _)]
  obtain rfl | rfl : i = 0 ∨ i = 1 := BitVec.eq_zero_or_eq_one i
  case inl =>
    rw [show (0 : BitVec 1) + 1 = 1 from rfl] at hother
    by_cases h1 : s.bufferState 1 = stReady
    · have hnot : ¬ (s.lastWriteTs 1).toNat < (s.lastWriteTs 0).toNat := by
        obtain hne | hlt | ⟨heq, _⟩ := hother
        · exact absurd h1 hne
        · exact hlt.asymm
        · exact (congrArg BitVec.toNat heq).not_gt
      simp only [hready, h1, hnot, beq_self_eq_true, decide_false, Bool.false_eq_true, if_false]
    · simp only [hready, beq_self_eq_true, beq_false_of_ne h1]
  case inr =>
    rw [show (1 : BitVec 1) + 1 = 0 from rfl] at hother
    by_cases h0 : s.bufferState 0 = stReady
    · have holder : (s.lastWriteTs 1).toNat < (s.lastWriteTs 0).toNat := by
        obtain hne | hlt | ⟨_, h10⟩ := hother
        · exact absurd h0 hne
        · exact hlt
        · exact absurd h10 (by decide)
      simp only [hready, h0, holder, beq_self_eq_true, decide_true, if_true]
    · simp only [hready, beq_self_eq_true, beq_false_of_ne h0]

theorem exec_bmAcqr_of_ready {s : State} {i : BitVec 1} (hv : s.cbValid = true) (ha : s.active = .C)
    (h : s.readyBuffer = some i) :
    exec .bmAcqr s = .next (s.noteStamps.noteScan.grant i stReady stReading) := by
  simp [exec, execBmAcqr, bmCheck_of_port hv ha, State.acqrAttempt, h]

/-- Settles O27: the attempt chooses buffer `i` and grants it, from a state in which the scan has only been recorded. -/
theorem acqrTakesOldestReady : Obligations.AcqrTakesOldestReady := by
  intro s i hv ha hq hready hother
  have hop : MemoryOp s s.noteStamps.noteScan := (MemoryOp.noteStamps s).trans (.noteScan _)
  have hmem : s.noteStamps.noteScan.mem = s.mem := by simp
  have hpeek : s.noteStamps.noteScan.peek32 (stateAddr s.noteStamps.noteScan.cfg i) = stReady := by
    rw [hop.peek32 fun x _ _ => by rw [hmem], hop.cfg, peek32_stateAddr (hq.stateWord i), hready]
  obtain ⟨hrest, hend⟩ := grant_frame hop i stReady stReading
  exact ⟨_, exec_bmAcqr_of_ready hv ha (readyBuffer_eq_some hq hready hother), hend, hrest,
    sameBuffers_grant hop i stReady stReading, handleOf_grant _ i stReady stReading, bufferState_grant hpeek stReading,
    sameMemoryOutside_grant hop hmem hpeek stReading, sameDoorbells_grant hop i stReady stReading⟩

end Sys2Proof.Machine
end

section
/-! ## The checks of the atomic commands (`41_notifier_atomics.md` R207) -/

namespace Sys2Proof.Machine

/-- A word overlaps the defined fields exactly when it starts before their end and ends after their start. -/
theorem word_overlaps_definedFields_iff (c : Config) (a : Nat) :
    Region.overlaps ⟨a, 4⟩ (definedFields c) = true ↔ c.cbBase < a + 4 ∧ a < c.cbBase + 0x0C4 := by
  simp only [Region.overlaps, definedFields, decide_eq_true_eq, lt_min_iff, max_lt_iff]
  omega

/-- Which operands the checks of R207 refuse: null, alignment and window for every atomic command, and the protected
range for one that may write. -/
theorem atomicRefused_iff (c : Config) (writes : Bool) (a : Nat) :
    atomicRefused c writes a = true ↔
      (a = 0 ∨ a % 4 ≠ 0 ∨ a < c.sharedBase.toNat ∨ c.windowEnd < a + 4) ∨
        (writes = true ∧ c.cbBase < a + 4 ∧ a < c.cbBase + 0x0C4) := by
  simp only [atomicRefused, Bool.or_eq_true, Bool.and_eq_true, word_overlaps_definedFields_iff, aligned, inWindow,
    Bool.not_eq_true', Bool.and_eq_false_iff, decide_eq_true_eq, decide_eq_false_iff_not, not_le, or_assoc]

/-- The atomic commands, each with whether it may write. -/
inductive AtomicRole : Instr → Bool → Prop where
  | load : AtomicRole .atLoad false
  | cas : AtomicRole .atCas true
  | fadd : AtomicRole .atFadd true

/-- A check that refuses the operand ends the command there and then. -/
theorem AtomicRole.justEnds {i : Instr} {writes : Bool} {s : State} (hi : AtomicRole i writes)
    (hr : atomicRefused s.cfg writes s.latch.a0.toNat = true) : JustEnds i s .invalid := by
  refine .of_finish ?_
  cases hi with
  | load => simp [exec, execAtLoad, hr]
  | cas => simp [exec, execAtCas, hr]
  | fadd => simp [exec, execAtFadd, hr]

/-- Settles O21: each clause names operands that the checks refuse. -/
theorem atomicRefusals : Obligations.AtomicRefusals := by
  intro s
  refine ⟨fun hbad => ?badAddress, fun hend hstart => ?protectedWord⟩
  case badAddress =>
    have refused (writes : Bool) : atomicRefused s.cfg writes s.latch.a0.toNat = true :=
      (atomicRefused_iff ..).mpr (.inl hbad)
    exact ⟨AtomicRole.load.justEnds (refused _), AtomicRole.cas.justEnds (refused _),
      AtomicRole.fadd.justEnds (refused _)⟩
  case protectedWord =>
    have refused : atomicRefused s.cfg true s.latch.a0.toNat = true :=
      (atomicRefused_iff ..).mpr (.inr ⟨rfl, hend, hstart⟩)
    exact ⟨AtomicRole.cas.justEnds refused, AtomicRole.fadd.justEnds refused⟩

end Sys2Proof.Machine
end

section
/-! ## The tables on the whole circle (`42_fft_arith.md` R238, R240) -/

namespace Sys2Proof.Machine

/-! ### The sine at a table index -/

/-- An index of a table of `L` entries to the circle is `8192 / L` table steps. -/
theorem tableStep_mul {L : Nat} (hL : L ∣ 8192) (k : Nat) :
    ((k * (8192 / L) : ℕ) : ℝ) * tableStep = 2 * Real.pi * k / L := by
  have hne : (L : ℝ) ≠ 0 := by
    rintro h
    simp [Nat.cast_eq_zero.mp h] at hL
  rw [Nat.cast_mul, Nat.cast_div hL hne, tableStep]
  push_cast
  field_simp

/-- A quarter circle on, the sine is the cosine. -/
theorem sin_tableStep_add_quarter (i : Nat) : Real.sin ((i + 2048 : ℕ) * tableStep) = Real.cos (i * tableStep) := by
  rw [← Real.sin_add_pi_div_two, tableStep]
  push_cast
  ring_nf

theorem sin_tableStep_add_half (i : Nat) : Real.sin ((i + 4096 : ℕ) * tableStep) = -Real.sin (i * tableStep) := by
  rw [← Real.sin_add_pi, tableStep]
  push_cast
  ring_nf

theorem sin_tableStep_add_circles (i m : Nat) :
    Real.sin ((i + m * 8192 : ℕ) * tableStep) = Real.sin (i * tableStep) := by
  rw [← Real.sin_add_nat_mul_two_pi (i * tableStep) m, tableStep]
  push_cast
  ring_nf

/-- The second quarter is the first one mirrored. -/
theorem sin_tableStep_mirror {r : Nat} (h : r ≤ 2048) :
    Real.sin ((r + 2048 : ℕ) * tableStep) = Real.sin ((2048 - r : ℕ) * tableStep) := by
  rw [← Real.sin_pi_sub, Nat.cast_sub h, tableStep]
  push_cast
  ring_nf

/-- The sine at index `i` comes from the first quarter, by the quarter of the circle that `i` lies in. -/
theorem sin_tableStep_quadrant (i : Nat) :
    (i / 2048 % 4 = 0 ∧ Real.sin (i * tableStep) = Real.sin ((i % 2048 : ℕ) * tableStep)) ∨
    (i / 2048 % 4 = 1 ∧ Real.sin (i * tableStep) = Real.sin ((2048 - i % 2048 : ℕ) * tableStep)) ∨
    (i / 2048 % 4 = 2 ∧ Real.sin (i * tableStep) = -Real.sin ((i % 2048 : ℕ) * tableStep)) ∨
    (i / 2048 % 4 = 3 ∧ Real.sin (i * tableStep) = -Real.sin ((2048 - i % 2048 : ℕ) * tableStep)) := by
  have hr : i % 2048 ≤ 2048 := by omega
  have hq : i / 2048 % 4 = 0 ∨ i / 2048 % 4 = 1 ∨ i / 2048 % 4 = 2 ∨ i / 2048 % 4 = 3 := by omega
  have circles {j : Nat} (hj : i = j + i / 8192 * 8192) : Real.sin (i * tableStep) = Real.sin (j * tableStep) := by
    rw [← sin_tableStep_add_circles j (i / 8192), ← hj]
  rcases hq with h | h | h | h
  · exact .inl ⟨h, circles (by omega)⟩
  · refine .inr (.inl ⟨h, ?_⟩)
    rw [← sin_tableStep_mirror hr]
    exact circles (by omega)
  · refine .inr (.inr (.inl ⟨h, ?_⟩))
    rw [← sin_tableStep_add_half]
    exact circles (by omega)
  · refine .inr (.inr (.inr ⟨h, ?_⟩))
    rw [← sin_tableStep_mirror hr, ← sin_tableStep_add_half]
    exact circles (by omega)

/-! ### The first quarter, both ends included -/

theorem quarterSine_zero : quarterSine 0 = 0 := by decide

theorem quarterSine_top : quarterSine 2048 = 32768 := rfl

theorem sin_quarter_tableStep : Real.sin ((2048 : ℕ) * tableStep) = 1 := by
  simpa using sin_tableStep_add_quarter 0

theorem floor_quarter {r : Nat} (h : r ≤ 2048) : ⌊32768 * Real.sin (r * tableStep)⌋ = quarterSine r := by
  obtain rfl | rfl | ⟨h0, h1⟩ : r = 0 ∨ r = 2048 ∨ (0 < r ∧ r < 2048) := by omega
  · simp [quarterSine_zero]
  · rw [sin_quarter_tableStep, quarterSine_top]
    norm_num
  · obtain ⟨hl, hu⟩ := quarterSine_bounds h0 h1
    exact Int.floor_eq_iff.mpr ⟨by exact_mod_cast hl.le, by exact_mod_cast hu⟩

/-- Inside the quarter the scaled sine is no integer, so its negation has the floor one below the negated floor. -/
theorem floor_neg_quarter {r : Nat} (h0 : 0 < r) (h1 : r < 2048) :
    ⌊32768 * -Real.sin (r * tableStep)⌋ = -(quarterSine r : Int) - 1 := by
  obtain ⟨hl, hu⟩ := quarterSine_bounds h0 h1
  rw [Int.floor_eq_iff]
  push_cast
  constructor <;> linarith

/-- Half the table entry, rounded, is the integer nearest to 16384 times the sine: never half an integer away. -/
theorem nearest_quarter {r : Nat} (h : r ≤ 2048) :
    |16384 * Real.sin (r * tableStep) - (((quarterSine r + 1) / 2 : Int) : ℝ)| < 1 / 2 := by
  obtain rfl | rfl | ⟨h0, h1⟩ : r = 0 ∨ r = 2048 ∨ (0 < r ∧ r < 2048) := by omega
  · simp [quarterSine_zero]
  · rw [sin_quarter_tableStep, quarterSine_top]
    norm_num
  · obtain ⟨hl, hu⟩ := quarterSine_bounds h0 h1
    have hlow : 2 * (((quarterSine r + 1) / 2 : Int) : ℝ) ≤ (quarterSine r : ℝ) + 1 := by
      exact_mod_cast (by omega : 2 * ((quarterSine r + 1) / 2 : Int) ≤ quarterSine r + 1)
    have hhigh : (quarterSine r : ℝ) ≤ 2 * (((quarterSine r + 1) / 2 : Int) : ℝ) := by
      exact_mod_cast (by omega : (quarterSine r : Int) ≤ 2 * ((quarterSine r + 1) / 2 : Int))
    rw [abs_lt]
    constructor <;> linarith

/-! ### The floors and the nearest integers at every index -/

theorem floorSine_eq (i : Nat) : floorSine i = ⌊32768 * Real.sin (i * tableStep)⌋ := by
  have hr : i % 2048 < 2048 := by omega
  rcases sin_tableStep_quadrant i with ⟨hq, hs⟩ | ⟨hq, hs⟩ | ⟨hq, hs⟩ | ⟨hq, hs⟩ <;> simp only [floorSine, hq, hs]
  · rw [floor_quarter hr.le]
  · rw [floor_quarter (Nat.sub_le ..)]
  · split
    next h0 => simp [h0]
    next h0 => rw [floor_neg_quarter (by omega) hr]
  · split
    next h0 =>
      rw [h0, sin_quarter_tableStep]
      norm_num
    next h0 => rw [floor_neg_quarter (by omega) (by omega)]

theorem floorCosine_eq (i : Nat) : floorCosine i = ⌊32768 * Real.cos (i * tableStep)⌋ := by
  rw [floorCosine, floorSine_eq, sin_tableStep_add_quarter]

/-- Being nearest carries over to the negated value. -/
theorem nearest_neg {x : ℝ} {n : Int} (h : |x - n| < 1 / 2) : |-x - ((-n : Int) : ℝ)| < 1 / 2 := by
  rwa [Int.cast_neg, ← neg_sub', abs_neg]

/-- Being nearest carries over to a value shifted by an integer. -/
theorem nearest_add {x : ℝ} {n : Int} (c : Int) (h : |x - n| < 1 / 2) : |(c + x) - ((c + n : Int) : ℝ)| < 1 / 2 := by
  rwa [Int.cast_add, add_sub_add_left_eq_sub]

theorem nearHalfSine_nearest (i : Nat) : |16384 * Real.sin (i * tableStep) - (nearHalfSine i : ℝ)| < 1 / 2 := by
  have low := nearest_quarter (r := i % 2048) (by omega)
  have mirrored := nearest_quarter (r := 2048 - i % 2048) (Nat.sub_le ..)
  rcases sin_tableStep_quadrant i with ⟨hq, hs⟩ | ⟨hq, hs⟩ | ⟨hq, hs⟩ | ⟨hq, hs⟩ <;>
    simp only [nearHalfSine, hq, hs, mul_neg]
  · exact low
  · exact mirrored
  · exact nearest_neg low
  · exact nearest_neg mirrored

theorem nearHalfCosine_nearest (i : Nat) : |16384 * Real.cos (i * tableStep) - (nearHalfCosine i : ℝ)| < 1 / 2 := by
  rw [nearHalfCosine, ← sin_tableStep_add_quarter]
  exact nearHalfSine_nearest _

/-! ### Twiddle factors and real-FFT coefficients -/

/-- Settles O41: every table index is a whole number of table steps, at which the floors are exact. -/
theorem twiddlesAreExactFloors : Obligations.TwiddlesAreExactFloors := by
  intro L hL k
  have hdvd : L ∣ 8192 := (by decide : ∀ L ∈ [4, 8, 16, 32, 64, 128, 256, 512, 1024, 2048, 4096], L ∣ 8192) L hL
  rw [twiddle, floorCosine_eq, floorSine_eq, tableStep_mul hdvd]

/-- Rounding half away from zero gives the integer that is nearest, when it is less than one half away (R240). -/
theorem roundHalfAway_eq {x : ℝ} {n : Int} (h : |32768 * x - n| < 1 / 2) :
    (if 0 ≤ x then ⌊32768 * x + 1 / 2⌋ else -⌊32768 * -x + 1 / 2⌋) = n := by
  obtain ⟨hl, hu⟩ := abs_lt.mp h
  split
  · rw [Int.floor_eq_iff]
    constructor <;> linarith
  · rw [neg_eq_iff_eq_neg, Int.floor_eq_iff, Int.cast_neg]
    constructor <;> linarith

/-- Settles O42: each coefficient is the integer nearest to its exact value, and never half an integer away. -/
theorem realCoefficientsAreRounded : Obligations.RealCoefficientsAreRounded := by
  unfold Obligations.RealCoefficientsAreRounded
  intro rnd N hN i _
  have hdvd : N ∣ 8192 := (by decide : ∀ N ∈ [4096, 8192], N ∣ 8192) N hN
  have hsin := nearHalfSine_nearest (i * (8192 / N))
  have hcos := nearHalfCosine_nearest (i * (8192 / N))
  rw [tableStep_mul hdvd] at hsin hcos
  have rnd_eq {x : ℝ} {n : Int} {y : ℝ} (h : |y - n| < 1 / 2) (hy : 32768 * x = y) : rnd x = sat16 n :=
    congrArg sat16 (roundHalfAway_eq (hy ▸ h))
  rw [realCoef, rnd_eq (nearest_add 16384 (nearest_neg hsin)) (by push_cast; ring), rnd_eq (nearest_neg hcos) (by ring),
    rnd_eq (nearest_add 16384 hsin) (by push_cast; ring), rnd_eq hcos (by ring), ← sub_eq_add_neg]

end Sys2Proof.Machine
end

section
/-! ## The bins of the real split (`42_fft_arith.md` R253, R254, R255) -/

namespace Sys2Proof.Machine

theorem getD_of_getElem? {z : List Sample} {i : Nat} {x : Sample} (h : z[i]? = some x) : z.getD i (0, 0) = x := by
  rw [List.getD_eq_getElem?_getD, h, Option.getD_some]

/-- The DC bin (R253). -/
theorem split_dc {N : Nat} (hN : 0 < N) (z : List Sample) :
    (split N z)[0]? = some (sat16 (asr ((z.getD 0 (0, 0)).1 + (z.getD 0 (0, 0)).2) 1), 0) := by
  simp [split, List.getElem?_range hN]

/-- The Nyquist bin (R253). -/
theorem split_nyquist {N : Nat} (hN : 2 ≤ N) (z : List Sample) :
    (split N z)[N / 2]? = some (sat16 (asr ((z.getD 0 (0, 0)).1 - (z.getD 0 (0, 0)).2) 1), 0) := by
  have hlt : N / 2 < N := by omega
  have hne : N / 2 ≠ 0 := by omega
  simp only [split, List.getElem?_map, List.getElem?_range hlt, Option.map_some, hne, if_false, lt_irrefl, if_true]

/-- A bin below the Nyquist bin: the shifted sums, saturated (R254). -/
theorem split_below {N i : Nat} (h1 : 1 ≤ i) (h2 : i < N / 2) (z : List Sample) :
    (split N z)[i]? = some (sat16 (splitBin N z i).1, sat16 (splitBin N z i).2) := by
  have hlt : i < N := by omega
  have hne : i ≠ 0 := by omega
  simp only [split, List.getElem?_map, List.getElem?_range hlt, Option.map_some, hne, h2, if_false, if_true]

/-- A bin above the Nyquist bin: the sums of its mirror bin, the imaginary part negated before saturation (R255). -/
theorem split_above {N i : Nat} (h1 : 1 ≤ i) (h2 : i < N / 2) (z : List Sample) :
    (split N z)[N - i]? = some (sat16 (splitBin N z i).1, sat16 (-(splitBin N z i).2)) := by
  have hlt : N - i < N := by omega
  have hne : N - i ≠ 0 := by omega
  have hnotBelow : ¬N - i < N / 2 := by omega
  have hnotNyquist : N - i ≠ N / 2 := by omega
  have hmirror : N - (N - i) = i := by omega
  simp only [split, List.getElem?_map, List.getElem?_range hlt, Option.map_some, hne, hnotBelow, hnotNyquist, hmirror,
    if_false]

/-- The sums of R254 for bin `i`, from sample `i` and its mirror sample. -/
theorem splitBin_eq {N i : Nat} {z : List Sample} {x y : Sample} (hx : z[i]? = some x) (hy : z[N / 2 - i]? = some y) :
    splitBin N z i =
      ((x.1 * (realCoef N i).ar - x.2 * (realCoef N i).ai + y.1 * (realCoef N i).br + y.2 * (realCoef N i).bi) / 65536,
        (y.1 * (realCoef N i).bi - y.2 * (realCoef N i).br + x.2 * (realCoef N i).ar + x.1 * (realCoef N i).ai) /
          65536) := by
  rw [splitBin, getD_of_getElem? hx, getD_of_getElem? hy]
  rfl

/-- Settles O46: the split bin by bin. -/
theorem splitBinsAreConjugate : Obligations.SplitBinsAreConjugate := by
  intro N hN z _
  have hpos : 2 ≤ N := (by decide : ∀ N ∈ [4096, 8192], 2 ≤ N) N hN
  refine ⟨split_length N z, fun z0 h0 => ?realBins, fun i h1 h2 x y hx hy => ?pair⟩
  case realBins =>
    rw [split_dc (by omega), split_nyquist hpos, getD_of_getElem? h0]
    exact ⟨rfl, rfl⟩
  case pair =>
    rw [split_below h1 h2, split_above h1 h2, splitBin_eq hx hy]
    exact ⟨rfl, rfl⟩

end Sys2Proof.Machine
end

section
/-! ## The checks of the FFT commands on memory (`43_fft_commands.md` R283, R285, R287, R289, R300) -/

namespace Sys2Proof.Machine

/-- A command that has the engine ends with the status of the check that fails, whichever command on memory it is. -/
theorem FftJustEnds.of_check {i : Instr} {s : State} {c : Code} (he : s.hasEngine)
    (hc : fftCheck s s.latch i = some (.error c)) : FftJustEnds i s c := by
  refine .of_finish ?_
  cases i with
  | fftRfft slot =>
    have hc : rfftCheck s s.latch slot = .error c := Option.some.inj hc
    simp [exec, execFftRfft, withEngine_of_hasEngine he, hc]
  | fftCfft inv br =>
    have hc : cfftCheck s s.latch = .error c := Option.some.inj hc
    simp [exec, execFftCfft, withEngine_of_hasEngine he, hc]
  | fftBitrev =>
    have hc : cfftCheck s s.latch = .error c := Option.some.inj hc
    simp [exec, execFftBitrev, withEngine_of_hasEngine he, hc]
  | fftTopbins k =>
    have hc : topbinsCheck s s.latch k = .error c := Option.some.inj hc
    simp [exec, execFftTopbins, withEngine_of_hasEngine he, hc]
  | _ => simp [fftCheck] at hc

/-! ### The conditions that the checks share -/

/-- The null check of one address. -/
theorem null_iff {a : Word} : a = 0 ↔ a.toNat = 0 := BitVec.toNat_inj.symm

/-- The null check of two addresses. -/
theorem anyNull_iff {a b : Word} : (a = 0 ∨ b = 0) ↔ (a.toNat = 0 ∨ b.toNat = 0) := or_congr null_iff null_iff

theorem aligned_eq_false_iff {n a : Nat} : aligned n a = false ↔ a % n ≠ 0 := decide_eq_false_iff_not

/-- Only the indices 0 to 3 have a slot (R38). -/
theorem inst_eq_none {s : State} {k : Nat} (h : 4 ≤ k) : s.inst k = none := by
  unfold State.inst
  split
  case h_5 => rfl
  all_goals omega

/-! ### FFT_RFFT -/

section Rfft

variable {s : State} {l : Latch} {k : Nat} {t : InstSlot}

theorem rfftCheck_of_noSlot (hk : 4 ≤ k) : rfftCheck s l k = .error .invalid := by
  simp only [rfftCheck, inst_eq_none hk]

theorem rfftCheck_of_notValid (ht : s.inst k = some t) (hv : t.valid = false) : rfftCheck s l k = .error .init := by
  simp only [rfftCheck, ht, if_pos hv]

theorem rfftCheck_of_null (ht : s.inst k = some t) (hv : t.valid = true) (h : l.a0.toNat = 0 ∨ l.a1.toNat = 0) :
    rfftCheck s l k = .error .nullPointer := by
  simp only [rfftCheck, ht, hv, Bool.true_eq_false, if_false, if_pos (anyNull_iff.mpr h)]

/-- Past the null check any fault of the two regions is refused as INVALID. -/
theorem rfftCheck_of_badRegions (ht : s.inst k = some t) (hv : t.valid = true)
    (hnull : ¬ (l.a0.toNat = 0 ∨ l.a1.toNat = 0))
    (h : l.a0.toNat % 4 ≠ 0 ∨ l.a1.toNat % 4 ≠ 0 ∨ inWindow s.cfg ⟨l.a0.toNat, 2 * t.n.toNat⟩ = false ∨
      inWindow s.cfg ⟨l.a1.toNat, 4 * t.n.toNat⟩ = false ∨
      Region.overlaps ⟨l.a0.toNat, 2 * t.n.toNat⟩ ⟨l.a1.toNat, 4 * t.n.toNat⟩ = true) :
    rfftCheck s l k = .error .invalid := by
  simp only [rfftCheck, ht, hv, Bool.true_eq_false, if_false, if_neg (mt anyNull_iff.mp hnull)]
  refine if_neg ?_
  simp only [← aligned_eq_false_iff] at h
  rcases h with h | h | h | h | h <;> simp [h]

end Rfft

/-! ### FFT_CFFT and FFT_BITREV -/

section Cfft

variable {s : State} {l : Latch}

theorem cfftCheck_of_null (h : l.a0.toNat = 0) : cfftCheck s l = .error .nullPointer := if_pos (null_iff.mpr h)

theorem cfftCheck_of_badSize (h0 : l.a0.toNat ≠ 0) (h : l.a1.toNat ∉ Config.cfftSizes) :
    cfftCheck s l = .error .invalidSize := by
  rw [cfftCheck, if_neg (mt null_iff.mp h0), if_pos (by simpa using h)]

theorem cfftCheck_of_badRegion (h0 : l.a0.toNat ≠ 0) (hm : l.a1.toNat ∈ Config.cfftSizes)
    (h : l.a0.toNat % 4 ≠ 0 ∨ inWindow s.cfg ⟨l.a0.toNat, 4 * l.a1.toNat⟩ = false) :
    cfftCheck s l = .error .invalid := by
  rw [cfftCheck, if_neg (mt null_iff.mp h0), if_neg (by simpa using hm)]
  refine if_neg ?_
  rw [← aligned_eq_false_iff] at h
  rcases h with h | h <;> simp [h]

/-- The two commands make the same checks. -/
theorem fftCheck_inPlace {i : Instr} {inv br : Bool} (hi : i ∈ [Instr.fftCfft inv br, Instr.fftBitrev]) :
    fftCheck s l i = some (cfftCheck s l) := by
  simp only [List.mem_cons, List.not_mem_nil, or_false] at hi
  rcases hi with rfl | rfl <;> rfl

end Cfft

/-! ### FFT_TOPBINS -/

section Topbins

variable {s : State} {l : Latch} {k : Nat}

/-- The size check refuses an N (ARG2) that is not supported or is not the length (ARG1). -/
theorem topbinsSize_iff : (Config.rfftSizes.contains l.a2.toNat = false ∨ l.a1 ≠ l.a2) ↔
    (l.a2.toNat ∉ Config.rfftSizes ∨ l.a1.toNat ≠ l.a2.toNat) := by
  simp [BitVec.toNat_inj]

theorem topbinsCheck_of_null (h : l.a0.toNat = 0 ∨ l.a3.toNat = 0) : topbinsCheck s l k = .error .nullPointer :=
  if_pos (anyNull_iff.mpr h)

theorem topbinsCheck_of_badSize (hnull : ¬ (l.a0.toNat = 0 ∨ l.a3.toNat = 0))
    (h : l.a2.toNat ∉ Config.rfftSizes ∨ l.a1.toNat ≠ l.a2.toNat) : topbinsCheck s l k = .error .invalidSize := by
  rw [topbinsCheck, if_neg (mt anyNull_iff.mp hnull), if_pos (topbinsSize_iff.mpr h)]

/-- Past the null check and the size check, the count and the regions are left to check. -/
theorem topbinsCheck_of_badCount (hnull : ¬ (l.a0.toNat = 0 ∨ l.a3.toNat = 0))
    (hsize : ¬ (l.a2.toNat ∉ Config.rfftSizes ∨ l.a1.toNat ≠ l.a2.toNat)) (h : k < 1 ∨ l.a2.toNat / 2 < k) :
    topbinsCheck s l k = .error .invalid := by
  rw [topbinsCheck, if_neg (mt anyNull_iff.mp hnull), if_neg (mt topbinsSize_iff.mp hsize), if_pos h]

theorem topbinsCheck_of_badRegions (hnull : ¬ (l.a0.toNat = 0 ∨ l.a3.toNat = 0))
    (hsize : ¬ (l.a2.toNat ∉ Config.rfftSizes ∨ l.a1.toNat ≠ l.a2.toNat)) (hk : ¬ (k < 1 ∨ l.a2.toNat / 2 < k))
    (h : l.a0.toNat % 2 ≠ 0 ∨ l.a3.toNat % 2 ≠ 0 ∨ inWindow s.cfg ⟨l.a0.toNat, 2 * l.a2.toNat⟩ = false ∨
      inWindow s.cfg ⟨l.a3.toNat, 2 * k⟩ = false) : topbinsCheck s l k = .error .invalid := by
  rw [topbinsCheck, if_neg (mt anyNull_iff.mp hnull), if_neg (mt topbinsSize_iff.mp hsize), if_neg hk]
  refine if_neg ?_
  simp only [← aligned_eq_false_iff] at h
  rcases h with h | h | h | h <;> simp [h]

end Topbins

/-- Settles O34: the clauses go through each command's checks in their order, and each names the check that fails. -/
theorem fftChecksInOrder : Obligations.FftChecksInOrder := by
  intro s k t inv br he
  refine ⟨?rfftNoSlot, fun ht => ?rfft, fun i hi => ?inPlace, ?topbinsNull, fun h0 h3 => ?topbins⟩
  case rfftNoSlot => exact fun hk => .of_check he (congrArg some (rfftCheck_of_noSlot hk))
  case rfft =>
    have ends {c : Code} (hc : rfftCheck s s.latch k = .error c) : FftJustEnds (.fftRfft k) s c :=
      .of_check he (congrArg some hc)
    exact ⟨fun hv => ends (rfftCheck_of_notValid ht hv), fun hv => ⟨fun h => ends (rfftCheck_of_null ht hv h),
      fun h0 h1 h => ends (rfftCheck_of_badRegions ht hv (not_or.mpr ⟨h0, h1⟩) h)⟩⟩
  case inPlace =>
    have ends {c : Code} (hc : cfftCheck s s.latch = .error c) : FftJustEnds i s c :=
      .of_check he ((fftCheck_inPlace hi).trans (congrArg some hc))
    exact ⟨fun h => ends (cfftCheck_of_null h), fun h0 h => ends (cfftCheck_of_badSize h0 h),
      fun h0 hm h => ends (cfftCheck_of_badRegion h0 hm h)⟩
  case topbinsNull => exact fun h => .of_check he (congrArg some (topbinsCheck_of_null h))
  case topbins =>
    have ends {c : Code} (hc : topbinsCheck s s.latch k = .error c) : FftJustEnds (.fftTopbins k) s c :=
      .of_check he (congrArg some hc)
    have hnull := not_or.mpr ⟨h0, h3⟩
    refine ⟨fun h => ends (topbinsCheck_of_badSize hnull h), fun hn hlen => ?_⟩
    have hsize : ¬ (s.latch.a2.toNat ∉ Config.rfftSizes ∨ s.latch.a1.toNat ≠ s.latch.a2.toNat) :=
      not_or.mpr ⟨not_not_intro hn, not_not_intro hlen⟩
    exact ⟨fun h => ends (topbinsCheck_of_badCount hnull hsize h), fun hk1 hk2 h =>
      ends (topbinsCheck_of_badRegions hnull hsize (not_or.mpr ⟨hk1.not_gt, hk2.not_gt⟩) h)⟩

end Sys2Proof.Machine
end

section
/-! ## The registers after power-up (`70_reset_and_hazards.md` R372) -/

namespace Sys2Proof.Machine

theorem port_powerUp (c : Config) (m : Memory) (p : Port) :
    ∃ clock, (State.powerUp c m).port p = PortState.reset clock := by
  cases p
  case P => exact ⟨c.timeP0, rfl⟩
  case C => exact ⟨c.timeC0, rfl⟩

theorem statusWord_reset (clock : DWord) : (PortState.reset clock).statusWord = 0 := by
  change bit false ++ bit false ++ bit false ++ (0 : BitVec 21) ++ Code.ok.toByte = 0
  decide

theorem irq_eq_false_of_reset {s : State} {p : Port} {clock : DWord} (h : s.port p = PortState.reset clock) :
    s.irq p = false := by
  rw [State.irq, h]
  rfl

theorem eq_reset_of_inst_powerUp {c : Config} {m : Memory} {k : Nat} {t : InstSlot}
    (h : (State.powerUp c m).inst k = some t) : t = InstSlot.reset := by
  match k, h with
  | 0, h | 1, h | 2, h | 3, h => exact (Option.some.inj h).symm
  | k + 4, h =>
    rw [inst_eq_none (Nat.le_add_left 4 k)] at h
    contradiction

theorem bmStatusWord_powerUp (c : Config) (m : Memory) : (State.powerUp c m).bmStatusWord = 2 := by
  change ((1 : BitVec 1) ++ bit false).zeroExtend 32 = 2
  decide

/-- With the engine free and owner P, FE_STATUS shows the variant alone (R41). -/
theorem feStatusWord_powerUp (c : Config) (m : Memory) :
    (State.powerUp c m).feStatusWord = if c.variant = .portable then 0 else 4 := by
  change (variantBit c.variant ++ ownerBit .P ++ bit false).zeroExtend 32 = _
  cases c.variant
  case portable => decide
  case simd => decide

/-- Settles O13: both ports are as `PortState.reset` leaves them, every slot is `InstSlot.reset`, and the global registers
read the parameters and the reset values of R372. -/
theorem resetValues : Obligations.ResetValues := by
  intro c m s
  refine ⟨fun p => ?port, rfl, rfl, rfl, rfl, fun _ _ => eq_reset_of_inst_powerUp, bmStatusWord_powerUp c m,
    feStatusWord_powerUp c m, rfl, rfl, rfl, rfl, rfl, rfl, rfl, rfl, rfl⟩
  case port =>
    obtain ⟨clock, hp⟩ := port_powerUp c m p
    rw [irq_eq_false_of_reset hp, hp]
    exact ⟨rfl, statusWord_reset clock, rfl, rfl, rfl, rfl, rfl, rfl, rfl, rfl, rfl, rfl, rfl, rfl, rfl⟩

end Sys2Proof.Machine
end

section
/-! ## The decoder after the encoder, and the rows of the table (`30_encoding.md` R120, R122, R125) -/

namespace Sys2Proof

/-! ### The fields of a word put together from its fields -/

theorem toNat_assemble (imm flags op : Nat) :
    (assemble imm flags op).toNat = imm % 2 ^ 16 * 2 ^ 16 + flags % 2 ^ 8 * 2 ^ 8 + op % 2 ^ 8 := by
  unfold assemble
  rw [BitVec.toNat_append, ← Nat.shiftLeft_add_eq_or_of_lt (BitVec.isLt _), BitVec.toNat_append,
    ← Nat.shiftLeft_add_eq_or_of_lt (BitVec.isLt _)]
  simp only [BitVec.toNat_ofNat, Nat.shiftLeft_eq]
  omega

theorem opcodeField_eq (w : Word) : opcodeField w = w.toNat % 2 ^ 8 := by
  simp [opcodeField, BitVec.extractLsb'_toNat]

theorem imm16Field_eq (w : Word) : imm16Field w = w.toNat / 2 ^ 16 % 2 ^ 16 := by
  simp [imm16Field, BitVec.extractLsb'_toNat, Nat.shiftRight_eq_div_pow]

theorem opcodeField_assemble (imm flags op : Nat) : opcodeField (assemble imm flags op) = op % 2 ^ 8 := by
  rw [opcodeField_eq, toNat_assemble]
  omega

theorem flagsField_assemble (imm flags op : Nat) : flagsField (assemble imm flags op) = flags % 2 ^ 8 := by
  rw [flagsField_eq, toNat_assemble]
  omega

theorem imm16Field_assemble {imm : Nat} (h : fitsImm16 imm = true) (flags op : Nat) :
    imm16Field (assemble imm flags op) = imm := by
  have hlt : imm < 2 ^ 16 := of_decide_eq_true h
  rw [imm16Field_eq, toNat_assemble]
  omega

/-! ### Reading a command back -/

/-- The decoder of a command with an IMM16 reads the immediate back. -/
theorem decodeNoFlags_assemble {imm op : Nat} (h : fitsImm16 imm = true) (command : Nat → Instr) :
    decodeNoFlags (assemble imm 0 op) (command (imm16Field (assemble imm 0 op))) = .ok (command imm) :=
  decodeNoFlags_eq_ok_iff.mpr ⟨flagsField_assemble imm 0 op, by rw [imm16Field_assemble h]⟩

theorem decodeWord_bmStats {w : Word} (h : opcodeField w = 0x07) :
    decodeWord w = decodeNoFlags w (.bmStats (imm16Field w)) := by simp only [decodeWord, h]

theorem decodeWord_fftRinit {w : Word} (h : opcodeField w = 0x20) :
    decodeWord w = decodeNoFlags w (.fftRinit (imm16Field w)) := by simp only [decodeWord, h]

theorem decodeWord_fftRfft {w : Word} (h : opcodeField w = 0x21) :
    decodeWord w = decodeNoFlags w (.fftRfft (imm16Field w)) := by simp only [decodeWord, h]

theorem decodeWord_fftTopbins {w : Word} (h : opcodeField w = 0x24) :
    decodeWord w = decodeNoFlags w (.fftTopbins (imm16Field w)) := by simp only [decodeWord, h]

/-- The decoder reads a well-formed command back from its word: the commands without an IMM16 have few words, which are
evaluated; the others are read field by field. -/
theorem decodeWord_encode {i : Instr} (h : i.wellFormed = true) : decodeWord (encode i) = .ok i := by
  cases i with
  | bmStats selector =>
    exact (decodeWord_bmStats (opcodeField_assemble ..)).trans (decodeNoFlags_assemble h .bmStats)
  | fftRinit slot =>
    exact (decodeWord_fftRinit (opcodeField_assemble ..)).trans (decodeNoFlags_assemble h .fftRinit)
  | fftRfft slot =>
    exact (decodeWord_fftRfft (opcodeField_assemble ..)).trans (decodeNoFlags_assemble h .fftRfft)
  | fftTopbins k =>
    exact (decodeWord_fftTopbins (opcodeField_assemble ..)).trans (decodeNoFlags_assemble h .fftTopbins)
  | fftCfft inv br => cases inv <;> cases br <;> decide
  | _ => decide

/-- The four bytes of a word are the word (`20_memory.md` R80). -/
theorem wordOfBytes_bytes (w : Word) :
    wordOfBytes (w.extractLsb' 0 8) (w.extractLsb' 8 8) (w.extractLsb' 16 8) (w.extractLsb' 24 8) = w := by
  unfold wordOfBytes
  rw [BitVec.extractLsb'_append_extractLsb'_eq_extractLsb' (rfl : 24 = 16 + 8),
    BitVec.extractLsb'_append_extractLsb'_eq_extractLsb' (rfl : 16 = 8 + 8),
    BitVec.extractLsb'_append_extractLsb'_eq_extractLsb' (rfl : 8 = 0 + 8)]
  exact BitVec.extractLsb'_eq_self

theorem decode_bytesOfWord {w : Word} {i : Instr} (h : decodeWord w = .ok i) (rest : List Byte) :
    decode (bytesOfWord w ++ rest) = .ok (i, rest) := by
  simp [bytesOfWord, decode, wordOfBytes_bytes, h]

/-- Settles O1, by the fields of the encoded word. -/
theorem decodeAfterEncode : Obligations.DecodeAfterEncode :=
  fun _ rest h => ⟨decodeWord_encode h, decode_bytesOfWord (decodeWord_encode h) rest⟩

/-! ### The rows -/

/-- A row says of each field of its words what the mask leaves of it. -/
theorem EncodingRow.selects_field {r : EncodingRow} {w : Word} (h : r.selects w = true) (start len : Nat) :
    w.extractLsb' start len &&& r.mask.extractLsb' start len = r.bits.extractLsb' start len := by
  have hw : w &&& r.mask = r.bits := by simpa [EncodingRow.selects] using h
  rw [← hw, BitVec.extractLsb'_and]

/-- Every mask covers OPCODE, so a row fixes it. -/
theorem EncodingRow.selects_opcode {r : EncodingRow} {w : Word} (hr : r ∈ encodingRows) (h : r.selects w = true) :
    w.extractLsb' 0 8 = r.bits.extractLsb' 0 8 := by
  have hmask : r.mask.extractLsb' 0 8 = BitVec.allOnes 8 :=
    (by decide : ∀ r ∈ encodingRows, r.mask.extractLsb' 0 8 = BitVec.allOnes 8) r hr
  rw [← selects_field h, hmask, BitVec.and_allOnes]

/-- The three shapes of a row: one word, an open IMM16, and the two flags of FFT_CFFT. -/
theorem encodingRows_shapes : ∀ r ∈ encodingRows,
    (r.mask = BitVec.allOnes 32 ∧ (decodeWord r.bits).toBool = true) ∨
      (r.mask = 0x0000FFFF ∧ r.bits.extractLsb' 8 8 = 0 ∧
        (r.bits.extractLsb' 0 8).toNat ∈ [0x07, 0x20, 0x21, 0x24]) ∨ r = ⟨0x22, 0xFFFFFCFF⟩ := by decide

/-- A word of a row with an open IMM16 decodes, whatever its immediate. -/
theorem decodeWord_of_openImm {w : Word} {op : Nat} (hop : opcodeField w = op) (hf : flagsField w = 0)
    (hmem : op ∈ [0x07, 0x20, 0x21, 0x24]) : ∃ i, decodeWord w = .ok i := by
  have ok (i : Instr) : decodeNoFlags w i = .ok i := decodeNoFlags_eq_ok_iff.mpr ⟨hf, rfl⟩
  simp only [List.mem_cons, List.not_mem_nil, or_false] at hmem
  rcases hmem with rfl | rfl | rfl | rfl
  · exact ⟨_, (decodeWord_bmStats hop).trans (ok _)⟩
  · exact ⟨_, (decodeWord_fftRinit hop).trans (ok _)⟩
  · exact ⟨_, (decodeWord_fftRfft hop).trans (ok _)⟩
  · exact ⟨_, (decodeWord_fftTopbins hop).trans (ok _)⟩

/-- A word that a row selects decodes. -/
theorem decodeWord_of_selected {r : EncodingRow} {w : Word} (hr : r ∈ encodingRows) (h : r.selects w = true) :
    ∃ i, decodeWord w = .ok i := by
  have hop := r.selects_opcode hr h
  have hflags := r.selects_field h 8 8
  have himm := r.selects_field h 16 16
  rcases encodingRows_shapes r hr with ⟨hm, hok⟩ | ⟨hm, hzero, hmem⟩ | rfl
  case inl =>
    have hw : w = r.bits := by simpa only [EncodingRow.selects, hm, BitVec.and_allOnes, beq_iff_eq] using h
    cases hd : decodeWord w with
    | ok i => exact ⟨i, rfl⟩
    | error e => simp [← hw, hd, Except.toBool] at hok
  case inr.inl =>
    rw [hm, hzero, show (0x0000FFFF : Word).extractLsb' 8 8 = BitVec.allOnes 8 by decide, BitVec.and_allOnes] at hflags
    exact decodeWord_of_openImm rfl (by rw [flagsField, hflags]; rfl) (by rw [opcodeField, hop]; exact hmem)
  case inr.inr =>
    have hopcode : opcodeField w = 0x22 := by rw [opcodeField, hop]; decide
    have hlt : flagsField w < 4 :=
      (by decide : ∀ f : BitVec 8, f &&& 0xFC = 0 → f.toNat < 4) _ hflags
    have hzero : imm16Field w = 0 := by
      rw [show (0xFFFFFCFF : Word).extractLsb' 16 16 = BitVec.allOnes 16 by decide, BitVec.and_allOnes] at himm
      rw [imm16Field, himm]
      decide
    refine ⟨.fftCfft (w.getLsbD 8) (w.getLsbD 9), ?_⟩
    have hcfft : decodeWord w = decodeCfft w := by simp only [decodeWord, hopcode]
    exact hcfft.trans (decodeCfft_eq_ok_iff.mpr ⟨hlt, hzero, rfl⟩)

/-- No two rows have the same OPCODE, so no two select one word. -/
theorem encodingRow_unique {r r' : EncodingRow} {w : Word} (hr : r ∈ encodingRows) (hr' : r' ∈ encodingRows)
    (h : r.selects w = true) (h' : r'.selects w = true) : r = r' :=
  (by decide : ∀ r ∈ encodingRows, ∀ r' ∈ encodingRows,
    r.bits.extractLsb' 0 8 = r'.bits.extractLsb' 0 8 → r = r') r hr r' hr'
    ((r.selects_opcode hr h).symm.trans (r'.selects_opcode hr' h'))

/-- Settles O2. -/
theorem legalWordsMatchOneRow : Obligations.LegalWordsMatchOneRow :=
  fun _ => ⟨fun _ => isWordOf_of_decodeWord,
    ⟨fun ⟨_, h⟩ => selected_of_decodeWord h, fun ⟨_, hr, h⟩ => decodeWord_of_selected hr h⟩,
    fun _ hr _ hr' => encodingRow_unique hr hr'⟩

end Sys2Proof
end

section
/-! ## What each command does where its checks pass -/

namespace Sys2Proof.Machine

/-! ### The atomic commands (`41_notifier_atomics.md` R207 to R210) -/

theorem atomicRefused_of_word {s : State} {a : Nat} (h : s.atomicWord a) : atomicRefused s.cfg false a = false := by
  obtain ⟨-, h0, h4, hlow, hhigh⟩ := h
  rw [← Bool.not_eq_true, atomicRefused_iff]
  simp [h0, h4, hlow, hhigh]

theorem atomicRefused_of_writable {s : State} {a : Nat} (h : s.atomicWritable a) :
    atomicRefused s.cfg true a = false := by
  obtain ⟨⟨-, h0, h4, hlow, hhigh⟩, hfields⟩ := h
  rw [← Bool.not_eq_true, atomicRefused_iff]
  simp [h0, h4, hlow, hhigh]
  omega

/-- An operand that the checks of a write accept. -/
theorem atomicWritable_of_accepted {s : State} (h : atomicRefused s.cfg true s.latch.a0.toNat = false) :
    s.atomicWritable s.latch.a0.toNat := by
  rw [← Bool.not_eq_true, atomicRefused_iff] at h
  simp only [eq_self, true_and] at h
  refine ⟨⟨rfl, ?_⟩, ?_⟩ <;> omega

/-- A check that refuses the operand ends an atomic command. -/
theorem AtomicRole.exec_eq_finish {i : Instr} {writes : Bool} {s : State} (hi : AtomicRole i writes)
    (hr : atomicRefused s.cfg writes s.latch.a0.toNat = true) : exec i s = .next (s.finish .invalid) := by
  cases hi with
  | load => simp [exec, execAtLoad, hr]
  | cas => simp [exec, execAtCas, hr]
  | fadd => simp [exec, execAtFadd, hr]

theorem exec_atLoad {s : State} {a : Nat} (h : s.atomicWord a) : exec .atLoad s = .next (s.stat32 a) := by
  have hr := atomicRefused_of_word h
  obtain ⟨rfl, -⟩ := h
  simp [exec, execAtLoad, State.stat32, hr]

theorem atomicWord_of_accepted {s : State} (h : atomicRefused s.cfg false s.latch.a0.toNat = false) :
    s.atomicWord s.latch.a0.toNat := by
  rw [← Bool.not_eq_true, atomicRefused_iff] at h
  exact ⟨rfl, by omega⟩

/-- What AT_CAS leaves. -/
def State.swapped (s : State) (a : Nat) : State :=
  (((s.cas32 a s.latch.a1 s.latch.a2).setRes0 (s.peek32 a)).setRes1
    (if s.peek32 a = s.latch.a1 then 1 else 0)).finish .ok

theorem exec_atCas {s : State} {a : Nat} (h : s.atomicWritable a) : exec .atCas s = .next (s.swapped a) := by
  have hr := atomicRefused_of_writable h
  obtain ⟨⟨rfl, -⟩, -⟩ := h
  simp [exec, execAtCas, State.swapped, hr]

/-- What AT_FADD leaves. -/
def State.added (s : State) (a : Nat) : State := ((s.fadd32 a s.latch.a1).setRes0 (s.peek32 a)).finish .ok

theorem exec_atFadd {s : State} {a : Nat} (h : s.atomicWritable a) : exec .atFadd s = .next (s.added a) := by
  have hr := atomicRefused_of_writable h
  obtain ⟨⟨rfl, -⟩, -⟩ := h
  simp [exec, execAtFadd, State.added, hr]

/-! ### The buffer manager -/

theorem exec_bmInit {s : State} (ha : s.active = .C) : exec .bmInit s = .next (s.initControlBlock.finish .ok) := by
  simp [exec, execBmInit, ha, State.fullFence]

/-- A common check that fails ends a BM command. -/
theorem BmRole.exec_eq_finish {i : Instr} {role : Option Port} {s : State} {c : Code} (hi : BmRole i role)
    (hc : s.bmCheck role = some c) : exec i s = .next (s.finish c) := by
  cases hi with
  | acqw => simp [exec, execBmAcqw, hc]
  | commit => simp [exec, execBmCommit, hc]
  | acqr => simp [exec, execBmAcqr, hc]
  | release => simp [exec, execBmRelease, hc]
  | state => simp [exec, execBmState, hc]
  | stats k => simp [exec, execBmStats, hc]

theorem exec_bmAcqw {s : State} (h : s.bmRuns .P) : exec .bmAcqw s = .next s.acqwAttempt := by
  simp [exec, execBmAcqw, bmCheck_of_port h.1 h.2]

theorem exec_bmAcqr {s : State} (h : s.bmRuns .C) : exec .bmAcqr s = .next s.acqrAttempt := by
  simp [exec, execBmAcqr, bmCheck_of_port h.1 h.2]

theorem exec_bmState {s : State} {i : BitVec 1} (hv : s.cbValid = true) (hid : bufferId s.latch.a0 = some i) :
    exec .bmState s = .next (s.stat32 (stateAddr s.cfg i)) := by
  simp [exec, execBmState, bmCheck_of_anyPort hv, hid, State.stat32]

theorem exec_bmStats {s : State} (hv : s.cbValid = true) (k : Nat) : exec (.bmStats k) s = .next (s.stats k) := by
  simp [exec, execBmStats, bmCheck_of_anyPort hv]

/-- An attempt takes an IDLE buffer that is the one after LAST_USED or stands alone (R155). -/
theorem acqwAttempt_of_idle {s : State} {i : BitVec 1} (hi : s.peek32 (stateAddr s.cfg i) = stIdle)
    (hfirst : i = s.lastUsed + 1 ∨ s.peek32 (stateAddr s.cfg (s.lastUsed + 1)) ≠ stIdle) :
    s.acqwAttempt = s.noteScan.grantWrite i := by
  unfold State.acqwAttempt
  dsimp only
  by_cases he : i = s.lastUsed + 1
  · rw [← he, if_pos hi]
  · have hne : s.peek32 (stateAddr s.cfg (s.lastUsed + 1)) ≠ stIdle := hfirst.resolve_left he
    have hlast : i = s.lastUsed := (by decide : ∀ i l : BitVec 1, i ≠ l + 1 → i = l) i s.lastUsed he
    rw [if_neg hne, ← hlast, if_pos hi]

theorem acqwAttempt_of_busy {s : State} (h : ∀ i, s.peek32 (stateAddr s.cfg i) ≠ stIdle) :
    s.acqwAttempt = s.noteScan.countOverrun.timeoutOrWait s.timedOut := by
  unfold State.acqwAttempt
  dsimp only
  rw [if_neg (h _), if_neg (h _)]

theorem readyBuffer_eq_none {s : State} (h : ∀ i, s.peek32 (stateAddr s.cfg i) ≠ stReady) : s.readyBuffer = none := by
  simp only [State.readyBuffer, beq_false_of_ne (h _)]

/-- The buffer that BM_ACQR chooses is READY. -/
theorem peek32_of_readyBuffer {s : State} {i : BitVec 1} (h : s.readyBuffer = some i) :
    s.peek32 (stateAddr s.cfg i) = stReady := by
  unfold State.readyBuffer at h
  dsimp only at h
  split at h
  case h_1 => cases h
  case h_2 h0 _ =>
    cases h
    exact eq_of_beq h0
  case h_3 _ h1 =>
    cases h
    exact eq_of_beq h1
  case h_4 h0 h1 =>
    split at h <;> cases h
    · exact eq_of_beq h1
    · exact eq_of_beq h0

/-- The selectors of BM_STATS that read a u32 field (R165). -/
theorem stats_of_field32 {s : State} {k a : Nat} (h : (k, a, 4) ∈ statFields s.cfg) : s.stats k = s.stat32 a := by
  simp [statFields] at h
  rcases h with ⟨rfl, rfl⟩ | ⟨rfl, rfl⟩ | ⟨rfl, rfl⟩ | ⟨rfl, rfl⟩ | ⟨rfl, rfl⟩ | ⟨rfl, rfl⟩ | ⟨rfl, rfl⟩ | ⟨rfl, rfl⟩ |
    ⟨rfl, rfl⟩ <;> rfl

/-- The selectors of BM_STATS that read a u64 field (R165). -/
theorem stats_of_field64 {s : State} {k a : Nat} (h : (k, a, 8) ∈ statFields s.cfg) : s.stats k = s.stat64 a := by
  simp [statFields] at h
  rcases h with ⟨rfl, rfl⟩ | ⟨rfl, rfl⟩ | ⟨rfl, rfl⟩ | ⟨rfl, rfl⟩ <;> rfl

/-- What a snapshot leaves, once its address is accepted. -/
def State.snapshotAt (s : State) (a : Nat) : State :=
  (((snapshotFields s.cfg).foldl (fun u f => u.noteRead f.1 f.2) s).store a s.snapshotBytes).finish .ok

@[simp] theorem mem_snapshotReads (s : State) (l : List (Nat × Nat)) :
    (l.foldl (fun u f => u.noteRead f.1 f.2) s).mem = s.mem := by
  induction l generalizing s with
  | nil => rfl
  | cons f l ih => rw [List.foldl_cons, ih, mem_noteRead]

@[simp] theorem length_peek (s : State) (agent : Option Port) (a n : Nat) : (s.peek agent a n).length = n := by
  unfold State.peek
  split <;> simp

/-- Six u32 and four u64 fields. -/
@[simp] theorem length_snapshotBytes (s : State) : s.snapshotBytes.length = 56 := by
  simp [State.snapshotBytes, snapshotFields]

/-- Which addresses a snapshot refuses (R165). -/
theorem snapshotRefused_iff (c : Config) (a : Nat) :
    snapshotRefused c a = true ↔ a = 0 ∨ a % 8 ≠ 0 ∨ a < c.sharedBase.toNat ∨ c.windowEnd < a + 56 ∨
      (c.cbBase < a + 56 ∧ a < c.cbBase + 0x0C4) := by
  have hov : Region.overlaps ⟨a, 56⟩ (definedFields c) = true ↔ c.cbBase < a + 56 ∧ a < c.cbBase + 0x0C4 := by
    simp only [Region.overlaps, definedFields, decide_eq_true_eq, lt_min_iff, max_lt_iff]
    omega
  simp only [snapshotRefused, Bool.or_eq_true, hov, aligned, inWindow, Bool.not_eq_true', Bool.and_eq_false_iff,
    decide_eq_true_eq, decide_eq_false_iff_not, not_le, or_assoc]

theorem snapshot_of_refused {s : State} (h : snapshotRefused s.cfg s.latch.a0.toNat = true) :
    s.snapshot = s.finish .invalid := by simp [State.snapshot, h]

theorem snapshot_of_accepted {s : State} (h : snapshotRefused s.cfg s.latch.a0.toNat = false) :
    s.snapshot = s.snapshotAt s.latch.a0.toNat := by simp [State.snapshot, State.snapshotAt, h]

theorem snapshotRefused_of_snapshotTo {s : State} {a : Nat} (h : s.snapshotTo a) : snapshotRefused s.cfg a = false := by
  obtain ⟨-, -, h0, h8, hlow, hhigh, hfields⟩ := h
  rw [← Bool.not_eq_true, snapshotRefused_iff]
  omega

theorem exec_snapshot {s : State} {a : Nat} (h : s.snapshotTo a) : exec (.bmStats 13) s = .next (s.snapshotAt a) := by
  have hr := snapshotRefused_of_snapshotTo h
  obtain ⟨hv, rfl, -⟩ := h
  rw [exec_bmStats hv, ← snapshot_of_accepted hr]
  rfl

/-! ### The FFT commands on memory -/

/-- What an FFT command on memory stores where no race happens: each run with its address. -/
def State.fftResults (s : State) (f : FftRegions) : Instr → List (Nat × List Byte)
  | .fftRfft slot =>
    let out := realFft s.cfg.variant ((s.inst slot).getD InstSlot.reset).n.toNat (s.loadSamples f.input)
    [(s.latch.a0.toNat, bytesOfSamples out.1), (s.latch.a1.toNat, bytesOfSamples out.2)]
  | .fftCfft inv br =>
    [(s.latch.a0.toNat, bytesOfSamples (cfft s.cfg.variant s.latch.a1.toNat inv br (s.loadSamples f.input)))]
  | .fftBitrev => [(s.latch.a0.toNat, bytesOfSamples (bitReverse s.latch.a1.toNat (s.loadSamples f.input)))]
  | .fftTopbins k =>
    [(s.latch.a3.toNat, (topBins s.latch.a2.toNat k (s.topbinsSpectrum s.latch.a2.toNat f.input.base)).flatMap fun r =>
      leBytes 2 r.index)]
  | _ => []

/-- How an FFT command on memory ends after its stores: FFT_TOPBINS also returns a magnitude and leaves the working
buffers unspecified. -/
def State.fftReturn (s t : State) (f : FftRegions) : Instr → State
  | .fftTopbins k =>
    let kept := topBins s.latch.a2.toNat k (s.topbinsSpectrum s.latch.a2.toNat f.input.base)
    let largest := BitVec.ofNat 32 ((kept.head?.map TopBin.mag).getD 0)
    ((t.setRes0 (if s.inputRaced f then Config.freeWord s.tick else largest)).finishFft .ok).setWorkFree s.tick
  | _ => t.finishFft .ok

/-- A command on memory whose checks pass: its stores, then its end. -/
def State.fftEnd (s : State) (f : FftRegions) (i : Instr) : State := s.fftReturn (s.fftStore f (s.fftResults f i)) f i

/-- A command on memory is one that has checks to make. -/
theorem fftCheck_isSome {s : State} {l : Latch} {i : Instr} : (fftCheck s l i).isSome = fftOnMemory i := by
  cases i <;> rfl

/-- What a command on memory does once it has the engine: its checks, then its body. -/
def State.fftBody (i : Instr) (s : State) : State :=
  match fftCheck s s.latch i with
  | some (.ok f) => s.fftEnd f i
  | some (.error c) => s.finishFft c
  | none => s

theorem fftBody_of_ok {i : Instr} {s : State} {f : FftRegions} (h : fftCheck s s.latch i = some (.ok f)) :
    s.fftBody i = s.fftEnd f i := by simp only [State.fftBody, h]

theorem fftBody_of_error {i : Instr} {s : State} {c : Code} (h : fftCheck s s.latch i = some (.error c)) :
    s.fftBody i = s.finishFft c := by simp only [State.fftBody, h]

/-- Every command on memory goes through the engine (R280). -/
theorem exec_of_onMemory {i : Instr} {s : State} (hi : fftOnMemory i = true) :
    exec i s = .next (s.withEngine (State.fftBody i)) := by
  cases i with
  | fftRfft slot =>
    simp only [exec, execFftRfft]
    congr 2
    funext s
    simp only [State.fftBody, fftCheck]
    cases rfftCheck s s.latch slot <;> rfl
  | fftCfft inv br =>
    simp only [exec, execFftCfft]
    congr 2
    funext s
    simp only [State.fftBody, fftCheck]
    cases cfftCheck s s.latch <;> rfl
  | fftBitrev =>
    simp only [exec, execFftBitrev]
    congr 2
    funext s
    simp only [State.fftBody, fftCheck]
    cases cfftCheck s s.latch <;> rfl
  | fftTopbins k =>
    simp only [exec, execFftTopbins]
    congr 2
    funext s
    simp only [State.fftBody, fftCheck]
    cases topbinsCheck s s.latch k <;> rfl
  | _ => cases hi

theorem exec_of_fftCheck {i : Instr} {s : State} {f : FftRegions} (he : s.hasEngine)
    (hc : fftCheck s s.latch i = some (.ok f)) : exec i s = .next (s.fftEnd f i) := by
  have hi : fftOnMemory i = true := by rw [← fftCheck_isSome (s := s) (l := s.latch), hc]; rfl
  rw [exec_of_onMemory hi, withEngine_of_hasEngine he, fftBody_of_ok hc]

/-! ### FFT_RINIT -/

theorem exec_fftRinit_of_free {s : State} (h : s.feBusy = false ∨ s.feOwner = s.active) (k : Nat) :
    exec (.fftRinit k) s = .next (s.takeEngine.rinit k) := by
  have hno : ¬ (s.feBusy = true ∧ s.feOwner ≠ s.active) := by
    rcases h with h | h <;> simp [h]
  simp only [exec, execFftRinit, if_neg hno]

theorem exec_fftRinit_of_held {s : State} (hb : s.feBusy = true) (ho : s.feOwner ≠ s.active) (k : Nat) :
    exec (.fftRinit k) s = .next s.wait := by
  simp only [exec, execFftRinit, if_pos (And.intro hb ho)]

theorem latch_takeEngine (s : State) : s.takeEngine.latch = s.latch := by simp [State.latch]

end Sys2Proof.Machine
end

section
/-! ## One step of a command, by what it does -/

namespace Sys2Proof.Machine

/-- The states a step of each command can leave, each with what the command has then checked or read. Every proof about all
commands goes through these cases, and not through the commands' own branches. -/
inductive Runs (s : State) : Instr → State → Prop where
  | endsAtOnce (i : Instr) (c : Code) : fftOnMemory i = false → Runs s i (s.finish c)
  | waits (i : Instr) : Runs s i s.wait
  | initialises : s.active = .C → Runs s .bmInit (s.initControlBlock.finish .ok)
  | acquiresIdle (b : BitVec 1) : s.active = .P → s.peek32 (stateAddr s.cfg b) = stIdle →
      Runs s .bmAcqw (s.noteScan.grantWrite b)
  | findsBusy : s.active = .P → Runs s .bmAcqw (s.noteScan.countOverrun.timeoutOrWait s.timedOut)
  | commits (b : BitVec 1) : s.active = .P → s.peek32 (stateAddr s.cfg b) = stWriting →
      Runs s .bmCommit
        (s.handOff (stateAddr s.cfg b) (writeCountAddr s.cfg b) (lastWriteAddr s.cfg b) stWriting stReady .C)
  | acquiresReady (b : BitVec 1) : s.active = .C → s.peek32 (stateAddr s.cfg b) = stReady →
      Runs s .bmAcqr (s.noteStamps.noteScan.grant b stReady stReading)
  | findsNoneReady : s.active = .C → Runs s .bmAcqr (s.noteScan.timeoutOrWait s.timedOut)
  | releases (b : BitVec 1) : s.active = .C → s.peek32 (stateAddr s.cfg b) = stReading →
      Runs s .bmRelease
        (s.handOff (stateAddr s.cfg b) (readCountAddr s.cfg b) (lastReadAddr s.cfg b) stReading stIdle .P)
  | findsOtherState (i : Instr) (a : Nat) : fftOnMemory i = false → Runs s i ((s.noteRead a 4).finish .wrongState)
  | readsWord (i : Instr) (a : Nat) : fftOnMemory i = false → Runs s i (s.stat32 a)
  | readsDoubleWord (i : Instr) (a : Nat) : fftOnMemory i = false → Runs s i (s.stat64 a)
  | snapshots (a : Nat) : s.snapshotTo a → Runs s (.bmStats 13) (s.snapshotAt a)
  | ringsC : Runs s .ntNotifyC ((s.raiseDoorbell .C).finish .ok)
  | ringsP : Runs s .ntNotifyP ((s.raiseDoorbell .P).finish .ok)
  | swaps (a : Nat) : s.atomicWritable a → Runs s .atCas (s.swapped a)
  | adds (a : Nat) : s.atomicWritable a → Runs s .atFadd (s.added a)
  | takesEngine (i : Instr) : fftOnMemory i = true → s.feBusy = false → Runs s i s.takeEngine
  | failsChecks (i : Instr) (c : Code) : s.hasEngine → Runs s i (s.finishFft c)
  | transforms (i : Instr) (f : FftRegions) : s.hasEngine → fftCheck s s.latch i = some (.ok f) →
      Runs s i (s.fftEnd f i)
  | refusesSlot (k : Nat) (c : Code) : Runs s (.fftRinit k) (s.takeEngine.finishFft c)
  | fillsSlot (k : Nat) : k < 4 → s.latch.a0.toNat ∈ Config.rfftSizes →
      Runs s (.fftRinit k) ((s.takeEngine.setInst k (initialisedSlot s.latch.a0)).finishFft .ok)

theorem bmRuns_of_bmCheck {s : State} {p : Port} (h : s.bmCheck (some p) = none) : s.bmRuns p := by
  unfold State.bmCheck at h
  by_cases hv : s.cbValid = false
  · simp [hv] at h
  · by_cases ha : s.active = p
    · exact ⟨by simpa using hv, ha⟩
    · simp [hv, ha] at h

/-! ### The commands with several outcomes -/

theorem runs_bmInit (s : State) : ∃ t, exec .bmInit s = .next t ∧ Runs s .bmInit t := by
  cases ha : s.active with
  | C => exact ⟨_, exec_bmInit ha, .initialises ha⟩
  | P => exact ⟨_, exec_bmInit_of_wrongPort ha, .endsAtOnce _ _ rfl⟩

/-- A common check that fails ends a BM command; else it goes on. -/
theorem BmRole.runs {i : Instr} {role : Option Port} {s : State} (hi : BmRole i role)
    (h : s.bmCheck role = none → ∃ t, exec i s = .next t ∧ Runs s i t) : ∃ t, exec i s = .next t ∧ Runs s i t := by
  cases hc : s.bmCheck role with
  | none => exact h hc
  | some c => exact ⟨_, hi.exec_eq_finish hc, .endsAtOnce _ _ (by cases hi <;> rfl)⟩

theorem runs_bmAcqw (s : State) : ∃ t, exec .bmAcqw s = .next t ∧ Runs s .bmAcqw t := by
  refine BmRole.acqw.runs fun hc => ⟨_, exec_bmAcqw (bmRuns_of_bmCheck hc), ?_⟩
  have ha := (bmRuns_of_bmCheck hc).2
  unfold State.acqwAttempt
  dsimp only
  split
  next h => exact .acquiresIdle _ ha h
  next =>
    split
    next h => exact .acquiresIdle _ ha h
    next => exact .findsBusy ha

theorem runs_bmAcqr (s : State) : ∃ t, exec .bmAcqr s = .next t ∧ Runs s .bmAcqr t := by
  refine BmRole.acqr.runs fun hc => ⟨_, exec_bmAcqr (bmRuns_of_bmCheck hc), ?_⟩
  have ha := (bmRuns_of_bmCheck hc).2
  unfold State.acqrAttempt
  split
  next h => exact .acquiresReady _ ha (peek32_of_readyBuffer h)
  next => exact .findsNoneReady ha

theorem runs_bmCommit (s : State) : ∃ t, exec .bmCommit s = .next t ∧ Runs s .bmCommit t := by
  refine BmRole.commit.runs fun hc => ?_
  obtain ⟨hv, ha⟩ := bmRuns_of_bmCheck hc
  cases hid : bufferId s.latch.a0 with
  | none => exact ⟨_, exec_bmCommit_of_badId hv ha hid, .endsAtOnce _ _ rfl⟩
  | some b =>
    refine ⟨_, exec_bmCommit_of_id hv ha hid, ?_⟩
    by_cases hheld : s.peek32 (stateAddr s.cfg b) = stWriting
    · exact .commits b ha hheld
    · rw [State.handOff, if_neg hheld]
      exact .findsOtherState _ _ rfl

theorem runs_bmRelease (s : State) : ∃ t, exec .bmRelease s = .next t ∧ Runs s .bmRelease t := by
  refine BmRole.release.runs fun hc => ?_
  obtain ⟨hv, ha⟩ := bmRuns_of_bmCheck hc
  cases hid : bufferId s.latch.a0 with
  | none => exact ⟨_, exec_bmRelease_of_badId hv ha hid, .endsAtOnce _ _ rfl⟩
  | some b =>
    refine ⟨_, exec_bmRelease_of_id hv ha hid, ?_⟩
    by_cases hheld : s.peek32 (stateAddr s.cfg b) = stReading
    · exact .releases b ha hheld
    · rw [State.handOff, if_neg hheld]
      exact .findsOtherState _ _ rfl

theorem cbValid_of_bmCheck {s : State} (h : s.bmCheck none = none) : s.cbValid = true := by
  cases hv : s.cbValid with
  | true => rfl
  | false => simp [bmCheck_of_invalid hv] at h

theorem runs_bmState (s : State) : ∃ t, exec .bmState s = .next t ∧ Runs s .bmState t := by
  refine BmRole.state.runs fun hc => ?_
  have hv := cbValid_of_bmCheck hc
  cases hid : bufferId s.latch.a0 with
  | none => exact ⟨_, exec_bmState_of_badId hv hid, .endsAtOnce _ _ rfl⟩
  | some b => exact ⟨_, exec_bmState hv hid, .readsWord _ _ rfl⟩

theorem runs_bmStats (s : State) (k : Nat) : ∃ t, exec (.bmStats k) s = .next t ∧ Runs s (.bmStats k) t := by
  refine (BmRole.stats k).runs fun hc => ?_
  have hv := cbValid_of_bmCheck hc
  refine ⟨_, exec_bmStats hv k, ?_⟩
  unfold State.stats
  split
  case h_14 =>
    cases hr : snapshotRefused s.cfg s.latch.a0.toNat with
    | true =>
      rw [snapshot_of_refused hr]
      exact .endsAtOnce _ _ rfl
    | false =>
      rw [snapshot_of_accepted hr]
      rw [← Bool.not_eq_true, snapshotRefused_iff] at hr
      exact .snapshots _ ⟨hv, rfl, by omega⟩
  case h_15 => exact .endsAtOnce _ _ rfl
  case h_7 | h_8 | h_9 | h_10 => exact .readsDoubleWord _ _ rfl
  all_goals exact .readsWord _ _ rfl

theorem runs_atLoad (s : State) : ∃ t, exec .atLoad s = .next t ∧ Runs s .atLoad t := by
  cases hr : atomicRefused s.cfg false s.latch.a0.toNat with
  | true => exact ⟨_, AtomicRole.load.exec_eq_finish hr, .endsAtOnce _ _ rfl⟩
  | false => exact ⟨_, exec_atLoad (atomicWord_of_accepted hr), .readsWord _ _ rfl⟩

theorem runs_atCas (s : State) : ∃ t, exec .atCas s = .next t ∧ Runs s .atCas t := by
  cases hr : atomicRefused s.cfg true s.latch.a0.toNat with
  | true => exact ⟨_, AtomicRole.cas.exec_eq_finish hr, .endsAtOnce _ _ rfl⟩
  | false => exact ⟨_, exec_atCas (atomicWritable_of_accepted hr), .swaps _ (atomicWritable_of_accepted hr)⟩

theorem runs_atFadd (s : State) : ∃ t, exec .atFadd s = .next t ∧ Runs s .atFadd t := by
  cases hr : atomicRefused s.cfg true s.latch.a0.toNat with
  | true => exact ⟨_, AtomicRole.fadd.exec_eq_finish hr, .endsAtOnce _ _ rfl⟩
  | false => exact ⟨_, exec_atFadd (atomicWritable_of_accepted hr), .adds _ (atomicWritable_of_accepted hr)⟩

theorem runs_fftRinit (s : State) (k : Nat) : ∃ t, exec (.fftRinit k) s = .next t ∧ Runs s (.fftRinit k) t := by
  by_cases hfree : s.feBusy = false ∨ s.feOwner = s.active
  · refine ⟨_, exec_fftRinit_of_free hfree k, ?_⟩
    unfold State.rinit
    rw [latch_takeEngine]
    split
    next => exact .refusesSlot _ _
    next hk =>
      split
      next => exact .refusesSlot _ _
      next hn => exact .fillsSlot k (by simpa [Config.numInst] using hk) (by simpa using hn)
  · rw [not_or, Bool.not_eq_false] at hfree
    exact ⟨_, exec_fftRinit_of_held hfree.1 hfree.2 k, .waits _⟩

/-- The engine's answers to a command on memory. -/
theorem runs_onMemory {i : Instr} (s : State) (hi : fftOnMemory i = true) : ∃ t, exec i s = .next t ∧ Runs s i t := by
  refine ⟨_, exec_of_onMemory hi, ?_⟩
  unfold State.withEngine
  split
  next hb =>
    split
    next ho =>
      cases hc : fftCheck s s.latch i with
      | none => simp [← fftCheck_isSome (s := s) (l := s.latch), hc] at hi
      | some r =>
        cases r with
        | ok f => exact fftBody_of_ok hc ▸ .transforms i f ⟨hb, ho⟩ hc
        | error c => exact fftBody_of_error hc ▸ .failsChecks i c ⟨hb, ho⟩
    next => exact .waits i
  next hb => exact .takesEngine i hi (by simpa using hb)

/-- Every command answers a next state, one of `Runs`. -/
theorem exec_answers (i : Instr) (s : State) : ∃ t, exec i s = .next t ∧ Runs s i t := by
  cases i with
  | nop => exact ⟨_, rfl, .endsAtOnce _ _ rfl⟩
  | fence => exact ⟨_, rfl, .endsAtOnce _ _ rfl⟩
  | ntNotifyC => exact ⟨_, rfl, .ringsC⟩
  | ntNotifyP => exact ⟨_, rfl, .ringsP⟩
  | bmInit => exact runs_bmInit s
  | bmAcqw => exact runs_bmAcqw s
  | bmCommit => exact runs_bmCommit s
  | bmAcqr => exact runs_bmAcqr s
  | bmRelease => exact runs_bmRelease s
  | bmState => exact runs_bmState s
  | bmStats k => exact runs_bmStats s k
  | atLoad => exact runs_atLoad s
  | atCas => exact runs_atCas s
  | atFadd => exact runs_atFadd s
  | fftRinit k => exact runs_fftRinit s k
  | fftRfft k => exact runs_onMemory s rfl
  | fftCfft inv br => exact runs_onMemory s rfl
  | fftBitrev => exact runs_onMemory s rfl
  | fftTopbins k => exact runs_onMemory s rfl

theorem runs_of_exec {i : Instr} {s t : State} (h : exec i s = .next t) : Runs s i t := by
  obtain ⟨u, hu, hr⟩ := exec_answers i s
  obtain rfl : u = t := Host.Outcome.next.inj (hu.symm.trans h)
  exact hr

end Sys2Proof.Machine
end

section
/-! ## The checks of the FFT commands that pass, and what the commands then store (`43_fft_commands.md` R283 to R285) -/

namespace Sys2Proof.Machine

theorem aligned_iff {n a : Nat} : aligned n a = true ↔ a % n = 0 := decide_eq_true_iff

/-- A check that comes first passes, and so do the others. -/
theorem failIf_eq_ok_iff {p : Prop} [Decidable p] {c : Code} {x : Except Code FftRegions} {f : FftRegions} :
    (if p then .error c else x) = .ok f ↔ ¬ p ∧ x = .ok f := by
  by_cases hp : p <;> simp [hp]

/-- The last check passes and gives the regions. -/
theorem okIf_eq_ok_iff {p : Prop} [Decidable p] {c : Code} {g f : FftRegions} :
    (if p then Except.ok g else .error c) = .ok f ↔ p ∧ f = g := by
  by_cases hp : p <;> simp [hp, eq_comm]

theorem rfftCheck_eq_ok_iff {s : State} {l : Latch} {k : Nat} {f : FftRegions} :
    rfftCheck s l k = .ok f ↔ ∃ t, s.inst k = some t ∧ t.valid = true ∧ (l.a0.toNat ≠ 0 ∧ l.a1.toNat ≠ 0) ∧
      (l.a0.toNat % 4 = 0 ∧ l.a1.toNat % 4 = 0 ∧ inWindow s.cfg ⟨l.a0.toNat, 2 * t.n.toNat⟩ = true ∧
        inWindow s.cfg ⟨l.a1.toNat, 4 * t.n.toNat⟩ = true ∧
        Region.overlaps ⟨l.a0.toNat, 2 * t.n.toNat⟩ ⟨l.a1.toNat, 4 * t.n.toNat⟩ = false) ∧
      f = ⟨⟨l.a0.toNat, 2 * t.n.toNat⟩, [⟨l.a0.toNat, 2 * t.n.toNat⟩, ⟨l.a1.toNat, 4 * t.n.toNat⟩]⟩ := by
  unfold rfftCheck
  cases hi : s.inst k with
  | none => simp
  | some t =>
    simp only [Option.some.injEq, exists_eq_left', failIf_eq_ok_iff, okIf_eq_ok_iff, anyNull_iff, not_or,
      Bool.not_eq_false, Bool.and_eq_true, Bool.not_eq_true', aligned_iff, and_assoc, ne_eq]

theorem cfftCheck_eq_ok_iff {s : State} {l : Latch} {f : FftRegions} :
    cfftCheck s l = .ok f ↔ l.a0.toNat ≠ 0 ∧ l.a1.toNat ∈ Config.cfftSizes ∧
      (l.a0.toNat % 4 = 0 ∧ inWindow s.cfg ⟨l.a0.toNat, 4 * l.a1.toNat⟩ = true) ∧
      f = ⟨⟨l.a0.toNat, 4 * l.a1.toNat⟩, [⟨l.a0.toNat, 4 * l.a1.toNat⟩]⟩ := by
  simp only [cfftCheck, failIf_eq_ok_iff, okIf_eq_ok_iff, null_iff, Bool.not_eq_false, List.contains_iff_mem,
    Bool.and_eq_true, aligned_iff, ne_eq]

theorem topbinsCheck_eq_ok_iff {s : State} {l : Latch} {k : Nat} {f : FftRegions} :
    topbinsCheck s l k = .ok f ↔ (l.a0.toNat ≠ 0 ∧ l.a3.toNat ≠ 0) ∧
      (l.a2.toNat ∈ Config.rfftSizes ∧ l.a1 = l.a2) ∧ (1 ≤ k ∧ k ≤ l.a2.toNat / 2) ∧
      (l.a0.toNat % 2 = 0 ∧ l.a3.toNat % 2 = 0 ∧ inWindow s.cfg ⟨l.a0.toNat, 2 * l.a2.toNat⟩ = true ∧
        inWindow s.cfg ⟨l.a3.toNat, 2 * k⟩ = true) ∧
      f = ⟨⟨l.a0.toNat, 2 * l.a2.toNat⟩, [⟨l.a3.toNat, 2 * k⟩]⟩ := by
  simp only [topbinsCheck, failIf_eq_ok_iff, okIf_eq_ok_iff, anyNull_iff, not_or, Bool.not_eq_false,
    List.contains_iff_mem, Bool.and_eq_true, aligned_iff, ne_eq, not_not, not_lt, and_assoc]

theorem flatMap_leBytes2_length (l : List TopBin) : (l.flatMap fun r => leBytes 2 r.index).length = 2 * l.length := by
  simp [List.length_flatMap, Nat.mul_comm]

/-- The regions of a command that passed its checks lie in the window. -/
theorem inWindow_written {s : State} {l : Latch} {i : Instr} {f : FftRegions}
    (h : fftCheck s l i = some (.ok f)) : ∀ r ∈ f.written, inWindow s.cfg r = true := by
  cases i with
  | fftRfft slot =>
    obtain ⟨t, _, _, _, ⟨_, _, hsrc, hdst, _⟩, rfl⟩ := rfftCheck_eq_ok_iff.mp (Option.some.inj h)
    simp [hsrc, hdst]
  | fftCfft inv br =>
    obtain ⟨_, _, ⟨_, hbuf⟩, rfl⟩ := cfftCheck_eq_ok_iff.mp (Option.some.inj h)
    simp [hbuf]
  | fftBitrev =>
    obtain ⟨_, _, ⟨_, hbuf⟩, rfl⟩ := cfftCheck_eq_ok_iff.mp (Option.some.inj h)
    simp [hbuf]
  | fftTopbins k =>
    obtain ⟨_, _, _, ⟨_, _, _, hout⟩, rfl⟩ := topbinsCheck_eq_ok_iff.mp (Option.some.inj h)
    simp [hout]
  | _ => cases h

/-- A valid slot is one that FFT_RINIT has filled. -/
theorem SlotOk.length {t : InstSlot} (h : SlotOk t) (hv : t.valid = true) :
    t.n.toNat % 4 = 0 ∧ 0 < t.n.toNat ∧ t.n.toNat / 2 ∈ Config.cfftSizes := by
  rcases h with rfl | rfl | rfl
  · cases hv
  · decide
  · decide

/-- A result is stored from the start of its region on; it fills the region if the slots are as FFT_RINIT fills them. -/
def State.Fills (s : State) (w : Nat × List Byte) (r : Region) : Prop :=
  w.1 = r.base ∧ w.2.length ≤ r.len ∧ ((∀ k t, s.inst k = some t → SlotOk t) → w.2.length = r.len)

/-- A result of its region's length. -/
theorem fills_of_length (s : State) {w : Nat × List Byte} {r : Region} (hbase : w.1 = r.base) (hlen : w.2.length = r.len) :
    s.Fills w r := ⟨hbase, hlen.le, fun _ => hlen⟩

/-- A command has one result for each region that its checks give. -/
theorem fftResults_fill {s : State} {i : Instr} {f : FftRegions} (h : fftCheck s s.latch i = some (.ok f)) :
    List.Forall₂ s.Fills (s.fftResults f i) f.written := by
  cases i with
  | fftRfft slot =>
    obtain ⟨t, ht, hv, _, _, rfl⟩ := rfftCheck_eq_ok_iff.mp (Option.some.inj h)
    have hz : ∀ x, (bytesOfSamples (realFft s.cfg.variant t.n.toNat x).1).length = 4 * (t.n.toNat / 2) := fun x => by
      rw [length_bytesOfSamples]
      exact congrArg _ (cfft_length _ _ _ _ (.inr rfl))
    have hd : ∀ x, (bytesOfSamples (realFft s.cfg.variant t.n.toNat x).2).length = 4 * t.n.toNat := fun x => by
      rw [length_bytesOfSamples]
      exact congrArg _ (split_length _ _)
    simp only [State.fftResults, ht, Option.getD_some]
    refine .cons ⟨rfl, (hz _).trans_le (by dsimp only; omega), fun hslots => (hz _).trans ?_⟩
      (.cons (fills_of_length s rfl (hd _)) .nil)
    have hn := ((hslots _ _ ht).length hv).1
    dsimp only
    omega
  | fftCfft inv br =>
    obtain ⟨_, hm, _, rfl⟩ := cfftCheck_eq_ok_iff.mp (Option.some.inj h)
    refine .cons (fills_of_length s rfl ?_) .nil
    rw [length_bytesOfSamples, cfft_length _ _ _ _ (.inl (by simpa using hm))]
  | fftBitrev =>
    obtain ⟨_, _, _, rfl⟩ := cfftCheck_eq_ok_iff.mp (Option.some.inj h)
    refine .cons (fills_of_length s rfl ?_) .nil
    rw [length_bytesOfSamples, bitReverse_length]
  | fftTopbins k =>
    obtain ⟨_, _, _, _, rfl⟩ := topbinsCheck_eq_ok_iff.mp (Option.some.inj h)
    refine .cons (fills_of_length s rfl ?_) .nil
    rw [flatMap_leBytes2_length, topBins_length]
  | _ => cases h

theorem exists_of_forall₂ {α β : Type} {R : α → β → Prop} {l : List α} {m : List β} (h : List.Forall₂ R l m) :
    ∀ a ∈ l, ∃ b ∈ m, R a b := by
  induction h with
  | nil => simp
  | cons hab _ ih => exact List.forall_mem_cons.mpr ⟨⟨_, List.mem_cons_self, hab⟩, fun a ha =>
      (ih a ha).imp fun b hb => ⟨List.mem_cons_of_mem _ hb.1, hb.2⟩⟩

/-- A command stores results only inside the regions that its checks give. -/
theorem fftResults_inside {s : State} {i : Instr} {f : FftRegions} (h : fftCheck s s.latch i = some (.ok f)) :
    ∀ w ∈ s.fftResults f i, ∃ r ∈ f.written, w.1 = r.base ∧ w.2.length ≤ r.len := fun w hw =>
  (exists_of_forall₂ (fftResults_fill h) w hw).imp fun _ hr => ⟨hr.1, hr.2.1, hr.2.2.1⟩

/-- A command whose slots are as FFT_RINIT fills them stores a result over each whole region that its checks give. -/
theorem fftResults_cover {s : State} {i : Instr} {f : FftRegions} (h : fftCheck s s.latch i = some (.ok f))
    (hslots : ∀ k t, s.inst k = some t → SlotOk t) :
    ∀ r ∈ f.written, ∃ w ∈ s.fftResults f i, w.1 = r.base ∧ w.2.length = r.len := fun r hr =>
  (exists_of_forall₂ (fftResults_fill h).flip r hr).imp fun _ hw => ⟨hw.1, hw.2.1, hw.2.2.2 hslots⟩

/-! ### The end of a command on memory -/

/-- The end returns a result for FFT_TOPBINS alone. -/
theorem fftReturn_cases (s t : State) (f : FftRegions) (i : Instr) :
    (∃ k v, i = .fftTopbins k ∧ s.fftReturn t f i = ((t.setRes0 v).finishFft .ok).setWorkFree s.tick) ∨
      (∀ k, i ≠ .fftTopbins k) ∧ s.fftReturn t f i = t.finishFft .ok := by
  cases i with
  | fftTopbins k => exact .inl ⟨k, _, rfl, rfl⟩
  | _ => exact .inr ⟨fun k => Instr.noConfusion, rfl⟩

/-- What the end of a command on memory leaves, after its stores. -/
theorem fftReturn_spec {s t : State} (h : MemoryOp s t) (f : FftRegions) (i : Instr) :
    let u := s.fftReturn t f i
    Ended u .ok ∧ EngineFreed s u ∧ SameSlots s u ∧ u.mem = t.mem ∧
      (u.act.res1 = s.act.res1 ∧ u.act.res2 = s.act.res2 ∧ u.act.res3 = s.act.res3) ∧
      ((∀ k, i ≠ .fftTopbins k) → u.act.res0 = s.act.res0 ∧ u.workFree = s.workFree) := by
  intro u
  have hfreed := EngineFreed.finishFft h .ok
  have hact := h.act
  rcases fftReturn_cases s t f i with ⟨k, v, hi, hu⟩ | ⟨hi, hu⟩ <;> simp only [u, hu]
  · refine ⟨⟨by simp, by simp, by simp, by simp⟩, ⟨?_, by simp, ?_, fun p => ?_, ?_⟩, fun j => by simpa using h.inst j,
      by simp, by simp [hact], fun hno => absurd hi (hno k)⟩
    · exact ((h.frame.setRes0 v).finishFft .ok).congr rfl rfl rfl rfl rfl rfl rfl (fun q => by cases q <;> rfl)
    · simpa using h.feOwner
    · simpa using ((h.sameDoorbells.setRes0 v).finish .ok) p
    · simpa [SameBuffers] using ⟨h.lastUsed, h.cbValid⟩
  · exact ⟨Ended.finishFft _ _, hfreed, fun j => by simpa using h.inst j, by simp, by simp [hact],
      fun _ => ⟨by simp [hact], by simpa using h.workFree⟩⟩

end Sys2Proof.Machine
end

section
/-! ## One step of the machine, by its event -/

namespace Sys2Proof.Machine

/-- A store to the register window changes one port at most. -/
theorem writeReg_eq_setPort (s : State) (o : Nat) (v : Word) : ∃ p ps, s.writeReg o v = s.setPort p ps := by
  unfold State.writeReg
  split
  · exact ⟨_, _, rfl⟩
  · split
    · exact ⟨_, _, rfl⟩
    · exact ⟨.P, s.port .P, (setPort_port s .P).symm⟩

/-- A load from the register window changes one port at most. -/
theorem afterReadReg_eq_setPort (s : State) (o : Nat) : ∃ p ps, s.afterReadReg o = s.setPort p ps := by
  unfold State.afterReadReg
  split
  · exact ⟨_, _, rfl⟩
  · split
    · exact ⟨_, _, rfl⟩
    · exact ⟨.P, s.port .P, (setPort_port s .P).symm⟩

/-- The states that an event can leave, each with what the event has then met. Proofs about every step go through these
cases. -/
inductive Moves (s : State) : Event → State → Prop where
  | idles (p : Port) : s.inReset = true ∨ (s.port p).busy = false → Moves s (.command p) s
  | runs (p : Port) (i : Instr) (t : State) : s.inReset = false → (s.port p).busy = true →
      decodeWord (s.port p).latch.word = .ok i → exec i (s.setActive p) = .next t → Moves s (.command p) t
  | illegal (p : Port) (e : DecodeError) : s.inReset = false → (s.port p).busy = true →
      decodeWord (s.port p).latch.word = .error e → Moves s (.command p) ((s.setActive p).finish .illegal)
  | loadsRegister (cpu : Port) (w : Width) (a v : Word) (o : Nat) :
      Moves s (.cpuLoad cpu w a) ((s.afterReadReg o).returnToCpu cpu v)
  | loadsWithoutEffect (cpu : Port) (w : Width) (a v : Word) : Moves s (.cpuLoad cpu w a) (s.returnToCpu cpu v)
  | loadsShared (cpu : Port) (w : Width) (a : Word) : inWindow s.cfg ⟨a.toNat, w.bytes⟩ = true →
      Moves s (.cpuLoad cpu w a) (loadShared cpu w a.toNat s)
  | ignoresStore (cpu : Port) (w : Width) (a v : Word) : Moves s (.cpuStore cpu w a v) s
  | storesRegister (cpu : Port) (w : Width) (a v : Word) (o : Nat) : s.inReset = false →
      Moves s (.cpuStore cpu w a v) (s.writeReg o v)
  | storesShared (cpu : Port) (w : Width) (a v : Word) : inWindow s.cfg ⟨a.toNat, w.bytes⟩ = true →
      Moves s (.cpuStore cpu w a v) (storeShared w a.toNat v s)
  | advances (p : Port) (ms : DWord) : Moves s (.clock p ms) (s.advanceClock p ms)
  | asserts : Moves s .resetAssert s.assertReset
  | releases : Moves s .resetRelease s.releaseReset

/-- An access that goes to the shared window lies in it. -/
theorem inWindow_of_target {c : Config} {a n : Nat} (h : target c a n = .shared) : inWindow c ⟨a, n⟩ = true := by
  unfold target at h
  split at h
  · split at h <;> cases h
  · split at h
    · assumption
    · cases h

theorem moves_of_runCommand {p : Port} {s t : State} (h : runCommand p s = .next t) : Moves s (.command p) t := by
  rcases runCommand_cases p s with ⟨hidle, hrun⟩ | ⟨hr, hb, ⟨i, hd, hrun⟩ | ⟨e, hd, hrun⟩⟩ <;> rw [hrun] at h
  · obtain rfl := Host.Outcome.next.inj h
    exact .idles p hidle
  · exact .runs p i t hr hb hd h
  · obtain rfl := Host.Outcome.next.inj h
    exact .illegal p e hr hb hd

theorem moves_of_cpuLoad {cpu : Port} {w : Width} {a : Word} {s t : State} (h : cpuLoad cpu w a s = .next t) :
    Moves s (.cpuLoad cpu w a) t := by
  unfold cpuLoad at h
  split at h
  case h_1 o _ =>
    unfold loadRegister at h
    split at h
    · cases h
    · split at h
      · cases h
        exact .loadsWithoutEffect ..
      · split at h <;> cases h
        · exact .loadsRegister ..
        · exact .loadsWithoutEffect ..
  case h_2 ht =>
    cases h
    exact .loadsShared _ _ _ (inWindow_of_target ht)
  case h_3 => cases h

theorem moves_of_cpuStore {cpu : Port} {w : Width} {a v : Word} {s t : State} (h : cpuStore w a v s = .next t) :
    Moves s (.cpuStore cpu w a v) t := by
  unfold cpuStore at h
  split at h
  case h_1 o _ =>
    unfold storeRegister at h
    split at h
    · cases h
      exact .ignoresStore ..
    · split at h
      · cases h
      · split at h <;> cases h
        · exact .ignoresStore ..
        next hr => exact .storesRegister _ _ _ _ _ (by simpa using hr)
  case h_2 ht =>
    cases h
    exact .storesShared _ _ _ _ (inWindow_of_target ht)
  case h_3 => cases h

theorem moves_of_perform {e : Event} {s t : State} (h : perform e s = .next t) : Moves s e t := by
  cases e with
  | command p => exact moves_of_runCommand h
  | cpuLoad cpu w a => exact moves_of_cpuLoad h
  | cpuStore cpu w a v => exact moves_of_cpuStore h
  | clock p ms =>
    obtain rfl := Host.Outcome.next.inj h
    exact .advances p ms
  | resetAssert =>
    obtain rfl := Host.Outcome.next.inj h
    exact .asserts
  | resetRelease =>
    obtain rfl := Host.Outcome.next.inj h
    exact .releases

/-- A step that answers: nothing but the counter, or an event from the state with that event off the schedule. -/
theorem moves_of_step {s t : State} (h : step s = .next t) :
    t = s.ticked ∨ ∃ e rest u, s.nextEvent = some e ∧ Moves (s.setSchedule rest) e u ∧ t = u.ticked := by
  rcases step_cases s with ⟨_, hs⟩ | ⟨e, rest, he, hs⟩ <;> rw [hs] at h
  · exact .inl (Host.Outcome.next.inj h).symm
  · obtain ⟨u, hu, ht⟩ := countStep_next h
    exact .inr ⟨e, rest, u, he, moves_of_perform hu, ht⟩

end Sys2Proof.Machine
end

section
/-! ## Memory stays in canonical form and in the shared window (`20_memory.md` R81, R82) -/

namespace Sys2Proof.Machine

/-- From `s` to `t` the parameters stay, and memory stays canonical and inside the window if it was so. -/
structure KeepsMemory (s t : State) : Prop where
  cfg : t.cfg = s.cfg
  ok : s.memoryOk → t.memoryOk

theorem KeepsMemory.trans {s t u : State} (h : KeepsMemory s t) (k : KeepsMemory t u) : KeepsMemory s u :=
  ⟨k.cfg.trans h.cfg, fun hs => k.ok (h.ok hs)⟩

theorem KeepsMemory.of_sameMem {s t : State} (hc : t.cfg = s.cfg) (hm : t.mem = s.mem) : KeepsMemory s t :=
  ⟨hc, fun h => by rwa [State.memoryOk, hc, hm]⟩

theorem inWindow_iff (c : Config) (r : Region) :
    inWindow c r = true ↔ c.sharedBase.toNat ≤ r.base ∧ r.base + r.len ≤ c.windowEnd := by
  simp [inWindow]

/-- A store inside the window. -/
theorem KeepsMemory.of_write {s t : State} {a : Nat} {bs : List Byte} (hc : t.cfg = s.cfg)
    (hm : t.mem = s.mem.write a bs) (hw : inWindow s.cfg ⟨a, bs.length⟩ = true) : KeepsMemory s t := by
  refine ⟨hc, fun ⟨hwf, hin⟩ => ⟨hm ▸ Memory.wf_write hwf a bs, fun c hcell => ?_⟩⟩
  obtain ⟨hlow, hhigh⟩ := (inWindow_iff ..).mp hw
  rw [hc]
  rw [hm] at hcell
  rcases Memory.mem_write hcell with hold | ⟨h1, h2⟩
  · exact hin c hold
  · exact ⟨hlow.trans h1, h2.trans_le hhigh⟩

theorem KeepsMemory.store {s : State} {a : Nat} {bs : List Byte} (hw : inWindow s.cfg ⟨a, bs.length⟩ = true) :
    KeepsMemory s (s.store a bs) := .of_write (by simp) (by simp) hw

theorem KeepsMemory.storeZero (s : State) (r : Region) : KeepsMemory s (s.storeZero r) := by
  refine ⟨by simp, fun ⟨hwf, hin⟩ => ⟨by simpa using Memory.wf_zero hwf r.base r.len, fun c hc => ?_⟩⟩
  rw [mem_storeZero] at hc
  simpa using hin c (Memory.mem_zero hc)

theorem KeepsMemory.cas32 {s : State} {a : Nat} (e n : Word) (hw : inWindow s.cfg ⟨a, 4⟩ = true) :
    KeepsMemory s (s.cas32 a e n) := by
  by_cases h : s.peek32 a = e
  · exact .of_write (by simp) ((mem_cas32 ..).trans (if_pos h)) (by simpa using hw)
  · exact .of_sameMem (by simp) ((mem_cas32 ..).trans (if_neg h))

theorem KeepsMemory.fadd32 {s : State} {a : Nat} (d : Word) (hw : inWindow s.cfg ⟨a, 4⟩ = true) :
    KeepsMemory s (s.fadd32 a d) := .of_write (by simp) (mem_fadd32 ..) (by simpa using hw)

/-- Stores one after the other, each inside the window. -/
theorem KeepsMemory.of_writes {ws : List (Nat × List Byte)} {s t : State} (hc : t.cfg = s.cfg)
    (hm : t.mem = s.mem.writes ws) (hw : ∀ w ∈ ws, inWindow s.cfg ⟨w.1, w.2.length⟩ = true) : KeepsMemory s t := by
  induction ws generalizing s with
  | nil => exact .of_sameMem hc hm
  | cons w ws ih =>
    have hfirst : KeepsMemory s (s.setMem (s.mem.write w.1 w.2)) := .of_write rfl rfl (hw w (List.mem_cons_self ..))
    exact hfirst.trans (ih hc hm fun v hv => hw v (List.mem_cons_of_mem _ hv))

/-! ### The defined fields lie in the window -/

/-- What R9 asks of the parameters, where a proof needs it. -/
theorem Config.cbSize_of_wf {c : Config} (h : c.wf = true) : 0x0C4 ≤ c.cbSize.toNat := by
  simp only [Config.wf, Bool.and_eq_true, decide_eq_true_eq] at h
  omega

theorem inWindow_of_field {c : Config} (h : c.wf = true) {a n : Nat} (hlow : c.cbBase ≤ a)
    (hhigh : a + n ≤ c.cbBase + 0x0C4) : inWindow c ⟨a, n⟩ = true := by
  have hsize := Config.cbSize_of_wf h
  simp only [inWindow_iff, Config.windowEnd, Config.cbBase] at hlow hhigh ⊢
  omega

theorem inWindow_stateAddr {c : Config} (h : c.wf = true) (i : BitVec 1) : inWindow c ⟨stateAddr c i, 4⟩ = true :=
  inWindow_of_field h (by simp [stateAddr]) (by simp only [stateAddr]; omega)

theorem inWindow_writeCountAddr {c : Config} (h : c.wf = true) (i : BitVec 1) :
    inWindow c ⟨writeCountAddr c i, 4⟩ = true :=
  inWindow_of_field h (by simp only [writeCountAddr]; omega) (by simp only [writeCountAddr]; omega)

theorem inWindow_readCountAddr {c : Config} (h : c.wf = true) (i : BitVec 1) :
    inWindow c ⟨readCountAddr c i, 4⟩ = true :=
  inWindow_of_field h (by simp only [readCountAddr]; omega) (by simp only [readCountAddr]; omega)

theorem inWindow_lastWriteAddr {c : Config} (h : c.wf = true) (i : BitVec 1) :
    inWindow c ⟨lastWriteAddr c i, 8⟩ = true :=
  inWindow_of_field h (by simp only [lastWriteAddr]; omega) (by simp only [lastWriteAddr]; omega)

theorem inWindow_lastReadAddr {c : Config} (h : c.wf = true) (i : BitVec 1) :
    inWindow c ⟨lastReadAddr c i, 8⟩ = true :=
  inWindow_of_field h (by simp only [lastReadAddr]; omega) (by simp only [lastReadAddr]; omega)

/-! ### The commands -/

/-- The fields that BM_INIT writes over the zeroed Control Block (R151). -/
def initWrites (c : Config) : List (Nat × List Byte) :=
  [(stateAddr c 0, wordBytes stIdle), (stateAddr c 1, wordBytes stIdle), (bufferSizeAddr c, wordBytes c.bufSize),
    (timeoutMsAddr c, wordBytes c.timeoutMs), (consumerReadyAddr c, wordBytes 1)]

theorem mem_initControlBlock (s : State) :
    s.initControlBlock.mem = (s.mem.zero s.cfg.cbBase s.cfg.cbSize.toNat).writes (initWrites s.cfg) := by
  simp [State.initControlBlock, Memory.writes, initWrites, controlBlock]

section Commands

variable {s : State} (hwf : s.cfg.wf = true)
include hwf

theorem KeepsMemory.initControlBlock : KeepsMemory s s.initControlBlock := by
  refine (KeepsMemory.storeZero s (controlBlock s.cfg)).trans (.of_writes (ws := initWrites s.cfg)
    (by simp [State.initControlBlock]) (by rw [mem_initControlBlock, mem_storeZero]; rfl) ?_)
  rw [cfg_storeZero]
  simp only [initWrites, List.forall_mem_cons, length_wordBytes]
  refine ⟨inWindow_stateAddr hwf 0, inWindow_stateAddr hwf 1, ?_, ?_, ?_, by simp⟩ <;>
    exact inWindow_of_field hwf (Nat.le_add_right ..) (by simp [bufferSizeAddr, timeoutMsAddr, consumerReadyAddr])

theorem KeepsMemory.grant {u : State} (hu : KeepsMemory s u) (i : BitVec 1) (free taken : Word) :
    KeepsMemory s (u.grant i free taken) := by
  have hc : KeepsMemory u (u.cas32 (stateAddr u.cfg i) free taken) :=
    .cas32 free taken (inWindow_stateAddr (hu.cfg ▸ hwf) i)
  exact (hu.trans hc).trans (.of_sameMem (by simp [State.grant]) (by simp [State.grant]))

theorem KeepsMemory.timeoutOrWait {u : State} (hu : KeepsMemory s u) (e : Bool) :
    KeepsMemory s (u.timeoutOrWait e) := by
  unfold State.timeoutOrWait
  split
  · have ht : KeepsMemory u (u.fadd32 (timeoutAddr u.cfg) 1) :=
      .fadd32 1 (inWindow_of_field (hu.cfg ▸ hwf) (by simp [timeoutAddr]) (by simp [timeoutAddr]))
    exact (hu.trans ht).trans (.of_sameMem (by simp) (by simp))
  · exact hu.trans (.of_sameMem (by simp) (by simp))

theorem KeepsMemory.countOverrun {u : State} (hu : KeepsMemory s u) : KeepsMemory s u.countOverrun := by
  unfold State.countOverrun
  split
  · exact hu
  · have ht : KeepsMemory u (u.fadd32 (overrunAddr u.cfg) 1) :=
      .fadd32 1 (inWindow_of_field (hu.cfg ▸ hwf) (by simp [overrunAddr]) (by simp [overrunAddr]))
    exact (hu.trans ht).trans (.of_sameMem (by simp) (by simp))

end Commands

theorem KeepsMemory.handOff {st counter stamp : Nat} (hst : inWindow s.cfg ⟨st, 4⟩ = true)
    (hcounter : inWindow s.cfg ⟨counter, 4⟩ = true) (hstamp : inWindow s.cfg ⟨stamp, 8⟩ = true)
    (held given : Word) (p : Port) : KeepsMemory s (s.handOff st counter stamp held given p) := by
  unfold State.handOff
  split
  · have h1 : KeepsMemory s (s.cas32 st held given) := .cas32 held given hst
    have h2 := h1.trans (.fadd32 (a := counter) 1 (by simpa using hcounter))
    have h3 := h2.trans (.store (a := stamp) (bs := dwordBytes s.now) (by simpa using hstamp))
    exact h3.trans (.of_sameMem (by simp [State.fullFence, State.store64]) (by simp [State.fullFence, State.store64]))
  · exact .of_sameMem (by simp) (by simp)

/-! ### The FFT commands -/

/-- Whether it races or not, an FFT command stores only inside the regions that its checks give. -/
theorem KeepsMemory.fftStore {s : State} {i : Instr} {f : FftRegions} (h : fftCheck s s.latch i = some (.ok f)) :
    KeepsMemory s (s.fftStore f (s.fftResults f i)) := by
  have hcfg := (MemoryOp.fftStore s f (s.fftResults f i)).cfg
  cases hr : s.raced f with
  | true =>
    refine .of_writes hcfg (mem_fftStore_raced hr _) fun w hw => ?_
    obtain ⟨r, hmem, rfl⟩ := List.mem_map.mp hw
    simpa [freeBytes] using inWindow_written h r hmem
  | false =>
    refine .of_writes hcfg (mem_fftStore hr _) fun w hw => ?_
    obtain ⟨r, hmem, hbase, hlen⟩ := fftResults_inside h w hw
    have hin := (inWindow_iff ..).mp (inWindow_written h r hmem)
    exact (inWindow_iff ..).mpr ⟨hbase ▸ hin.1, by dsimp only; omega⟩

/-- A command keeps memory canonical and inside the window. -/
theorem KeepsMemory.of_runs {i : Instr} {s t : State} (hwf : s.cfg.wf = true) (h : Runs s i t) : KeepsMemory s t := by
  cases h with
  | initialises => exact (KeepsMemory.initControlBlock hwf).trans (.of_sameMem (by simp) (by simp))
  | acquiresIdle b =>
    exact (KeepsMemory.grant hwf (.of_sameMem (by simp [State.noteScan]) (by simp)) b _ _).trans (.of_sameMem rfl rfl)
  | findsBusy => exact .timeoutOrWait hwf (.countOverrun hwf (.of_sameMem (by simp [State.noteScan]) (by simp))) _
  | commits b =>
    exact .handOff (inWindow_stateAddr hwf b) (inWindow_writeCountAddr hwf b) (inWindow_lastWriteAddr hwf b) _ _ _
  | acquiresReady b =>
    exact .grant hwf (.of_sameMem ((MemoryOp.noteStamps s).trans (.noteScan _)).cfg (by simp)) b _ _
  | findsNoneReady => exact .timeoutOrWait hwf (.of_sameMem (by simp [State.noteScan]) (by simp)) _
  | releases b =>
    exact .handOff (inWindow_stateAddr hwf b) (inWindow_readCountAddr hwf b) (inWindow_lastReadAddr hwf b) _ _ _
  | snapshots a ha =>
    obtain ⟨-, -, -, -, hlow, hhigh, -⟩ := ha
    have hm := MemoryOp.snapshotReads s (snapshotFields s.cfg)
    refine .of_write (a := a) (bs := s.snapshotBytes) (by simp [State.snapshotAt, hm.cfg]) ?_ ?_
    · simp [State.snapshotAt]
    · exact (inWindow_iff ..).mpr ⟨hlow, by simpa using hhigh⟩
  | swaps a ha =>
    have hin : inWindow s.cfg ⟨a, 4⟩ = true := (inWindow_iff ..).mpr ⟨ha.1.2.2.2.1, ha.1.2.2.2.2⟩
    exact (KeepsMemory.cas32 s.latch.a1 s.latch.a2 hin).trans (.of_sameMem (by simp [State.swapped]) (by simp [State.swapped]))
  | adds a ha =>
    have hin : inWindow s.cfg ⟨a, 4⟩ = true := (inWindow_iff ..).mpr ⟨ha.1.2.2.2.1, ha.1.2.2.2.2⟩
    exact (KeepsMemory.fadd32 s.latch.a1 hin).trans (.of_sameMem (by simp [State.added]) (by simp [State.added]))
  | transforms _ f _ hc =>
    obtain ⟨_, hfreed, _, hmem, _⟩ := fftReturn_spec (MemoryOp.fftStore s f (s.fftResults f i)) f i
    have hstore := KeepsMemory.fftStore hc
    exact hstore.trans (.of_sameMem (hfreed.frame.cfg.trans hstore.cfg.symm) hmem)
  | _ => exact .of_sameMem (by simp [State.stat32, State.stat64]) (by simp [State.stat32, State.stat64])

/-! ### The step -/

/-- An FFT command that reset abandons leaves free bytes over what it writes. -/
theorem abandonFft_some (t : Nat) (f : FftRegions) (m : Memory) :
    abandonFft t (some f) m = m.writes (f.written.map fun r => (r.base, freeBytes t r)) := by
  simp [abandonFft, Memory.writes, List.foldl_map]

/-- An FFT command that reset abandons leaves bytes only inside its regions. -/
theorem KeepsMemory.abandonFft {s : State} {f : Option FftRegions}
    (hf : ∀ g, f = some g → ∀ r ∈ g.written, inWindow s.cfg r = true) (t : Nat) :
    KeepsMemory s (s.setMem (abandonFft t f s.mem)) := by
  cases f with
  | none => exact .of_sameMem rfl rfl
  | some g =>
    refine .of_writes rfl (abandonFft_some t g s.mem) fun w hw => ?_
    obtain ⟨r, hr, rfl⟩ := List.mem_map.mp hw
    simpa [freeBytes] using hf g rfl r hr

theorem fftCheck_of_fftRegions {s : State} {q : Port} {f : FftRegions} (h : s.fftRegions q = some f) :
    ∃ i, decodeWord (s.port q).latch.word = .ok i ∧ fftCheck s (s.port q).latch i = some (.ok f) := by
  unfold State.fftRegions State.fftInFlight at h
  by_cases hb : (s.port q).busy = true
  · rw [if_pos hb] at h
    cases hd : decodeWord (s.port q).latch.word with
    | error e => simp [hd] at h
    | ok i =>
      simp only [hd] at h
      split at h
      next hc => exact ⟨i, rfl, hc.trans (congrArg _ (congrArg _ (Option.some.inj h)))⟩
      next => cases h
  · simp [hb] at h

theorem KeepsMemory.assertReset (s : State) : KeepsMemory s s.assertReset := by
  have inside (q : Port) : ∀ g, s.fftRegions q = some g → ∀ r ∈ g.written, inWindow s.cfg r = true := fun g hg => by
    obtain ⟨i, _, hc⟩ := fftCheck_of_fftRegions hg
    exact inWindow_written hc
  have hP := KeepsMemory.abandonFft (inside .P) s.tick
  have hC := KeepsMemory.abandonFft (s := s.setMem (Machine.abandonFft s.tick (s.fftRegions .P) s.mem)) (inside .C) s.tick
  exact (hP.trans hC).trans (.of_sameMem rfl rfl)

theorem KeepsMemory.setPort (s : State) (p : Port) (ps : PortState) : KeepsMemory s (s.setPort p ps) :=
  .of_sameMem (by simp) (by simp)

/-- Every event keeps memory canonical and inside the window. -/
theorem KeepsMemory.of_moves {s t : State} {e : Event} (hwf : s.cfg.wf = true) (h : Moves s e t) : KeepsMemory s t := by
  cases h with
  | runs p i t _ _ _ ht =>
    have hfirst : KeepsMemory s (s.setActive p) := .of_sameMem rfl rfl
    exact hfirst.trans (.of_runs (by simpa using hwf) (runs_of_exec ht))
  | loadsRegister _ _ _ v o =>
    obtain ⟨p, ps, hport⟩ := afterReadReg_eq_setPort s o
    exact (hport ▸ KeepsMemory.setPort s p ps).trans (.of_sameMem (by simp) (by simp))
  | loadsShared => exact .of_sameMem (by simp [loadShared]) (by simp [loadShared])
  | storesRegister _ _ _ v o =>
    obtain ⟨p, ps, hport⟩ := writeReg_eq_setPort s o v
    exact hport ▸ .setPort s p ps
  | storesShared _ w a v hw => exact .of_write (by simp [storeShared]) (mem_poke ..) (by simpa using hw)
  | asserts => exact .assertReset s
  | releases => exact .of_sameMem rfl rfl
  | _ => exact .of_sameMem (by simp) (by simp)

/-- Settles O51: every event writes inside the window and keeps the canonical form. -/
theorem stepKeepsMemory : Obligations.StepKeepsMemory := by
  intro s t hwf hok h
  have hkeep : KeepsMemory s t := by
    rcases moves_of_step h with rfl | ⟨e, rest, u, _, hu, rfl⟩
    · exact .of_sameMem rfl rfl
    · have hfirst : KeepsMemory s (s.setSchedule rest) := .of_sameMem rfl rfl
      exact (hfirst.trans (.of_moves (by simpa using hwf) hu)).trans (.of_sameMem rfl rfl)
  exact ⟨hkeep.ok hok, hkeep.cfg⟩

end Sys2Proof.Machine
end

section
/-! ## Which events stop the machine (`10_state.md` R54, `60_exceptions.md` R330) -/

namespace Sys2Proof.Machine

/-- The three outcomes of a CPU access, by where it goes. -/
theorem access_outcome {e : Event} {s : State} {w : Width} {a : Nat} (o : Host.Outcome State Fault Refusal)
    (hacc : ∀ P, e.access P = P w a)
    (hreg : ∀ off, target s.cfg a w.bytes = .register off → (w = .word ∧ off % 4 ≠ 0 → o = .fault .registerMisaligned) ∧
      (¬ (w = .word ∧ off % 4 ≠ 0) → ∃ t, o = .next t))
    (hshared : target s.cfg a w.bytes = .shared → ∃ t, o = .next t)
    (hout : target s.cfg a w.bytes = .outside → o = .refused .outsideCore) :
    (e.defined s.cfg ∧ ∃ t, o = .next t) ∨ (e.access (OutsideCore s.cfg) ∧ o = .refused .outsideCore) ∨
      (e.access (MisalignedRegister s.cfg) ∧ o = .fault .registerMisaligned) := by
  simp only [Event.defined, hacc, outsideCore_iff, misalignedRegister_iff]
  cases ht : target s.cfg a w.bytes with
  | register off =>
    by_cases hm : w = .word ∧ off % 4 ≠ 0
    · exact .inr (.inr ⟨⟨off, rfl, hm⟩, (hreg off ht).1 hm⟩)
    · refine .inl ⟨⟨by simp, ?_⟩, (hreg off ht).2 hm⟩
      rintro ⟨off', h, hm'⟩
      cases h
      exact hm hm'
  | shared => exact .inl ⟨⟨by simp, by simp⟩, hshared ht⟩
  | outside => exact .inr (.inl ⟨rfl, hout ht⟩)

theorem cpuLoad_outcome (cpu : Port) (w : Width) (a : Word) (s : State) :
    ((Event.cpuLoad cpu w a).defined s.cfg ∧ ∃ t, cpuLoad cpu w a s = .next t) ∨
      ((Event.cpuLoad cpu w a).access (OutsideCore s.cfg) ∧ cpuLoad cpu w a s = .refused .outsideCore) ∨
      ((Event.cpuLoad cpu w a).access (MisalignedRegister s.cfg) ∧
        cpuLoad cpu w a s = .fault .registerMisaligned) := by
  refine access_outcome _ (fun _ => rfl) (fun off ht => ⟨fun hm => ?_, fun hm => ?_⟩) (fun ht => ?_) (fun ht => ?_) <;>
    simp only [cpuLoad, ht]
  · rw [loadRegister, if_pos hm]
  · rw [loadRegister, if_neg hm]
    split
    · exact ⟨_, rfl⟩
    · split <;> exact ⟨_, rfl⟩
  · exact ⟨_, rfl⟩

theorem cpuStore_outcome (cpu : Port) (w : Width) (a v : Word) (s : State) :
    ((Event.cpuStore cpu w a v).defined s.cfg ∧ ∃ t, cpuStore w a v s = .next t) ∨
      ((Event.cpuStore cpu w a v).access (OutsideCore s.cfg) ∧ cpuStore w a v s = .refused .outsideCore) ∨
      ((Event.cpuStore cpu w a v).access (MisalignedRegister s.cfg) ∧
        cpuStore w a v s = .fault .registerMisaligned) := by
  refine access_outcome _ (fun _ => rfl) (fun off ht => ⟨fun hm => ?_, fun hm => ?_⟩) (fun ht => ?_) (fun ht => ?_) <;>
    simp only [cpuStore, ht]
  · rw [storeRegister, if_neg (not_not_intro hm.1), if_pos hm.2]
  · by_cases hw : w = .word
    · rw [storeRegister, if_neg (not_not_intro hw), if_neg fun ho => hm ⟨hw, ho⟩]
      split <;> exact ⟨_, rfl⟩
    · rw [storeRegister, if_pos hw]
      exact ⟨_, rfl⟩
  · exact ⟨_, rfl⟩

/-- A command processor's step never stops. -/
theorem runCommand_answers (p : Port) (s : State) : ∃ t, runCommand p s = .next t := by
  rcases runCommand_cases p s with ⟨_, hrun⟩ | ⟨_, _, ⟨i, _, hrun⟩ | ⟨_, _, hrun⟩⟩ <;> rw [hrun]
  · exact ⟨_, rfl⟩
  · obtain ⟨t, ht, _⟩ := exec_answers i (s.setActive p)
    exact ⟨t, ht⟩
  · exact ⟨_, rfl⟩

/-- An event that CORE defines is answered; each other stops by its name. -/
theorem perform_outcome (e : Event) (s : State) :
    (e.defined s.cfg ∧ ∃ t, perform e s = .next t) ∨
      (e.access (OutsideCore s.cfg) ∧ perform e s = .refused .outsideCore) ∨
      (e.access (MisalignedRegister s.cfg) ∧ perform e s = .fault .registerMisaligned) := by
  cases e with
  | command p => exact .inl ⟨⟨id, id⟩, runCommand_answers p s⟩
  | cpuLoad cpu w a => exact cpuLoad_outcome cpu w a s
  | cpuStore cpu w a v => exact cpuStore_outcome cpu w a v s
  | clock p ms => exact .inl ⟨⟨id, id⟩, _, rfl⟩
  | resetAssert => exact .inl ⟨⟨id, id⟩, _, rfl⟩
  | resetRelease => exact .inl ⟨⟨id, id⟩, _, rfl⟩

/-- No access both leaves the windows and is misaligned within one. -/
theorem not_outside_and_misaligned {e : Event} {c : Config} (h : e.access (OutsideCore c))
    (k : e.access (MisalignedRegister c)) : False := by
  cases e with
  | cpuLoad _ w a | cpuStore _ w a _ =>
    obtain ⟨o, ho, _⟩ := (misalignedRegister_iff c w a.toNat).mp k
    rw [(outsideCore_iff c w a.toNat).mp h] at ho
    cases ho
  | _ => exact h

/-- Settles O6: commands answer in every case of `Runs`, and of the events only CPU accesses stop. -/
theorem everyCommandAnswers : Obligations.EveryCommandAnswers := by
  refine ⟨fun i s => (exec_answers i s).imp fun t ht => ht.1, fun s => ?_⟩
  rcases step_cases s with ⟨he, hs⟩ | ⟨e, rest, he, hs⟩
  · simp [State.goesOn, he, hs]
  · simp only [State.goesOn, he, hs, Option.some.injEq, forall_eq', exists_eq_left']
    have hout := perform_outcome e (s.setSchedule rest)
    rw [cfg_setSchedule] at hout
    rcases hout with ⟨hd, t, ht⟩ | ⟨ha, ht⟩ | ⟨ha, ht⟩ <;> simp only [ht, countStep]
    · simp [hd, hd.1, hd.2]
    · have hno : ¬ e.access (MisalignedRegister s.cfg) := fun k => not_outside_and_misaligned ha k
      simp [Event.defined, ha, hno]
    · have hno : ¬ e.access (OutsideCore s.cfg) := fun k => not_outside_and_misaligned k ha
      simp [Event.defined, ha, hno]

end Sys2Proof.Machine
end

section
/-! ## The control state and the command in flight (`10_state.md` R38, R39, R44, R48) -/

namespace Sys2Proof.Machine

/-! ### What every event leaves of a port's command in flight -/

/-- What is fixed while a command is in flight: its operands, its start time, its code and its results; the overrun flag is
not cleared. -/
structure CommandFixed (a b : PortState) : Prop where
  word : b.latch.word = a.latch.word
  a0 : b.latch.a0 = a.latch.a0
  a1 : b.latch.a1 = a.latch.a1
  a2 : b.latch.a2 = a.latch.a2
  a3 : b.latch.a3 = a.latch.a3
  t0 : b.latch.t0 = a.latch.t0
  counted : a.latch.counted = true → b.latch.counted = true
  code : b.code = a.code
  cmd : b.cmd = a.cmd
  res0 : b.res0 = a.res0
  res1 : b.res1 = a.res1
  res2 : b.res2 = a.res2
  res3 : b.res3 = a.res3

theorem CommandFixed.refl (a : PortState) : CommandFixed a a :=
  ⟨rfl, rfl, rfl, rfl, rfl, rfl, id, rfl, rfl, rfl, rfl, rfl, rfl⟩

theorem commandFixed_touchedBy (a : PortState) (t : Touch) : CommandFixed a (a.touchedBy t) :=
  ⟨rfl, rfl, rfl, rfl, rfl, rfl, id, rfl, rfl, rfl, rfl, rfl, rfl⟩

/-- The other port keeps its command through a command's step. -/
theorem Frame.peer_fixed {s t : State} (h : Frame s t) :
    (t.port s.active.peer).busy = (s.port s.active.peer).busy ∧
      CommandFixed (s.port s.active.peer) (t.port s.active.peer) := by
  obtain ⟨db, ts, hp⟩ := h.peer
  rw [hp]
  exact ⟨rfl, rfl, rfl, rfl, rfl, rfl, rfl, id, rfl, rfl, rfl, rfl, rfl, rfl⟩

/-- A command's step ends the active port's command or keeps it in flight, and keeps the other port's. -/
theorem exec_fixed {i : Instr} {s t : State} (h : exec i s = .next t) (q : Port) :
    (q = s.active ∧ (t.port q).busy = false) ∨
      ((t.port q).busy = (s.port q).busy ∧ CommandFixed (s.port q) (t.port q)) := by
  by_cases hq : q = s.active
  · subst hq
    have own {u : State} (hf : Frame s u) : u.port s.active = u.act := by rw [State.act, hf.active]
    rcases exec_cases h with he | hw | ⟨_, _, rfl⟩
    · obtain ⟨c, _, hend⟩ := he.ended
      exact .inl ⟨rfl, by rw [own he.frame, hend.busy]⟩
    · obtain ⟨b, hb, hact⟩ := hw.act
      rw [own hw.frame, hact]
      exact .inr ⟨rfl, rfl, rfl, rfl, rfl, rfl, rfl, hb, rfl, rfl, rfl, rfl, rfl, rfl⟩
    · rw [port_takeEngine, if_pos rfl]
      exact .inr ⟨rfl, rfl, rfl, rfl, rfl, rfl, rfl, id, rfl, rfl, rfl, rfl, rfl, rfl⟩
  · rw [eq_peer_of_ne hq]
    rcases exec_cases h with he | hw | ⟨_, _, rfl⟩
    · exact .inr he.frame.peer_fixed
    · exact .inr hw.frame.peer_fixed
    · exact .inr ((Frame.refl s).takeEngine).peer_fixed

/-- While BUSY a register store cannot touch the command in flight (R37, R39). -/
theorem writeReg_fixed {ps : PortState} (hb : ps.busy = true) (v : Word) (o : Nat) :
    (ps.writeReg v o).busy = true ∧ CommandFixed ps (ps.writeReg v o) := by
  have kept {qs : PortState} (h : qs.busy = true) (hl : qs.latch = ps.latch) (hc : qs.code = ps.code)
      (hm : qs.cmd = ps.cmd) (h0 : qs.res0 = ps.res0) (h1 : qs.res1 = ps.res1) (h2 : qs.res2 = ps.res2)
      (h3 : qs.res3 = ps.res3) : qs.busy = true ∧ CommandFixed ps qs :=
    ⟨h, by rw [hl], by rw [hl], by rw [hl], by rw [hl], by rw [hl], by rw [hl], by rw [hl]; exact id, hc, hm, h0, h1, h2, h3⟩
  unfold PortState.writeReg
  split
  case h_1 =>
    rw [PortState.submit, if_pos hb]
    exact kept hb rfl rfl rfl rfl rfl rfl rfl
  case h_2 | h_7 => split <;> exact kept hb rfl rfl rfl rfl rfl rfl rfl
  all_goals exact kept hb rfl rfl rfl rfl rfl rfl rfl

/-- A store to the register window is a store to a register of each port or passes it by. -/
theorem port_writeReg (s : State) (o : Nat) (v : Word) (q : Port) :
    (s.writeReg o v).port q = s.port q ∨ ∃ o', (s.writeReg o v).port q = (s.port q).writeReg v o' := by
  unfold State.writeReg
  split
  · cases q
    · exact .inr ⟨o, by rw [port_setPort, if_pos rfl, port_P]⟩
    · exact .inl (by rw [port_setPort, if_neg (by decide)])
  · split
    · cases q
      · exact .inl (by rw [port_setPort, if_neg (by decide)])
      · exact .inr ⟨o - 0x100, by rw [port_setPort, if_pos rfl, port_C]⟩
    · exact .inl rfl

/-- A load from the register window changes at most a port's TIME_HI shadow. -/
theorem port_afterReadReg (s : State) (o : Nat) (q : Port) :
    ∃ hi, (s.afterReadReg o).port q = { s.port q with timeHi := hi } := by
  have key (ps : PortState) (o' : Nat) : ∃ hi, ps.afterRead o' = { ps with timeHi := hi } := by
    unfold PortState.afterRead
    split
    · exact ⟨_, rfl⟩
    · exact ⟨ps.timeHi, rfl⟩
  have same : ∃ hi, s.port q = { s.port q with timeHi := hi } := ⟨(s.port q).timeHi, rfl⟩
  unfold State.afterReadReg
  split
  · rw [port_setPort]
    split
    next hq => exact hq ▸ key _ _
    next => exact same
  · split
    · rw [port_setPort]
      split
      next hq => exact hq ▸ key _ _
      next => exact same
    · exact same

/-- A port after an access of another agent to memory: told of it, if an FFT command is in flight there. -/
theorem port_note_cases (s : State) (agent : Option Port) (x : Touch) (q : Port) :
    (s.note agent x).port q = s.port q ∨
      (s.fftInFlight q).isSome = true ∧ (s.note agent x).port q = (s.port q).touchedBy x := by
  rw [port_note]
  split
  next h => exact .inr ⟨h.2, rfl⟩
  next => exact .inl rfl

/-- A step either ends a port's command in flight (by itself or by reset) or fixes it. -/
theorem moves_fixed {s t : State} {e : Event} (h : Moves s e t) {q : Port} (hb : (s.port q).busy = true) :
    (t.port q).busy = false ∨ (t.port q).busy = true ∧ CommandFixed (s.port q) (t.port q) := by
  cases h with
  | idles | ignoresStore => exact .inr ⟨hb, .refl _⟩
  | runs p i t _ _ _ ht =>
    rcases exec_fixed ht q with ⟨_, hf⟩ | ⟨he, hf⟩
    · exact .inl hf
    · rw [port_setActive] at he hf
      exact .inr ⟨he.trans hb, hf⟩
  | illegal p =>
    rw [port_finish, port_setActive]
    split
    · exact .inl rfl
    · exact .inr ⟨hb, .refl _⟩
  | loadsRegister cpu w a v o =>
    obtain ⟨hi, hp⟩ := port_afterReadReg s o q
    rw [port_returnToCpu, hp]
    exact .inr ⟨hb, rfl, rfl, rfl, rfl, rfl, rfl, id, rfl, rfl, rfl, rfl, rfl, rfl⟩
  | loadsWithoutEffect =>
    rw [port_returnToCpu]
    exact .inr ⟨hb, .refl _⟩
  | loadsShared cpu w a =>
    rw [loadShared, port_returnToCpu]
    rcases port_note_cases s none ⟨false, ⟨a.toNat, w.bytes⟩⟩ q with hp | ⟨_, hp⟩ <;> rw [hp]
    · exact .inr ⟨hb, .refl _⟩
    · exact .inr ⟨hb, commandFixed_touchedBy _ _⟩
  | storesRegister cpu w a v o =>
    rcases port_writeReg s o v q with hp | ⟨o', hp⟩ <;> rw [hp]
    · exact .inr ⟨hb, .refl _⟩
    · exact .inr (writeReg_fixed hb v o')
  | storesShared cpu w a v =>
    rw [storeShared, port_poke]
    rcases port_note_cases s none ⟨true, ⟨a.toNat, (leBytes w.bytes v.toNat).length⟩⟩ q with hp | ⟨_, hp⟩ <;> rw [hp]
    · exact .inr ⟨hb, .refl _⟩
    · exact .inr ⟨hb, commandFixed_touchedBy _ _⟩
  | advances p ms =>
    rw [port_advanceClock]
    split <;> exact .inr ⟨hb, rfl, rfl, rfl, rfl, rfl, rfl, id, rfl, rfl, rfl, rfl, rfl, rfl⟩
  | asserts => cases q <;> exact .inl rfl
  | releases => cases q <;> exact .inr ⟨hb, .refl _⟩

/-- Settles O59: a command that the step has not ended is fixed. -/
theorem inFlightCommandIsFixed : Obligations.InFlightCommandIsFixed := by
  intro s t p h hs ht
  have hfix : CommandFixed (s.port p) (t.port p) := by
    rcases moves_of_step h with rfl | ⟨e, rest, u, _, hu, rfl⟩
    · rw [port_ticked]
      exact .refl _
    · rw [port_ticked] at ht ⊢
      rcases moves_fixed hu (q := p) (by simpa using hs) with hno | ⟨_, hf⟩
      · simp [hno] at ht
      · simpa using hf
  exact ⟨hfix.word, hfix.a0, hfix.a1, hfix.a2, hfix.a3, hfix.t0, hfix.counted, hfix.code, hfix.cmd, hfix.res0,
    hfix.res1, hfix.res2, hfix.res3⟩

/-! ### The ports -/

theorem PortOk.reset (clock : DWord) : PortOk (PortState.reset clock) :=
  ⟨fun h => Bool.noConfusion h, fun _ => rfl, Code.noConfusion⟩

/-- A port that shows the same command and code is as sound. -/
theorem PortOk.congr {a b : PortState} (h : PortOk a) (hb : b.busy = a.busy) (hh : b.hold = a.hold)
    (hc : b.code = a.code) (hl : b.busy = false → b.latch = a.latch) : PortOk b :=
  ⟨fun k => hb.trans (h.hold (hh ▸ k)), fun k => (hl k).trans (h.idle (hb ▸ k)), hc ▸ h.code⟩

theorem PortOk.of_ended {s t : State} (hact : t.active = s.active) {c : Code} (hc : c ≠ .overrun) (he : Ended t c) :
    PortOk (t.port s.active) := by
  rw [← hact]
  exact ⟨fun h => absurd h (by rw [show t.port t.active = t.act from rfl, he.hold]; decide), fun _ => he.latch,
    by rw [show t.port t.active = t.act from rfl, he.code]; exact hc⟩

theorem fftInFlight_of_idle {s : State} {q : Port} (h : (s.port q).busy = false) : s.fftInFlight q = none := by
  simp [State.fftInFlight, h]

/-- The other port stays sound through a command's step. -/
theorem Frame.portOk_peer {s t : State} (h : Frame s t) (hs : PortOk (s.port s.active.peer)) :
    PortOk (t.port s.active.peer) := by
  cases hb : (s.port s.active.peer).busy with
  | true =>
    obtain ⟨db, ts, hp⟩ := h.peer
    exact hs.congr (by rw [hp]) (by rw [hp]) (by rw [hp]) fun k => absurd k (by rw [hp]; simp [hb])
  | false =>
    obtain ⟨db, hp⟩ := h.peerQuiet (fftInFlight_of_idle hb)
    exact hs.congr (by rw [hp]) (by rw [hp]) (by rw [hp]) fun _ => by rw [hp]

/-- Being told of an access leaves a port sound, since only a BUSY one is told. -/
theorem PortOk.note {s : State} {q : Port} (h : PortOk (s.port q)) (agent : Option Port) (x : Touch) :
    PortOk ((s.note agent x).port q) := by
  rcases port_note_cases s agent x q with hp | ⟨hsome, hp⟩ <;> rw [hp]
  · exact h
  · have hb : (s.port q).busy = true := by
      cases hb : (s.port q).busy with
      | true => rfl
      | false => simp [fftInFlight_of_idle hb] at hsome
    exact h.congr rfl rfl rfl fun k => absurd (hb.symm.trans k) (by decide)

theorem PortOk.writeReg {ps : PortState} (h : PortOk ps) (v : Word) (o : Nat) : PortOk (ps.writeReg v o) := by
  unfold PortState.writeReg
  split
  case h_1 =>
    unfold PortState.submit
    split
    · exact h.congr rfl rfl rfl fun _ => rfl
    · exact ⟨fun k => Bool.noConfusion k, fun k => Bool.noConfusion k, h.code⟩
  case h_2 | h_7 => split <;> exact h.congr rfl rfl rfl fun _ => rfl
  all_goals exact h.congr rfl rfl rfl fun _ => rfl

/-! ### The slots -/

theorem slotOk_initialised {n : Word} (h : n.toNat ∈ Config.rfftSizes) : SlotOk (initialisedSlot n) := by
  simp only [Config.rfftSizes, List.mem_cons, List.not_mem_nil, or_false] at h
  rcases h with h | h
  · obtain rfl : n = 4096 := BitVec.eq_of_toNat_eq h
    exact .inr (.inl rfl)
  · obtain rfl : n = 8192 := BitVec.eq_of_toNat_eq h
    exact .inr (.inr rfl)

/-! ### The engine -/

/-- An FFT command on memory is in flight, whatever its checks say. -/
theorem fftInFlight_isSome_iff {s : State} {q : Port} :
    (s.fftInFlight q).isSome = true ↔
      (s.port q).busy = true ∧ ∃ i, decodeWord (s.port q).latch.word = .ok i ∧ fftOnMemory i = true := by
  unfold State.fftInFlight
  by_cases hb : (s.port q).busy = true
  · cases hd : decodeWord (s.port q).latch.word <;> simp [hb, fftCheck_isSome]
  · simp [hb]

/-- A command that stays in flight, unchanged, is still an FFT command. -/
theorem fftInFlight_isSome_of_kept {s t : State} {q : Port} (h : (s.fftInFlight q).isSome = true)
    (hb : (t.port q).busy = (s.port q).busy) (hw : (t.port q).latch.word = (s.port q).latch.word) :
    (t.fftInFlight q).isSome = true := by
  rw [fftInFlight_isSome_iff] at h ⊢
  rwa [hb, hw]

/-! ### The events -/

/-- A command's step keeps the control state. -/
theorem State.ControlOk.exec {i : Instr} {s t : State} (h : s.ControlOk) (hr : s.inReset = false)
    (hb : s.act.busy = true) (hd : decodeWord s.act.latch.word = .ok i) (ht : exec i s = .next t) : t.ControlOk := by
  have hframe : Frame s t := by
    rcases exec_cases ht with he | hw | ⟨_, _, rfl⟩
    · exact he.frame
    · exact hw.frame
    · exact (Frame.refl s).takeEngine
  have hport (q : Port) : PortOk (t.port q) := by
    by_cases hq : q = s.active
    · subst hq
      have hown : t.port s.active = t.act := by rw [State.act, hframe.active]
      have hs := h.ports s.active
      rcases exec_cases ht with he | hw | ⟨_, _, rfl⟩
      · obtain ⟨c, hc, hend⟩ := he.ended
        exact .of_ended hframe.active hc hend
      · obtain ⟨b, _, hact⟩ := hw.act
        rw [hown, hact]
        exact ⟨fun _ => hb, fun k => absurd (hb.symm.trans k) (by decide), hs.code⟩
      · rw [port_takeEngine, if_pos rfl]
        exact ⟨fun k => Bool.noConfusion k, hs.idle, hs.code⟩
    · rw [eq_peer_of_ne hq]
      exact hframe.portOk_peer (h.ports _)
  have hslots (k : Nat) (u : InstSlot) (hu : t.inst k = some u) : SlotOk u := by
    rcases exec_cases ht with he | hw | ⟨_, _, rfl⟩
    · rcases he.slots k with hk | ⟨n, hn, hk⟩
      · exact h.slots k u (hk ▸ hu)
      · obtain rfl : initialisedSlot n = u := Option.some.inj (hk.symm.trans hu)
        exact slotOk_initialised hn
    · exact h.slots k u (hw.slots k ▸ hu)
    · exact h.slots k u (by simpa using hu)
  have hengine : t.engineOk := by
    intro hbusy
    have peerKept (hfb : s.feBusy = true) (ho : s.feOwner = s.active.peer) :
        (t.fftInFlight s.active.peer).isSome = true :=
      fftInFlight_isSome_of_kept (ho ▸ h.engine hfb) hframe.peer_fixed.1 hframe.peer_fixed.2.word
    rcases exec_cases ht with he | hw | ⟨hi, _, rfl⟩
    · rcases he.engine with hfree | ⟨hi, hsame, howner⟩
      · simp [hfree] at hbusy
      · have hfb := hsame ▸ hbusy
        rw [howner]
        by_cases ho : s.feOwner = s.active
        · obtain ⟨_, j, hj, hmem⟩ := fftInFlight_isSome_iff.mp (ho ▸ h.engine hfb)
          cases hd.symm.trans hj
          simp [hi] at hmem
        · rw [eq_peer_of_ne ho]
          exact peerKept hfb (eq_peer_of_ne ho)
    · have hfb := hw.feBusy ▸ hbusy
      rw [hw.feOwner]
      by_cases ho : s.feOwner = s.active
      · obtain ⟨b, _, hact⟩ := hw.act
        have hown : t.port s.active = t.act := by rw [State.act, hframe.active]
        rw [ho]
        exact fftInFlight_isSome_of_kept (ho ▸ h.engine hfb) (by rw [hown, hact]; rfl) (by rw [hown, hact]; rfl)
      · rw [eq_peer_of_ne ho]
        exact peerKept hfb (eq_peer_of_ne ho)
    · rw [feOwner_takeEngine, fftInFlight_isSome_iff, port_takeEngine, if_pos rfl]
      exact ⟨hb, i, hd, hi⟩
  exact ⟨hport, hslots, hengine, fun k => absurd (hframe.inReset ▸ k) (by simp [hr])⟩

theorem State.ControlOk.setSchedule {s : State} (h : s.ControlOk) (es : List Event) : (s.setSchedule es).ControlOk :=
  ⟨h.ports, h.slots, h.engine, h.reset⟩

theorem State.ControlOk.setActive {s : State} (h : s.ControlOk) (p : Port) : (s.setActive p).ControlOk :=
  ⟨h.ports, h.slots, h.engine, h.reset⟩

theorem State.ControlOk.ticked {s : State} (h : s.ControlOk) : s.ticked.ControlOk := ⟨h.ports, h.slots, h.engine, h.reset⟩

/-- The end of a command that is no FFT command on memory, so that the engine is not its own. -/
theorem State.ControlOk.finish {s : State} {c : Code} (h : s.ControlOk) (hr : s.inReset = false) (hc : c ≠ .overrun)
    (hno : s.fftInFlight s.active = none) : (s.finish c).ControlOk := by
  have hother {q : Port} (hq : q ≠ s.active) : (s.finish c).port q = s.port q := by rw [port_finish, if_neg hq]
  refine ⟨fun q => ?_, fun k u hu => h.slots k u (by simpa using hu), fun hbusy => ?_,
    fun k => absurd ((inReset_finish s c).symm.trans k) (by simp [hr])⟩
  · by_cases hq : q = s.active
    · exact hq ▸ .of_ended (active_finish s c) hc (Ended.finish s c)
    · exact hother hq ▸ h.ports q
  · have hsome := h.engine ((feBusy_finish s c).symm.trans hbusy)
    have ho : s.feOwner ≠ s.active := fun ho => by simp [ho, hno] at hsome
    rw [feOwner_finish]
    exact fftInFlight_isSome_of_kept hsome (by rw [hother ho]) (by rw [hother ho])

/-- An event that leaves the slots, the engine and every command in flight. -/
theorem State.ControlOk.of_moves_kept {s t : State} {e : Event} (h : s.ControlOk) (hm : Moves s e t)
    (hp : ∀ q, PortOk (t.port q)) (hkept : ∀ q, (s.port q).busy = true → (t.port q).busy = true)
    (hi : ∀ k, t.inst k = s.inst k) (hb : t.feBusy = s.feBusy) (ho : t.feOwner = s.feOwner) (hr : t.resetOk) :
    t.ControlOk := by
  refine ⟨hp, fun k u hu => h.slots k u (hi k ▸ hu), fun hbusy => ?_, hr⟩
  have hsome := h.engine (hb ▸ hbusy)
  have hin := (fftInFlight_isSome_iff.mp hsome).1
  rcases moves_fixed hm hin with hno | ⟨hb', hfix⟩
  · exact absurd ((hkept _ hin).symm.trans hno) (by decide)
  · rw [ho]
    exact fftInFlight_isSome_of_kept hsome (hb'.trans hin.symm) hfix.word

/-- With the ports as BUSY as before, the reset input's clause stays true. -/
theorem State.resetOk.congr {s t : State} (h : s.resetOk) (hr : t.inReset = s.inReset)
    (hb : ∀ q, (t.port q).busy = (s.port q).busy) (hf : t.feBusy = s.feBusy) : t.resetOk := fun k => by
  obtain ⟨hP, hC, hfree⟩ := h (hr ▸ k)
  exact ⟨(hb .P).trans hP, (hb .C).trans hC, hf.trans hfree⟩

/-- An event that leaves BUSY and the engine of every port alone. -/
theorem State.ControlOk.of_moves_same {s t : State} {e : Event} (h : s.ControlOk) (hm : Moves s e t)
    (hp : ∀ q, PortOk (t.port q)) (hb : ∀ q, (t.port q).busy = (s.port q).busy) (hi : ∀ k, t.inst k = s.inst k)
    (hf : t.feBusy = s.feBusy) (ho : t.feOwner = s.feOwner) (hr : t.inReset = s.inReset) : t.ControlOk :=
  h.of_moves_kept hm hp (fun q hq => (hb q).trans hq) hi hf ho (h.reset.congr hr hb hf)

theorem busy_note (s : State) (agent : Option Port) (x : Touch) (q : Port) :
    ((s.note agent x).port q).busy = (s.port q).busy := (sameCommand_note s agent x q).busy

theorem eq_reset_of_inst_assertReset {s : State} {k : Nat} {u : InstSlot} (h : s.assertReset.inst k = some u) :
    u = InstSlot.reset := by
  match k, h with
  | 0, h | 1, h | 2, h | 3, h => exact (Option.some.inj h).symm
  | k + 4, h =>
    rw [inst_eq_none (Nat.le_add_left 4 k)] at h
    contradiction

theorem State.ControlOk.assertReset (s : State) : s.assertReset.ControlOk where
  ports := fun q => by cases q <;> exact .reset _
  slots := fun _ _ hu => .inl (eq_reset_of_inst_assertReset hu)
  engine := fun k => Bool.noConfusion k
  reset := fun _ => ⟨rfl, rfl, rfl⟩

/-- Every event keeps the control state. -/
theorem State.ControlOk.of_moves {s t : State} {e : Event} (h : s.ControlOk) (hm : Moves s e t) : t.ControlOk := by
  cases hm with
  | idles | ignoresStore => exact h
  | runs p i t hr hb hd ht =>
    have hact : (s.setActive p).act = s.port p := by rw [State.act, active_setActive, port_setActive]
    exact (h.setActive p).exec hr (by rw [hact, hb]) (by rw [hact, hd]) ht
  | illegal p e hr hb hd =>
    refine (h.setActive p).finish hr (by decide) ?_
    simp [State.fftInFlight, hb, hd]
  | loadsRegister cpu w a v o =>
    have hport (q : Port) : ∃ hi, ((s.afterReadReg o).returnToCpu cpu v).port q = { s.port q with timeHi := hi } := by
      rw [port_returnToCpu]
      exact port_afterReadReg s o q
    refine h.of_moves_same (.loadsRegister cpu w a v o) (fun q => ?_) (fun q => ?_) ?_ ?_ ?_ ?_
    · obtain ⟨hi, hp⟩ := hport q
      exact (h.ports q).congr (by rw [hp]) (by rw [hp]) (by rw [hp]) fun _ => by rw [hp]
    · obtain ⟨hi, hp⟩ := hport q
      rw [hp]
    all_goals
      obtain ⟨p, ps, heq⟩ := afterReadReg_eq_setPort s o
      simp [heq]
  | loadsWithoutEffect cpu w a v =>
    exact h.of_moves_same (.loadsWithoutEffect cpu w a v) (by simpa using h.ports) (by simp) (by simp) (by simp)
      (by simp) (by simp)
  | loadsShared cpu w a hw =>
    exact h.of_moves_same (.loadsShared cpu w a hw) (fun q => by rw [loadShared, port_returnToCpu]; exact (h.ports q).note _ _)
      (fun q => by rw [loadShared, port_returnToCpu, busy_note]) (by simp [loadShared]) (by simp [loadShared])
      (by simp [loadShared]) (by simp [loadShared])
  | storesRegister cpu w a v o hr =>
    obtain ⟨p, ps, heq⟩ := writeReg_eq_setPort s o v
    have hreset : (s.writeReg o v).inReset = false := by rw [heq, inReset_setPort, hr]
    refine h.of_moves_kept (.storesRegister cpu w a v o hr) (fun q => ?_) (fun q hq => ?_) ?_ ?_ ?_
      fun k => absurd k (by simp [hreset])
    · rcases port_writeReg s o v q with hp | ⟨o', hp⟩ <;> rw [hp]
      · exact h.ports q
      · exact (h.ports q).writeReg v o'
    · rcases port_writeReg s o v q with hp | ⟨o', hp⟩ <;> rw [hp]
      · exact hq
      · exact (writeReg_fixed hq v o').1
    all_goals simp [heq]
  | storesShared cpu w a v hw =>
    exact h.of_moves_same (.storesShared cpu w a v hw)
      (fun q => by rw [storeShared, port_poke]; exact (h.ports q).note _ _)
      (fun q => by rw [storeShared, port_poke, busy_note]) (by simp [storeShared, State.poke]) (by simp [storeShared])
      (by simp [storeShared]) (by simp [storeShared])
  | advances p ms =>
    refine h.of_moves_same (.advances p ms) (fun q => ?_) (fun q => ?_) (by simp) (by simp) (by simp) (by simp)
    · rw [port_advanceClock]
      split
      · exact (h.ports q).congr rfl rfl rfl fun _ => rfl
      · exact h.ports q
    · rw [port_advanceClock]
      split <;> rfl
  | asserts => exact .assertReset s
  | releases => exact ⟨h.ports, h.slots, h.engine, fun k => Bool.noConfusion k⟩

/-- Settles O52: a step is an event between changes that the control state does not show. -/
theorem stepKeepsControl : Obligations.StepKeepsControl := by
  intro s t h hs
  rcases moves_of_step hs with rfl | ⟨e, rest, u, _, hu, rfl⟩
  · exact h.ticked
  · exact ((h.setSchedule rest).of_moves hu).ticked

end Sys2Proof.Machine
end

section
/-! ## Memory after the buffer manager's operations (`40_buffer_manager.md` R151 to R163) -/

namespace Sys2Proof.Machine

/-! ### Words and double words beside each other -/

theorem word_write_word {m : Memory} {a b : Nat} {v : Word} (h : b + 4 ≤ a ∨ a + 4 ≤ b) :
    (m.write a (wordBytes v)).word b = m.word b := Memory.word_write_disjoint (by simpa using h)

theorem word_write_dword {m : Memory} {a b : Nat} {v : DWord} (h : b + 4 ≤ a ∨ a + 8 ≤ b) :
    (m.write a (dwordBytes v)).word b = m.word b := Memory.word_write_disjoint (by simpa using h)

theorem toNat_ne_of_ne {a b : BitVec 1} (h : a ≠ b) : a.toNat ≠ b.toNat := fun e => h (BitVec.eq_of_toNat_eq e)

/-! ### Reads of fields without a race -/

section Quiet

variable {s : State} (hq : s.quietOn (definedFields s.cfg))
include hq

theorem State.quietOn.field {a n : Nat} (hlow : s.cfg.cbBase ≤ a) (hhigh : a + n ≤ s.cfg.cbBase + 0x0C4) :
    s.quietOn ⟨a, n⟩ := hq.sub (by simpa [definedFields] using hlow) (by simpa [definedFields] using hhigh)

theorem peek32_writeCountAddr (i : BitVec 1) : s.peek32 (writeCountAddr s.cfg i) = s.writeCount i :=
  (hq.field (by simp only [writeCountAddr]; omega) (by simp only [writeCountAddr]; omega)).peek32

theorem peek32_readCountAddr (i : BitVec 1) : s.peek32 (readCountAddr s.cfg i) = s.readCount i :=
  (hq.field (by simp only [readCountAddr]; omega) (by simp only [readCountAddr]; omega)).peek32

theorem peek32_overrunAddr : s.peek32 (overrunAddr s.cfg) = s.overrunCount :=
  (hq.field (by simp [overrunAddr]) (by simp [overrunAddr])).peek32

theorem peek32_timeoutAddr : s.peek32 (timeoutAddr s.cfg) = s.timeoutCount :=
  (hq.field (by simp [timeoutAddr]) (by simp [timeoutAddr])).peek32

end Quiet

/-! ### The hand-off -/

/-- Memory after a hand-off: the state word, the counter, the timestamp. -/
def Memory.handedOff (m : Memory) (st counter stamp : Nat) (given count : Word) (now : DWord) : Memory :=
  ((m.write st (wordBytes given)).write counter (wordBytes count)).write stamp (dwordBytes now)

/-- A hand-off that finds the state word it expects. -/
theorem mem_handOff {s : State} {st counter : Nat} {held : Word} (h : s.peek32 st = held)
    (hd : counter + 4 ≤ st ∨ st + 4 ≤ counter) (stamp : Nat) (given : Word) (p : Port) :
    (s.handOff st counter stamp held given p).mem =
      s.mem.handedOff st counter stamp given (s.peek32 counter + 1) s.now := by
  have hcount : (s.cas32 st held given).peek32 counter = s.peek32 counter :=
    (MemoryOp.cas32 s st held given).peek32 fun x h1 h2 => by
      rw [mem_cas32, if_pos h]
      exact Memory.byte_write_outside (by rw [length_wordBytes]; omega)
  simp [State.handOff, h, Memory.handedOff, State.fullFence, hcount]

/-! ### The attempts -/

theorem mem_countOverrun (s : State) :
    s.countOverrun.mem =
      if s.latch.counted = true then s.mem
      else s.mem.write (overrunAddr s.cfg) (wordBytes (s.peek32 (overrunAddr s.cfg) + 1)) := by
  unfold State.countOverrun
  split <;> simp

@[simp] theorem cfg_countOverrun (s : State) : s.countOverrun.cfg = s.cfg := by
  unfold State.countOverrun
  split <;> simp

/-- What the own port holds has no part in what its command reads. -/
theorem peek32_updPort_active {s : State} {p : Port} (h : s.active = p) (g : PortState → PortState) {a : Nat} :
    (s.updPort p g).peek32 a = s.peek32 a := by
  unfold State.peek32
  rw [active_updPort, peek_congr (s := s) (by simp) (by simp) (by simp) (by simp) fun q hq => ?_]
  rw [port_updPort, if_neg fun e => hq (by rw [h, e])]
  exact SameCommand.refl _

/-- Counting the overrun leaves what other fields are read as. -/
theorem peek32_countOverrun (s : State) {a : Nat} (h : a + 4 ≤ overrunAddr s.cfg ∨ overrunAddr s.cfg + 4 ≤ a) :
    s.countOverrun.peek32 a = s.peek32 a := by
  unfold State.countOverrun
  split
  · rfl
  · have hop := MemoryOp.fadd32 s (overrunAddr s.cfg) 1
    rw [← hop.peek32 fun x h1 h2 => by
      rw [mem_fadd32]
      exact Memory.byte_write_outside (by rw [length_wordBytes]; omega)]
    exact peek32_updPort_active hop.active _

theorem mem_timeoutOrWait (u : State) (e : Bool) :
    (u.timeoutOrWait e).mem =
      if e = true then u.mem.write (timeoutAddr u.cfg) (wordBytes (u.peek32 (timeoutAddr u.cfg) + 1)) else u.mem := by
  unfold State.timeoutOrWait
  split <;> simp

@[simp] theorem peek32_noteScan (s : State) (a : Nat) : s.noteScan.peek32 a = s.peek32 a := by simp [State.noteScan]

@[simp] theorem cfg_noteScan (s : State) : s.noteScan.cfg = s.cfg := by simp [State.noteScan]

/-- Memory with the timeout counted, if it has elapsed. -/
def Memory.timedOut (m : Memory) (c : Config) (e : Bool) (count : Word) : Memory :=
  if e = true then m.write (timeoutAddr c) (wordBytes count) else m

/-- Memory with the overrun counted, unless this command had counted it. -/
def Memory.overrun (m : Memory) (c : Config) (counted : Bool) (count : Word) : Memory :=
  if counted = true then m else m.write (overrunAddr c) (wordBytes count)

/-- Memory after a BM_ACQW attempt that finds no buffer. -/
theorem mem_findsBusy {s : State} (hq : s.quietOn (definedFields s.cfg)) (e : Bool) :
    (s.noteScan.countOverrun.timeoutOrWait e).mem =
      (s.mem.overrun s.cfg s.latch.counted (s.overrunCount + 1)).timedOut s.cfg e (s.timeoutCount + 1) := by
  have hlatch : s.noteScan.latch = s.latch := (MemoryOp.noteScan s).latch
  have htimeout : s.noteScan.countOverrun.peek32 (timeoutAddr s.cfg) = s.timeoutCount := by
    rw [peek32_countOverrun _ (by simp [overrunAddr, timeoutAddr]), peek32_noteScan, peek32_timeoutAddr hq]
  rw [mem_timeoutOrWait, mem_countOverrun, cfg_countOverrun, cfg_noteScan, htimeout, hlatch, peek32_noteScan,
    peek32_overrunAddr hq, mem_noteScan]
  rfl

/-- Memory after a BM_ACQR attempt that finds no buffer. -/
theorem mem_findsNoneReady {s : State} (hq : s.quietOn (definedFields s.cfg)) (e : Bool) :
    (s.noteScan.timeoutOrWait e).mem = s.mem.timedOut s.cfg e (s.timeoutCount + 1) := by
  rw [mem_timeoutOrWait, cfg_noteScan, peek32_noteScan, peek32_timeoutAddr hq, mem_noteScan]
  rfl

/-- Memory after a granted write acquire. -/
theorem mem_grantWrite {s : State} {i : BitVec 1} (h : s.peek32 (stateAddr s.cfg i) = stIdle) :
    (s.noteScan.grantWrite i).mem = s.mem.write (stateAddr s.cfg i) (wordBytes stWriting) := by
  rw [State.grantWrite, mem_setLastUsed, mem_grant (by simpa using h), cfg_noteScan, mem_noteScan]

theorem MemoryOp.stampsAndScan (s : State) : MemoryOp s s.noteStamps.noteScan :=
  (MemoryOp.noteStamps s).trans (.noteScan _)

theorem peek32_stampsAndScan (s : State) (a : Nat) : s.noteStamps.noteScan.peek32 a = s.peek32 a :=
  (MemoryOp.stampsAndScan s).peek32 fun _ _ _ => by simp

/-- Memory after a granted read acquire. -/
theorem mem_grantRead {s : State} {i : BitVec 1} (h : s.peek32 (stateAddr s.cfg i) = stReady) :
    (s.noteStamps.noteScan.grant i stReady stReading).mem =
      s.mem.write (stateAddr s.cfg i) (wordBytes stReading) := by
  have hc := (MemoryOp.stampsAndScan s).cfg
  rw [mem_grant (by rw [hc, peek32_stampsAndScan, h]), hc, mem_noteScan, mem_noteStamps]

/-! ### BM_INIT -/

/-- A word apart from the fields that BM_INIT sets is as zeroing the Control Block leaves it. -/
theorem word_initControlBlock {s : State} {a : Nat} (hlow : s.cfg.cbBase ≤ a)
    (hhigh : a + 4 ≤ s.cfg.cbBase + 0x098 ∨ s.cfg.cbBase + 0x0C4 ≤ a ∨
      s.cfg.cbBase + 0x0A0 ≤ a ∧ a + 4 ≤ s.cfg.cbBase + 0x0C0)
    (hst0 : a + 4 ≤ s.cfg.cbBase ∨ s.cfg.cbBase + 4 ≤ a)
    (hst1 : a + 4 ≤ s.cfg.cbBase + 0x40 ∨ s.cfg.cbBase + 0x44 ≤ a) :
    s.initControlBlock.mem.word a = (s.mem.zero s.cfg.cbBase s.cfg.cbSize.toNat).word a := by
  rw [mem_initControlBlock]
  simp only [Memory.writes, initWrites, List.foldl_cons, List.foldl_nil, stateAddr, bufferSizeAddr, timeoutMsAddr,
    consumerReadyAddr]
  rw [word_write_word (by omega), word_write_word (by omega), word_write_word (by omega), word_write_word (by omega),
    word_write_word (by omega)]

theorem bufferState_initControlBlock (s : State) (i : BitVec 1) :
    s.initControlBlock.mem.word (stateAddr s.cfg i) = stIdle := by
  have hi : i.toNat < 2 := i.isLt
  rw [mem_initControlBlock]
  simp only [Memory.writes, initWrites, List.foldl_cons, List.foldl_nil]
  rw [word_write_word (by simp only [stateAddr, consumerReadyAddr]; omega),
    word_write_word (by simp only [stateAddr, timeoutMsAddr]; omega),
    word_write_word (by simp only [stateAddr, bufferSizeAddr]; omega)]
  obtain rfl | rfl := BitVec.eq_zero_or_eq_one i
  · rw [word_write_word (by simp [stateAddr])]
    exact Memory.word_write_same _ _ _
  · exact Memory.word_write_same _ _ _

end Sys2Proof.Machine
end

section
/-! ## What a command does to the defined fields of the Control Block (`10_state.md` R34) -/

namespace Sys2Proof.Machine

/-- Every command keeps the frame of the machine. -/
theorem frame_of_exec {i : Instr} {s t : State} (h : exec i s = .next t) : Frame s t := by
  rcases exec_cases h with h | h | ⟨_, _, rfl⟩
  · exact h.frame
  · exact h.frame
  · exact (Frame.refl s).takeEngine

/-- An FFT command leaves memory outside the regions that its checks give, whether it races or not. -/
theorem sameMemoryOutside_fftStore {s : State} {i : Instr} {f : FftRegions} (hc : fftCheck s s.latch i = some (.ok f)) :
    SameMemoryOutside f.written s (s.fftStore f (s.fftResults f i)) := by
  intro x hx
  cases hr : s.raced f with
  | true =>
    rw [mem_fftStore_raced hr]
    refine byte_writes_of_not_has fun w hw => ?_
    obtain ⟨r, hmem, rfl⟩ := List.mem_map.mp hw
    simpa [freeBytes] using hx r hmem
  | false =>
    rw [mem_fftStore hr]
    refine byte_writes_of_not_has fun w hw => ?_
    obtain ⟨r, hmem, hbase, hlen⟩ := fftResults_inside hc w hw
    have hout := hx r hmem
    simp only [Region.has, Bool.and_eq_false_iff, decide_eq_false_iff_not] at hout ⊢
    omega

theorem mem_fftEnd (s : State) (f : FftRegions) (i : Instr) :
    (s.fftEnd f i).mem = (s.fftStore f (s.fftResults f i)).mem :=
  (fftReturn_spec (MemoryOp.fftStore s f (s.fftResults f i)) f i).2.2.2.1

theorem sameMemoryOutside_fftEnd {s : State} {i : Instr} {f : FftRegions} (hc : fftCheck s s.latch i = some (.ok f)) :
    SameMemoryOutside f.written s (s.fftEnd f i) := fun x hx => by
  rw [mem_fftEnd, sameMemoryOutside_fftStore hc x hx]

/-- The bytes of the defined fields are as before. -/
def SameFields (c : Config) (m m' : Memory) : Prop :=
  ∀ x, c.cbBase ≤ x → x < c.cbBase + 0x0C4 → m'.byte x = m.byte x

theorem SameFields.of_eq {c : Config} {m m' : Memory} (h : m' = m) : SameFields c m m' := fun _ _ _ => by rw [h]

theorem SameFields.word {c : Config} {m m' : Memory} (h : SameFields c m m') {a : Nat} (hlow : c.cbBase ≤ a)
    (hhigh : a + 4 ≤ c.cbBase + 0x0C4) : m'.word a = m.word a :=
  word_congr fun x h1 h2 => h x (hlow.trans h1) (by omega)

theorem SameFields.of_write {c : Config} {m : Memory} {a : Nat} {bs : List Byte}
    (h : a + bs.length ≤ c.cbBase ∨ c.cbBase + 0x0C4 ≤ a) : SameFields c m (m.write a bs) :=
  fun _ _ _ => Memory.byte_write_outside (by omega)

/-- Regions that do not overlap the defined fields hold none of their bytes. -/
theorem has_eq_false_of_off_fields {c : Config} {r : Region} (h : r.overlaps (definedFields c) = false) {x : Nat}
    (hlow : c.cbBase ≤ x) (hhigh : x < c.cbBase + 0x0C4) : r.has x = false := by
  simp only [overlaps_eq_false, definedFields] at h
  simp only [Region.has, Bool.and_eq_false_iff, decide_eq_false_iff_not]
  omega

/-- Memory outside regions off the fields includes the fields. -/
theorem SameFields.of_outside {rs : List Region} {s t : State} {c : Config}
    (hrs : ∀ r ∈ rs, r.overlaps (definedFields c) = false) (h : SameMemoryOutside rs s t) :
    SameFields c s.mem t.mem :=
  fun x hlow hhigh => h x fun r hr => has_eq_false_of_off_fields (hrs r hr) hlow hhigh

/-- What a step of a command does to the defined fields, where no other agent writes them. -/
inductive FieldEffect (s t : State) : Instr → Prop where
  | untouched (i : Instr) : SameFields s.cfg s.mem t.mem → FieldEffect s t i
  | initialises : s.active = .C → t.mem = s.initControlBlock.mem → FieldEffect s t .bmInit
  | acquiresWrite (b : BitVec 1) : s.active = .P → s.bufferState b = stIdle →
      t.mem = s.mem.write (stateAddr s.cfg b) (wordBytes stWriting) → FieldEffect s t .bmAcqw
  | findsBusy (e : Bool) : (s.latch.counted = false → t.latch.counted = true ∨ Ended t .timeout) →
      t.mem = (s.mem.overrun s.cfg s.latch.counted (s.overrunCount + 1)).timedOut s.cfg e (s.timeoutCount + 1) →
      FieldEffect s t .bmAcqw
  | commits (b : BitVec 1) : s.active = .P → s.bufferState b = stWriting →
      t.mem = s.mem.handedOff (stateAddr s.cfg b) (writeCountAddr s.cfg b) (lastWriteAddr s.cfg b) stReady
        (s.writeCount b + 1) s.now → FieldEffect s t .bmCommit
  | acquiresRead (b : BitVec 1) : s.active = .C → s.bufferState b = stReady →
      t.mem = s.mem.write (stateAddr s.cfg b) (wordBytes stReading) → FieldEffect s t .bmAcqr
  | findsNoneReady (e : Bool) : t.mem = s.mem.timedOut s.cfg e (s.timeoutCount + 1) → FieldEffect s t .bmAcqr
  | releases (b : BitVec 1) : s.active = .C → s.bufferState b = stReading →
      t.mem = s.mem.handedOff (stateAddr s.cfg b) (readCountAddr s.cfg b) (lastReadAddr s.cfg b) stIdle
        (s.readCount b + 1) s.now → FieldEffect s t .bmRelease

/-- A BM_ACQW attempt that found no buffer has counted the overrun, and waits or has timed out. -/
theorem counted_of_findsBusy (s : State) (e : Bool) :
    (s.noteScan.countOverrun.timeoutOrWait e).latch.counted = true ∨
      Ended (s.noteScan.countOverrun.timeoutOrWait e) .timeout := by
  unfold State.timeoutOrWait
  split
  · exact .inr (Ended.finish _ _)
  · obtain ⟨_, _, _, hact⟩ := countOverrun_frame s.noteScan
    refine .inl ?_
    show s.noteScan.countOverrun.wait.act.latch.counted = true
    rw [act_wait, hact]

/-- Every step of a command has one of the effects on the fields. -/
theorem fieldEffect_of_runs {i : Instr} {s t : State} (hq : s.quietOn (definedFields s.cfg))
    (hown : ∀ f, fftCheck s s.latch i = some (.ok f) → ∀ r ∈ f.written, r.overlaps (definedFields s.cfg) = false)
    (h : Runs s i t) : FieldEffect s t i := by
  have hstate (b : BitVec 1) : s.peek32 (stateAddr s.cfg b) = s.bufferState b := peek32_stateAddr (hq.stateWord b)
  cases h with
  | initialises ha => exact .initialises ha (mem_finish ..)
  | acquiresIdle b ha hb => exact .acquiresWrite b ha (hstate b ▸ hb) (mem_grantWrite hb)
  | findsBusy => exact .findsBusy _ (fun _ => counted_of_findsBusy ..) (mem_findsBusy hq _)
  | commits b ha hb =>
    have hd : writeCountAddr s.cfg b + 4 ≤ stateAddr s.cfg b ∨ stateAddr s.cfg b + 4 ≤ writeCountAddr s.cfg b := by
      simp only [writeCountAddr, stateAddr]
      omega
    exact .commits b ha (hstate b ▸ hb) (by rw [← peek32_writeCountAddr hq b]; exact mem_handOff hb hd _ _ _)
  | acquiresReady b ha hb => exact .acquiresRead b ha (hstate b ▸ hb) (mem_grantRead hb)
  | findsNoneReady => exact .findsNoneReady _ (mem_findsNoneReady hq _)
  | releases b ha hb =>
    have hd : readCountAddr s.cfg b + 4 ≤ stateAddr s.cfg b ∨ stateAddr s.cfg b + 4 ≤ readCountAddr s.cfg b := by
      simp only [readCountAddr, stateAddr]
      omega
    exact .releases b ha (hstate b ▸ hb) (by rw [← peek32_readCountAddr hq b]; exact mem_handOff hb hd _ _ _)
  | snapshots a ha =>
    obtain ⟨-, -, -, -, -, -, hoff⟩ := ha
    have hm : (s.snapshotAt a).mem = s.mem.write a s.snapshotBytes := by simp [State.snapshotAt]
    refine .untouched _ ?_
    rw [hm]
    exact .of_write (by simpa using hoff)
  | swaps a ha =>
    have hm : (s.swapped a).mem = if s.peek32 a = s.latch.a1 then s.mem.write a (wordBytes s.latch.a2) else s.mem := by
      simp [State.swapped, mem_cas32]
    refine .untouched _ ?_
    rw [hm]
    split
    · exact .of_write (by simpa using ha.2)
    · exact .of_eq rfl
  | adds a ha =>
    have hm : (s.added a).mem = s.mem.write a (wordBytes (s.peek32 a + s.latch.a1)) := by
      simp [State.added, mem_fadd32]
    refine .untouched _ ?_
    rw [hm]
    exact .of_write (by simpa using ha.2)
  | transforms i f _ hc => exact .untouched _ (.of_outside (hown f hc) (sameMemoryOutside_fftEnd hc))
  | _ => exact .untouched _ (.of_eq (by simp [State.stat32, State.stat64]))

/-! ### The words of the fields after each effect -/

/-- State words and counters stand apart. -/
theorem stateAddr_apart {c : Config} {b d : BitVec 1} (h : b ≠ d) :
    stateAddr c b + 4 ≤ stateAddr c d ∨ stateAddr c d + 4 ≤ stateAddr c b := by
  have := toNat_ne_of_ne h
  simp only [stateAddr]
  omega

/-- A word of the fields other than the counters of overruns and timeouts is as before an attempt that finds no buffer. -/
theorem word_findsBusy {m : Memory} {c : Config} {counted e : Bool} {v w : Word} {a : Nat}
    (h : a + 4 ≤ overrunAddr c ∨ timeoutAddr c + 4 ≤ a) :
    ((m.overrun c counted v).timedOut c e w).word a = m.word a := by
  have hd : a + 4 ≤ timeoutAddr c ∨ timeoutAddr c + 4 ≤ a := by
    simp only [overrunAddr, timeoutAddr] at h ⊢
    omega
  have ho : a + 4 ≤ overrunAddr c ∨ overrunAddr c + 4 ≤ a := by
    simp only [overrunAddr, timeoutAddr] at h ⊢
    omega
  cases e <;> cases counted <;> simp [Memory.timedOut, Memory.overrun, word_write_word hd, word_write_word ho]

theorem word_timedOut {m : Memory} {c : Config} {e : Bool} {w : Word} {a : Nat}
    (h : a + 4 ≤ timeoutAddr c ∨ timeoutAddr c + 4 ≤ a) : (m.timedOut c e w).word a = m.word a := by
  cases e <;> simp [Memory.timedOut, word_write_word h]

/-- A word that a hand-off does not write. -/
theorem word_handedOff {m : Memory} {st counter stamp a : Nat} {given count : Word} {now : DWord}
    (h1 : a + 4 ≤ st ∨ st + 4 ≤ a) (h2 : a + 4 ≤ counter ∨ counter + 4 ≤ a) (h3 : a + 4 ≤ stamp ∨ stamp + 8 ≤ a) :
    (m.handedOff st counter stamp given count now).word a = m.word a := by
  rw [Memory.handedOff, word_write_dword h3, word_write_word h2, word_write_word h1]

/-- The state word after a hand-off. -/
theorem word_handedOff_state {m : Memory} {st counter stamp : Nat} {given count : Word} {now : DWord}
    (h2 : st + 4 ≤ counter ∨ counter + 4 ≤ st) (h3 : st + 4 ≤ stamp ∨ stamp + 8 ≤ st) :
    (m.handedOff st counter stamp given count now).word st = given := by
  rw [Memory.handedOff, word_write_dword h3, word_write_word h2, Memory.word_write_same]

/-- The counter after a hand-off. -/
theorem word_handedOff_counter {m : Memory} {st counter stamp : Nat} {given count : Word} {now : DWord}
    (h3 : counter + 4 ≤ stamp ∨ stamp + 8 ≤ counter) :
    (m.handedOff st counter stamp given count now).word counter = count := by
  rw [Memory.handedOff, word_write_dword h3, Memory.word_write_same]

end Sys2Proof.Machine
end

section
/-! ## The fields of the Control Block over a command and over a step (`10_state.md` R34, `40_buffer_manager.md` R166) -/

namespace Sys2Proof.Machine

/-- A zeroed word reads 0. -/
theorem word_zero_inside {m : Memory} {a n b : Nat} (hlow : a ≤ b) (hhigh : b + 4 ≤ a + n) : (m.zero a n).word b = 0 := by
  have hread : (m.zero a n).read b 4 = [0, 0, 0, 0] := by
    refine (List.map_congr_left fun k hk => ?_).trans (rfl : (List.range 4).map (fun _ => (0 : Byte)) = _)
    have := List.mem_range.mp hk
    rw [Memory.byte_zero, if_pos (by omega)]
  rw [Memory.word, hread]
  rfl

/-- BM_INIT leaves the counters 0. -/
theorem counter_initControlBlock {s : State} (hwf : s.cfg.wf = true) {a : Nat} (hlow : s.cfg.cbBase + 0x080 ≤ a)
    (hhigh : a + 4 ≤ s.cfg.cbBase + 0x098) : s.initControlBlock.mem.word a = 0 := by
  have hsize := Config.cbSize_of_wf hwf
  rw [word_initControlBlock (by omega) (by omega) (by omega) (by omega), word_zero_inside (by omega) (by omega)]

/-! ### The commands -/

/-- Settles O56: of the effects on the fields only those of R166 change a state word. -/
theorem stateWordsMoveByEdges : Obligations.StateWordsMoveByEdges := by
  intro i s t b hq hown h
  have ht : t.bufferState b = t.mem.word (stateAddr s.cfg b) := by
    rw [State.bufferState, (frame_of_exec h).cfg, stateAddr]
  have others {d : BitVec 1} (hd : b ≠ d) (w : Word) :
      (s.mem.write (stateAddr s.cfg d) (wordBytes w)).word (stateAddr s.cfg b) = s.bufferState b :=
    word_write_word (stateAddr_apart hd)
  rw [ht]
  cases fieldEffect_of_runs hq hown (runs_of_exec h) with
  | untouched _ hm => exact .inl (hm.word (by simp [stateAddr]) (by simp only [stateAddr]; omega))
  | initialises ha hm => exact .inr (by rw [hm, bufferState_initControlBlock, ha]; exact .init _)
  | acquiresWrite d ha hd hm =>
    by_cases hb : b = d
    · exact .inr (by rw [hm, hb, Memory.word_write_same, ha, hd]; exact .acquireWrite)
    · exact .inl (by rw [hm, others hb])
  | findsBusy e _ hm =>
    exact .inl (by rw [hm, word_findsBusy (by simp only [stateAddr, overrunAddr]; omega)]; rfl)
  | commits d ha hd hm =>
    by_cases hb : b = d
    · subst hb
      exact .inr (by
        rw [hm, word_handedOff_state (by simp only [stateAddr, writeCountAddr]; omega)
          (by simp only [stateAddr, lastWriteAddr]; omega), ha, hd]
        exact .commit)
    · exact .inl (by
        rw [hm, word_handedOff (stateAddr_apart hb) (by simp only [stateAddr, writeCountAddr]; omega)
          (by simp only [stateAddr, lastWriteAddr]; omega)]
        rfl)
  | acquiresRead d ha hd hm =>
    by_cases hb : b = d
    · exact .inr (by rw [hm, hb, Memory.word_write_same, ha, hd]; exact .acquireRead)
    · exact .inl (by rw [hm, others hb])
  | findsNoneReady e hm => exact .inl (by rw [hm, word_timedOut (by simp only [stateAddr, timeoutAddr]; omega)]; rfl)
  | releases d ha hd hm =>
    by_cases hb : b = d
    · subst hb
      exact .inr (by
        rw [hm, word_handedOff_state (by simp only [stateAddr, readCountAddr]; omega)
          (by simp only [stateAddr, lastReadAddr]; omega), ha, hd]
        exact .release)
    · exact .inl (by
        rw [hm, word_handedOff (stateAddr_apart hb) (by simp only [stateAddr, readCountAddr]; omega)
          (by simp only [stateAddr, lastReadAddr]; omega)]
        rfl)

/-- The overrun count after an attempt that finds no buffer. -/
theorem overrunCount_findsBusy {m : Memory} {c : Config} {counted e : Bool} {v w : Word} :
    ((m.overrun c counted v).timedOut c e w).word (overrunAddr c) =
      if counted = true then m.word (overrunAddr c) else v := by
  rw [word_timedOut (by simp [overrunAddr, timeoutAddr])]
  cases counted <;> simp [Memory.overrun, Memory.word_write_same]

/-- Settles O60: of the effects on the fields only two change `overrun_count`. -/
theorem overrunIsCountedOnce : Obligations.OverrunIsCountedOnce := by
  intro i s t hwf hq hown h hne
  have ht : t.overrunCount = t.mem.word (overrunAddr s.cfg) := by
    rw [State.overrunCount, (frame_of_exec h).cfg, overrunAddr]
  have off {d : BitVec 1} (w : Word) :
      (s.mem.write (stateAddr s.cfg d) (wordBytes w)).word (overrunAddr s.cfg) = s.overrunCount :=
    word_write_word (by simp only [stateAddr, overrunAddr]; omega)
  rw [ht] at hne ⊢
  cases fieldEffect_of_runs hq hown (runs_of_exec h) with
  | untouched _ hm => exact absurd (hm.word (by simp [overrunAddr]) (by simp [overrunAddr])) hne
  | initialises _ hm =>
    exact .inl ⟨rfl, by rw [hm, counter_initControlBlock hwf (by simp [overrunAddr]) (by simp [overrunAddr])]⟩
  | acquiresWrite d _ _ hm => exact absurd (by rw [hm, off]) hne
  | acquiresRead d _ _ hm => exact absurd (by rw [hm, off]) hne
  | findsBusy e hcount hm =>
    rw [hm, overrunCount_findsBusy] at hne ⊢
    cases hc : s.latch.counted with
    | true => exact absurd (by rw [hc]; rfl) hne
    | false => exact .inr ⟨rfl, rfl, rfl, hcount hc⟩
  | commits d _ _ hm =>
    refine absurd ?_ hne
    rw [hm, word_handedOff (by simp only [stateAddr, overrunAddr]; omega)
      (by simp only [writeCountAddr, overrunAddr]; omega) (by simp only [lastWriteAddr, overrunAddr]; omega)]
    rfl
  | releases d _ _ hm =>
    refine absurd ?_ hne
    rw [hm, word_handedOff (by simp only [stateAddr, overrunAddr]; omega)
      (by simp only [readCountAddr, overrunAddr]; omega) (by simp only [lastReadAddr, overrunAddr]; omega)]
    rfl
  | findsNoneReady e hm => exact absurd (by rw [hm, word_timedOut (by simp [overrunAddr, timeoutAddr])]; rfl) hne

/-! ### Counters and state words -/

/-- A buffer's counters and its state word agree (R34, clause 2). -/
def Agree (written read st : Word) : Prop :=
  (written - read = 0 ∨ written - read = 1) ∧ (written - read = 1 ↔ st = stReady ∨ st = stReading)

theorem Agree.acquireWrite {w r : Word} (h : Agree w r stIdle) : Agree w r stWriting := by
  simpa [Agree, stIdle, stWriting, stReady, stReading] using h

theorem Agree.acquireRead {w r : Word} (h : Agree w r stReady) : Agree w r stReading := by
  simpa [Agree, stReady, stReading] using h

theorem Agree.commit {w r : Word} (h : Agree w r stWriting) : Agree (w + 1) r stReady := by
  have hdiff : w - r = 0 := by
    obtain ⟨h0 | h1, hiff⟩ := h
    · exact h0
    · exact absurd (hiff.mp h1) (by decide)
  have hnext : w + 1 - r = 1 := by bv_omega
  exact ⟨.inr hnext, iff_of_true hnext (.inl rfl)⟩

theorem Agree.release {w r : Word} (h : Agree w r stReading) : Agree w (r + 1) stIdle := by
  have hdiff : w - r = 1 := h.2.mpr (.inr rfl)
  have hnext : w - (r + 1) = 0 := by bv_omega
  exact ⟨.inl hnext, iff_of_false (by rw [hnext]; decide) (by decide)⟩

theorem countersAgree_iff {s t : State} (hc : t.cfg = s.cfg) (b : BitVec 1) :
    t.countersAgree b ↔ Agree (t.mem.word (writeCountAddr s.cfg b)) (t.mem.word (readCountAddr s.cfg b))
      (t.mem.word (stateAddr s.cfg b)) := by
  rw [State.countersAgree, State.writeCount, State.readCount, State.bufferState, hc]
  rfl

/-- Where the fields are as before, so is the agreement. -/
theorem countersAgree_of_sameFields {s t : State} {b : BitVec 1} (hc : t.cfg = s.cfg)
    (hm : SameFields s.cfg s.mem t.mem) (h : s.countersAgree b) : t.countersAgree b := by
  rw [countersAgree_iff hc, hm.word (by simp only [writeCountAddr]; omega) (by simp only [writeCountAddr]; omega),
    hm.word (by simp only [readCountAddr]; omega) (by simp only [readCountAddr]; omega),
    hm.word (by simp only [stateAddr]; omega) (by simp only [stateAddr]; omega)]
  exact (countersAgree_iff rfl b).mp h

theorem countersAgree_initControlBlock {s t : State} (hwf : s.cfg.wf = true) (hc : t.cfg = s.cfg)
    (hm : t.mem = s.initControlBlock.mem) (b : BitVec 1) : t.countersAgree b := by
  rw [countersAgree_iff hc, hm, bufferState_initControlBlock,
    counter_initControlBlock hwf (by simp only [writeCountAddr]; omega) (by simp only [writeCountAddr]; omega),
    counter_initControlBlock hwf (by simp only [readCountAddr]; omega) (by simp only [readCountAddr]; omega)]
  exact ⟨.inl rfl, by decide⟩

/-- Settles O55: all counters are 0 and both buffers IDLE. -/
theorem bmInitMakesCountersAgree : Obligations.BmInitMakesCountersAgree := by
  intro s t hwf ha h b
  obtain rfl := Host.Outcome.next.inj ((exec_bmInit ha).symm.trans h)
  exact countersAgree_initControlBlock hwf (frame_of_exec h).cfg (by simp) b

/-- A change of state words only. -/
theorem countersAgree_of_stateWrite {s t : State} {b d : BitVec 1} {w : Word} (hc : t.cfg = s.cfg)
    (hm : t.mem = s.mem.write (stateAddr s.cfg d) (wordBytes w)) (h : s.countersAgree b)
    (hstep : b = d → Agree (s.writeCount b) (s.readCount b) w) : t.countersAgree b := by
  have hw : t.mem.word (writeCountAddr s.cfg b) = s.writeCount b :=
    hm ▸ word_write_word (by simp only [stateAddr, writeCountAddr]; omega)
  have hr : t.mem.word (readCountAddr s.cfg b) = s.readCount b :=
    hm ▸ word_write_word (by simp only [stateAddr, readCountAddr]; omega)
  rw [countersAgree_iff hc, hw, hr, hm]
  by_cases hb : b = d
  · rw [hb, Memory.word_write_same, ← hb]
    exact hstep hb
  · rw [word_write_word (stateAddr_apart hb)]
    exact h

/-- What a command does to the fields keeps the agreement. -/
theorem FieldEffect.countersAgree {i : Instr} {s t : State} {b : BitVec 1} (h : FieldEffect s t i)
    (hwf : s.cfg.wf = true) (hc : t.cfg = s.cfg) (hs : s.countersAgree b) : t.countersAgree b := by
  have hagree : Agree (s.writeCount b) (s.readCount b) (s.bufferState b) := hs
  cases h with
  | untouched _ hm => exact countersAgree_of_sameFields hc hm hs
  | initialises _ hm => exact countersAgree_initControlBlock hwf hc hm b
  | acquiresWrite d _ hd hm =>
    refine countersAgree_of_stateWrite hc hm hs fun hb => ?_
    rw [hb, hd, ← hb] at hagree
    exact hagree.acquireWrite
  | acquiresRead d _ hd hm =>
    refine countersAgree_of_stateWrite hc hm hs fun hb => ?_
    rw [hb, hd, ← hb] at hagree
    exact hagree.acquireRead
  | findsBusy e _ hm =>
    rw [countersAgree_iff hc, hm, word_findsBusy (by simp only [writeCountAddr, overrunAddr]; omega),
      word_findsBusy (by simp only [readCountAddr, overrunAddr]; omega),
      word_findsBusy (by simp only [stateAddr, overrunAddr]; omega)]
    exact hagree
  | findsNoneReady e hm =>
    rw [countersAgree_iff hc, hm, word_timedOut (by simp only [writeCountAddr, timeoutAddr]; omega),
      word_timedOut (by simp only [readCountAddr, timeoutAddr]; omega),
      word_timedOut (by simp only [stateAddr, timeoutAddr]; omega)]
    exact hagree
  | commits d _ hd hm =>
    rw [countersAgree_iff hc, hm, word_handedOff (a := readCountAddr s.cfg b)
      (by simp only [stateAddr, readCountAddr]; omega) (by simp only [writeCountAddr, readCountAddr]; omega)
      (by simp only [lastWriteAddr, readCountAddr]; omega)]
    by_cases hb : b = d
    · subst hb
      rw [word_handedOff_counter (by simp only [writeCountAddr, lastWriteAddr]; omega),
        word_handedOff_state (by simp only [stateAddr, writeCountAddr]; omega)
          (by simp only [stateAddr, lastWriteAddr]; omega)]
      rw [hd] at hagree
      exact hagree.commit
    · have := toNat_ne_of_ne hb
      rw [word_handedOff (a := writeCountAddr s.cfg b) (by simp only [stateAddr, writeCountAddr]; omega)
          (by simp only [writeCountAddr]; omega) (by simp only [writeCountAddr, lastWriteAddr]; omega),
        word_handedOff (stateAddr_apart hb) (by simp only [stateAddr, writeCountAddr]; omega)
          (by simp only [stateAddr, lastWriteAddr]; omega)]
      exact hagree
  | releases d _ hd hm =>
    rw [countersAgree_iff hc, hm, word_handedOff (a := writeCountAddr s.cfg b)
      (by simp only [stateAddr, writeCountAddr]; omega) (by simp only [writeCountAddr, readCountAddr]; omega)
      (by simp only [lastReadAddr, writeCountAddr]; omega)]
    by_cases hb : b = d
    · subst hb
      rw [word_handedOff_counter (by simp only [readCountAddr, lastReadAddr]; omega),
        word_handedOff_state (by simp only [stateAddr, readCountAddr]; omega)
          (by simp only [stateAddr, lastReadAddr]; omega)]
      rw [hd] at hagree
      exact hagree.release
    · have := toNat_ne_of_ne hb
      rw [word_handedOff (a := readCountAddr s.cfg b) (by simp only [stateAddr, readCountAddr]; omega)
          (by simp only [readCountAddr]; omega) (by simp only [readCountAddr, lastReadAddr]; omega),
        word_handedOff (stateAddr_apart hb) (by simp only [stateAddr, readCountAddr]; omega)
          (by simp only [stateAddr, lastReadAddr]; omega)]
      exact hagree

/-! ### The step -/

/-- The regions that the checks give a command in flight are those of its port. -/
theorem fftRegions_of_fftCheck {s : State} {q : Port} {i : Instr} {f : FftRegions} (hb : (s.port q).busy = true)
    (hd : decodeWord (s.port q).latch.word = .ok i) (hc : fftCheck s (s.port q).latch i = some (.ok f)) :
    s.fftRegions q = some f := by simp [State.fftRegions, State.fftInFlight, hb, hd, hc]

/-- An FFT command that reset abandons leaves every byte outside what it writes. -/
theorem byte_abandonFft {f : Option FftRegions} {x : Nat} (h : ∀ g, f = some g → ∀ r ∈ g.written, r.has x = false)
    (t : Nat) (m : Memory) : (abandonFft t f m).byte x = m.byte x := by
  cases f with
  | none => rfl
  | some g =>
    rw [abandonFft_some]
    refine byte_writes_of_not_has fun w hw => ?_
    obtain ⟨r, hr, rfl⟩ := List.mem_map.mp hw
    simpa [freeBytes] using h g rfl r hr

/-- Asserting reset leaves every byte that no FFT command in flight writes. -/
theorem byte_assertReset {s : State} {x : Nat}
    (h : ∀ q f, s.fftRegions q = some f → ∀ r ∈ f.written, r.has x = false) : s.assertReset.mem.byte x = s.mem.byte x :=
  (byte_abandonFft (h .C) _ _).trans (byte_abandonFft (h .P) _ _)

theorem sameFields_assertReset {s : State} (h : s.fieldsQuiet) : SameFields s.cfg s.mem s.assertReset.mem :=
  fun _ hlow hhigh => byte_assertReset fun q f hf r hr => has_eq_false_of_off_fields (h q f hf r hr) hlow hhigh

theorem fieldsQuiet_setSchedule {s : State} (h : s.fieldsQuiet) (rest : List Event) :
    (s.setSchedule rest).fieldsQuiet := fun q f hf => h q f hf

theorem countersAgree_of_moves {s t : State} {e : Event} {b : BitVec 1} (hwf : s.cfg.wf = true) (hq : s.fieldsQuiet)
    (he : ¬ e.storesInto (definedFields s.cfg)) (hs : s.countersAgree b) (h : Moves s e t) : t.countersAgree b := by
  have hc := (KeepsMemory.of_moves hwf h).cfg
  cases h with
  | runs p i t _ hb hd ht =>
    have hregions (q : Port) : (s.setActive p).fftRegions q = s.fftRegions q :=
      fftRegions_congr (by simp) (by simp) (by simpa using SameCommand.refl _)
    have hquiet : (s.setActive p).quietOn (definedFields s.cfg) := fun f hf => hq _ f ((hregions _).symm.trans hf)
    have hown : ∀ f, fftCheck (s.setActive p) (s.port p).latch i = some (.ok f) →
        ∀ r ∈ f.written, r.overlaps (definedFields s.cfg) = false :=
      fun f hf => hq p f ((hregions p).symm.trans (fftRegions_of_fftCheck (by simpa using hb) (by simpa using hd)
        (by simpa using hf)))
    exact (fieldEffect_of_runs hquiet (by simpa [State.latch] using hown) (runs_of_exec ht)).countersAgree
      (by simpa using hwf) hc hs
  | storesShared _ w a v hw =>
    refine countersAgree_of_sameFields hc ?_ hs
    have hoff : a.toNat + w.bytes ≤ s.cfg.cbBase ∨ s.cfg.cbBase + 0x0C4 ≤ a.toNat := by
      have := Width.bytes_pos w
      simp only [Event.storesInto, Bool.not_eq_true, overlaps_eq_false, definedFields] at he
      omega
    have hm : (storeShared w a.toNat v s).mem = s.mem.write a.toNat (leBytes w.bytes v.toNat) := mem_poke ..
    rw [hm]
    exact .of_write (by simpa using hoff)
  | loadsRegister _ _ _ v o =>
    obtain ⟨p, ps, hport⟩ := afterReadReg_eq_setPort s o
    exact countersAgree_of_sameFields hc (.of_eq (by simp [hport])) hs
  | storesRegister _ _ _ v o =>
    obtain ⟨p, ps, hport⟩ := writeReg_eq_setPort s o v
    exact countersAgree_of_sameFields hc (.of_eq (by simp [hport])) hs
  | loadsShared => exact countersAgree_of_sameFields hc (.of_eq (by simp [loadShared])) hs
  | asserts => exact countersAgree_of_sameFields hc (sameFields_assertReset hq) hs
  | releases => exact countersAgree_of_sameFields hc (.of_eq rfl) hs
  | _ => exact countersAgree_of_sameFields hc (.of_eq (by simp)) hs

/-- Settles O54: every event keeps the agreement, a command by what it does to the fields. -/
theorem stepKeepsCounters : Obligations.StepKeepsCounters := by
  intro s t b hwf hq he hs h
  rcases moves_of_step h with rfl | ⟨e, rest, u, hnext, hu, rfl⟩
  · exact countersAgree_of_sameFields rfl (.of_eq rfl) hs
  · have hu' : u.countersAgree b := countersAgree_of_moves (s := s.setSchedule rest) (by simpa using hwf)
      (fieldsQuiet_setSchedule hq rest) (by simpa using he e hnext) hs hu
    exact countersAgree_of_sameFields rfl (.of_eq rfl) hu'

end Sys2Proof.Machine
end

section
/-! ## What the commands leave alone (`10_state.md` R38 to R46, `60_exceptions.md` R331, R332) -/

namespace Sys2Proof.Machine

/-- A step that changes no more than memory and the own port's STATUS, RES registers and in-flight state. -/
structure Confined (s t : State) : Prop where
  rest : Undisturbed s t
  doorbells : SameDoorbells s t
  buffers : SameBuffers s t

theorem MemoryOp.confined {s t : State} (h : MemoryOp s t) : Confined s t :=
  ⟨h.undisturbed, h.sameDoorbells, h.lastUsed, h.cbValid⟩

theorem Confined.refl (s : State) : Confined s s := (MemoryOp.refl s).confined

section Steps

variable {s t : State} (h : Confined s t)
include h

theorem Confined.finish (c : Code) : Confined s (t.finish c) :=
  ⟨h.rest.finish c, h.doorbells.finish c, by simpa [SameBuffers] using h.buffers⟩

theorem Confined.wait : Confined s t.wait := ⟨h.rest.wait, h.doorbells.wait, by simpa [SameBuffers] using h.buffers⟩

theorem Confined.setRes0 (v : Word) : Confined s (t.setRes0 v) :=
  ⟨h.rest.setRes0 v, h.doorbells.setRes0 v, by simpa [SameBuffers] using h.buffers⟩

theorem Confined.setRes1 (v : Word) : Confined s (t.setRes1 v) :=
  ⟨h.rest.setRes1 v, h.doorbells.setRes1 v, by simpa [SameBuffers] using h.buffers⟩

theorem Confined.writeHandle (i : BitVec 1) : Confined s (t.writeHandle i) :=
  ⟨h.rest.writeHandle i, h.doorbells.writeHandle i, by simpa [SameBuffers] using h.buffers⟩

theorem Confined.memoryOp {u : State} (k : MemoryOp t u) : Confined s u :=
  ⟨h.rest.memoryOp k, fun p => (k.sameDoorbells p).trans (h.doorbells p), k.lastUsed.trans h.buffers.1,
    k.cbValid.trans h.buffers.2⟩

theorem Confined.grant (i : BitVec 1) (free taken : Word) : Confined s (t.grant i free taken) :=
  ((h.memoryOp (.cas32 t _ free taken)).writeHandle i).finish .ok

theorem Confined.timeoutOrWait (e : Bool) : Confined s (t.timeoutOrWait e) := by
  unfold State.timeoutOrWait
  split
  · exact (h.memoryOp (.fadd32 t _ 1)).finish _
  · exact h.wait

end Steps

theorem confined_stat32 (s : State) (a : Nat) : Confined s (s.stat32 a) :=
  ((MemoryOp.noteRead s a 4).confined.setRes0 _).finish .ok

theorem confined_stat64 (s : State) (a : Nat) : Confined s (s.stat64 a) :=
  (((MemoryOp.noteRead s a 8).confined.setRes0 _).setRes1 _).finish .ok

theorem confined_swapped (s : State) (a : Nat) : Confined s (s.swapped a) :=
  (((MemoryOp.cas32 s a _ _).confined.setRes0 _).setRes1 _).finish .ok

theorem confined_added (s : State) (a : Nat) : Confined s (s.added a) :=
  ((MemoryOp.fadd32 s a _).confined.setRes0 _).finish .ok

theorem confined_snapshotAt (s : State) (a : Nat) : Confined s (s.snapshotAt a) :=
  ((MemoryOp.snapshotReads s _).trans (.store _ _ _)).confined.finish .ok

theorem Confined.countOverrun {s u : State} (h : MemoryOp s u) : Confined s u.countOverrun := by
  unfold State.countOverrun
  split
  · exact h.confined
  · have hf := h.trans (.fadd32 u (overrunAddr u.cfg) 1)
    refine ⟨hf.undisturbed.step ?_ (by simp) (by simp) (by simp) (by simp), hf.sameDoorbells.updPort fun _ => rfl,
      by simpa [SameBuffers] using And.intro hf.lastUsed hf.cbValid⟩
    rw [h.active, ← hf.active]
    exact hf.frame.updActive fun _ => ⟨rfl, rfl, rfl, rfl, rfl, rfl, rfl, rfl, rfl⟩

theorem confined_findsBusy (s : State) (e : Bool) : Confined s (s.noteScan.countOverrun.timeoutOrWait e) :=
  (Confined.countOverrun (.noteScan s)).timeoutOrWait e

theorem confined_findsNoneReady (s : State) (e : Bool) : Confined s (s.noteScan.timeoutOrWait e) :=
  (MemoryOp.noteScan s).confined.timeoutOrWait e

/-! ### The hand-off and the doorbells -/

/-- Memory operations of a hand-off, before the doorbell. -/
def State.handing (s : State) (st counter stamp : Nat) (held given : Word) : State :=
  ((s.cas32 st held given).fadd32 counter 1).store64 stamp s.now

theorem MemoryOp.handing (s : State) (st counter stamp : Nat) (held given : Word) :
    MemoryOp s (s.handing st counter stamp held given) :=
  ((MemoryOp.cas32 s st held given).trans (.fadd32 _ counter 1)).trans (.store64 _ stamp _)

theorem handOff_of_held {s : State} {st : Nat} {held : Word} (h : s.peek32 st = held) (counter stamp : Nat)
    (given : Word) (p : Port) : s.handOff st counter stamp held given p =
      ((s.handing st counter stamp held given).raiseDoorbell p).finish .ok := by
  simp only [State.handOff, if_pos h, State.handing, State.fullFence]

/-- Raising a doorbell and ending changes that doorbell alone. -/
theorem rings_raiseDoorbell {s u : State} (h : SameDoorbells s u) (p : Port) (c : Code) :
    Rings p s ((u.raiseDoorbell p).finish c) := by
  have hport (q : Port) : (((u.raiseDoorbell p).finish c).port q).db = if q = p then true else (u.port q).db := by
    rw [port_finish, port_raiseDoorbell]
    split <;> split <;> simp_all
  exact ⟨by rw [hport, if_pos rfl], by rw [hport, if_neg (peer_ne p), h]⟩

/-! ### What each command writes of the machine -/

/-- The commands that raise the doorbell of a port (R46). -/
def Raises : Port → Instr → Prop
  | .C, i => i = .bmCommit ∨ i = .ntNotifyC
  | .P, i => i = .bmRelease ∨ i = .ntNotifyP

/-- A command writes of the doorbells, the buffer-manager registers, the slots and the working buffers no more than the
spec gives it. -/
structure WritesItsOwn (i : Instr) (s t : State) : Prop where
  doorbells : ∀ p, (t.port p).db = (s.port p).db ∨ Raises p i ∧ (t.port p).db = true
  lastUsed : t.lastUsed = s.lastUsed ∨ i = .bmAcqw
  cbValid : t.cbValid = s.cbValid ∨ i = .bmInit ∧ t.cbValid = true
  slots : ∀ k, t.inst k = s.inst k ∨ i = .fftRinit k
  work : t.workFree = s.workFree ∨ ∃ k, i = .fftTopbins k

theorem Confined.writesItsOwn {s t : State} (h : Confined s t) (i : Instr) : WritesItsOwn i s t :=
  ⟨fun p => .inl (h.doorbells p), .inl h.buffers.1, .inl h.buffers.2, fun k => .inl (h.rest.slots k),
    .inl h.rest.engine.2.2⟩

theorem WritesItsOwn.of_rings {i : Instr} {s u : State} {p : Port} (h : Confined s u) (hi : Raises p i) :
    WritesItsOwn i s ((u.raiseDoorbell p).finish .ok) where
  doorbells := fun q => by
    obtain ⟨hset, hother⟩ := rings_raiseDoorbell h.doorbells p .ok
    by_cases hq : q = p
    · exact .inr ⟨hq ▸ hi, hq ▸ hset⟩
    · exact .inl (eq_peer_of_ne hq ▸ hother)
  lastUsed := .inl (by simpa using h.buffers.1)
  cbValid := .inl (by simpa using h.buffers.2)
  slots := fun k => .inl (by simpa using h.rest.slots k)
  work := .inl (by simpa using h.rest.engine.2.2)

theorem sameDoorbells_takeEngine (s : State) : SameDoorbells s s.takeEngine := fun q => by
  have : ∀ u : State, ((u.setFeBusy true).setFeOwner s.active).port q = u.port q := by simp
  simp only [State.takeEngine, this, port_updPort]
  split <;> rfl

/-- BM_INIT's accesses, before CB_VALID is set. -/
theorem initControlBlock_eq (s : State) : ∃ u, MemoryOp s u ∧ s.initControlBlock = u.setCbValid true :=
  ⟨_, (((((MemoryOp.storeZero s (controlBlock s.cfg)).trans (.store32 _ (stateAddr s.cfg 0) stIdle)).trans
    (.store32 _ (stateAddr s.cfg 1) stIdle)).trans (.store32 _ (bufferSizeAddr s.cfg) s.cfg.bufSize)).trans
    (.store32 _ (timeoutMsAddr s.cfg) s.cfg.timeoutMs)).trans (.store32 _ (consumerReadyAddr s.cfg) 1), rfl⟩

theorem sameDoorbells_initControlBlock (s : State) : SameDoorbells s s.initControlBlock := fun p => by
  obtain ⟨u, hu, heq⟩ := initControlBlock_eq s
  rw [heq, port_setCbValid, hu.sameDoorbells p]

theorem writesItsOwn_of_runs {i : Instr} {s t : State} (h : Runs s i t) : WritesItsOwn i s t := by
  cases h with
  | endsAtOnce i c => exact ((Confined.refl s).finish c).writesItsOwn i
  | waits i => exact (Confined.refl s).wait.writesItsOwn i
  | initialises =>
    have hu := initControlBlock_undisturbed s
    refine ⟨fun p => .inl ?_, .inl (by simp [State.initControlBlock]), .inr ⟨rfl, by simp [State.initControlBlock]⟩,
      fun k => .inl (by simpa using hu.slots k), .inl (by simpa using hu.engine.2.2)⟩
    simpa using ((sameDoorbells_initControlBlock s).finish .ok) p
  | acquiresIdle b =>
    have hg := (MemoryOp.noteScan s).confined.grant b stIdle stWriting
    exact ⟨fun p => .inl (by simpa [State.grantWrite] using hg.doorbells p), .inr rfl,
      .inl (by simpa [State.grantWrite] using hg.buffers.2),
      fun k => .inl (by simpa [State.grantWrite] using hg.rest.slots k),
      .inl (by simpa [State.grantWrite] using hg.rest.engine.2.2)⟩
  | findsBusy => exact (confined_findsBusy s _).writesItsOwn _
  | commits b _ hb =>
    rw [handOff_of_held hb]
    exact .of_rings (MemoryOp.handing ..).confined (.inl rfl)
  | acquiresReady b => exact ((MemoryOp.stampsAndScan s).confined.grant b _ _).writesItsOwn _
  | findsNoneReady => exact (confined_findsNoneReady s _).writesItsOwn _
  | releases b _ hb =>
    rw [handOff_of_held hb]
    exact .of_rings (MemoryOp.handing ..).confined (.inl rfl)
  | findsOtherState i a => exact ((MemoryOp.noteRead s a 4).confined.finish _).writesItsOwn i
  | readsWord i a => exact (confined_stat32 s a).writesItsOwn i
  | readsDoubleWord i a => exact (confined_stat64 s a).writesItsOwn i
  | snapshots a => exact (confined_snapshotAt s a).writesItsOwn _
  | ringsC => exact .of_rings (.refl s) (.inr rfl)
  | ringsP => exact .of_rings (.refl s) (.inr rfl)
  | swaps a => exact (confined_swapped s a).writesItsOwn _
  | adds a => exact (confined_added s a).writesItsOwn _
  | takesEngine i =>
    exact ⟨fun p => .inl (sameDoorbells_takeEngine s p), .inl (by simp), .inl (by simp), fun k => .inl (by simp),
      .inl (by simp)⟩
  | failsChecks i c =>
    have hf := EngineFreed.finishFft (.refl s) c
    exact ⟨fun p => .inl (hf.doorbells p), .inl hf.buffers.1, .inl hf.buffers.2, fun k => .inl (by simp),
      .inl (by simp)⟩
  | transforms i f =>
    obtain ⟨_, hf, hslots, _, _, hwork⟩ := fftReturn_spec (MemoryOp.fftStore s f (s.fftResults f i)) f i
    refine ⟨fun p => .inl (hf.doorbells p), .inl hf.buffers.1, .inl hf.buffers.2, fun k => .inl (hslots k), ?_⟩
    by_cases hi : ∃ k, i = .fftTopbins k
    · exact .inr hi
    · exact .inl (hwork (not_exists.mp hi)).2
  | refusesSlot k c =>
    have hd := (sameDoorbells_takeEngine s).finish c
    exact ⟨fun p => .inl (by simpa using hd p), .inl (by simp), .inl (by simp), fun j => .inl (by simp), .inl (by simp)⟩
  | fillsSlot k =>
    have hd : SameDoorbells s (s.takeEngine.setInst k (initialisedSlot s.latch.a0)) := fun p => by
      simpa using sameDoorbells_takeEngine s p
    refine ⟨fun p => .inl (by simpa using (hd.finish .ok) p), .inl (by simp), .inl (by simp), fun j => ?_,
      .inl (by simp)⟩
    rw [inst_finishFft, inst_setInst]
    split
    next hj => exact .inr (by rw [hj.1])
    next => exact .inl (by simp)

/-- Settles O57: each clause is read off what the command writes. -/
theorem commandsWriteOnlyTheirOwn : Obligations.CommandsWriteOnlyTheirOwn := by
  intro i s t h
  have hw := writesItsOwn_of_runs (runs_of_exec h)
  have hrise {p : Port} (h0 : (s.port p).db = false) (h1 : (t.port p).db = true) : Raises p i := by
    rcases hw.doorbells p with hsame | ⟨hr, _⟩
    · exact absurd (h0.symm.trans (hsame.symm.trans h1)) (by decide)
    · exact hr
  refine ⟨hrise, hrise, fun p hp => ?_, hw.lastUsed.resolve_left, fun hv => ?_, fun hne => (hw.cbValid.resolve_left hne).1,
    fun k => (hw.slots k).resolve_left, hw.work.imp_left fun hwork => ⟨wb_congr hwork, ob_congr hwork⟩⟩
  · rcases hw.doorbells p with hsame | ⟨_, hset⟩
    · exact hsame.trans hp
    · exact hset
  · rcases hw.cbValid with hsame | ⟨_, hset⟩
    · exact hsame.trans hv
    · exact hset

end Sys2Proof.Machine
end

section
/-! ## Commands that fail, and the results of the AT and BM commands (`60_exceptions.md` R331, R332;
`41_notifier_atomics.md` R208 to R210; `40_buffer_manager.md` R151 to R165) -/

namespace Sys2Proof.Machine

/-! ### Commands that fail -/

/-- Memory, results, doorbells, buffer-manager registers and slots are as before. -/
structure NoEffect (s t : State) : Prop where
  memory : SameMemory s t
  results : SameResults s t
  doorbells : SameDoorbells s t
  buffers : SameBuffers s t
  slots : SameSlots s t

theorem NoEffect.finish {s u : State} (h : MemoryOp s u) (hm : u.mem = s.mem) (c : Code) : NoEffect s (u.finish c) where
  memory := fun x => by rw [mem_finish, hm]
  results := by simp [SameResults, h.act]
  doorbells := h.sameDoorbells.finish c
  buffers := (h.confined.finish c).buffers
  slots := (h.confined.finish c).rest.slots

theorem ended_grantWrite (s : State) (b : BitVec 1) : Ended (s.grantWrite b) .ok := by
  have h : Ended (s.grant b stIdle stWriting) .ok := Ended.finish _ _
  have hact : (s.grantWrite b).act = (s.grant b stIdle stWriting).act := act_setLastUsed ..
  exact ⟨hact ▸ h.code, hact ▸ h.busy, hact ▸ h.hold, hact ▸ h.latch⟩

/-- An attempt that found no buffer ends with TIMEOUT or waits. -/
theorem ended_timeoutOrWait (u : State) (e : Bool) :
    Ended (u.timeoutOrWait e) .timeout ∨ (u.timeoutOrWait e).act = { u.act with hold := true } := by
  unfold State.timeoutOrWait
  split
  · exact .inl (Ended.finish _ _)
  · exact .inr (act_wait u)

/-- A step of a command ends it with OK or TIMEOUT, leaves it BUSY, or has no effect. -/
theorem noEffect_of_runs {i : Instr} {s t : State} (h : Runs s i t) :
    (Ended t .ok ∨ Ended t .timeout ∨ t.act.busy = s.act.busy) ∨ NoEffect s t := by
  cases h with
  | endsAtOnce i c => exact .inr (.finish (.refl s) rfl c)
  | findsOtherState i a => exact .inr (.finish (.noteRead s a 4) (by simp) _)
  | failsChecks i c =>
    have hf := EngineFreed.finishFft (.refl s) c
    exact .inr ⟨fun x => by simp, .finishFft (.refl s) c, hf.doorbells, hf.buffers, fun k => by simp⟩
  | refusesSlot k c =>
    exact .inr ⟨fun x => by simp, by simp [SameResults, State.act],
      fun p => by simpa using ((sameDoorbells_takeEngine s).finish c) p, by simp [SameBuffers], fun k => by simp⟩
  | waits i => exact .inl (.inr (.inr (by simp)))
  | takesEngine i => exact .inl (.inr (.inr (by simp [State.act])))
  | findsBusy =>
    have hact := (countOverrun_frame s.noteScan).2.2.2
    rcases ended_timeoutOrWait s.noteScan.countOverrun s.timedOut with hend | hwait
    · exact .inl (.inr (.inl hend))
    · exact .inl (.inr (.inr (by rw [hwait, hact, (MemoryOp.noteScan s).act])))
  | findsNoneReady =>
    rcases ended_timeoutOrWait s.noteScan s.timedOut with hend | hwait
    · exact .inl (.inr (.inl hend))
    · exact .inl (.inr (.inr (by rw [hwait, (MemoryOp.noteScan s).act])))
  | acquiresIdle b => exact .inl (.inl (ended_grantWrite _ b))
  | commits b _ hb =>
    rw [handOff_of_held hb]
    exact .inl (.inl (Ended.finish _ _))
  | releases b _ hb =>
    rw [handOff_of_held hb]
    exact .inl (.inl (Ended.finish _ _))
  | transforms i f =>
    exact .inl (.inl (fftReturn_spec (MemoryOp.fftStore s f (s.fftResults f i)) f i).1)
  | fillsSlot k => exact .inl (.inl (Ended.finishFft _ _))
  | _ => exact .inl (.inl (Ended.finish _ _))

/-- Settles O58: a command that has ended with neither OK nor TIMEOUT has had no effect. -/
theorem failedCommandsHaveNoEffect : Obligations.FailedCommandsHaveNoEffect := by
  intro i s t hbusy h hend hok htimeout
  rcases noEffect_of_runs (runs_of_exec h) with (he | he | he) | hno
  · exact absurd he.code hok
  · exact absurd he.code htimeout
  · exact absurd (hend.symm.trans (he.trans hbusy)) (by decide)
  · exact ⟨frame_of_exec h, hno.memory, hno.results, hno.doorbells, hno.buffers, hno.slots⟩

/-! ### The AT commands -/

/-- What reading a word into RES0 leaves. -/
theorem stat32_spec (s : State) (a : Nat) :
    let t := s.stat32 a
    Ended t .ok ∧ Undisturbed s t ∧ t.act.res0 = s.peek32 a ∧ t.act.res1 = s.act.res1 ∧ t.act.res2 = s.act.res2 ∧
      t.act.res3 = s.act.res3 ∧ SameDoorbells s t ∧ SameBuffers s t ∧ SameMemory s t := by
  have hc := confined_stat32 s a
  have hact : (s.noteRead a 4).act = s.act := (MemoryOp.noteRead s a 4).act
  exact ⟨Ended.finish _ _, hc.rest, by simp [State.stat32], by simp [State.stat32, hact], by simp [State.stat32, hact],
    by simp [State.stat32, hact], hc.doorbells, hc.buffers, fun x => by simp [State.stat32]⟩

/-- Settles O18. -/
theorem atLoadReads : Obligations.AtLoadReads := by
  intro s a h0 h4 hlow hhigh hq
  have hspec := stat32_spec s a
  rw [hq.peek32] at hspec
  exact ⟨_, exec_atLoad ⟨rfl, h0, h4, hlow, hhigh⟩, hspec⟩

theorem mem_swapped (s : State) (a : Nat) :
    (s.swapped a).mem = if s.peek32 a = s.latch.a1 then s.mem.write a (wordBytes s.latch.a2) else s.mem := by
  simp [State.swapped]

theorem mem_added (s : State) (a : Nat) : (s.added a).mem = s.mem.write a (wordBytes (s.peek32 a + s.latch.a1)) := by
  simp [State.added]

/-- What AT_CAS leaves in the own port. -/
theorem act_swapped (s : State) (a : Nat) :
    (s.swapped a).act.res0 = s.peek32 a ∧ (s.swapped a).act.res1 = (if s.peek32 a = s.latch.a1 then 1 else 0) ∧
      (s.swapped a).act.res2 = s.act.res2 ∧ (s.swapped a).act.res3 = s.act.res3 := by
  have hact := (MemoryOp.cas32 s a s.latch.a1 s.latch.a2).act
  exact ⟨by simp [State.swapped], by simp [State.swapped], by simp [State.swapped, hact], by simp [State.swapped, hact]⟩

/-- What AT_FADD leaves in the own port. -/
theorem act_added (s : State) (a : Nat) :
    (s.added a).act.res0 = s.peek32 a ∧ (s.added a).act.res1 = s.act.res1 ∧ (s.added a).act.res2 = s.act.res2 ∧
      (s.added a).act.res3 = s.act.res3 := by
  have hact := (MemoryOp.fadd32 s a s.latch.a1).act
  exact ⟨by simp [State.added], by simp [State.added, hact], by simp [State.added, hact], by simp [State.added, hact]⟩

/-- A write of one region leaves memory outside it. -/
theorem sameMemoryOutside_of_write {s t : State} {a n : Nat} {bs : List Byte} (h : t.mem = s.mem.write a bs)
    (hn : bs.length = n) : SameMemoryOutside [⟨a, n⟩] s t := fun x hx => by
  rw [h]
  exact byte_write_of_not_has (hn ▸ hx _ (List.mem_singleton.mpr rfl))

/-- Settles O19. -/
theorem atCasSwaps : Obligations.AtCasSwaps := by
  intro s a h0 h4 hlow hhigh hoff hq
  have hc := confined_swapped s a
  obtain ⟨hres0, hres1, hres2, hres3⟩ := act_swapped s a
  have hmem := mem_swapped s a
  rw [hq.peek32] at hres0 hres1 hmem
  refine ⟨_, exec_atCas ⟨⟨rfl, h0, h4, hlow, hhigh⟩, hoff⟩, Ended.finish _ _, hc.rest, hres0, fun he => ?_, fun he => ?_,
    hres2, hres3, hc.doorbells, hc.buffers⟩
  · rw [if_pos he] at hres1 hmem
    exact ⟨hres1, by rw [hmem, Memory.word_write_same], sameMemoryOutside_of_write hmem (length_wordBytes _)⟩
  · rw [if_neg he] at hres1 hmem
    exact ⟨hres1, fun x => by rw [hmem]⟩

/-- Settles O20. -/
theorem atFaddAdds : Obligations.AtFaddAdds := by
  intro s a h0 h4 hlow hhigh hoff hq
  have hc := confined_added s a
  obtain ⟨hres0, hres1, hres2, hres3⟩ := act_added s a
  have hmem := mem_added s a
  rw [hq.peek32] at hres0 hmem
  exact ⟨_, exec_atFadd ⟨⟨rfl, h0, h4, hlow, hhigh⟩, hoff⟩, Ended.finish _ _, hc.rest, hres0,
    by rw [hmem, Memory.word_write_same], sameMemoryOutside_of_write hmem (length_wordBytes _), hres1, hres2, hres3,
    hc.doorbells, hc.buffers⟩

end Sys2Proof.Machine
end

section
/-! ## The buffer manager (`40_buffer_manager.md` R151 to R163) -/

namespace Sys2Proof.Machine

/-! ### BM_INIT -/

/-- Stores at the same places leave a byte as it was before them, or as they make it. -/
theorem byte_writes_congr {m m' : Memory} {x : Nat} (h : m.byte x = m'.byte x) (ws : List (Nat × List Byte)) :
    (m.writes ws).byte x = (m'.writes ws).byte x := by
  induction ws generalizing m m' with
  | nil => exact h
  | cons w ws ih => exact ih (by rw [Memory.byte_write, Memory.byte_write, h])

/-- Storing zeros over a zero leaves a zero. -/
theorem byte_write_stIdle {m : Memory} {a x : Nat} (h : m.byte x = 0) : (m.write a (wordBytes stIdle)).byte x = 0 := by
  have hzero : ∀ k, (wordBytes stIdle).getD k Memory.unlisted = 0 := fun k => by
    rcases k with _ | _ | _ | _ | k <;> rfl
  rw [Memory.byte_write]
  split
  · exact hzero _
  · exact h

/-- The bytes of the Control Block that BM_INIT leaves 0. -/
theorem byte_initControlBlock_zero {s : State} {x : Nat}
    (hx : Region.has ⟨s.cfg.cbBase, s.cfg.cbSize.toNat⟩ x = true) (h1 : Region.has ⟨s.cfg.cbBase + 0x098, 8⟩ x = false)
    (h2 : Region.has ⟨s.cfg.cbBase + 0x0C0, 4⟩ x = false) : s.initControlBlock.mem.byte x = 0 := by
  simp only [Region.has, Bool.and_eq_true, Bool.and_eq_false_iff, decide_eq_true_eq, decide_eq_false_iff_not] at hx h1 h2
  have hzero : (s.mem.zero s.cfg.cbBase s.cfg.cbSize.toNat).byte x = 0 := by rw [Memory.byte_zero, if_pos hx]
  rw [mem_initControlBlock]
  simp only [Memory.writes, initWrites, List.foldl_cons, List.foldl_nil]
  rw [Memory.byte_write_outside (by simp only [consumerReadyAddr, length_wordBytes]; omega),
    Memory.byte_write_outside (by simp only [timeoutMsAddr, length_wordBytes]; omega),
    Memory.byte_write_outside (by simp only [bufferSizeAddr, length_wordBytes]; omega)]
  exact byte_write_stIdle (byte_write_stIdle hzero)

/-- BM_INIT writes the Control Block alone. -/
theorem sameMemoryOutside_initControlBlock {s : State} (hwf : s.cfg.wf = true) :
    SameMemoryOutside [⟨s.cfg.cbBase, s.cfg.cbSize.toNat⟩] s s.initControlBlock := by
  intro x hx
  have hsize := Config.cbSize_of_wf hwf
  have hout := hx _ (List.mem_singleton.mpr rfl)
  simp only [Region.has, Bool.and_eq_false_iff, decide_eq_false_iff_not] at hout
  rw [mem_initControlBlock, byte_writes_of_not_has, Memory.byte_zero, if_neg (by omega)]
  simp only [initWrites, List.forall_mem_cons, length_wordBytes, Region.has, Bool.and_eq_false_iff,
    decide_eq_false_iff_not, stateAddr, bufferSizeAddr, timeoutMsAddr, consumerReadyAddr]
  refine ⟨?_, ?_, ?_, ?_, ?_, by simp⟩ <;> omega

/-- BM_INIT over what it has left changes nothing. -/
theorem byte_initControlBlock_again {s t : State} (hc : t.cfg = s.cfg) (hm : t.mem = s.initControlBlock.mem)
    (hwf : s.cfg.wf = true) (x : Nat) : t.initControlBlock.mem.byte x = t.mem.byte x := by
  rw [hm, mem_initControlBlock, mem_initControlBlock, hc]
  refine byte_writes_congr ?_ _
  rw [Memory.byte_zero, Memory.byte_zero]
  split
  · rfl
  next hout =>
    rw [hm]
    refine sameMemoryOutside_initControlBlock hwf x fun r hr => ?_
    obtain rfl := List.mem_singleton.mp hr
    simpa [Region.has] using hout

/-- The three constants that BM_INIT writes. -/
theorem constants_initControlBlock (s : State) :
    s.initControlBlock.mem.word (s.cfg.cbBase + 0x098) = s.cfg.bufSize ∧
      s.initControlBlock.mem.word (s.cfg.cbBase + 0x09C) = s.cfg.timeoutMs ∧
      s.initControlBlock.mem.word (s.cfg.cbBase + 0x0C0) = 1 := by
  simp only [mem_initControlBlock, Memory.writes, initWrites, List.foldl_cons, List.foldl_nil, bufferSizeAddr,
    timeoutMsAddr, consumerReadyAddr]
  refine ⟨?_, ?_, Memory.word_write_same _ _ _⟩
  · rw [word_write_word (by omega), word_write_word (by omega), Memory.word_write_same]
  · rw [word_write_word (by omega), Memory.word_write_same]

theorem sameResults_initControlBlock (s : State) (c : Code) : SameResults s (s.initControlBlock.finish c) := by
  obtain ⟨u, hu, heq⟩ := initControlBlock_eq s
  simp [heq, SameResults, hu.act]

/-- Settles O22: what BM_INIT writes over the zeroed Control Block, field by field. -/
theorem bmInitClears : Obligations.BmInitClears := by
  intro s hwf ha
  have hrest := (initControlBlock_undisturbed s).finish .ok
  have hc : (s.initControlBlock.finish .ok).cfg = s.cfg := hrest.frame.cfg
  have hm : (s.initControlBlock.finish .ok).mem = s.initControlBlock.mem := mem_finish ..
  obtain ⟨hsize, htimeout, hready⟩ := constants_initControlBlock s
  refine ⟨_, exec_bmInit ha, Ended.finish _ _, hrest, by simp [State.initControlBlock], by simp [State.initControlBlock],
    fun i => ?_, by rw [hm]; exact hsize, by rw [hm]; exact htimeout, by rw [hm]; exact hready, fun x hx h1 h2 => ?_, fun x hx => ?_,
    (sameDoorbells_initControlBlock s).finish .ok, sameResults_initControlBlock s .ok, fun u hu x => ?_⟩
  · rw [State.bufferState, hc, hm]
    exact bufferState_initControlBlock s i
  · rw [hm, byte_initControlBlock_zero hx h1 h2]
  · rw [hm, sameMemoryOutside_initControlBlock hwf x hx]
  · have ha' : (s.initControlBlock.finish .ok).active = .C := hrest.frame.active.trans ha
    obtain rfl := Host.Outcome.next.inj ((exec_bmInit ha').symm.trans hu)
    rw [mem_finish, byte_initControlBlock_again hc hm hwf]

/-! ### BM_ACQW -/

/-- Settles O24. -/
theorem acqwTakesIdleBuffer : Obligations.AcqwTakesIdleBuffer := by
  intro s i hv ha hq hidle hfirst
  have hop := MemoryOp.noteScan s
  have hpeek (b : BitVec 1) : s.peek32 (stateAddr s.cfg b) = s.bufferState b := peek32_stateAddr (hq.stateWord b)
  have hfree : s.peek32 (stateAddr s.cfg i) = stIdle := (hpeek i).trans hidle
  have hexec : exec .bmAcqw s = .next (s.noteScan.grantWrite i) := by
    rw [exec_bmAcqw ⟨hv, ha⟩, acqwAttempt_of_idle hfree (by rwa [hpeek])]
  have hgrant := hop.confined.grant i stIdle stWriting
  have hrest : Undisturbed s (s.noteScan.grantWrite i) := hgrant.rest.setLastUsed i
  have hmem := mem_grantWrite hfree
  refine ⟨_, hexec, ended_grantWrite _ i, hrest, lastUsed_setLastUsed .., ?_, ?_, ?_,
    sameMemoryOutside_of_write hmem (length_wordBytes _), fun p => ?_⟩
  · simpa [State.grantWrite] using hgrant.buffers.2
  · simpa [State.grantWrite, HandleOf] using handleOf_grant s.noteScan i stIdle stWriting
  · rw [State.bufferState, hrest.frame.cfg, hmem]
    exact Memory.word_write_same _ _ _
  · simpa [State.grantWrite] using hgrant.doorbells p

/-- Memory of an attempt that finds no buffer, outside its two counters. -/
theorem sameMemoryOutside_findsBusy {s t : State} {counted e : Bool} {v w : Word}
    (hm : t.mem = (s.mem.overrun s.cfg counted v).timedOut s.cfg e w) :
    SameMemoryOutside [⟨overrunAddr s.cfg, 4⟩, ⟨timeoutAddr s.cfg, 4⟩] s t := by
  intro x hx
  have ho : ∀ m : Memory, (m.write (overrunAddr s.cfg) (wordBytes v)).byte x = m.byte x :=
    fun m => byte_write_of_not_has (by simpa using hx ⟨overrunAddr s.cfg, 4⟩ (by simp))
  have ht : ∀ m : Memory, (m.write (timeoutAddr s.cfg) (wordBytes w)).byte x = m.byte x :=
    fun m => byte_write_of_not_has (by simpa using hx ⟨timeoutAddr s.cfg, 4⟩ (by simp))
  rw [hm]
  cases e <;> cases counted <;> simp [Memory.timedOut, Memory.overrun, ho, ht]

theorem word_timedOut_same {m : Memory} {c : Config} {w : Word} : (m.timedOut c true w).word (timeoutAddr c) = w :=
  Memory.word_write_same _ _ _

/-- Counting the overrun leaves `timeout_count`. -/
theorem word_overrun_timeout {m : Memory} {c : Config} {counted : Bool} {v : Word} :
    (m.overrun c counted v).word (timeoutAddr c) = m.word (timeoutAddr c) := by
  cases counted
  · exact word_write_word (by simp only [overrunAddr, timeoutAddr]; omega)
  · rfl

theorem timedOut_eq_true {s : State} (h : s.latch.a0.toNat ≤ (s.now - s.latch.t0).toNat) : s.timedOut = true :=
  decide_eq_true h

theorem timedOut_eq_false {s : State} (h : (s.now - s.latch.t0).toNat < s.latch.a0.toNat) : s.timedOut = false :=
  decide_eq_false h.not_ge

theorem ended_timedOut (u : State) : Ended (u.timeoutOrWait true) .timeout := by
  rw [State.timeoutOrWait, if_pos rfl]
  exact Ended.finish _ _

theorem act_waiting (u : State) : (u.timeoutOrWait false).act = { u.act with hold := true } := by
  rw [State.timeoutOrWait, if_neg (by decide), act_wait]

/-- The own port after an attempt that found no buffer before the timeout. -/
theorem act_findsBusy_wait (s : State) : (s.noteScan.countOverrun.timeoutOrWait false).act =
    { s.act with hold := true, latch := { s.latch with counted := true } } := by
  rw [act_waiting, (countOverrun_frame s.noteScan).2.2.2, (MemoryOp.noteScan s).act]
  rfl

/-- An attempt that found no buffer leaves the RES registers. -/
theorem sameResults_timeoutOrWait {s u : State} (h : SameResults s u) (e : Bool) : SameResults s (u.timeoutOrWait e) := by
  unfold State.timeoutOrWait
  split
  · have hact := (MemoryOp.fadd32 u (timeoutAddr u.cfg) 1).act
    simp only [SameResults, act_finish, hact]
    exact h
  · simpa [SameResults] using h

/-- Settles O25: the attempt counts the overrun first, and then the timeout, if it has elapsed. -/
theorem acqwFindsBothBusy : Obligations.AcqwFindsBothBusy := by
  intro s hv ha hq hbusy
  have hpeek (b : BitVec 1) : s.peek32 (stateAddr s.cfg b) ≠ stIdle := by
    rw [peek32_stateAddr (hq.stateWord b)]
    exact hbusy b
  have hexec : exec .bmAcqw s = .next (s.noteScan.countOverrun.timeoutOrWait s.timedOut) := by
    rw [exec_bmAcqw ⟨hv, ha⟩, acqwAttempt_of_busy hpeek]
  have hcon := confined_findsBusy s s.timedOut
  have hmem := mem_findsBusy hq s.timedOut
  have hcfg := hcon.rest.frame.cfg
  have hact := (countOverrun_frame s.noteScan).2.2.2
  refine ⟨_, hexec, hcon.rest, hcon.doorbells, hcon.buffers, sameResults_timeoutOrWait ?_ _, ?_,
    sameMemoryOutside_findsBusy hmem, fun helapsed => ?_, fun hrunning => ?_⟩
  · simp [SameResults, hact, (MemoryOp.noteScan s).act]
  · rw [State.overrunCount, hcfg, hmem]
    refine overrunCount_findsBusy.trans ?_
    split
    · exact (BitVec.add_zero _).symm
    · rfl
  · rw [timedOut_eq_true helapsed] at hmem hcfg ⊢
    refine ⟨ended_timedOut _, ?_⟩
    rw [State.timeoutCount, hcfg, hmem]
    exact word_timedOut_same
  · rw [timedOut_eq_false hrunning] at hmem hcfg ⊢
    refine ⟨act_findsBusy_wait s, ?_⟩
    rw [State.timeoutCount, hcfg, hmem]
    exact word_overrun_timeout

/-! ### BM_ACQR -/

/-- Settles O28. -/
theorem acqrFindsNoneReady : Obligations.AcqrFindsNoneReady := by
  intro s hv ha hq hnone
  have hpeek (b : BitVec 1) : s.peek32 (stateAddr s.cfg b) ≠ stReady := by
    rw [peek32_stateAddr (hq.stateWord b)]
    exact hnone b
  have hexec : exec .bmAcqr s = .next (s.noteScan.timeoutOrWait s.timedOut) := by
    rw [exec_bmAcqr ⟨hv, ha⟩, State.acqrAttempt, readyBuffer_eq_none hpeek]
  have hcon := confined_findsNoneReady s s.timedOut
  have hmem := mem_findsNoneReady hq s.timedOut
  have hcfg := hcon.rest.frame.cfg
  have hact := (MemoryOp.noteScan s).act
  refine ⟨_, hexec, hcon.rest, hcon.doorbells, hcon.buffers, sameResults_timeoutOrWait ?_ _, fun helapsed => ?_,
    fun hrunning => ?_⟩
  · simp [SameResults, hact]
  · rw [timedOut_eq_true helapsed] at hmem hcfg ⊢
    refine ⟨ended_timedOut _, ?_, sameMemoryOutside_of_write hmem (length_wordBytes _)⟩
    rw [State.timeoutCount, hcfg, hmem]
    exact word_timedOut_same
  · rw [timedOut_eq_false hrunning] at hmem ⊢
    exact ⟨by rw [act_waiting, hact], fun x => by rw [hmem]; rfl⟩

/-! ### Hand-offs -/

/-- What a hand-off that finds the state word it expects leaves. -/
theorem handOff_spec {s : State} {st counter stamp : Nat} {held : Word} (h : s.peek32 st = held)
    (hd : counter + 4 ≤ st ∨ st + 4 ≤ counter) (given : Word) (p : Port) :
    let t := s.handOff st counter stamp held given p
    Ended t .ok ∧ Undisturbed s t ∧ Rings p s t ∧ SameBuffers s t ∧ SameResults s t ∧
      t.mem = s.mem.handedOff st counter stamp given (s.peek32 counter + 1) s.now := by
  intro t
  have hop := MemoryOp.handing s st counter stamp held given
  have ht : t = ((s.handing st counter stamp held given).raiseDoorbell p).finish .ok := handOff_of_held h ..
  have hmem := mem_handOff h hd stamp given p
  refine ⟨?_, ?_, ?_, ?_, ?_, hmem⟩ <;> rw [ht]
  · exact Ended.finish _ _
  · exact (hop.undisturbed.raiseDoorbell p).finish .ok
  · exact rings_raiseDoorbell hop.sameDoorbells p .ok
  · simpa [SameBuffers] using hop.confined.buffers
  · have hact : ∀ u : State, SameResults u (u.raiseDoorbell p) := fun u => by
      rw [SameResults, act_raiseDoorbell]
      split <;> simp
    simpa [SameResults, hop.act] using hact (s.handing st counter stamp held given)

/-- The timestamp after a hand-off. -/
theorem dword_handedOff {m : Memory} {st counter stamp : Nat} {given count : Word} {now : DWord} :
    (m.handedOff st counter stamp given count now).dword stamp = now := Memory.dword_write_same _ _ _

/-- A hand-off writes its state word, its counter and its timestamp alone. -/
theorem sameMemoryOutside_handedOff {s t : State} {st counter stamp : Nat} {given count : Word} {now : DWord}
    (hm : t.mem = s.mem.handedOff st counter stamp given count now) :
    SameMemoryOutside [⟨st, 4⟩, ⟨counter, 4⟩, ⟨stamp, 8⟩] s t := by
  intro x hx
  rw [hm, Memory.handedOff, byte_write_of_not_has (by simpa using hx ⟨stamp, 8⟩ (by simp)),
    byte_write_of_not_has (by simpa using hx ⟨counter, 4⟩ (by simp)),
    byte_write_of_not_has (by simpa using hx ⟨st, 4⟩ (by simp))]

/-- Settles O26. -/
theorem commitHandsOff : Obligations.CommitHandsOff := by
  intro s i hv ha hid hq hheld
  have hi : bufferId s.latch.a0 = some i := hid ▸ bufferId_zeroExtend i
  have hpeek : s.peek32 (stateAddr s.cfg i) = stWriting := (peek32_stateAddr (hq.stateWord i)).trans hheld
  obtain ⟨hend, hrest, hrings, hbuffers, hresults, hmem⟩ := handOff_spec (counter := writeCountAddr s.cfg i)
    (stamp := lastWriteAddr s.cfg i) hpeek (by simp only [writeCountAddr, stateAddr]; omega) stReady .C
  have hnow : s.now = s.portP.clock := by rw [State.now, ha]; rfl
  rw [peek32_writeCountAddr hq, hnow] at hmem
  have hcfg := hrest.frame.cfg
  refine ⟨_, exec_bmCommit_of_id hv ha hi, hend, hrest, ?_, ?_, ?_, hrings, hbuffers, hresults,
    sameMemoryOutside_handedOff hmem⟩
  · rw [State.bufferState, hcfg, hmem]
    exact word_handedOff_state (by simp only [stateAddr, writeCountAddr]; omega)
      (by simp only [stateAddr, lastWriteAddr]; omega)
  · rw [State.writeCount, hcfg, hmem]
    exact word_handedOff_counter (by simp only [writeCountAddr, lastWriteAddr]; omega)
  · rw [State.lastWriteTs, hcfg, hmem]
    exact dword_handedOff

/-- Settles O29. -/
theorem releaseHandsOff : Obligations.ReleaseHandsOff := by
  intro s i hv ha hid hq hheld
  have hi : bufferId s.latch.a0 = some i := hid ▸ bufferId_zeroExtend i
  have hpeek : s.peek32 (stateAddr s.cfg i) = stReading := (peek32_stateAddr (hq.stateWord i)).trans hheld
  obtain ⟨hend, hrest, hrings, hbuffers, hresults, hmem⟩ := handOff_spec (counter := readCountAddr s.cfg i)
    (stamp := lastReadAddr s.cfg i) hpeek (by simp only [readCountAddr, stateAddr]; omega) stIdle .P
  have hnow : s.now = s.portC.clock := by rw [State.now, ha]; rfl
  rw [peek32_readCountAddr hq, hnow] at hmem
  have hcfg := hrest.frame.cfg
  refine ⟨_, exec_bmRelease_of_id hv ha hi, hend, hrest, ?_, ?_, ?_, hrings, hbuffers, hresults,
    sameMemoryOutside_handedOff hmem⟩
  · rw [State.bufferState, hcfg, hmem]
    exact word_handedOff_state (by simp only [stateAddr, readCountAddr]; omega)
      (by simp only [stateAddr, lastReadAddr]; omega)
  · rw [State.readCount, hcfg, hmem]
    exact word_handedOff_counter (by simp only [readCountAddr, lastReadAddr]; omega)
  · rw [State.lastReadTs, hcfg, hmem]
    exact dword_handedOff

end Sys2Proof.Machine
end

section
/-! ## BM_STATE and BM_STATS (`40_buffer_manager.md` R164, R165) -/

namespace Sys2Proof.Machine

/-- The fields of BM_STATS lie in the defined fields. -/
theorem statField_bounds {c : Config} {k a n : Nat} (h : (k, a, n) ∈ statFields c) :
    c.cbBase ≤ a ∧ a + n ≤ c.cbBase + 0x0C4 := by
  simp only [statFields, List.mem_cons, Prod.mk.injEq, List.not_mem_nil, or_false] at h
  omega

theorem quietOn_statField {s : State} {k a n : Nat} (hq : s.quietOn (definedFields s.cfg))
    (h : (k, a, n) ∈ statFields s.cfg) : s.quietOn ⟨a, n⟩ :=
  hq.field (statField_bounds h).1 (statField_bounds h).2

/-- The u32 fields by their selectors. -/
theorem field32_of_mem {s : State} {k : Nat} {v : Word}
    (h : (k, v) ∈ [(0, s.writeCount 0), (1, s.writeCount 1), (2, s.readCount 0), (3, s.readCount 1), (4, s.overrunCount),
        (5, s.timeoutCount), (10, s.mem.word (s.cfg.cbBase + 0x098)), (11, s.mem.word (s.cfg.cbBase + 0x09C)),
        (12, s.mem.word (s.cfg.cbBase + 0x0C0))]) :
    ∃ a, (k, a, 4) ∈ statFields s.cfg ∧ s.mem.word a = v := by
  simp only [List.mem_cons, Prod.mk.injEq, List.not_mem_nil, or_false] at h
  rcases h with ⟨rfl, rfl⟩ | ⟨rfl, rfl⟩ | ⟨rfl, rfl⟩ | ⟨rfl, rfl⟩ | ⟨rfl, rfl⟩ | ⟨rfl, rfl⟩ | ⟨rfl, rfl⟩ | ⟨rfl, rfl⟩ |
    ⟨rfl, rfl⟩ <;> exact ⟨_, by simp [statFields], rfl⟩

/-- The u64 fields by their selectors. -/
theorem field64_of_mem {s : State} {k : Nat} {v : DWord}
    (h : (k, v) ∈ [(6, s.lastWriteTs 0), (7, s.lastWriteTs 1), (8, s.lastReadTs 0), (9, s.lastReadTs 1)]) :
    ∃ a, (k, a, 8) ∈ statFields s.cfg ∧ s.mem.dword a = v := by
  simp only [List.mem_cons, Prod.mk.injEq, List.not_mem_nil, or_false] at h
  rcases h with ⟨rfl, rfl⟩ | ⟨rfl, rfl⟩ | ⟨rfl, rfl⟩ | ⟨rfl, rfl⟩ <;> exact ⟨_, by simp [statFields], rfl⟩

/-- What reading a double word into RES0 and RES1 leaves. -/
theorem stat64_spec (s : State) (a : Nat) :
    let t := s.stat64 a
    Ended t .ok ∧ Undisturbed s t ∧ t.act.res0.toNat = (s.peek64 a).toNat % 2 ^ 32 ∧
      t.act.res1.toNat = (s.peek64 a).toNat / 2 ^ 32 ∧ t.act.res2 = s.act.res2 ∧ t.act.res3 = s.act.res3 ∧
      SameDoorbells s t ∧ SameBuffers s t ∧ SameMemory s t := by
  have hc := confined_stat64 s a
  have hact := (MemoryOp.noteRead s a 8).act
  have hlt := (s.peek64 a).isLt
  refine ⟨Ended.finish _ _, hc.rest, by simp [State.stat64], ?_, by simp [State.stat64, hact],
    by simp [State.stat64, hact], hc.doorbells, hc.buffers, fun x => by simp [State.stat64]⟩
  simp only [State.stat64, act_finish, act_setRes1, BitVec.extractLsb'_toNat, Nat.shiftRight_eq_div_pow]
  omega

/-- Settles O30. -/
theorem bmStateAndStatsRead : Obligations.BmStateAndStatsRead := by
  intro s hv hq
  refine ⟨fun i hid => ?state, fun k v hk => ?field32, fun k v hk => ?field64, fun k hk => ?beyond⟩
  case state =>
    have hspec := stat32_spec s (stateAddr s.cfg i)
    rw [peek32_stateAddr (hq.stateWord i)] at hspec
    exact ⟨_, exec_bmState hv (hid ▸ bufferId_zeroExtend i), hspec⟩
  case field32 =>
    obtain ⟨a, ha, rfl⟩ := field32_of_mem hk
    have hspec := stat32_spec s a
    rw [(quietOn_statField hq ha).peek32] at hspec
    exact ⟨_, by rw [exec_bmStats hv, stats_of_field32 ha], hspec⟩
  case field64 =>
    obtain ⟨a, ha, rfl⟩ := field64_of_mem hk
    have hspec := stat64_spec s a
    rw [(quietOn_statField hq ha).peek64] at hspec
    exact ⟨_, by rw [exec_bmStats hv, stats_of_field64 ha], hspec⟩
  case beyond =>
    refine .of_finish ?_
    obtain ⟨j, rfl⟩ := Nat.exists_eq_add_of_lt hk
    rw [exec_bmStats hv, show 13 + j + 1 = j + 14 by omega]
    rfl

/-! ### The snapshot -/

/-- One of several runs, stored one after the other, reads back. -/
theorem read_write_part (m : Memory) (a : Nat) (pre mid post : List Byte) :
    (m.write a (pre ++ mid ++ post)).read (a + pre.length) mid.length = mid := by
  refine List.ext_getElem (by simp) fun k h1 h2 => ?_
  have hk : pre.length + k < (pre ++ mid ++ post).length := by
    simp only [List.length_append]
    omega
  simp only [Memory.read, List.getElem_map, List.getElem_range, Nat.add_assoc, Memory.byte_write_inside hk]
  rw [List.getElem_append_left (by simp only [List.length_append]; omega), List.getElem_append_right (by omega)]
  simp

/-- Where a field stands in a snapshot. -/
def snapshotOffset (c : Config) (k : Nat) : Nat := (((snapshotFields c).take k).map Prod.snd).sum

/-- The bytes of one field, as a snapshot reads them. -/
def State.fieldBytes (s : State) (f : Nat × Nat) : List Byte := s.peek (some s.active) f.1 f.2

theorem snapshotBytes_eq (s : State) : s.snapshotBytes = (snapshotFields s.cfg).flatMap s.fieldBytes := rfl

theorem length_fieldBytes (s : State) (fs : List (Nat × Nat)) :
    (fs.flatMap s.fieldBytes).length = (fs.map Prod.snd).sum := by
  simp [List.length_flatMap, State.fieldBytes]

theorem snapshotField_bounds {c : Config} {b n : Nat} (h : (b, n) ∈ snapshotFields c) :
    c.cbBase ≤ b ∧ b + n ≤ c.cbBase + 0x0C4 := by
  simp only [snapshotFields, writeCountAddr, readCountAddr, overrunAddr, timeoutAddr, lastWriteAddr, lastReadAddr,
    List.mem_cons, Prod.mk.injEq, List.not_mem_nil, or_false] at h
  omega

/-- A snapshot taken without a race holds each field at its offset. -/
theorem read_snapshotAt {s : State} (hq : s.quietOn (definedFields s.cfg)) {k b n : Nat}
    (hk : (snapshotFields s.cfg)[k]? = some (b, n)) (a : Nat) :
    (s.snapshotAt a).mem.read (a + snapshotOffset s.cfg k) n = s.mem.read b n := by
  obtain ⟨hlow, hhigh⟩ := snapshotField_bounds (List.mem_of_getElem? hk)
  obtain ⟨hlt, hget⟩ := List.getElem?_eq_some_iff.mp hk
  have hsplit : snapshotFields s.cfg = (snapshotFields s.cfg).take k ++ (b, n) :: (snapshotFields s.cfg).drop (k + 1) := by
    rw [← hget, ← List.drop_eq_getElem_cons hlt, List.take_append_drop]
  have hbytes : s.snapshotBytes = ((snapshotFields s.cfg).take k).flatMap s.fieldBytes ++ s.peek (some s.active) b n ++
      ((snapshotFields s.cfg).drop (k + 1)).flatMap s.fieldBytes := by
    rw [snapshotBytes_eq]
    conv_lhs => rw [hsplit]
    rw [List.flatMap_append, List.flatMap_cons, List.append_assoc]
    rfl
  have hread := read_write_part s.mem a (((snapshotFields s.cfg).take k).flatMap s.fieldBytes)
    (s.peek (some s.active) b n) (((snapshotFields s.cfg).drop (k + 1)).flatMap s.fieldBytes)
  rw [length_peek, length_fieldBytes, ← hbytes] at hread
  have hmem : (s.snapshotAt a).mem = s.mem.write a s.snapshotBytes := by simp [State.snapshotAt]
  rw [hmem, snapshotOffset, hread, (hq.field hlow hhigh).peek]

theorem word_of_read {m m' : Memory} {a b : Nat} (h : m.read a 4 = m'.read b 4) : m.word a = m'.word b := by
  rw [Memory.word, h, ← Memory.word]

theorem dword_of_read {m m' : Memory} {a b : Nat} (h : m.read a 8 = m'.read b 8) : m.dword a = m'.dword b := by
  rw [Memory.dword, h, ← Memory.dword]

/-- Settles O31. -/
theorem bmStatsSnapshots : Obligations.BmStatsSnapshots := by
  intro s hv a
  refine ⟨fun hbad => .of_finish ?_, fun h0 h8 hlow hhigh hoff hq => ?_⟩
  · have hr : snapshotRefused s.cfg s.latch.a0.toNat = true := (snapshotRefused_iff ..).mpr hbad
    rw [exec_bmStats hv, ← snapshot_of_refused hr]
    rfl
  · have hc := confined_snapshotAt s a
    have hmem : (s.snapshotAt a).mem = s.mem.write a s.snapshotBytes := by simp [State.snapshotAt]
    have hres : SameResults s (s.snapshotAt a) := by
      have hact := ((MemoryOp.snapshotReads s (snapshotFields s.cfg)).trans (.store _ a s.snapshotBytes)).act
      simp only [State.snapshotAt, SameResults, act_finish, hact]
      trivial
    have word {k b : Nat} (hk : (snapshotFields s.cfg)[k]? = some (b, 4)) :
        (s.snapshotAt a).mem.word (a + snapshotOffset s.cfg k) = s.mem.word b := word_of_read (read_snapshotAt hq hk a)
    have dword {k b : Nat} (hk : (snapshotFields s.cfg)[k]? = some (b, 8)) :
        (s.snapshotAt a).mem.dword (a + snapshotOffset s.cfg k) = s.mem.dword b :=
      dword_of_read (read_snapshotAt hq hk a)
    exact ⟨_, exec_snapshot ⟨hv, rfl, h0, h8, hlow, hhigh, hoff⟩, Ended.finish _ _, hc.rest, hres, hc.doorbells,
      hc.buffers, sameMemoryOutside_of_write hmem (length_snapshotBytes s), word (k := 0) rfl, word (k := 1) rfl,
      word (k := 2) rfl, word (k := 3) rfl, word (k := 4) rfl, word (k := 5) rfl, dword (k := 6) rfl,
      dword (k := 7) rfl, dword (k := 8) rfl, dword (k := 9) rfl⟩

end Sys2Proof.Machine
end

section
/-! ## The FFT engine: its slots, its ownership, races (`43_fft_commands.md` R280 to R282, `20_memory.md` R97) -/

namespace Sys2Proof.Machine

/-! ### FFT_RINIT -/

/-- FFT_RINIT after it has taken the engine: up to its end it changes no more than its slot. -/
inductive RinitEnds (s : State) (k : Nat) : State → Prop where
  | badSlot : 4 ≤ k → RinitEnds s k (s.takeEngine.finishFft .invalid)
  | badSize : k < 4 → s.latch.a0.toNat ∉ Config.rfftSizes → RinitEnds s k (s.takeEngine.finishFft .invalidSize)
  | fills : k < 4 → s.latch.a0.toNat ∈ Config.rfftSizes →
      RinitEnds s k ((s.takeEngine.setInst k (initialisedSlot s.latch.a0)).finishFft .ok)

theorem rinitEnds (s : State) (k : Nat) : RinitEnds s k (s.takeEngine.rinit k) := by
  unfold State.rinit
  rw [latch_takeEngine]
  split
  next hk => exact .badSlot hk
  next hk =>
    have hk : k < 4 := by simpa [Config.numInst] using hk
    split
    next hn => exact .badSize hk (by simpa using hn)
    next hn => exact .fills hk (by simpa using hn)

/-- What FFT_RINIT leaves alone, whatever its operands: `u` is the state before its end. -/
theorem rinit_leaves {s u : State} {c : Code} (hport : ∀ q, u.port q = s.takeEngine.port q)
    (hactive : u.active = s.active) (howner : u.feOwner = s.active) (hwork : u.workFree = s.workFree)
    (hbuffers : SameBuffers s u) (hmem : u.mem = s.mem) :
    let t := u.finishFft c
    t.feBusy = false ∧ t.feOwner = s.active ∧ t.workFree = s.workFree ∧ SameDoorbells s t ∧ SameBuffers s t ∧
      SameResults s t ∧ SameMemory s t ∧ SamePeer s t := by
  intro t
  have hdb : SameDoorbells s u := fun p => by rw [hport, sameDoorbells_takeEngine s p]
  have hact : u.act = { s.act with hold := false } := by rw [State.act, hactive, hport]; simp [State.act]
  have hpeer : (u.finishFft c).port s.active.peer = s.port s.active.peer := by
    simp [hport, hactive, State.takeEngine]
  exact ⟨by simp [t], by simpa [t] using howner, by simpa [t] using hwork, fun p => by simpa [t] using hdb.finish c p,
    by simpa [t, SameBuffers] using hbuffers, by simp [t, SameResults, hact], fun x => by simp [t, hmem], hpeer⟩

theorem mem_rfftSizes {a : Word} : a.toNat ∈ Config.rfftSizes ↔ a = 4096 ∨ a = 8192 := by
  simp only [Config.rfftSizes, List.mem_cons, List.not_mem_nil, or_false, ← BitVec.toNat_inj]
  rfl

/-- Settles O32: by the end that the operands choose. -/
theorem rinitFillsSlot : Obligations.RinitFillsSlot := by
  intro s k hfree
  have hexec := exec_fftRinit_of_free hfree k
  refine ⟨_, hexec, frame_of_exec hexec, ?_⟩
  have hslots (c : Code) : SameSlots s (s.takeEngine.finishFft c) := fun j => by simp
  have hleaves (c : Code) := rinit_leaves (u := s.takeEngine) (c := c) (fun q => rfl) (by simp) (by simp) (by simp)
    (by simp [SameBuffers]) (by simp)
  have hends := rinitEnds s k
  generalize s.takeEngine.rinit k = t at hends ⊢
  cases hends with
  | badSlot hk =>
    obtain ⟨h1, h2, h3, h4, h5, h6, h7, h8⟩ := hleaves .invalid
    exact ⟨h1, h2, h3, h4, h5, h6, h7, h8, fun _ => ⟨Ended.finishFft _ _, hslots _⟩, by omega, by omega, by omega,
      fun j _ => hslots _ j⟩
  | badSize hk hn =>
    obtain ⟨h1, h2, h3, h4, h5, h6, h7, h8⟩ := hleaves .invalidSize
    rw [mem_rfftSizes, not_or] at hn
    exact ⟨h1, h2, h3, h4, h5, h6, h7, h8, by omega, fun _ _ _ => ⟨Ended.finishFft _ _, hslots _⟩,
      fun _ h => absurd h hn.1, fun _ h => absurd h hn.2, fun j _ => hslots _ j⟩
  | fills hk hn =>
    obtain ⟨h1, h2, h3, h4, h5, h6, h7, h8⟩ := rinit_leaves (s := s) (c := .ok)
      (u := s.takeEngine.setInst k (initialisedSlot s.latch.a0)) (fun q => by simp) (by simp) (by simp) (by simp)
      (by simp [SameBuffers]) (by simp)
    have hslot (n : Word) (he : s.latch.a0 = n) :
        ((s.takeEngine.setInst k (initialisedSlot s.latch.a0)).finishFft .ok).inst k = some (initialisedSlot n) := by
      rw [inst_finishFft, inst_setInst, if_pos ⟨rfl, hk⟩, he]
    refine ⟨h1, h2, h3, h4, h5, h6, h7, h8, by omega,
      fun _ hne hne' => absurd (mem_rfftSizes.mp hn) (not_or.mpr ⟨hne, hne'⟩),
      fun _ he => ⟨Ended.finishFft _ _, hslot _ he⟩, fun _ he => ⟨Ended.finishFft _ _, hslot _ he⟩, fun j hj => ?_⟩
    rw [inst_finishFft, inst_setInst, if_neg (fun h => hj h.1)]
    simp

/-! ### The engine's ownership -/

/-- Settles O33: the three answers of the engine. -/
theorem engineHeldTakenFreed : Obligations.EngineHeldTakenFreed := by
  intro i s
  refine ⟨fun hi hb ho => ?held, fun hi hb => ?taken, fun hi he => ?freed⟩
  case held =>
    have hwait : s.wait = s.setPort s.active { s.act with hold := true } := rfl
    rw [← hwait]
    rcases hi with hi | ⟨k, rfl⟩
    · rw [exec_of_onMemory hi, State.withEngine, if_pos hb, if_neg ho]
    · exact exec_fftRinit_of_held hb ho k
  case taken =>
    rw [exec_of_onMemory hi, State.withEngine, if_neg (by simp [hb])]
    rfl
  case freed =>
    have hexec := exec_of_onMemory (s := s) hi
    rw [withEngine_of_hasEngine he] at hexec
    cases hc : fftCheck s s.latch i with
    | none => simp [← fftCheck_isSome (s := s) (l := s.latch), hc] at hi
    | some r =>
      cases r with
      | error c =>
        rw [fftBody_of_error hc] at hexec
        exact ⟨_, c, hexec, Ended.finishFft s c, .finishFft (.refl s) c⟩
      | ok f =>
        rw [fftBody_of_ok hc] at hexec
        obtain ⟨hend, hfreed, _⟩ := fftReturn_spec (MemoryOp.fftStore s f (s.fftResults f i)) f i
        exact ⟨_, .ok, hexec, hend, hfreed⟩

/-! ### Races -/

theorem Region.has_iff {r : Region} {x : Nat} : r.has x = true ↔ r.base ≤ x ∧ x < r.base + r.len := by
  simp [Region.has]

/-- Free bytes over some regions. -/
theorem byte_writes_freeBytes {t x : Nat} {rs : List Region} (m : Memory)
    (h : (∃ r ∈ rs, r.has x = true) ∨ m.byte x = Config.freeStored t x) :
    (m.writes (rs.map fun r => (r.base, freeBytes t r))).byte x = Config.freeStored t x := by
  induction rs generalizing m with
  | nil => exact h.resolve_left (by simp)
  | cons r rs ih =>
    refine ih _ ?_
    have hlen : (freeBytes t r).length = r.len := by simp [freeBytes]
    by_cases hx : r.has x = true
    · refine .inr ?_
      have hin := Region.has_iff.mp hx
      dsimp only
      rw [Memory.byte_write, hlen, if_pos hin]
      have hk : x - r.base < r.len := by omega
      rw [freeBytes, List.getD_eq_getElem?_getD, List.getElem?_map, List.getElem?_range hk]
      exact congrArg (Config.freeStored t) (by omega)
    · rcases h with ⟨r', hr', hx'⟩ | h
      · rcases List.mem_cons.mp hr' with rfl | hr'
        · exact absurd hx' hx
        · exact .inl ⟨r', hr', hx'⟩
      · exact .inr ((byte_write_of_not_has (by simpa [hlen] using hx)).trans h)

/-- Settles O35: a race leaves free bytes, the end is the usual one. -/
theorem racedFftLeavesFreeBytes : Obligations.RacedFftLeavesFreeBytes := by
  intro i s f he hc hrace
  obtain ⟨hend, hfreed, hslots, _, ⟨hres1, hres2, hres3⟩, hother⟩ :=
    fftReturn_spec (MemoryOp.fftStore s f (s.fftResults f i)) f i
  refine ⟨_, exec_of_fftCheck he hc, hend, hfreed, hslots, ?_, hres1, hres2, hres3, sameMemoryOutside_fftEnd hc,
    fun r hr x hx => ?_⟩
  · by_cases hi : ∃ k, i = .fftTopbins k
    · exact .inr hi
    · exact .inl (hother (not_exists.mp hi)).1
  · rw [mem_fftEnd, mem_fftStore_raced (raced_iff.mpr hrace)]
    exact byte_writes_freeBytes _ (.inl ⟨r, hr, hx⟩)

end Sys2Proof.Machine
end

section
/-! ## The FFT engine's transforms against their rules (`42_fft_arith.md` R242 to R252) -/

namespace Sys2Proof.Machine

/-! ### Butterflies -/

theorem firstButterfly_rule (v : ArithVariant) (inv : Bool) (L j : Nat) (x : Quad) :
    FirstRule v inv L j x (firstButterfly v inv L j x.s0 x.s1 x.s2 x.s3) := by
  have hsums : butterflySums (asrSample x.s0 2) (asrSample x.s1 2) (asrSample x.s2 2) (asrSample x.s3 2) =
      sumsOf (quarter x) := butterflySums_eq ..
  simp only [FirstRule, firstButterfly, hsums, hadd_eq_halfSum, qsub, sat16_eq_clamp, true_and]
  refine ⟨twmul_turned _ _ _, fun h => ?_, fun h => ?_⟩ <;> subst h <;>
    simp only [legB, legD, crossDown, crossUp, qadd, qsub, sat16_eq_clamp, if_true, Bool.false_eq_true, if_false] <;>
    exact ⟨twmul_turned _ _ _, twmul_turned _ _ _⟩

theorem middleButterfly_rule (v : ArithVariant) (inv : Bool) (n1 j : Nat) (x : Quad) :
    MiddleRule v inv n1 j x (middleButterfly v inv n1 j x.s0 x.s1 x.s2 x.s3) := by
  have hhalf : ∀ a : Int, asr a 1 = a / 2 := fun a => rfl
  simp only [MiddleRule, middleButterfly, butterflySums_eq, hadd_eq_halfSum, hsub_eq_halfDiff, hhalf, true_and]
  refine ⟨twmul_turned _ _ _, fun h => ?_, fun h => ?_⟩ <;> subst h <;>
    simp only [legB, legD, crossDown, crossUp, hadd_eq_halfSum, hsub_eq_halfDiff, if_true, Bool.false_eq_true, if_false] <;>
    exact ⟨twmul_turned _ _ _, twmul_turned _ _ _⟩

theorem lastButterfly_rule (v : ArithVariant) (inv : Bool) (j : Nat) (x : Quad) :
    LastRule v inv x (lastButterfly v inv j x.s0 x.s1 x.s2 x.s3) := by
  simp only [LastRule, lastButterfly, butterflySums_eq, hadd_eq_halfSum, hsub_eq_halfDiff, true_and]
  refine ⟨fun h => ?_, fun h => ?_⟩ <;> subst h <;>
    simp [legB, legD, crossDown, crossUp, hadd_eq_halfSum, hsub_eq_halfDiff]

/-! ### Stages -/

/-- An element of runs of one length, one after the other. -/
theorem getElem?_flatMap_range {α : Type} {g : Nat → List α} {c n b k : Nat} (hlen : ∀ i, (g i).length = c) (hb : b < n)
    (hk : k < c) : ((List.range n).flatMap g)[c * b + k]? = (g b)[k]? := by
  induction n with
  | zero => omega
  | succ n ih =>
    have hall : ((List.range n).flatMap g).length = c * n := by
      simp [List.length_flatMap, hlen, Nat.mul_comm]
    rw [List.range_succ, List.flatMap_append, List.flatMap_singleton]
    by_cases hbn : b < n
    · have hin : c * b + k < c * n := by nlinarith
      rw [List.getElem?_append_left (by omega), ih hbn]
    · obtain rfl : b = n := by omega
      rw [List.getElem?_append_right (by omega), hall, Nat.add_sub_cancel_left]

/-- A butterfly leaves its four results where it took its samples. -/
theorem quadAt_butterflyBlock (f : Nat → Sample → Sample → Sample → Sample → Quad) {q j : Nat} (y : List Sample)
    (hj : j < q) : QuadAt (butterflyBlock f q y) j q
      (f j (y.getD j (0, 0)) (y.getD (j + q) (0, 0)) (y.getD (j + 2 * q) (0, 0)) (y.getD (j + 3 * q) (0, 0))) := by
  have h1 : j + q - q = j := by omega
  have h2 : j + 2 * q - (q + q) = j := by omega
  have h3 : j + 3 * q - (q + q + q) = j := by omega
  have n1 : ¬ j + q < q := by omega
  have n2 : ¬ j + 2 * q < q + q := by omega
  have n3 : ¬ j + 3 * q < q + q + q := by omega
  have l0 : j < q + q := by omega
  have l1 : j < q + q + q := by omega
  have l2 : j + q < q + q := by omega
  have l3 : j + q < q + q + q := by omega
  have l4 : j + 2 * q < q + q + q := by omega
  refine ⟨?_, ?_, ?_, ?_⟩ <;> simp only [butterflyBlock, List.getElem?_append, List.length_append, List.length_map,
    List.length_range, hj, h1, h2, h3, n1, n2, n3, l0, l1, l2, l3, l4, if_true, if_false, List.getElem?_map,
    List.getElem?_range, Option.map_some]

/-- One element of a stage. -/
theorem getElem?_fftStage (f : Nat → Sample → Sample → Sample → Sample → Quad) {blocks q b k : Nat} (x : List Sample)
    (hb : b < blocks) (hk : k < 4 * q) : (fftStage f (blocks * (4 * q)) (4 * q) x)[4 * q * b + k]? =
      (butterflyBlock f q ((x.drop (b * (4 * q))).take (4 * q)))[k]? := by
  have hblocks : blocks * (4 * q) / (4 * q) = blocks := Nat.mul_div_cancel _ (by omega)
  have hq : 4 * q / 4 = q := by omega
  rw [fftStage, hblocks, hq]
  exact getElem?_flatMap_range (fun i => butterflyBlock_length f q _) hb hk

/-- One sample of a block. -/
theorem getD_block {x : List Sample} {b n k : Nat} {z : Sample} (hk : k < n) (h : x[n * b + k]? = some z) :
    ((x.drop (b * n)).take n).getD k (0, 0) = z := by
  rw [List.getD_eq_getElem?_getD, List.getElem?_take_of_lt hk, List.getElem?_drop, Nat.mul_comm b n, h]
  rfl

/-- A stage takes and leaves each butterfly's samples in the same four places. -/
theorem quadAt_fftStage (f : Nat → Sample → Sample → Sample → Sample → Quad) {blocks q b j : Nat} {x : List Sample}
    {z : Quad} (hb : b < blocks) (hj : j < q) (hz : QuadAt x (4 * q * b + j) q z) :
    QuadAt (fftStage f (blocks * (4 * q)) (4 * q) x) (4 * q * b + j) q (f j z.s0 z.s1 z.s2 z.s3) := by
  simp only [QuadAt, Nat.add_assoc] at hz ⊢
  obtain ⟨h0, h1, h2, h3⟩ := hz
  rw [getElem?_fftStage f x hb (by omega), getElem?_fftStage f x hb (by omega), getElem?_fftStage f x hb (by omega),
    getElem?_fftStage f x hb (by omega)]
  have hquad := quadAt_butterflyBlock f ((x.drop (b * (4 * q))).take (4 * q)) hj
  rw [getD_block (by omega) h0, getD_block (by omega) h1, getD_block (by omega) h2, getD_block (by omega) h3] at hquad
  exact hquad

theorem QuadAt.unique {x : List Sample} {i q : Nat} {a b : Quad} (ha : QuadAt x i q a) (hb : QuadAt x i q b) : a = b := by
  obtain ⟨a0, a1, a2, a3⟩ := ha
  obtain ⟨b0, b1, b2, b3⟩ := hb
  have e0 := Option.some.inj (a0.symm.trans b0)
  have e1 := Option.some.inj (a1.symm.trans b1)
  have e2 := Option.some.inj (a2.symm.trans b2)
  have e3 := Option.some.inj (a3.symm.trans b3)
  cases a
  cases b
  simp_all

/-- A stage follows its rule if its butterfly does. -/
theorem stageRule_fftStage {f : Nat → Sample → Sample → Sample → Sample → Quad} {rule : Nat → Quad → Quad → Prop}
    (hf : ∀ j a, rule j a (f j a.s0 a.s1 a.s2 a.s3)) {blocks q : Nat} {x : List Sample} (hq : 0 < q)
    (hx : x.length = blocks * (4 * q)) : StageRule rule (4 * q) x (fftStage f (blocks * (4 * q)) (4 * q) x) := by
  have hdiv : 4 * q / 4 = q := by omega
  refine ⟨?_, fun block j a b hj ha hb => ?_⟩
  · rw [fftStage_length, hdiv, Nat.mul_div_cancel _ (by omega), hx]
  · rw [hdiv] at hj ha hb
    have hblock : block < blocks := by
      obtain ⟨hin, _⟩ := List.getElem?_eq_some_iff.mp ha.1
      by_contra hge
      have : blocks * (4 * q) ≤ 4 * q * block := by nlinarith
      omega
    rw [hb.unique (quadAt_fftStage f hblock hj ha)]
    exact hf j a

/-- Settles O43. -/
theorem stagesPlaceButterflies : Obligations.StagesPlaceButterflies := by
  refine ⟨fun f blocks q b j x z _ hb hj hz => quadAt_fftStage f hb hj hz, fun v inv blocks q x hq hx =>
    ⟨stageRule_fftStage (firstButterfly_rule v inv _) hq hx, stageRule_fftStage (middleButterfly_rule v inv _) hq hx,
      fun h1 => ?_⟩⟩
  subst h1
  exact stageRule_fftStage (lastButterfly_rule v inv) hq hx

/-! ### The transform of a power of 4 -/

theorem length_fftStage_of_dvd {f : Nat → Sample → Sample → Sample → Sample → Quad} {blocks q : Nat} (hq : 0 < q)
    (x : List Sample) : (fftStage f (blocks * (4 * q)) (4 * q) x).length = blocks * (4 * q) := by
  rw [fftStage_length, Nat.mul_div_cancel _ (by omega), Nat.mul_div_cancel_left _ (by omega)]

/-- The middle stages from blocks of `4^(k+1)` samples on, over a whole number of blocks. -/
theorem middleStages_rule (v : ArithVariant) (inv : Bool) {L fuel k : Nat} (hk : k ≤ fuel) (hL : 4 ^ (k + 1) ∣ L)
    {x : List Sample} (hx : x.length = L) :
    MiddleStages v inv (4 ^ (k + 1)) x (middleStages v inv L fuel (4 ^ (k + 1)) x) ∧
      (middleStages v inv L fuel (4 ^ (k + 1)) x).length = L := by
  induction fuel generalizing k x with
  | zero =>
    obtain rfl : k = 0 := by omega
    exact ⟨.done (le_refl 4), hx⟩
  | succ fuel ih =>
    cases k with
    | zero =>
      rw [middleStages, if_neg (by decide)]
      exact ⟨.done (le_refl 4), hx⟩
    | succ k =>
      have hpos : 0 < 4 ^ (k + 1) := by positivity
      have hn : 4 ^ (k + 1 + 1) = 4 * 4 ^ (k + 1) := pow_succ' ..
      have hlt : 4 < 4 ^ (k + 1 + 1) := by
        have : 4 ≤ 4 ^ (k + 1) := Nat.le_self_pow (by omega) 4
        omega
      have hdiv : 4 ^ (k + 1 + 1) / 4 = 4 ^ (k + 1) := by omega
      obtain ⟨blocks, hblocks⟩ := hL
      have hL' : L = blocks * (4 * 4 ^ (k + 1)) := by rw [hblocks, hn, Nat.mul_comm]
      have hstage := stageRule_fftStage (middleButterfly_rule v inv (4 ^ (k + 1 + 1))) hpos (hx.trans hL')
      rw [← hL', ← hn] at hstage
      obtain ⟨hrest, hlen⟩ := ih (k := k) (x := fftStage (middleButterfly v inv (4 ^ (k + 1 + 1))) L (4 ^ (k + 1 + 1)) x)
        (by omega) (hblocks ▸ (Dvd.dvd.mul_right ⟨4, by rw [hn, Nat.mul_comm]⟩ _)) (hstage.1.trans hx)
      rw [middleStages, if_pos hlt, hdiv]
      exact ⟨.stage hlt hstage (by rw [hdiv]; exact hrest), hlen⟩

/-- `radix4` of `4^(k+2)` samples follows R242; the machine's lengths have `k` up to 4. -/
theorem radix4_rule (v : ArithVariant) (inv : Bool) {k : Nat} (hk : k ≤ 4) {x : List Sample}
    (hx : x.length = 4 ^ (k + 2)) : Radix4Rule v inv (4 ^ (k + 2)) x (radix4 v inv (4 ^ (k + 2)) x) := by
  have hpos : 0 < 4 ^ (k + 1) := by positivity
  have hL : 4 ^ (k + 2) = 1 * (4 * 4 ^ (k + 1)) := by rw [Nat.one_mul]; exact pow_succ' ..
  have hdiv : 4 ^ (k + 2) / 4 = 4 ^ (k + 1) := by omega
  have hfirst := stageRule_fftStage (firstButterfly_rule v inv (4 ^ (k + 2))) hpos (hx.trans hL)
  rw [← hL, show 4 * 4 ^ (k + 1) = 4 ^ (k + 2) by omega] at hfirst
  obtain ⟨hmiddle, hlen⟩ := middleStages_rule v inv hk (Dvd.intro 4 (by omega) : 4 ^ (k + 1) ∣ 4 ^ (k + 2))
    (hfirst.1.trans hx)
  have hlast := stageRule_fftStage (blocks := 4 ^ (k + 1)) (q := 1) (lastButterfly_rule v inv) one_pos
    (hlen.trans (by omega))
  refine ⟨_, _, hfirst, hdiv ▸ hmiddle, ?_⟩
  rw [radix4, hdiv]
  rw [show 4 ^ (k + 1) * (4 * 1) = 4 ^ (k + 2) by omega] at hlast
  exact hlast

/-! ### The transform of twice a power of 4 -/

theorem prePass_rule (v : ArithVariant) (inv : Bool) {M h : Nat} (hM : M = 2 * h) (x : List Sample) :
    PrePassRule v inv h x (prePass v inv M x).1 (prePass v inv M x).2 := by
  subst hM
  have hdiv : 2 * h / 2 = h := by omega
  have hhalf : ∀ a : Int, asr a 1 = a / 2 := fun a => rfl
  have hshift : ∀ a : Int, asr a 16 = a / 65536 := fun a => rfl
  refine ⟨by simp [prePass, hdiv], by simp [prePass, hdiv], fun i a b l u ha hb hl hu => ?_⟩
  have hi : i < h := by
    obtain ⟨hlt, _⟩ := List.getElem?_eq_some_iff.mp hl
    simpa [prePass, hdiv] using hlt
  simp only [prePass, hdiv, List.getElem?_map, List.getElem?_range hi, Option.map_some, Option.some.injEq,
    getD_of_getElem? ha, getD_of_getElem? hb, sat16_eq_clamp, hhalf] at hl hu
  refine ⟨hl.symm, ?_⟩
  subst hu
  cases v with
  | portable => cases inv <;> simp [UpperRule, prePassUpper, hshift, sat16_eq_clamp]
  | simd =>
    cases inv <;> simp [UpperRule, prePassUpper, Turned, twmulFwd, mulsum, hshift, sat16_eq_clamp, sub_eq_add_neg,
      add_comm]

theorem radix4by2_rule (v : ArithVariant) (inv : Bool) {k : Nat} (hk : k ≤ 4) (x : List Sample) :
    Radix4By2Rule v inv (4 ^ (k + 2)) x (radix4by2 v inv (2 * 4 ^ (k + 2)) x) := by
  have hdiv : 2 * 4 ^ (k + 2) / 2 = 4 ^ (k + 2) := by omega
  have hpre := prePass_rule v inv (rfl : 2 * 4 ^ (k + 2) = 2 * 4 ^ (k + 2)) x
  refine ⟨_, _, _, _, hpre, radix4_rule v inv hk hpre.1, radix4_rule v inv hk hpre.2.1, ?_⟩
  simp only [radix4by2, hdiv, sat16_eq_clamp]

/-! ### Bit reversal -/

theorem bitRev_lt (bits i : Nat) : bitRev bits i < 2 ^ bits := by
  induction bits generalizing i with
  | zero => simp [bitRev]
  | succ bits ih =>
    have := ih (i / 2)
    rw [bitRev, pow_succ]
    rcases Nat.mod_two_eq_zero_or_one i with h | h <;> rw [h] <;> omega

/-- `bitRev` reverses the low bits. -/
theorem testBit_bitRev (bits i b : Nat) (hb : b < bits) : (bitRev bits i).testBit b = i.testBit (bits - 1 - b) := by
  induction bits generalizing i b with
  | zero => omega
  | succ bits ih =>
    have hlt := bitRev_lt bits (i / 2)
    rw [bitRev, Nat.mul_comm, Nat.testBit_two_pow_mul_add _ hlt]
    by_cases hbb : b < bits
    · rw [if_pos hbb, ih (i / 2) b hbb, Nat.testBit_div_two]
      congr 1
      omega
    · obtain rfl : b = bits := by omega
      rw [if_neg hbb]
      simp [Nat.testBit_zero]

/-- Two numbers whose low bits are each other's reversal. -/
theorem eq_bitRev_of_testBit {bits i j : Nat} (hi : i < 2 ^ bits)
    (h : ∀ b, b < bits → j.testBit b = i.testBit (bits - 1 - b)) : i = bitRev bits j := by
  refine Nat.eq_of_testBit_eq fun b => ?_
  by_cases hb : b < bits
  · rw [testBit_bitRev bits j b hb, h _ (by omega)]
    congr 1
    omega
  · have hle : 2 ^ bits ≤ 2 ^ b := Nat.pow_le_pow_right (by decide) (by omega)
    rw [Nat.testBit_lt_two_pow (hi.trans_le hle), Nat.testBit_lt_two_pow ((bitRev_lt bits j).trans_le hle)]

theorem bitRev_bitRev {bits i : Nat} (hi : i < 2 ^ bits) : bitRev bits (bitRev bits i) = i :=
  (eq_bitRev_of_testBit hi fun b hb => testBit_bitRev bits i b hb).symm

theorem getElem?_bitReverse {bits j : Nat} {x : List Sample} (hx : x.length = 2 ^ bits) (hj : j < 2 ^ bits) :
    (bitReverse (2 ^ bits) x)[j]? = x[bitRev bits j]? := by
  have hlt : bitRev bits j < x.length := hx ▸ bitRev_lt bits j
  rw [bitReverse, List.getElem?_map, List.getElem?_range hj, Nat.log2_two_pow, Option.map_some,
    List.getD_eq_getElem?_getD, List.getElem?_eq_getElem hlt]
  rfl

theorem reversed_bitReverse {bits : Nat} {x : List Sample} (hx : x.length = 2 ^ bits) :
    Reversed (2 ^ bits) x (bitReverse (2 ^ bits) x) :=
  ⟨by simp, bits, rfl, fun i j hi hj h => by rw [getElem?_bitReverse hx hj, ← eq_bitRev_of_testBit hi h]⟩

/-- Settles O47: reversing a number's bits twice gives it back. -/
theorem bitReversalIsInvolution : Obligations.BitReversalIsInvolution := by
  intro bits x _ hx
  refine List.ext_getElem? fun j => ?_
  by_cases hj : j < 2 ^ bits
  · rw [getElem?_bitReverse (by simp) hj, getElem?_bitReverse hx (bitRev_lt bits j), bitRev_bitRev hj]
  · rw [List.getElem?_eq_none (by simpa using hj), List.getElem?_eq_none (by omega)]

/-! ### The complex transform -/

/-- The nine lengths: powers of 4, and twice such. -/
theorem cfftSizes_cases {M : Nat} (h : M ∈ Config.cfftSizes) :
    (∃ k, k ≤ 4 ∧ M = 4 ^ (k + 2) ∧ powerOfFour M = true) ∨
      ∃ k, k ≤ 4 ∧ M = 2 * 4 ^ (k + 2) ∧ powerOfFour M = false := by
  simp only [Config.cfftSizes, List.mem_cons, List.not_mem_nil, or_false] at h
  rcases h with rfl | rfl | rfl | rfl | rfl | rfl | rfl | rfl | rfl
  · exact .inl ⟨0, by decide⟩
  · exact .inr ⟨0, by decide⟩
  · exact .inl ⟨1, by decide⟩
  · exact .inr ⟨1, by decide⟩
  · exact .inl ⟨2, by decide⟩
  · exact .inr ⟨2, by decide⟩
  · exact .inl ⟨3, by decide⟩
  · exact .inr ⟨3, by decide⟩
  · exact .inl ⟨4, by decide⟩

theorem cfftSizes_two_pow {M : Nat} (h : M ∈ Config.cfftSizes) : ∃ bits, M = 2 ^ bits := by
  rcases cfftSizes_cases h with ⟨k, _, hM, _⟩ | ⟨k, _, hM, _⟩
  · exact ⟨2 * (k + 2), by rw [hM, pow_mul]; norm_num⟩
  · exact ⟨2 * (k + 2) + 1, by rw [hM, pow_succ 2, pow_mul, Nat.mul_comm]; norm_num⟩

theorem cfft_reordered (v : ArithVariant) (M : Nat) (inv : Bool) (x : List Sample) :
    cfft v M inv true x = bitReverse M (cfft v M inv false x) := rfl

/-- Without the reordering a transform of a power of 4 is `radix4`, and of the other lengths `radix4by2`. -/
theorem cfft_in_order (v : ArithVariant) (M : Nat) (inv : Bool) (x : List Sample) :
    cfft v M inv false x = if powerOfFour M = true then radix4 v inv M x else radix4by2 v inv M x := rfl

theorem cfft_rule (v : ArithVariant) {M : Nat} (inv br : Bool) {x : List Sample} (hM : M ∈ Config.cfftSizes)
    (hx : x.length = M) : CfftRule v M inv br x (cfft v M inv br x) := by
  have hlen : (cfft v M inv false x).length = M := cfft_length v inv false x (.inl (by simpa using hM))
  refine ⟨cfft v M inv false x, fun hfour => ?_, fun htwo => ?_, fun hbr => ?_, fun hbr => by rw [hbr]⟩
  · rcases cfftSizes_cases hM with ⟨k, hk, rfl, hp⟩ | ⟨k, _, _, hp⟩
    · rw [cfft_in_order, if_pos hp]
      exact radix4_rule v inv hk hx
    · exact absurd (List.contains_iff_mem.mpr hfour) (Bool.eq_false_iff.mp hp)
  · rcases cfftSizes_cases hM with ⟨k, _, _, hp⟩ | ⟨k, hk, rfl, hp⟩
    · have hfour := List.contains_iff_mem.mp hp
      simp only [List.mem_cons, List.not_mem_nil, or_false] at htwo hfour
      omega
    · rw [cfft_in_order, hp, show 2 * 4 ^ (k + 2) / 2 = 4 ^ (k + 2) by omega]
      exact radix4by2_rule v inv hk x
  · obtain ⟨bits, rfl⟩ := cfftSizes_two_pow hM
    rw [hbr, cfft_reordered]
    exact reversed_bitReverse hlen

/-- Settles O44. -/
theorem transformsFollowTheRules : Obligations.TransformsFollowTheRules :=
  fun v _ inv br _ hM hx => cfft_rule v inv br hM hx

/-- Settles O45. -/
theorem transformsStayInRange : Obligations.TransformsStayInRange :=
  fun v => ⟨fun _ _ ha hb => ⟨hadd_q15 v ha hb, hsub_q15 v ha hb⟩, fun M hM inv br x _ hq =>
    ⟨cfft_length v inv br x (.inl (by simpa using hM)), cfft_q15 v M inv br hq⟩⟩

end Sys2Proof.Machine
end

section
/-! ## The kept bins (`43_fft_commands.md` R300 to R302) -/

namespace Sys2Proof.Machine

/-! ### One bin against the kept records -/

/-- The order of the kept records: by magnitude, then by bin, where the magnitude is not 0. -/
def Before (r t : TopBin) : Prop := t.mag < r.mag ∨ t.mag = r.mag ∧ (r.mag = 0 ∨ r.index < t.index)

theorem Before.mag_le {r t : TopBin} (h : Before r t) : t.mag ≤ r.mag := by
  rcases h with h | h
  · exact h.le
  · exact h.1.le

/-- A bin that does not exceed the last record leaves the records. -/
theorem keepBin_of_le {kept : List TopBin} {last new : TopBin} (h : new.mag ≤ last.mag) :
    keepBin (kept ++ [last]) new = kept ++ [last] := by
  rw [keepBin, if_neg]
  simpa using h

/-- Records in order fall, for a magnitude, into those that reach it and those that do not. -/
theorem split_at_findIdx {kept : List TopBin} (hsorted : kept.Pairwise Before) (m : Nat) :
    let p := kept.findIdx fun r => decide (r.mag < m)
    (∀ r ∈ kept.take p, m ≤ r.mag) ∧ ∀ r ∈ kept.drop p, r.mag < m := by
  induction kept with
  | nil => simp
  | cons r kept ih =>
    obtain ⟨hfirst, hrest⟩ := List.pairwise_cons.mp hsorted
    by_cases hr : r.mag < m
    · simp only [List.findIdx_cons, hr, decide_true, cond_true, List.take_zero, List.not_mem_nil, List.drop_zero,
        List.mem_cons]
      exact ⟨fun _ h => h.elim, fun t ht => ht.elim (fun e => e ▸ hr) fun hm => (hfirst t hm).mag_le.trans_lt hr⟩
    · obtain ⟨hlow, hhigh⟩ := ih hrest
      simp only [List.findIdx_cons, hr, decide_false, cond_false, List.take_succ_cons, List.drop_succ_cons, List.mem_cons]
      exact ⟨fun t ht => ht.elim (fun e => e ▸ Nat.not_lt.mp hr) (hlow t), hhigh⟩

/-- A bin that exceeds the last record enters before the records it exceeds, and the last one drops out. -/
theorem keepBin_of_lt {kept : List TopBin} {last new : TopBin} (hsorted : (kept ++ [last]).Pairwise Before)
    (h : last.mag < new.mag) :
    ∃ A B, kept = A ++ B ∧ keepBin (kept ++ [last]) new = A ++ new :: B ∧ (∀ r ∈ A, new.mag ≤ r.mag) ∧
      ∀ r ∈ B, r.mag < new.mag := by
  obtain ⟨hlow, hhigh⟩ := split_at_findIdx hsorted new.mag
  have hcond : ((kept ++ [last]).getLast?.map TopBin.mag).getD 0 < new.mag := by simpa using h
  rw [keepBin, if_pos hcond]
  generalize (kept ++ [last]).findIdx (fun r => decide (r.mag < new.mag)) = p at hlow hhigh ⊢
  have hp : p ≤ kept.length := by
    by_contra hgt
    have hlast : last ∈ (kept ++ [last]).take p := by
      rw [List.take_of_length_le (by simp only [List.length_append, List.length_singleton]; omega)]
      simp
    exact absurd (hlow last hlast) (by omega)
  refine ⟨kept.take p, kept.drop p, (List.take_append_drop p kept).symm, ?_, fun r hr => hlow r ?_, fun r hr => hhigh r ?_⟩
  · dsimp only
    rw [List.take_append_of_le_length hp, List.drop_append_of_le_length hp, ← List.cons_append, ← List.append_assoc,
      List.dropLast_concat]
  · rwa [List.take_append_of_le_length hp]
  · rw [List.drop_append_of_le_length hp]
    exact List.mem_append_left _ hr

/-! ### The kept records after the bins up to `n` -/

/-- What R300 says of the records kept after bins 1 .. n, whose magnitudes are `mag`. -/
structure KeptUpTo (mag : Nat → Nat) (n : Nat) (kept : List TopBin) : Prop where
  sorted : kept.Pairwise Before
  records : ∀ r ∈ kept, r = ⟨0, 0⟩ ∨ 1 ≤ r.index ∧ r.index ≤ n ∧ 0 < r.mag ∧ r.mag = mag r.index
  others : ∀ b, 1 ≤ b → b ≤ n → (∀ r ∈ kept, r.index ≠ b) → ∀ r ∈ kept,
    mag b ≤ r.mag ∧ (r ≠ ⟨0, 0⟩ → mag b = r.mag → r.index < b)

theorem keptUpTo_zero (mag : Nat → Nat) (K : Nat) : KeptUpTo mag 0 (List.replicate K ⟨0, 0⟩) where
  sorted := List.pairwise_replicate.mpr (.inr (.inr ⟨rfl, .inl rfl⟩))
  records := fun r hr => .inl (List.eq_of_mem_replicate hr)
  others := fun b h1 h2 => by omega

section NextBin

variable {mag : Nat → Nat} {n : Nat} {kept : List TopBin} {last : TopBin}

/-- The last record does not exceed the others. -/
theorem KeptUpTo.last_le (h : KeptUpTo mag n (kept ++ [last])) {r : TopBin} (hr : r ∈ kept ++ [last]) :
    last.mag ≤ r.mag := by
  rcases List.mem_append.mp hr with hr | hr
  · exact ((List.pairwise_append.mp h.sorted).2.2 r hr last (List.mem_singleton.mpr rfl)).mag_le
  · rw [List.mem_singleton.mp hr]

/-- A record that is not empty has a bin seen so far. -/
theorem KeptUpTo.index_le (h : KeptUpTo mag n (kept ++ [last])) {r : TopBin} (hr : r ∈ kept ++ [last])
    (hpos : r ≠ ⟨0, 0⟩) : r.index ≤ n := ((h.records r hr).resolve_left hpos).2.1

/-- The next bin does not enter. -/
theorem KeptUpTo.stay (h : KeptUpTo mag n (kept ++ [last])) (hle : mag (n + 1) ≤ last.mag) :
    KeptUpTo mag (n + 1) (kept ++ [last]) where
  sorted := h.sorted
  records := fun r hr => (h.records r hr).imp_right fun ⟨h1, h2, h3⟩ => ⟨h1, by omega, h3⟩
  others := fun b h1 h2 hno r hr => by
    by_cases hb : b ≤ n
    · exact h.others b h1 hb hno r hr
    · obtain rfl : b = n + 1 := by omega
      exact ⟨hle.trans (h.last_le hr), fun hpos _ => Nat.lt_succ_of_le (h.index_le hr hpos)⟩

/-- The next bin enters, and the last record drops out. -/
theorem KeptUpTo.enter {A B : List TopBin} (h : KeptUpTo mag n (A ++ B ++ [last])) (hlt : last.mag < mag (n + 1))
    (hA : ∀ r ∈ A, mag (n + 1) ≤ r.mag) (hB : ∀ r ∈ B, r.mag < mag (n + 1)) :
    KeptUpTo mag (n + 1) (A ++ ⟨n + 1, mag (n + 1)⟩ :: B) := by
  have hold {r : TopBin} (hr : r ∈ A ∨ r ∈ B) : r ∈ A ++ B ++ [last] := by
    simp only [List.mem_append]
    tauto
  have hmem {r : TopBin} (hr : r ∈ A ++ ⟨n + 1, mag (n + 1)⟩ :: B) : r = ⟨n + 1, mag (n + 1)⟩ ∨ r ∈ A ∨ r ∈ B := by
    simp only [List.mem_append, List.mem_cons] at hr
    tauto
  have hbefore {r : TopBin} (hr : r ∈ A ∨ r ∈ B) : Before r last :=
    (List.pairwise_append.mp h.sorted).2.2 r (by simpa using hr) last (List.mem_singleton.mpr rfl)
  refine ⟨?sorted, fun r hr => ?records, fun b h1 h2 hno r hr => ?others⟩
  case sorted =>
    obtain ⟨hAs, hBs, hAB⟩ := List.pairwise_append.mp (List.pairwise_append.mp h.sorted).1
    refine List.pairwise_append.mpr ⟨hAs, List.pairwise_cons.mpr ⟨fun t ht => .inl (hB t ht), hBs⟩, fun r hr t ht => ?_⟩
    rcases List.mem_cons.mp ht with rfl | ht
    · rcases (hA r hr).lt_or_eq with hlt' | heq
      · exact .inl hlt'
      · have hpos : r ≠ ⟨0, 0⟩ := fun e => by
          rw [e] at heq
          exact absurd hlt (by simp only at heq; omega)
        exact .inr ⟨heq, .inr (Nat.lt_succ_of_le (h.index_le (hold (.inl hr)) hpos))⟩
    · exact hAB r hr t ht
  case records =>
    rcases hmem hr with rfl | hr
    · exact .inr ⟨by simp, le_refl _, by dsimp only; omega, rfl⟩
    · exact (h.records r (hold hr)).imp_right fun ⟨h1, h2, h3⟩ => ⟨h1, by omega, h3⟩
  case others =>
    have hne : b ≠ n + 1 := fun e => hno ⟨n + 1, mag (n + 1)⟩ (by simp) e.symm
    have hlast : ∀ t ∈ A ++ B ++ [last], t.index = b → t = last := fun t ht he => by
      simp only [List.mem_append, List.mem_singleton] at ht
      rcases ht with (ht | ht) | ht
      · exact absurd he (hno t (by simp [ht]))
      · exact absurd he (hno t (by simp [ht]))
      · exact ht
    by_cases hb : last.index = b
    · have hlive : last ≠ ⟨0, 0⟩ := fun e => by
        rw [e] at hb
        simp only at hb
        omega
      have hmag : last.mag = mag b := by
        rw [((h.records last (by simp)).resolve_left hlive).2.2.2, hb]
      rcases hmem hr with rfl | hr
      · exact ⟨by dsimp only; omega, fun _ he => by dsimp only at he; omega⟩
      · have hord := hbefore hr
        refine ⟨hmag ▸ hord.mag_le, fun hpos he => ?_⟩
        obtain ⟨_, _, hrpos, _⟩ := (h.records r (hold hr)).resolve_left hpos
        rcases hord with hgt | ⟨_, hzero | hidx⟩
        · omega
        · omega
        · exact hb ▸ hidx
    · have hno' : ∀ t ∈ A ++ B ++ [last], t.index ≠ b := fun t ht he => hb (by rw [← hlast t ht he, he])
      rcases hmem hr with rfl | hr
      · have hle := (h.others b h1 (by omega) hno' last (by simp)).1
        exact ⟨by dsimp only; omega, fun _ he => by dsimp only at he; omega⟩
      · exact h.others b h1 (by omega) hno' r (hold hr)

end NextBin

/-- The next bin, whether it enters or not. -/
theorem KeptUpTo.next {mag : Nat → Nat} {n : Nat} {kept : List TopBin} (h : KeptUpTo mag n kept) (hne : kept ≠ []) :
    KeptUpTo mag (n + 1) (keepBin kept ⟨n + 1, mag (n + 1)⟩) := by
  obtain ⟨init, last, rfl⟩ : ∃ init last, kept = init ++ [last] := ⟨_, _, (List.dropLast_concat_getLast hne).symm⟩
  by_cases hlt : last.mag < mag (n + 1)
  · obtain ⟨A, B, rfl, hkeep, hA, hB⟩ := keepBin_of_lt (new := ⟨n + 1, mag (n + 1)⟩) h.sorted hlt
    exact hkeep ▸ h.enter hlt hA hB
  · rw [keepBin_of_le (Nat.not_lt.mp hlt)]
    exact h.stay (Nat.not_lt.mp hlt)

theorem keptUpTo_foldl (mag : Nat → Nat) {K : Nat} (hK : 1 ≤ K) (n : Nat) :
    let kept := (List.range n).foldl (fun kept j => keepBin kept ⟨j + 1, mag (j + 1)⟩) (List.replicate K ⟨0, 0⟩)
    KeptUpTo mag n kept ∧ kept.length = K := by
  induction n with
  | zero => exact ⟨keptUpTo_zero mag K, List.length_replicate⟩
  | succ n ih =>
    obtain ⟨hkept, hlen⟩ := ih
    rw [List.range_succ, List.foldl_append, List.foldl_cons, List.foldl_nil]
    refine ⟨hkept.next ?_, by rw [keepBin_length, hlen]⟩
    rw [← List.length_pos_iff_ne_nil, hlen]
    exact hK

theorem keptUpTo_topBins (N : Nat) {K : Nat} (hK : 1 ≤ K) (bins : List Sample) :
    KeptUpTo (fun b => magSquared (bins.getD b (0, 0))) (N / 2) (topBins N K bins) :=
  (keptUpTo_foldl (fun b => magSquared (bins.getD b (0, 0))) hK (N / 2)).1

/-- Settles O49: an invariant of the fold over the bins. -/
theorem topBinsAreTheLargest : Obligations.TopBinsAreTheLargest := by
  intro N K bins hK
  have h := keptUpTo_topBins N hK bins
  exact ⟨topBins_length N K bins, h.sorted, h.records, h.others⟩

end Sys2Proof.Machine
end

section
/-! ## A constant real input (`43_fft_commands.md` R302) -/

namespace Sys2Proof.Machine

/-- The first `n` samples of `L` are one sample with equal parts, the others are zero. -/
def Flat (L n : Nat) (x : List Sample) : Prop :=
  x.length = L ∧ ∃ e : Int, ∀ i, i < L → x[i]? = some (if i < n then (e, e) else (0, 0))

/-- A butterfly takes zeros to zeros, and equal samples with equal parts to one such sample and three zeros. -/
def KeepsFlat (f : Nat → Sample → Sample → Sample → Sample → Quad) : Prop :=
  (∀ j, f j (0, 0) (0, 0) (0, 0) (0, 0) = ⟨(0, 0), (0, 0), (0, 0), (0, 0)⟩) ∧
    ∀ e, ∃ e', ∀ j, f j (e, e) (e, e) (e, e) (e, e) = ⟨(e', e'), (0, 0), (0, 0), (0, 0)⟩

theorem sat16_zero : sat16 0 = 0 := rfl

theorem asr_zero (s : Nat) : asr 0 s = 0 := Int.zero_ediv _

theorem qsub_self (a : Int) : qsub a a = 0 := by rw [qsub, sub_self, sat16_zero]

theorem hsub_self (v : ArithVariant) (a : Int) : hsub v a a = 0 := by cases v <;> simp [hsub, asr_zero]

theorem hadd_zero (v : ArithVariant) : hadd v 0 0 = 0 := by cases v <;> rfl

theorem twmul_zero (inv : Bool) (tw : Sample) : twmul inv tw (0, 0) = (0, 0) := by
  cases inv <;> simp [twmul, twmulFwd, twmulInv, mulsum, asr_zero, sat16_zero]

/-- The legs of equal samples are zero. -/
theorem legs_zero (v : ArithVariant) (inv : Bool) :
    legB inv qadd qsub (0, 0) (0, 0) = (0, 0) ∧ legD inv qadd qsub (0, 0) (0, 0) = (0, 0) ∧
      legB inv (hadd v) (hsub v) (0, 0) (0, 0) = (0, 0) ∧ legD inv (hadd v) (hsub v) (0, 0) (0, 0) = (0, 0) := by
  cases inv <;> simp [legB, legD, crossDown, crossUp, hadd_zero, hsub_self, qsub_self, qadd, sat16_zero]

/-- The sums of equal samples with equal parts. -/
theorem butterflySums_flat (e : Int) : butterflySums (e, e) (e, e) (e, e) (e, e) =
    ⟨(qadd e e, qadd e e), (0, 0), (qadd e e, qadd e e), (0, 0)⟩ := by simp [butterflySums, qsub_self]

theorem firstButterfly_flat (v : ArithVariant) (inv : Bool) (L j : Nat) (e : Int) :
    firstButterfly v inv L j (e, e) (e, e) (e, e) (e, e) =
      ⟨(hadd v (qadd (asr e 2) (asr e 2)) (qadd (asr e 2) (asr e 2)),
        hadd v (qadd (asr e 2) (asr e 2)) (qadd (asr e 2) (asr e 2))), (0, 0), (0, 0), (0, 0)⟩ := by
  obtain ⟨hB, hD, -, -⟩ := legs_zero v inv
  simp only [firstButterfly, asrSample, butterflySums_flat, qsub_self, hB, hD, twmul_zero]

theorem middleButterfly_flat (v : ArithVariant) (inv : Bool) (n1 j : Nat) (e : Int) :
    middleButterfly v inv n1 j (e, e) (e, e) (e, e) (e, e) =
      ⟨(asr (hadd v (qadd e e) (qadd e e)) 1, asr (hadd v (qadd e e) (qadd e e)) 1), (0, 0), (0, 0), (0, 0)⟩ := by
  obtain ⟨-, -, hB, hD⟩ := legs_zero v inv
  simp only [middleButterfly, butterflySums_flat, hsub_self, hB, hD, twmul_zero]

theorem lastButterfly_flat (v : ArithVariant) (inv : Bool) (j : Nat) (e : Int) :
    lastButterfly v inv j (e, e) (e, e) (e, e) (e, e) =
      ⟨(hadd v (qadd e e) (qadd e e), hadd v (qadd e e) (qadd e e)), (0, 0), (0, 0), (0, 0)⟩ := by
  obtain ⟨-, -, hB, hD⟩ := legs_zero v inv
  simp only [lastButterfly, butterflySums_flat, hsub_self, hB, hD]

theorem qadd_zero : qadd 0 0 = 0 := rfl

theorem keepsFlat_firstButterfly (v : ArithVariant) (inv : Bool) (L : Nat) : KeepsFlat (firstButterfly v inv L) :=
  ⟨fun j => by rw [firstButterfly_flat, asr_zero, qadd_zero, hadd_zero],
    fun e => ⟨_, fun j => firstButterfly_flat v inv L j e⟩⟩

theorem keepsFlat_middleButterfly (v : ArithVariant) (inv : Bool) (n1 : Nat) : KeepsFlat (middleButterfly v inv n1) :=
  ⟨fun j => by rw [middleButterfly_flat, qadd_zero, hadd_zero, asr_zero],
    fun e => ⟨_, fun j => middleButterfly_flat v inv n1 j e⟩⟩

theorem keepsFlat_lastButterfly (v : ArithVariant) (inv : Bool) : KeepsFlat (lastButterfly v inv) :=
  ⟨fun j => by rw [lastButterfly_flat, qadd_zero, hadd_zero], fun e => ⟨_, fun j => lastButterfly_flat v inv j e⟩⟩

/-- Each place of a sequence of blocks belongs to one butterfly. -/
theorem exists_place {q L i : Nat} (hq : 0 < q) (hi : i < L) (hL : 4 * q ∣ L) :
    ∃ b j r, b < L / (4 * q) ∧ j < q ∧ r < 4 ∧ i = 4 * q * b + j + r * q := by
  have hpos : 0 < 4 * q := by omega
  have hb : i / (4 * q) < L / (4 * q) := Nat.div_lt_div_of_lt_of_dvd hL hi
  have hmod := Nat.mod_lt i hpos
  have hr : i % (4 * q) / q < 4 := (Nat.div_lt_iff_lt_mul hq).mpr hmod
  refine ⟨i / (4 * q), i % (4 * q) % q, i % (4 * q) / q, hb, Nat.mod_lt _ hq, hr, ?_⟩
  have h1 := Nat.div_add_mod i (4 * q)
  have h2 := Nat.mod_add_div (i % (4 * q)) q
  rw [Nat.mul_comm q] at h2
  omega

/-- A stage gathers a flat start into the first quarter of its first block, and leaves zeros zeros (`c = 0`). -/
theorem Flat.fftStage {f : Nat → Sample → Sample → Sample → Sample → Quad} (hf : KeepsFlat f) {L q c : Nat}
    {x : List Sample} (hq : 0 < q) (hc : c ≤ 1) (hL : 4 * q ∣ L) (h : Flat L (4 * q * c) x) :
    Flat L (q * c) (fftStage f L (4 * q) x) := by
  obtain ⟨hlen, e, he⟩ := h
  obtain ⟨hzero, hequal⟩ := hf
  obtain ⟨e', he'⟩ := hequal e
  have hblocks : L = L / (4 * q) * (4 * q) := (Nat.div_mul_cancel hL).symm
  refine ⟨by rw [hblocks]; exact length_fftStage_of_dvd hq x, e', fun i hi => ?_⟩
  obtain ⟨b, j, r, hb, hj, hr, rfl⟩ := exists_place hq hi hL
  have hbound : 4 * q * b + 4 * q ≤ L := by
    have : 4 * q * (b + 1) ≤ 4 * q * (L / (4 * q)) := Nat.mul_le_mul_left _ hb
    rw [Nat.mul_div_cancel' hL] at this
    omega
  by_cases hflat : b = 0 ∧ c = 1
  · obtain ⟨rfl, rfl⟩ := hflat
    have hquad : QuadAt x (4 * q * 0 + j) q ⟨(e, e), (e, e), (e, e), (e, e)⟩ := by
      refine ⟨?_, ?_, ?_, ?_⟩ <;> rw [he _ (by omega), if_pos (by omega)]
    have hout := quadAt_fftStage f hb hj hquad
    rw [← hblocks, he'] at hout
    obtain ⟨h0, h1, h2, h3⟩ := hout
    interval_cases r
    · rw [Nat.zero_mul, Nat.add_zero, h0, if_pos (by omega)]
    · rw [Nat.one_mul, h1, if_neg (by omega)]
    · rw [h2, if_neg (by omega)]
    · rw [h3, if_neg (by omega)]
  · have hfar : 4 * q * c ≤ 4 * q * b := Nat.mul_le_mul_left _ (by omega)
    have hout_far : q * c ≤ 4 * q * b := (Nat.mul_le_mul_right c (by omega)).trans hfar
    have hquad : QuadAt x (4 * q * b + j) q ⟨(0, 0), (0, 0), (0, 0), (0, 0)⟩ := by
      refine ⟨?_, ?_, ?_, ?_⟩ <;> rw [he _ (by omega), if_neg (by omega)]
    have hout := quadAt_fftStage f hb hj hquad
    rw [← hblocks, hzero] at hout
    obtain ⟨h0, h1, h2, h3⟩ := hout
    rw [if_neg (by omega)]
    interval_cases r
    · rw [Nat.zero_mul, Nat.add_zero, h0]
    · rw [Nat.one_mul, h1]
    · exact h2
    · exact h3

theorem Flat.middleStages (v : ArithVariant) (inv : Bool) {L fuel k c : Nat} (hk : k ≤ fuel) (hc : c ≤ 1)
    (hL : 4 ^ (k + 1) ∣ L) {x : List Sample} (h : Flat L (4 ^ (k + 1) * c) x) :
    Flat L (4 * c) (middleStages v inv L fuel (4 ^ (k + 1)) x) := by
  induction fuel generalizing k x with
  | zero =>
    obtain rfl : k = 0 := by omega
    exact h
  | succ fuel ih =>
    cases k with
    | zero =>
      rw [Machine.middleStages, if_neg (by decide)]
      exact h
    | succ k =>
      have hn : 4 ^ (k + 1 + 1) = 4 * 4 ^ (k + 1) := pow_succ' ..
      have hlt : 4 < 4 ^ (k + 1 + 1) := by
        have : 4 ≤ 4 ^ (k + 1) := Nat.le_self_pow (by omega) 4
        omega
      have hdiv : 4 ^ (k + 1 + 1) / 4 = 4 ^ (k + 1) := by omega
      have hstage := Flat.fftStage (keepsFlat_middleButterfly v inv (4 ^ (k + 1 + 1))) (by positivity) hc (hn ▸ hL)
        (hn ▸ h)
      rw [Machine.middleStages, if_pos hlt, hdiv]
      rw [← hn] at hstage
      exact ih (by omega) ((Dvd.intro_left 4 hn.symm).trans hL) hstage

/-- A flat input has a transform that is zero but for its first sample, and zeros one that is zero (`c = 0`). -/
theorem Flat.radix4 (v : ArithVariant) (inv : Bool) {k c : Nat} (hk : k ≤ 4) (hc : c ≤ 1) {x : List Sample}
    (h : Flat (4 ^ (k + 2)) (4 ^ (k + 2) * c) x) : Flat (4 ^ (k + 2)) (1 * c) (radix4 v inv (4 ^ (k + 2)) x) := by
  have hL : 4 ^ (k + 2) = 4 * 4 ^ (k + 1) := pow_succ' ..
  have hdiv : 4 ^ (k + 2) / 4 = 4 ^ (k + 1) := by omega
  have hfirst := Flat.fftStage (L := 4 ^ (k + 2)) (q := 4 ^ (k + 1)) (x := x)
    (keepsFlat_firstButterfly v inv (4 ^ (k + 2))) (by positivity) hc (Dvd.intro 1 (by omega)) (hL ▸ h)
  rw [← hL] at hfirst
  rw [Machine.radix4, hdiv]
  exact Flat.fftStage (q := 1) (keepsFlat_lastButterfly v inv) one_pos hc (Dvd.intro (4 ^ (k + 1)) hL.symm)
    (Flat.middleStages v inv hk hc (Dvd.intro_left 4 hL.symm) hfirst)

/-- The pre-pass of a flat input: a flat lower half and an upper half of zeros. -/
theorem Flat.prePass (v : ArithVariant) (inv : Bool) {M h : Nat} (hM : M = 2 * h) {x : List Sample} (hx : Flat M M x) :
    Flat h h (prePass v inv M x).1 ∧ Flat h 0 (prePass v inv M x).2 := by
  subst hM
  obtain ⟨hlen, e, he⟩ := hx
  have hdiv : 2 * h / 2 = h := by omega
  have hget {i : Nat} (hi : i < 2 * h) : x.getD i (0, 0) = (e, e) :=
    getD_of_getElem? ((he i hi).trans (by rw [if_pos hi]))
  have hupper (tw : Sample) : prePassUpper v inv tw (0, 0) = (0, 0) := by
    cases v <;> cases inv <;> simp [prePassUpper, twmulFwd, mulsum, asr_zero, sat16_zero]
  refine ⟨⟨by simp [Machine.prePass, hdiv], sat16 (asr (asr e 1 + asr e 1) 1), fun i hi => ?_⟩,
    ⟨by simp [Machine.prePass, hdiv], 0, fun i hi => ?_⟩⟩ <;>
    simp only [Machine.prePass, hdiv, List.getElem?_map, List.getElem?_range hi, Option.map_some,
      hget (show i < 2 * h by omega), hget (show i + h < 2 * h by omega), sub_self, hupper, hi, if_true, Nat.not_lt_zero,
      if_false]

/-- A flat sequence and zeros after it. -/
theorem Flat.append {L n : Nat} {x y : List Sample} (hn : n ≤ L) (hx : Flat L n x) (hy : Flat L 0 y) :
    Flat (2 * L) n (x ++ y) := by
  obtain ⟨hxl, e, he⟩ := hx
  obtain ⟨hyl, _, hzero⟩ := hy
  refine ⟨by simp only [List.length_append]; omega, e, fun i hi => ?_⟩
  by_cases hil : i < L
  · rw [List.getElem?_append_left (by omega), he i hil]
  · rw [List.getElem?_append_right (by omega), hzero _ (by omega), if_neg (by omega), if_neg (by omega)]

theorem Flat.map {L n : Nat} {x : List Sample} (h : Flat L n x) {g : Int → Int} (hg : g 0 = 0) :
    Flat L n (x.map fun z => (g z.1, g z.2)) := by
  obtain ⟨hlen, e, he⟩ := h
  refine ⟨by simpa using hlen, g e, fun i hi => ?_⟩
  rw [List.getElem?_map, he i hi, Option.map_some]
  split <;> simp [hg]

theorem Flat.radix4by2 (v : ArithVariant) (inv : Bool) {k : Nat} (hk : k ≤ 4) {x : List Sample}
    (h : Flat (2 * 4 ^ (k + 2)) (2 * 4 ^ (k + 2)) x) :
    Flat (2 * 4 ^ (k + 2)) 1 (radix4by2 v inv (2 * 4 ^ (k + 2)) x) := by
  have hpos : 1 ≤ 4 ^ (k + 2) := Nat.one_le_pow _ _ (by decide)
  have hdiv : 2 * 4 ^ (k + 2) / 2 = 4 ^ (k + 2) := by omega
  obtain ⟨hlow, hup⟩ := Flat.prePass v inv rfl h
  have hfirst := Flat.radix4 v inv hk (le_refl 1) (by rwa [Nat.mul_one])
  have hrest := Flat.radix4 (c := 0) v inv hk (Nat.zero_le 1) (by rwa [Nat.mul_zero])
  rw [Machine.radix4by2, hdiv]
  exact (hfirst.append hpos hrest).map (g := fun a => sat16 (2 * a)) rfl

theorem bitRev_zero (bits : Nat) : bitRev bits 0 = 0 := by
  induction bits with
  | zero => rfl
  | succ bits ih => simp [bitRev, ih]

/-- Bit reversal keeps the first sample, and zeros elsewhere. -/
theorem Flat.bitReverse {bits : Nat} {x : List Sample} (h : Flat (2 ^ bits) 1 x) :
    Flat (2 ^ bits) 1 (bitReverse (2 ^ bits) x) := by
  obtain ⟨hlen, e, he⟩ := h
  have hzero := bitRev_zero bits
  refine ⟨by simp, e, fun i hi => ?_⟩
  rw [getElem?_bitReverse hlen hi, he _ (bitRev_lt bits i)]
  by_cases hi0 : i = 0
  · rw [hi0, hzero]
  · have hne : bitRev bits i ≠ 0 := fun h0 => hi0 (by rw [← bitRev_bitRev hi, h0, hzero])
    rw [if_neg (by omega), if_neg (by omega)]

theorem Flat.cfft (v : ArithVariant) {M : Nat} (inv br : Bool) {x : List Sample} (hM : M ∈ Config.cfftSizes)
    (h : Flat M M x) : Flat M 1 (cfft v M inv br x) := by
  have hplain : Flat M 1 (Machine.cfft v M inv false x) := by
    rw [cfft_in_order]
    rcases cfftSizes_cases hM with ⟨k, hk, rfl, hp⟩ | ⟨k, hk, rfl, hp⟩ <;> rw [hp]
    · exact Flat.radix4 v inv hk (le_refl 1) (by rwa [Nat.mul_one])
    · exact Flat.radix4by2 v inv hk h
  cases br with
  | false => exact hplain
  | true =>
    obtain ⟨bits, rfl⟩ := cfftSizes_two_pow hM
    exact hplain.bitReverse

/-! ### The spectrum and the kept records -/

theorem replicate_flat (M : Nat) (c : Int) : Flat M M (List.replicate M (c, c)) :=
  ⟨List.length_replicate, c, fun i hi => by rw [List.getElem?_replicate_of_lt hi, if_pos hi]⟩

/-- The split of a spectrum that is zero but for its first sample. -/
theorem split_of_flat {N i : Nat} {z : List Sample} (hN : N % 2 = 0) (h : Flat (N / 2) 1 z) (h1 : 1 ≤ i) (hi : i < N) :
    (split N z)[i]? = some (0, 0) := by
  obtain ⟨hlen, e, he⟩ := h
  have hzero {j : Nat} (h1 : 1 ≤ j) (hj : j < N / 2) : z[j]? = some (0, 0) := (he j hj).trans (by rw [if_neg (by omega)])
  have hbin {j : Nat} (h1 : 1 ≤ j) (hj : j < N / 2) : splitBin N z j = (0, 0) := by
    simp only [splitBin, getD_of_getElem? (hzero h1 hj), getD_of_getElem? (hzero (j := N / 2 - j) (by omega) (by omega))]
    simp [asr_zero]
  have h0 : z.getD 0 (0, 0) = (e, e) := getD_of_getElem? ((he 0 (by omega)).trans (by rw [if_pos one_pos]))
  rw [split, List.getElem?_map, List.getElem?_range hi, Option.map_some]
  congr 1
  rw [if_neg (by omega)]
  by_cases hlow : i < N / 2
  · rw [if_pos hlow, hbin h1 hlow]
    rfl
  · rw [if_neg hlow]
    by_cases hmid : i = N / 2
    · rw [if_pos hmid, h0, sub_self, asr_zero, sat16_zero]
    · rw [if_neg hmid, hbin (by omega) (by omega)]
      rfl

/-- A bin of magnitude 0 does not enter. -/
theorem keepBin_of_zero (kept : List TopBin) (j : Nat) : keepBin kept ⟨j, 0⟩ = kept := by
  rw [keepBin, if_neg (Nat.not_lt_zero _)]

theorem topBins_of_zero {N : Nat} (K : Nat) {bins : List Sample}
    (h : ∀ i, 1 ≤ i → i ≤ N / 2 → bins.getD i (0, 0) = (0, 0)) : topBins N K bins = List.replicate K ⟨0, 0⟩ := by
  have hfold : ∀ n, n ≤ N / 2 → (List.range n).foldl
      (fun kept j => keepBin kept ⟨j + 1, magSquared (bins.getD (j + 1) (0, 0))⟩) (List.replicate K ⟨0, 0⟩) =
        List.replicate K ⟨0, 0⟩ := by
    intro n hn
    induction n with
    | zero => rfl
    | succ n ih =>
      rw [List.range_succ, List.foldl_append, ih (by omega), List.foldl_cons, List.foldl_nil, h _ (by omega) hn]
      exact keepBin_of_zero _ _
  exact hfold _ (le_refl _)

/-- Settles O50: the transform of a constant is zero but for its first sample, so its split is zero outside DC. -/
theorem constantInputHasNoBins : Obligations.ConstantInputHasNoBins := by
  intro v c _ N hN bins
  have heven : N % 2 = 0 := by
    simp only [List.mem_cons, List.not_mem_nil, or_false] at hN
    omega
  have hsize : N / 2 ∈ Config.cfftSizes := by
    simp only [List.mem_cons, List.not_mem_nil, or_false] at hN
    rcases hN with rfl | rfl <;> decide
  have hbins : ∀ i, 1 ≤ i → i < N → bins[i]? = some (0, 0) := fun i h1 hi =>
    split_of_flat heven (Flat.cfft v false true hsize (replicate_flat _ c)) h1 hi
  exact ⟨hbins, fun K => topBins_of_zero K fun i h1 hi => getD_of_getElem? (hbins i h1 (by omega))⟩

end Sys2Proof.Machine
end

section
/-! ## What the FFT commands on memory leave (`43_fft_commands.md` R285 to R300) -/

namespace Sys2Proof.Machine

/-- An FFT command other than FFT_TOPBINS that no other agent's access races: its end, and its results in memory. -/
theorem fftEnd_spec {s : State} {i : Instr} {f : FftRegions} (hc : fftCheck s s.latch i = some (.ok f))
    (hu : s.untouched f) (hi : ∀ k, i ≠ .fftTopbins k) :
    let u := s.fftEnd f i
    Ended u .ok ∧ EngineFreed s u ∧ u.workFree = s.workFree ∧ SameSlots s u ∧ SameResults s u ∧
      SameMemoryOutside f.written s u ∧ u.mem = s.mem.writes (s.fftResults f i) := by
  intro u
  obtain ⟨hend, hfreed, hslots, hmem, ⟨h1, h2, h3⟩, hother⟩ :=
    fftReturn_spec (MemoryOp.fftStore s f (s.fftResults f i)) f i
  obtain ⟨h0, hwork⟩ := hother hi
  exact ⟨hend, hfreed, hwork, hslots, ⟨h0, h1, h2, h3⟩, sameMemoryOutside_fftEnd hc,
    hmem.trans (mem_fftStore hu.not_raced _)⟩

/-! ### FFT_RFFT -/

/-- Settles O37: the samples after the two stores, which do not overlap. -/
theorem rfftTransforms : Obligations.RfftTransforms := by
  intro s k t he ht hv hok n src dst hsrc hdst hsrc4 hdst4 hsrcIn hdstIn hoverlap hunraced
  obtain ⟨hn4, hpos, hsize⟩ := hok.length hv
  have hcheck : fftCheck s s.latch (.fftRfft k) = some (.ok ⟨src, [src, dst]⟩) :=
    congrArg some (rfftCheck_eq_ok_iff.mpr ⟨t, ht, hv, ⟨hsrc, hdst⟩, ⟨hsrc4, hdst4, hsrcIn, hdstIn, hoverlap⟩, rfl⟩)
  obtain ⟨hend, hfreed, hwork, hslots, hres, hout, hmem⟩ := fftEnd_spec hcheck hunraced.1 (fun _ => Instr.noConfusion)
  have hlen : 2 * n = 4 * (n / 2) := by omega
  have hsrcEq : src = ⟨s.latch.a0.toNat, 4 * (n / 2)⟩ := by rw [← hlen]
  have hload : s.loadSamples src = s.mem.samples src.base (n / 2) := by
    rw [hsrcEq]
    exact loadSamples_of_quiet (hsrcEq ▸ hunraced.2)
  let z := cfft s.cfg.variant (n / 2) false true (s.mem.samples src.base (n / 2))
  have hz : z.length = n / 2 := cfft_length _ _ _ _ (.inr rfl)
  have hzq : ∀ y ∈ z, IsQ15Sample y := cfft_q15 _ _ _ _ (samples_q15 _ _ _)
  have hmem' : (s.fftEnd ⟨src, [src, dst]⟩ (.fftRfft k)).mem =
      (s.mem.write src.base (bytesOfSamples z)).write dst.base (bytesOfSamples (split n z)) := by
    rw [hmem]
    simp only [State.fftResults, ht, Option.getD_some, hload]
    rfl
  have hzmem : (s.fftEnd ⟨src, [src, dst]⟩ (.fftRfft k)).mem.samples src.base (n / 2) = z := by
    have hd : min (src.base + 2 * n) (dst.base + 4 * n) ≤ max src.base dst.base := overlaps_eq_false.mp hoverlap
    rw [hmem', samples_write_disjoint (by simp only [length_bytesOfSamples, split_length]; omega)]
    exact hz ▸ samples_write_same s.mem src.base hzq
  have hdmem : (s.fftEnd ⟨src, [src, dst]⟩ (.fftRfft k)).mem.samples dst.base n = split n z := by
    rw [hmem']
    have hsame := samples_write_same (s.mem.write src.base (bytesOfSamples z)) dst.base (split_q15 n z)
    rwa [split_length] at hsame
  refine ⟨_, exec_of_fftCheck he hcheck, hend, hfreed, hwork, hslots, hres, hout, ?_, hzmem, hdmem⟩
  rw [hzmem]
  exact cfft_rule _ _ _ hsize (length_samples _ _ _)

/-! ### FFT_CFFT and FFT_BITREV -/

/-- The samples of the buffer after a command in place. -/
theorem samples_fftEnd_inPlace {s : State} {i : Instr} {m : Nat} {x : List Sample} {r : Region}
    (hmem : (s.fftEnd ⟨r, [r]⟩ i).mem = s.mem.writes [(r.base, bytesOfSamples x)]) (hx : x.length = m)
    (hq : ∀ z ∈ x, IsQ15Sample z) : (s.fftEnd ⟨r, [r]⟩ i).mem.samples r.base m = x := by
  rw [hmem]
  exact hx ▸ samples_write_same s.mem r.base hq

/-- Settles O38. -/
theorem cfftTransforms : Obligations.CfftTransforms := by
  intro s inv br he m buf hm h0 h4 hin hunraced
  have hcheck : fftCheck s s.latch (.fftCfft inv br) = some (.ok ⟨buf, [buf]⟩) :=
    congrArg some (cfftCheck_eq_ok_iff.mpr ⟨h0, hm, ⟨h4, hin⟩, rfl⟩)
  obtain ⟨hend, hfreed, hwork, hslots, hres, hout, hmem⟩ := fftEnd_spec hcheck hunraced.1 (fun _ => Instr.noConfusion)
  have hload : s.loadSamples buf = s.mem.samples buf.base m := loadSamples_of_quiet hunraced.2
  have hsamples : (s.fftEnd ⟨buf, [buf]⟩ (.fftCfft inv br)).mem.samples buf.base m =
      cfft s.cfg.variant m inv br (s.mem.samples buf.base m) := by
    refine samples_fftEnd_inPlace ?_ (cfft_length _ _ _ _ (.inl (by simpa [Config.cfftSizes] using hm)))
      (cfft_q15 _ _ _ _ (samples_q15 _ _ _))
    rw [hmem]
    simp only [State.fftResults, hload]
    rfl
  refine ⟨_, exec_of_fftCheck he hcheck, hend, hfreed, hwork, hslots, hres, hout, ?_, hsamples⟩
  rw [hsamples]
  exact cfft_rule _ _ _ hm (length_samples _ _ _)

/-- What FFT_BITREV leaves in its buffer, raced reads included. -/
theorem samples_fftBitrev {s : State} {m : Nat} {buf : Region} (hbuf : buf = ⟨s.latch.a0.toNat, 4 * m⟩)
    (hm : m = s.latch.a1.toNat)
    (hmem : (s.fftEnd ⟨buf, [buf]⟩ .fftBitrev).mem = s.mem.writes (s.fftResults ⟨buf, [buf]⟩ .fftBitrev)) :
    (s.fftEnd ⟨buf, [buf]⟩ .fftBitrev).mem.samples buf.base m = bitReverse m (s.loadSamples buf) := by
  refine samples_fftEnd_inPlace ?_ (bitReverse_length _ _) (bitReverse_q15 _ (hbuf ▸ loadSamples_q15 s _ _))
  rw [hmem, hbuf, hm]
  rfl

theorem getElem?_samples {mem : Memory} {a n k : Nat} (hk : k < n) : (mem.samples a n)[k]? = some (mem.sample a k) := by
  rw [Memory.samples, List.getElem?_map, List.getElem?_range hk, Option.map_some]

theorem two_pow_mem_cfftSizes {bits : Nat} (h1 : 4 ≤ bits) (h2 : bits ≤ 12) : 2 ^ bits ∈ Config.cfftSizes := by
  interval_cases bits <;> decide

/-- Settles O39: place `j` receives what was read of place `bitRev j`, which is place `i`. -/
theorem bitrevPermutes : Obligations.BitrevPermutes := by
  intro s bits he m buf hm hlow hhigh h0 h4 hin huntouched
  have hsize : m ∈ Config.cfftSizes := hm ▸ two_pow_mem_cfftSizes hlow hhigh
  have hcheck : fftCheck s s.latch .fftBitrev = some (.ok ⟨buf, [buf]⟩) :=
    congrArg some (cfftCheck_eq_ok_iff.mpr ⟨h0, hsize, ⟨h4, hin⟩, rfl⟩)
  obtain ⟨hend, hfreed, hwork, hslots, hres, hout, hmem⟩ := fftEnd_spec hcheck huntouched (fun _ => Instr.noConfusion)
  refine ⟨_, exec_of_fftCheck he hcheck, hend, hfreed, hwork, hslots, hres, hout, fun i j hi hj hbits hquiet => ?_⟩
  have hsamples := samples_fftBitrev (buf := buf) (m := m) rfl rfl hmem
  have hget := congrArg (fun x : List Sample => x[j]?) hsamples
  have hloaded : (s.loadSamples buf).length = 2 ^ bits := by rw [← hm]; exact length_loadSamples s _ m
  rw [getElem?_samples hj, hm, getElem?_bitReverse hloaded (hm ▸ hj), ← eq_bitRev_of_testBit (hm ▸ hi) hbits,
    loadSamples_get hi hquiet] at hget
  exact Option.some.inj hget

/-- The bytes of a halfword are those of its value. -/
theorem bytes_eq_of_half {m m' : Memory} {a : Nat} (h : m.half a = m'.half a) :
    m.byte a = m'.byte a ∧ m.byte (a + 1) = m'.byte (a + 1) := by
  rw [half_eq, half_eq] at h
  have hnat := congrArg BitVec.toNat (BitVec.eq_of_toInt_eq h)
  rw [toNat_append_bytes, toNat_append_bytes] at hnat
  have h1 := (m.byte a).isLt
  have h2 := (m'.byte a).isLt
  exact ⟨BitVec.eq_of_toNat_eq (by omega), BitVec.eq_of_toNat_eq (by omega)⟩

/-- The bytes of an array are those of its samples. -/
theorem byte_eq_of_samples {m m' : Memory} {a n x : Nat} (h : m.samples a n = m'.samples a n) (h1 : a ≤ x)
    (h2 : x < a + 4 * n) : m.byte x = m'.byte x := by
  obtain ⟨k, r, hk, hr, rfl⟩ : ∃ k r, k < n ∧ r < 4 ∧ x = a + 4 * k + r :=
    ⟨(x - a) / 4, (x - a) % 4, by omega, by omega, by omega⟩
  have hget := congrArg (fun y : List Sample => y[k]?) h
  rw [getElem?_samples hk, getElem?_samples hk] at hget
  have hsample := Option.some.inj hget
  obtain ⟨hre, hre'⟩ := bytes_eq_of_half (congrArg Prod.fst hsample)
  obtain ⟨him, him'⟩ := bytes_eq_of_half (congrArg Prod.snd hsample)
  interval_cases r
  · exact hre
  · exact hre'
  · exact him
  · exact him'

/-- FFT_BITREV without a race reverses the samples of its buffer and leaves the rest of memory. -/
theorem bitrev_reverses {s t : State} {a m : Nat} (ha : s.latch.a0.toNat = a) (hm : s.latch.a1.toNat = m)
    (he : s.hasEngine) (hsize : m ∈ Config.cfftSizes) (h0 : a ≠ 0) (h4 : a % 4 = 0)
    (hin : inWindow s.cfg ⟨a, 4 * m⟩ = true) (hu : s.unraced ⟨⟨a, 4 * m⟩, [⟨a, 4 * m⟩]⟩)
    (hexec : exec .fftBitrev s = .next t) :
    t.mem.samples a m = bitReverse m (s.mem.samples a m) ∧ SameMemoryOutside [⟨a, 4 * m⟩] s t := by
  subst ha hm
  have hcheck : fftCheck s s.latch .fftBitrev = some (.ok ⟨_, _⟩) :=
    congrArg some (cfftCheck_eq_ok_iff.mpr ⟨h0, hsize, ⟨h4, hin⟩, rfl⟩)
  obtain rfl := Host.Outcome.next.inj ((exec_of_fftCheck he hcheck).symm.trans hexec)
  obtain ⟨_, _, _, _, _, hout, hmem⟩ := fftEnd_spec hcheck hu.1 (fun _ => Instr.noConfusion)
  refine ⟨?_, hout⟩
  rw [← loadSamples_of_quiet hu.2]
  exact samples_fftBitrev rfl rfl hmem

/-- Settles O48: the second command reverses the samples that the first one left, and each leaves the rest. -/
theorem bitrevTwiceRestoresMemory : Obligations.BitrevTwiceRestoresMemory := by
  intro s t u w m buf hes hm h0 h4 hin hus hst heu hcfg ha0 ha1 hmem huu huw x
  obtain ⟨hfirst, hrest⟩ := bitrev_reverses (a := buf.base) (m := m) rfl rfl hes hm h0 h4 hin hus hst
  obtain ⟨hsecond, hrest'⟩ := bitrev_reverses (a := buf.base) (m := m) (congrArg BitVec.toNat ha0)
    (congrArg BitVec.toNat ha1) heu hm h0 h4 (hcfg ▸ hin) huu huw
  by_cases hx : buf.has x = true
  · obtain ⟨bits, hbits⟩ := cfftSizes_two_pow hm
    have hpos : 1 ≤ bits := by
      by_contra hlt
      obtain rfl : bits = 0 := by omega
      rw [hbits] at hm
      exact absurd hm (by decide)
    obtain ⟨hlow, hhigh⟩ := Region.has_iff.mp hx
    refine byte_eq_of_samples (a := buf.base) (n := m) ?_ hlow hhigh
    rw [hsecond, hmem, hfirst, hbits]
    exact bitReversalIsInvolution bits _ hpos (length_samples _ _ _)
  · have hx' : ∀ r ∈ [buf], r.has x = false := by simpa using hx
    rw [hrest' x hx', hmem, hrest x hx']

/-! ### FFT_TOPBINS -/

/-- The kept indices, stored as 16-bit values, read back. -/
theorem read_indices (m : Memory) (a : Nat) {kept : List TopBin} {j : Nat} {r : TopBin} (hj : kept[j]? = some r)
    (hr : r.index < 65536) :
    leValue ((m.write a (kept.flatMap fun r => leBytes 2 r.index)).read (a + 2 * j) 2) = r.index := by
  obtain ⟨hlt, hget⟩ := List.getElem?_eq_some_iff.mp hj
  have hsplit : kept = kept.take j ++ r :: kept.drop (j + 1) := by
    rw [← hget, ← List.drop_eq_getElem_cons hlt, List.take_append_drop]
  have hbytes : (kept.flatMap fun r => leBytes 2 r.index) = ((kept.take j).flatMap fun r => leBytes 2 r.index) ++
      leBytes 2 r.index ++ (kept.drop (j + 1)).flatMap fun r => leBytes 2 r.index := by
    conv_lhs => rw [hsplit]
    rw [List.flatMap_append, List.flatMap_cons, List.append_assoc]
  have hread := read_write_part m a ((kept.take j).flatMap fun r => leBytes 2 r.index) (leBytes 2 r.index)
    ((kept.drop (j + 1)).flatMap fun r => leBytes 2 r.index)
  rw [← hbytes, flatMap_leBytes2_length, List.length_take_of_le hlt.le, length_leBytes] at hread
  rw [hread, leValue_leBytes, Nat.mod_eq_of_lt (by omega)]

/-- The magnitude of a Q15 sample fits a RES register. -/
theorem magSquared_lt {z : Sample} (h : IsQ15Sample z) : magSquared z < 2 ^ 32 := by
  obtain ⟨⟨h1, h2⟩, h3, h4⟩ := h
  have hre : z.1 * z.1 ≤ 32768 * 32768 := by nlinarith
  have him : z.2 * z.2 ≤ 32768 * 32768 := by nlinarith
  rw [magSquared]
  omega

theorem wb_q15 (s : State) : ∀ q ∈ s.wb ++ s.ob, IsQ15 q := by
  have hword (w : BitVec 16) : IsQ15 w.toInt := by
    have h1 := BitVec.le_toInt w
    have h2 := BitVec.toInt_lt (x := w)
    unfold IsQ15
    omega
  intro q hq
  rcases List.mem_append.mp hq with hq | hq <;> obtain ⟨k, _, rfl⟩ := List.mem_map.mp hq <;> exact hword _

/-- Settles O40: the records of the spectrum, stored by index, and the first one's magnitude. -/
theorem topbinsSelects : Obligations.TopbinsSelects := by
  intro s k he n src out hn hn1 hk1 hk2 hsrc hout0 hsrc2 hout2 hsrcIn houtIn hunraced kept
  have hnval : n = 4096 ∨ n = 8192 := by simpa using hn
  have hcheck : fftCheck s s.latch (.fftTopbins k) = some (.ok ⟨src, [out]⟩) :=
    congrArg some (topbinsCheck_eq_ok_iff.mpr ⟨⟨hsrc, hout0⟩, ⟨hn, hn1⟩, ⟨hk1, hk2⟩, ⟨hsrc2, hout2, hsrcIn, houtIn⟩, rfl⟩)
  obtain ⟨hend, hfreed, hslots, hmem, ⟨h1, h2, h3⟩, _⟩ :=
    fftReturn_spec (MemoryOp.fftStore s ⟨src, [out]⟩ (s.fftResults ⟨src, [out]⟩ (.fftTopbins k))) ⟨src, [out]⟩
      (.fftTopbins k)
  have hload : samplesOfHalves (s.loadHalves src.base n) = s.mem.samples src.base (n / 2) := by
    have hlen : 2 * n = 4 * (n / 2) := by omega
    have hsrcEq : src = ⟨src.base, 4 * (n / 2)⟩ := by rw [← hlen]
    rw [← loadSamples_of_quiet (hsrcEq ▸ hunraced.2), State.loadSamples]
    exact congrArg (fun j => samplesOfHalves (s.loadHalves src.base j)) (by dsimp only; omega)
  have hkept : topBins n k (s.topbinsSpectrum n src.base) = kept := by
    rw [topBins_topbinsSpectrum s (by omega), hload]
  have hrecords := (keptUpTo_topBins n hk1
    (split n (cfft s.cfg.variant (n / 2) false true (s.mem.samples src.base (n / 2))))).records
  refine ⟨_, exec_of_fftCheck he hcheck, hend, hfreed, hslots, sameMemoryOutside_fftEnd hcheck, topBins_length _ _ _,
    fun j r hj => ?_, fun r hr => ?_, h1, h2, h3, wb_length _, ob_length _, wb_q15 _⟩
  · have hidx : r.index < 65536 := by
      rcases hrecords r (List.mem_of_getElem? hj) with rfl | ⟨_, hle, _⟩
      · decide
      · omega
    have hresults : s.fftResults ⟨src, [out]⟩ (.fftTopbins k) = [(out.base, kept.flatMap fun r => leBytes 2 r.index)] := by
      rw [← hkept]
      rfl
    rw [mem_fftEnd, mem_fftStore hunraced.1.not_raced, hresults]
    exact read_indices s.mem out.base hj hidx
  · have hmag : r.mag < 2 ^ 32 := by
      rcases hrecords r (List.mem_of_mem_head? hr) with rfl | ⟨_, _, _, heq⟩
      · decide
      · rw [heq]
        exact magSquared_lt (getD_q15 (split_q15 _ _) _)
    have hres : (s.fftEnd ⟨src, [out]⟩ (.fftTopbins k)).act.res0 = BitVec.ofNat 32 r.mag := by
      have hfirst : ((topBins n k (s.topbinsSpectrum n src.base)).head?.map TopBin.mag).getD 0 = r.mag := by
        rw [hkept, hr]
        rfl
      simp only [State.fftEnd, State.fftReturn, act_setWorkFree, act_finishFft, act_finish, act_setRes0,
        hunraced.1.not_inputRaced, Bool.false_eq_true, if_false]
      exact congrArg _ hfirst
    rw [hres, BitVec.toNat_ofNat, Nat.mod_eq_of_lt hmag]

end Sys2Proof.Machine
end

section
/-! ## CPU accesses to the register window (`10_state.md` R35 to R47, R54) -/

namespace Sys2Proof.Machine

theorem writeReg_setSchedule (s : State) (es : List Event) (o : Nat) (v : Word) :
    (s.setSchedule es).writeReg o v = (s.writeReg o v).setSchedule es := by
  simp only [State.writeReg, ← port_P, ← port_C, port_setSchedule, setPort_setSchedule]
  by_cases h1 : o < 0x100
  · simp only [h1, if_true]
  · by_cases h2 : o < 0x200
    · simp only [h1, h2, if_true, if_false]
    · simp only [h1, h2, if_false]

section Window

variable {s : State} {rest : List Event} {cpu : Port} {a v : Word} {o : Nat}

/-- A 32-bit store to a register. -/
theorem step_storeWord (hs : s.schedule = .cpuStore cpu .word a v :: rest) (hr : s.inReset = false)
    (ha : a.toNat = s.cfg.coreBase.toNat + o) (ho : o + 4 ≤ 0x300) (h4 : o % 4 = 0) :
    step s = .next ((s.writeReg o v).passed rest) := by
  have htarget : target (s.setSchedule rest).cfg a.toNat Width.word.bytes = .register o :=
    target_register (by simpa using ha) (by decide) ho
  rw [step_of_schedule hs, perform, cpuStore, htarget]
  simp only [storeRegister, ne_eq, not_true_eq_false, if_false, h4, inReset_setSchedule, hr, Bool.false_eq_true,
    writeReg_setSchedule, countStep]
  rfl

/-- A 32-bit load of a register. -/
theorem step_loadWord (hs : s.schedule = .cpuLoad cpu .word a :: rest) (hr : s.inReset = false)
    (ha : a.toNat = s.cfg.coreBase.toNat + o) (ho : o + 4 ≤ 0x300) (h4 : o % 4 = 0) :
    step s = .next (((s.afterReadReg o).returnToCpu cpu (s.readReg o)).passed rest) := by
  have htarget : target (s.setSchedule rest).cfg a.toNat Width.word.bytes = .register o :=
    target_register (by simpa using ha) (by decide) ho
  rw [step_of_schedule hs, perform, cpuLoad, htarget]
  simp only [loadRegister, h4, ne_eq, not_true_eq_false, and_false, if_false, inReset_setSchedule, hr,
    Bool.false_eq_true, if_true, afterReadReg_setSchedule, readReg_setSchedule, returnToCpu_setSchedule, countStep]
  rfl

theorem portWindow_le (p : Port) : portWindow p ≤ 0x100 ∧ portWindow p % 4 = 0 := by cases p <;> decide

/-- A 32-bit store to a register of a port. -/
theorem step_storePort {p : Port} (hs : s.schedule = .cpuStore cpu .word a v :: rest) (hr : s.inReset = false)
    (ha : a.toNat = s.cfg.coreBase.toNat + portWindow p + o) (ho : o < 0x100) (h4 : o % 4 = 0) :
    step s = .next ((s.setPort p ((s.port p).writeReg v o)).passed rest) := by
  have hp := portWindow_le p
  rw [step_storeWord hs hr (ha.trans (Nat.add_assoc _ _ _)) (by omega) (by omega), writeReg_port s p v ho]

/-- A 32-bit load of a register of a port. -/
theorem step_loadPort {p : Port} (hs : s.schedule = .cpuLoad cpu .word a :: rest) (hr : s.inReset = false)
    (ha : a.toNat = s.cfg.coreBase.toNat + portWindow p + o) (ho : o < 0x100) (h4 : o % 4 = 0) :
    step s = .next (((s.setPort p ((s.port p).afterRead o)).returnToCpu cpu ((s.port p).readReg o)).passed rest) := by
  have hp := portWindow_le p
  rw [step_loadWord hs hr (ha.trans (Nat.add_assoc _ _ _)) (by omega) (by omega), readReg_port s p ho,
    afterReadReg_port s p ho]

/-- A 32-bit load of a register of a port but TIME_LO has no side effect. -/
theorem step_loadPort_plain {p : Port} (hs : s.schedule = .cpuLoad cpu .word a :: rest) (hr : s.inReset = false)
    (ha : a.toNat = s.cfg.coreBase.toNat + portWindow p + o) (ho : o < 0x100) (h4 : o % 4 = 0) (hne : o ≠ 0x30)
    (hv : (s.port p).readReg o = v) : step s = .next ((s.returnToCpu cpu v).passed rest) := by
  rw [step_loadPort hs hr ha ho h4, PortState.afterRead, if_neg hne, setPort_port, hv]

/-- A 32-bit load of a register of the global window. -/
theorem step_loadGlobal (hs : s.schedule = .cpuLoad cpu .word a :: rest) (hr : s.inReset = false)
    (ha : a.toNat = s.cfg.coreBase.toNat + 0x200 + o) (ho : o < 0x100) (h4 : o % 4 = 0) (hv : s.readGlobal o = v) :
    step s = .next ((s.returnToCpu cpu v).passed rest) := by
  have h1 : ¬ 0x200 + o < 0x100 := by omega
  have h2 : ¬ 0x200 + o < 0x200 := by omega
  rw [step_loadWord hs hr (ha.trans (Nat.add_assoc _ _ _)) (by omega) (by omega), State.readReg, if_neg h1, if_neg h2,
    State.afterReadReg, if_neg h1, if_neg h2, Nat.add_sub_cancel_left, hv]

end Window

/-! ### Stores -/

/-- Settles O7: the two answers of a store to CMD. -/
theorem cmdStoreAcceptsOrDrops : Obligations.CmdStoreAcceptsOrDrops := by
  intro s rest cpu p a w hs hr ha
  have hstep := step_storePort hs hr ha (by decide) (by decide)
  refine ⟨fun hb => ?busy, fun hb => ?idle⟩
  case busy => rw [hstep, PortState.writeReg, PortState.submit, if_pos hb]
  case idle =>
    rw [hstep, PortState.writeReg, PortState.submit, if_neg (by rw [hb]; decide)]
    rfl

/-- Read-only and reserved offsets ignore a store. -/
theorem writeReg_reserved (ps : PortState) (v : Word) {o : Nat}
    (h : o ∉ [0x00, 0x04, 0x08, 0x0C, 0x10, 0x14, 0x28, 0x2C]) : ps.writeReg v o = ps := by
  unfold PortState.writeReg
  split
  any_goals simp at h
  rfl

/-- Settles O8. -/
theorem registerStores : Obligations.RegisterStores := by
  intro s rest cpu p a v o hs hr
  refine ⟨fun ha => ⟨?status, ?_, ?_, ?_, ?_, ?doorbell, ?_, fun ho h4 hno => ?reserved⟩, fun ha ho h4 => ?global⟩
  case status =>
    rintro rfl
    rw [step_storePort hs hr ha (by decide) (by decide), PortState.writeReg]
    split
    next hset => rw [hset, Bool.not_true, Bool.and_false]
    next hclear => rw [Bool.eq_false_iff.mpr hclear, Bool.not_false, Bool.and_true]
  case doorbell =>
    rintro rfl
    rw [step_storePort hs hr ha (by decide) (by decide), PortState.writeReg]
    split
    next hset => rw [hset, Bool.not_true, Bool.and_false]
    next hclear => rw [Bool.eq_false_iff.mpr hclear, Bool.not_false, Bool.and_true]
  case reserved => rw [step_storePort hs hr ha ho h4, writeReg_reserved _ v hno, setPort_port]
  case global =>
    rw [step_storeWord hs hr (ha.trans (Nat.add_assoc _ _ _)) (by omega) (by omega), State.writeReg,
      if_neg (by omega), if_neg (by omega)]
  all_goals
    rintro rfl
    exact step_storePort hs hr ha (by decide) (by decide)

/-! ### Loads -/

/-- STATUS as a number (R40). -/
theorem statusWord_toNat (ps : PortState) : ps.statusWord.toNat =
    ps.code.toByte.toNat + 2 ^ 29 * ps.lost.toNat + 2 ^ 30 * ps.hold.toNat + 2 ^ 31 * ps.busy.toNat := by
  have happend (x : BitVec 24) (c : Byte) : (x ++ c).toNat = 256 * x.toNat + c.toNat := by
    rw [BitVec.toNat_append, Nat.shiftLeft_eq, Nat.mul_comm _ (2 ^ 8), ← Nat.two_pow_add_eq_or_of_lt c.isLt]
  have hflags : (bit ps.busy ++ bit ps.hold ++ bit ps.lost ++ (0 : BitVec 21)).toNat =
      2 ^ 21 * ps.lost.toNat + 2 ^ 22 * ps.hold.toNat + 2 ^ 23 * ps.busy.toNat := by
    cases ps.busy <;> cases ps.hold <;> cases ps.lost <;> rfl
  have hword := happend (bit ps.busy ++ bit ps.hold ++ bit ps.lost ++ (0 : BitVec 21)) ps.code.toByte
  rw [hflags] at hword
  refine hword.trans ?_
  omega

/-- The numbers of the codes (R330). -/
theorem toByte_of_mem {c : Code} {n : Nat}
    (h : (c, n) ∈ [(Code.ok, 0), (.invalid, 1), (.invalidSize, 2), (.wrongState, 3), (.timeout, 4), (.init, 5),
      (.nullPointer, 6), (.overrun, 7), (.illegal, 8)]) : c.toByte.toNat = n := by
  simp only [List.mem_cons, Prod.mk.injEq, List.not_mem_nil, or_false] at h
  rcases h with ⟨rfl, rfl⟩ | ⟨rfl, rfl⟩ | ⟨rfl, rfl⟩ | ⟨rfl, rfl⟩ | ⟨rfl, rfl⟩ | ⟨rfl, rfl⟩ | ⟨rfl, rfl⟩ | ⟨rfl, rfl⟩ |
    ⟨rfl, rfl⟩ <;> rfl

theorem zeroExtend_bit_toNat (b : Bool) : ((bit b).zeroExtend 32).toNat = b.toNat := by cases b <;> rfl

/-- The registers that return what they hold. -/
theorem readReg_of_mem {ps : PortState} {o : Nat} {v : Word}
    (h : (o, v) ∈ [(0x00, ps.cmd), (0x08, ps.arg0), (0x0C, ps.arg1), (0x10, ps.arg2), (0x14, ps.arg3), (0x18, ps.res0),
        (0x1C, ps.res1), (0x20, ps.res2), (0x24, ps.res3), (0x34, ps.timeHi)]) :
    ps.readReg o = v ∧ o < 0x100 ∧ o % 4 = 0 ∧ o ≠ 0x30 := by
  simp only [List.mem_cons, Prod.mk.injEq, List.not_mem_nil, or_false] at h
  rcases h with ⟨rfl, rfl⟩ | ⟨rfl, rfl⟩ | ⟨rfl, rfl⟩ | ⟨rfl, rfl⟩ | ⟨rfl, rfl⟩ | ⟨rfl, rfl⟩ | ⟨rfl, rfl⟩ | ⟨rfl, rfl⟩ |
    ⟨rfl, rfl⟩ | ⟨rfl, rfl⟩ <;> exact ⟨rfl, by decide, by decide, by decide⟩

theorem readReg_reserved (ps : PortState) {o : Nat} (h : 0x38 ≤ o) : ps.readReg o = 0 := by
  unfold PortState.readReg
  split
  any_goals omega
  rfl

/-- Settles O9. -/
theorem portRegisterLoads : Obligations.PortRegisterLoads := by
  intro s rest cpu p a v o hs hr ha q
  refine ⟨fun hmem => ?plain, fun n hcode ho hv => ?status, fun ho hv => ?dbStatus, fun ho hv => ?dbEnable,
    fun ho => ?time, fun hlow hhigh h4 hv => ?reserved⟩
  case plain =>
    obtain ⟨hread, hlt, h4, hne⟩ := readReg_of_mem hmem
    exact step_loadPort_plain hs hr ha hlt h4 hne hread
  case status =>
    subst ho
    refine step_loadPort_plain hs hr ha (by decide) (by decide) (by decide) (BitVec.eq_of_toNat_eq ?_)
    rw [hv, ← toByte_of_mem hcode]
    exact statusWord_toNat q
  case dbStatus =>
    subst ho
    refine step_loadPort_plain hs hr ha (by decide) (by decide) (by decide) (BitVec.eq_of_toNat_eq ?_)
    rw [hv]
    exact zeroExtend_bit_toNat q.db
  case dbEnable =>
    subst ho
    refine step_loadPort_plain hs hr ha (by decide) (by decide) (by decide) (BitVec.eq_of_toNat_eq ?_)
    rw [hv]
    exact zeroExtend_bit_toNat q.ie
  case time =>
    subst ho
    exact step_loadPort hs hr ha (by decide) (by decide)
  case reserved => exact step_loadPort_plain hs hr ha hhigh h4 (by omega) (hv ▸ readReg_reserved _ hlow)

theorem bmStatusWord_toNat (s : State) : s.bmStatusWord.toNat = s.cbValid.toNat + 2 * s.lastUsed.toNat := by
  unfold State.bmStatusWord
  obtain h | h := BitVec.eq_zero_or_eq_one s.lastUsed <;> rw [h] <;> cases s.cbValid <;> rfl

theorem feStatusWord_toNat (s : State) {owner variant : Nat} (ho : (s.feOwner, owner) ∈ [(Port.P, 0), (.C, 1)])
    (hv : (s.cfg.variant, variant) ∈ [(ArithVariant.portable, 0), (.simd, 1)]) :
    s.feStatusWord.toNat = s.feBusy.toNat + 2 * owner + 4 * variant := by
  simp only [List.mem_cons, Prod.mk.injEq, List.not_mem_nil, or_false] at ho hv
  unfold State.feStatusWord
  rcases ho with ⟨ho, rfl⟩ | ⟨ho, rfl⟩ <;> rcases hv with ⟨hv, rfl⟩ | ⟨hv, rfl⟩ <;> rw [ho, hv] <;>
    cases s.feBusy <;> rfl

theorem ctrlWord_toNat (t : InstSlot) : t.ctrlWord.toNat = t.valid.toNat + 2 * t.ifft.toNat + 4 * t.bitrev.toNat := by
  unfold InstSlot.ctrlWord
  cases t.valid <;> cases t.ifft <;> cases t.bitrev <;> rfl

theorem lt_of_inst {s : State} {k : Nat} {t : InstSlot} (h : s.inst k = some t) : k < 4 := by
  by_contra hge
  rw [inst_eq_none (Nat.not_lt.mp hge)] at h
  cases h

/-- A register of a slot. -/
theorem readGlobal_slot {s : State} {k d : Nat} {t : InstSlot} (h : s.inst k = some t) (hd : d < 0x10) :
    s.readGlobal (0x20 + 0x10 * k + d) = t.readReg d := by
  have hk := lt_of_inst h
  have hquot : (0x20 + 0x10 * k + d - 0x20) / 0x10 = k := by omega
  have hrem : (0x20 + 0x10 * k + d - 0x20) % 0x10 = d := by omega
  unfold State.readGlobal
  split
  any_goals omega
  rw [if_pos (by omega), hquot, hrem, h]

theorem readGlobal_reserved {s : State} {o : Nat} (h : o = 0x18 ∨ o = 0x1C ∨ 0x60 ≤ o) : s.readGlobal o = 0 := by
  unfold State.readGlobal
  split
  any_goals omega
  rw [if_neg (by omega)]

/-- Settles O10. -/
theorem globalRegisterLoads : Obligations.GlobalRegisterLoads := by
  intro s rest cpu a v o k t hs hr ha
  refine ⟨fun hmem => ?constants, fun ho hv => ?bm, fun owner variant howner hvariant ho hv => ?fe,
    fun ht => ?slots, fun ho hv => ?reserved⟩
  case constants =>
    simp only [List.mem_cons, Prod.mk.injEq, List.not_mem_nil, or_false] at hmem
    rcases hmem with ⟨rfl, rfl⟩ | ⟨rfl, rfl⟩ | ⟨rfl, rfl⟩ | ⟨rfl, rfl⟩ <;>
      exact step_loadGlobal hs hr ha (by decide) (by decide) rfl
  case bm =>
    subst ho
    exact step_loadGlobal hs hr ha (by decide) (by decide)
      (BitVec.eq_of_toNat_eq ((bmStatusWord_toNat s).trans hv.symm))
  case fe =>
    subst ho
    exact step_loadGlobal hs hr ha (by decide) (by decide)
      (BitVec.eq_of_toNat_eq ((feStatusWord_toNat s howner hvariant).trans hv.symm))
  case slots =>
    have hk := lt_of_inst ht
    refine ⟨fun ho hv => ?_, fun ho hv => ?_, fun ho hv => ?_, fun ho hv => ?_⟩
    · exact step_loadGlobal hs hr ha (by omega) (by omega)
        (by rw [ho, hv]; exact readGlobal_slot (d := 0) ht (by decide))
    · exact step_loadGlobal hs hr ha (by omega) (by omega)
        (by rw [ho, show 0x24 + 0x10 * k = 0x20 + 0x10 * k + 4 by omega, readGlobal_slot (d := 4) ht (by decide)]
            exact BitVec.eq_of_toNat_eq ((ctrlWord_toNat t).trans hv.symm))
    · exact step_loadGlobal hs hr ha (by omega) (by omega)
        (by rw [ho, hv, show 0x28 + 0x10 * k = 0x20 + 0x10 * k + 8 by omega]
            exact readGlobal_slot (d := 8) ht (by decide))
    · exact step_loadGlobal hs hr ha (by omega) (by omega)
        (by rw [ho, hv, show 0x2C + 0x10 * k = 0x20 + 0x10 * k + 12 by omega]
            exact readGlobal_slot (d := 12) ht (by decide))
  case reserved => exact step_loadGlobal hs hr ha (by omega) (by omega) (hv ▸ readGlobal_reserved (by omega))

end Sys2Proof.Machine
end

section
/-! ## Steps of the schedule: commands, narrow accesses, doorbells, reset, plain accesses and clocks -/

namespace Sys2Proof.Machine

/-! ### A command processor's step (`00_scope.md` R7, R8) -/

theorem runCommand_of_ok {s : State} {p : Port} {i : Instr} (hr : s.inReset = false) (hb : (s.port p).busy = true)
    (hd : decodeWord (s.port p).latch.word = .ok i) : runCommand p s = exec i (s.setActive p) := by
  rw [runCommand, if_neg (by simp [hr, hb]), hd]

/-- With nothing scheduled the one BUSY port's command processor is due. -/
theorem dueEvent_of_one_busy {s : State} {p : Port} (hb : (s.port p).busy = true) (hi : (s.port p.peer).busy = false) :
    s.dueEvent = some (.command p) := by
  cases p with
  | P => simp_all [State.dueEvent, Port.peer, State.port]
  | C => simp_all [State.dueEvent, Port.peer, State.port]

/-- Settles O4. -/
theorem stepRunsDecodedCommand : Obligations.StepRunsDecodedCommand := by
  intro s p i rest
  refine ⟨fun hs hr hb hd => ?scheduled, fun hs hr hb hi hd => ?due, fun hs hP hC => ?idle⟩
  case scheduled =>
    rw [step_of_schedule hs, perform, runCommand_of_ok (by simpa using hr) (by simpa using hb) (by simpa using hd)]
  case due =>
    rw [step, nextMove, hs]
    simp only [dueEvent_of_one_busy hb hi, perform, runCommand_of_ok hr hb hd]
  case idle =>
    rw [step, nextMove, hs]
    simp only [State.dueEvent, hP, hC, countStep]

/-! ### Narrow accesses to the register window (`10_state.md` R54) -/

/-- The digits of a number to base 256 are its bytes, the least significant first. -/
theorem getElem_leBytes {n v k : Nat} (h : k < (leBytes n v).length) :
    (leBytes n v)[k] = BitVec.ofNat 8 (v / 256 ^ k) := by
  induction n generalizing v k with
  | zero => exact absurd h (Nat.not_lt_zero _)
  | succ n ih =>
    cases k with
    | zero => simp [leBytes]
    | succ k => simp only [leBytes, List.getElem_cons_succ, ih, Nat.div_div_eq_div_mul, Nat.pow_succ']

/-- A number with these digits to base 256 is the value of these bytes. -/
theorem leValue_of_digits {bs : List Byte} {v : Nat} (hv : v < 256 ^ bs.length)
    (h : ∀ k, (hk : k < bs.length) → v / 256 ^ k % 256 = bs[k].toNat) : leValue bs = v := by
  have hbs : bs = leBytes bs.length v := by
    refine List.ext_getElem (length_leBytes ..).symm fun k hk _ => BitVec.eq_of_toNat_eq ?_
    rw [getElem_leBytes, BitVec.toNat_ofNat, ← h k hk]
  rw [hbs, leValue_leBytes, Nat.mod_eq_of_lt hv]

/-- The number whose digits are the addressed bytes is what a narrow load returns. -/
theorem registerBytes_of_digits {s : State} {o n : Nat} {v : Word} (hv : v.toNat < 256 ^ n)
    (h : ∀ k, k < n → v.toNat / 256 ^ k % 256 =
      (s.readReg (o + k - (o + k) % 4)).toNat / 256 ^ ((o + k) % 4) % 256) : s.registerBytes o n = v := by
  have hval : leValue ((List.range n).map fun k => s.registerByte (o + k)) = v.toNat := by
    refine leValue_of_digits (by simpa using hv) fun k hk => ?_
    rw [List.getElem_map, List.getElem_range, registerByte_toNat]
    exact h k (by simpa using hk)
  rw [State.registerBytes, hval, BitVec.ofNat_toNat, BitVec.setWidth_eq]

/-- Settles O11. -/
theorem narrowRegisterAccesses : Obligations.NarrowRegisterAccesses := by
  intro s rest cpu w a v o ha ho
  have htarget : target (s.setSchedule rest).cfg a.toNat w.bytes = .register o :=
    target_register (by simpa using ha) w.bytes_pos ho
  refine ⟨fun hw hs => ?store, fun hw hs hr hv hdigits => ?load, fun hw h4 => ⟨fun hs => ?_, fun hs => ?_⟩⟩
  case store =>
    rw [step_of_schedule hs, perform, cpuStore, htarget]
    simp only [storeRegister, if_pos hw, countStep]
    rfl
  case load =>
    rw [step_of_schedule hs, perform, cpuLoad, htarget]
    simp only [loadRegister, hw, false_and, if_false, inReset_setSchedule, hr, Bool.false_eq_true,
      registerBytes_setSchedule, registerBytes_of_digits hv hdigits, returnToCpu_setSchedule, countStep]
    rfl
  · rw [step_of_schedule hs, perform, cpuLoad, htarget]
    simp only [loadRegister, if_pos (And.intro hw h4), countStep]
  · rw [step_of_schedule hs, perform, cpuStore, htarget]
    simp only [storeRegister, if_neg (not_not_intro hw), if_pos h4, countStep]

/-! ### Doorbells and interrupt lines (`10_state.md` R47, `41_notifier_atomics.md` R201 to R204) -/

/-- Settles O16. -/
theorem nopAndFenceJustEnd : Obligations.NopAndFenceJustEnd := fun _ => ⟨.of_finish rfl, .of_finish rfl⟩

theorem exec_ntNotifyC (s : State) : exec .ntNotifyC s = .next ((s.raiseDoorbell .C).finish .ok) := rfl

theorem exec_ntNotifyP (s : State) : exec .ntNotifyP s = .next ((s.raiseDoorbell .P).finish .ok) := rfl

/-- A command that raises a doorbell and ends. -/
theorem notify_spec (s : State) (p : Port) (c : Code) : let t := (s.raiseDoorbell p).finish c
    Ended t c ∧ Undisturbed s t ∧ Rings p s t ∧ SameBuffers s t ∧ SameResults s t ∧ SameMemory s t ∧
      (t.port s.active.peer).latch = (s.port s.active.peer).latch := by
  refine ⟨.finish _ _, ((Undisturbed.refl s).raiseDoorbell p).finish c, rings_raiseDoorbell (.refl s) p c,
    by simp [SameBuffers], ?_, by simp [SameMemory], ?_⟩
  · simp only [SameResults, act_finish, act_raiseDoorbell]
    split
    · exact ⟨rfl, rfl, rfl, rfl⟩
    · exact ⟨rfl, rfl, rfl, rfl⟩
  · rw [port_finish, active_raiseDoorbell, if_neg (peer_ne _), port_raiseDoorbell]
    split
    · rfl
    · rfl

/-- Settles O17. -/
theorem notifyRings : Obligations.NotifyRings := fun s =>
  ⟨⟨_, exec_ntNotifyC s, notify_spec s .C .ok⟩, ⟨_, exec_ntNotifyP s, notify_spec s .P .ok⟩⟩

/-- A line depends on its port alone. -/
theorem irq_passed_setPort (s : State) (p q : Port) (ps : PortState) (rest : List Event) :
    ((s.setPort p ps).passed rest).irq q = if q = p then ps.db && ps.ie else s.irq q := by
  simp only [State.irq, State.passed, port_ticked, port_setSchedule, port_setPort]
  split
  · rfl
  · rfl

/-- A notify makes its line the enable and leaves the other. -/
theorem irq_notify (s : State) (p q : Port) (c : Code) :
    ((s.raiseDoorbell p).finish c).irq q = if q = p then (s.port q).ie else s.irq q := by
  have hport : (((s.raiseDoorbell p).finish c).port q).ie = (s.port q).ie ∧
      (((s.raiseDoorbell p).finish c).port q).db = if q = p then true else (s.port q).db := by
    simp only [port_finish, port_raiseDoorbell]
    split <;> split <;> exact ⟨rfl, rfl⟩
  rw [State.irq, hport.1, hport.2]
  split
  · rfl
  · rfl

/-- Settles O12. -/
theorem interruptLines : Obligations.InterruptLines := by
  intro s rest cpu p a v
  refine ⟨by simp [State.irq], fun hs hr ha => ?enable, fun hs hr ha hv => ?acknowledge, ⟨_, exec_ntNotifyC s, ?_, ?_⟩,
    ⟨_, exec_ntNotifyP s, ?_, ?_⟩⟩
  case enable =>
    refine ⟨_, step_storePort hs hr ha (by decide) (by decide), ?_, ?_⟩
    · rw [irq_passed_setPort, if_pos rfl]
      rfl
    · rw [irq_passed_setPort, if_neg (peer_ne p)]
  case acknowledge =>
    refine ⟨_, step_storePort hs hr ha (by decide) (by decide), ?_, ?_⟩
    · rw [irq_passed_setPort, if_pos rfl, PortState.writeReg, if_pos hv]
      rfl
    · rw [irq_passed_setPort, if_neg (peer_ne p)]
  · exact irq_notify s .C .C .ok
  · exact irq_notify s .C .P .ok
  · exact irq_notify s .P .P .ok
  · exact irq_notify s .P .C .ok

/-! ### The reset input (`70_reset_and_hazards.md` R370, R371) -/

/-- Settles O14. -/
theorem resetInput : Obligations.ResetInput := by
  intro s rest
  refine ⟨fun hs => ?asserts, fun p hs hr => ?command, fun cpu a w o hs hr ha ho h4 => ?store, fun hs => ?releases⟩
  case asserts =>
    refine ⟨(s.setSchedule rest).assertReset.ticked, by rw [step_of_schedule hs]; rfl, rfl, rfl, rfl, rfl, rfl,
      fun p => ?_, rfl, rfl, rfl, rfl, fun k u hu => ?_, fun x hx => ?_⟩
    · cases p with
      | P => rfl
      | C => rfl
    · rw [inst_ticked] at hu
      exact eq_reset_of_inst_assertReset hu
    · exact byte_assertReset (s := s.setSchedule rest) hx
  case command =>
    rw [step_of_schedule hs, perform, runCommand, if_pos (.inl hr)]
    rfl
  case store =>
    have htarget : target (s.setSchedule rest).cfg a.toNat Width.word.bytes = .register o :=
      target_register (by simpa using ha) (by decide) (by simp only [Width.bytes]; omega)
    rw [step_of_schedule hs, perform, cpuStore, htarget]
    simp only [storeRegister, ne_eq, not_true_eq_false, if_false, h4, inReset_setSchedule, hr, if_true, countStep]
    rfl
  case releases =>
    rw [step_of_schedule hs]
    rfl

/-- Settles O53. -/
theorem resetMeetsInvariants : Obligations.ResetMeetsInvariants := by
  have memory (c : Config) : (State.powerUp c []).memoryOk := ⟨rfl, fun _ h => absurd h List.not_mem_nil⟩
  have control (c : Config) : (State.powerUp c []).ControlOk :=
    { ports := fun p => by
        obtain ⟨clock, hp⟩ := port_powerUp c [] p
        rw [hp]
        exact .reset clock
      slots := fun _ _ h => .inl (eq_reset_of_inst_powerUp h)
      engine := fun h => Bool.noConfusion h
      reset := fun h => Bool.noConfusion h }
  exact ⟨fun c => ⟨memory c, control c⟩, rfl, by decide, memory _, control _⟩

/-! ### Plain accesses and clocks (`20_memory.md` R80, R81, R87, `10_state.md` R45) -/

/-- What one access tells a port. -/
theorem port_note_touched (s : State) (agent : Option Port) (x : Touch) (q : Port) : ∃ touched,
    (s.note agent x).port q = { s.port q with latch := { (s.port q).latch with touched := touched } } := by
  rcases port_note_cases s agent x q with h | ⟨_, h⟩
  · exact ⟨_, h⟩
  · exact ⟨_, h⟩

theorem port_note_quiet {s : State} {q : Port} (h : s.fftInFlight q = none) (agent : Option Port) (x : Touch) :
    (s.note agent x).port q = s.port q := by
  rcases port_note_cases s agent x q with hsame | ⟨hin, _⟩
  · exact hsame
  · rw [h] at hin
    cases hin

theorem plainAccess_note (s : State) (agent : Option Port) (x : Touch) : PlainAccess s (s.note agent x) where
  cfg := by simp
  inReset := by simp
  buffers := by simp [SameBuffers]
  engine := by simp [SameEngine]
  slots := fun k => by simp
  ports := port_note_touched s agent x
  quiet := fun _ h => port_note_quiet h agent x

/-- What a plain access leaves alone does not depend on the schedule. -/
theorem PlainAccess.of_setSchedule {s t : State} {es : List Event} (h : PlainAccess (s.setSchedule es) t) :
    PlainAccess s t where
  cfg := h.cfg
  inReset := h.inReset
  buffers := h.buffers
  engine := h.engine
  slots := fun k => by simpa using h.slots k
  ports := by simpa using h.ports
  quiet := fun p hp => by simpa using h.quiet p hp

/-- An update of memory, of what a CPU holds or of the step counter. -/
theorem PlainAccess.step {s t u : State} (h : PlainAccess s t) (hcfg : u.cfg = t.cfg) (hr : u.inReset = t.inReset)
    (hb : SameBuffers t u) (he : SameEngine t u) (hs : SameSlots t u) (hp : ∀ p, u.port p = t.port p) :
    PlainAccess s u where
  cfg := hcfg.trans h.cfg
  inReset := hr.trans h.inReset
  buffers := ⟨hb.1.trans h.buffers.1, hb.2.trans h.buffers.2⟩
  engine := ⟨he.1.trans h.engine.1, he.2.1.trans h.engine.2.1, he.2.2.trans h.engine.2.2⟩
  slots := fun k => (hs k).trans (h.slots k)
  ports := fun p => hp p ▸ h.ports p
  quiet := fun p hq => (hp p).trans (h.quiet p hq)

theorem plainAccess_storeShared (s : State) (w : Width) (a : Nat) (v : Word) : PlainAccess s (storeShared w a v s) :=
  (plainAccess_note s none ⟨true, ⟨a, (leBytes w.bytes v.toNat).length⟩⟩).step rfl rfl ⟨rfl, rfl⟩ ⟨rfl, rfl, rfl⟩
    (fun k => by simp [storeShared, State.poke]) fun p => by simp [storeShared, State.poke]

theorem plainAccess_loadShared (s : State) (cpu : Port) (w : Width) (a : Nat) : PlainAccess s (loadShared cpu w a s) :=
  (plainAccess_note s none ⟨false, ⟨a, w.bytes⟩⟩).step (by simp [loadShared]) (by simp [loadShared])
    (by simp [SameBuffers, loadShared]) (by simp [SameEngine, loadShared]) (fun k => by simp [loadShared])
    fun p => by simp [loadShared]

theorem PlainAccess.ticked {s t : State} (h : PlainAccess s t) : PlainAccess s t.ticked :=
  h.step rfl rfl ⟨rfl, rfl⟩ ⟨rfl, rfl, rfl⟩ (fun k => inst_ticked t k) fun p => port_ticked t p

/-- A step in which a CPU stores to the shared window. -/
theorem step_storeShared {s : State} {rest : List Event} {cpu : Port} {w : Width} {a v : Word}
    (hs : s.schedule = .cpuStore cpu w a v :: rest) (ht : target s.cfg a.toNat w.bytes = .shared) :
    step s = .next (storeShared w a.toNat v (s.setSchedule rest)).ticked := by
  rw [step_of_schedule hs, perform, cpuStore, cfg_setSchedule, ht]
  rfl

/-- A step in which a CPU loads from the shared window. -/
theorem step_loadShared {s : State} {rest : List Event} {cpu : Port} {w : Width} {a : Word}
    (hs : s.schedule = .cpuLoad cpu w a :: rest) (ht : target s.cfg a.toNat w.bytes = .shared) :
    step s = .next (loadShared cpu w a.toNat (s.setSchedule rest)).ticked := by
  rw [step_of_schedule hs, perform, cpuLoad, cfg_setSchedule, ht]
  rfl

/-- A CPU's read that overlaps nothing that an FFT command in flight writes does not race. -/
theorem readRaces_eq_false_of_quiet {s : State} {r : Region}
    (h : ∀ q f, s.fftRegions q = some f → ∀ w ∈ f.written, w.overlaps r = false) : s.readRaces none r = false := by
  rw [State.readRaces, List.any_eq_false]
  intro q _
  cases hf : s.fftRegions q with
  | none => simp
  | some f => simpa using h q f hf

/-- The value that a CPU's load of up to four bytes holds. -/
theorem toNat_ofNat_leValue {bs : List Byte} (h : bs.length ≤ 4) :
    (BitVec.ofNat 32 (leValue bs)).toNat = leValue bs := by
  have hlt : leValue bs < 2 ^ 32 := (leValue_lt bs).trans_le (Nat.pow_le_pow_right (by decide) h)
  rw [BitVec.toNat_ofNat, Nat.mod_eq_of_lt hlt]

/-- Settles O15. -/
theorem plainAccessesAndClocks : Obligations.PlainAccessesAndClocks := by
  intro s rest cpu p w a v ms
  refine ⟨fun hlow hhigh hwindow => ?_, fun hs => ?clock⟩
  case clock =>
    rw [step_of_schedule hs]
    cases p with
    | P => rfl
    | C => rfl
  have htarget : target s.cfg a.toNat w.bytes = .shared := target_shared hlow hhigh hwindow
  refine ⟨fun hs => ?store, fun hs hquiet => ?load⟩
  case store =>
    have hmem : (storeShared w a.toNat v (s.setSchedule rest)).ticked.mem =
        s.mem.write a.toNat (leBytes w.bytes v.toNat) := mem_poke ..
    refine ⟨_, step_storeShared hs htarget, fun k hk => ?_, sameMemoryOutside_of_write hmem (length_leBytes ..),
      (plainAccess_storeShared (s.setSchedule rest) w a.toNat v).of_setSchedule.ticked, by simp [storeShared],
      by simp [storeShared], by simp [storeShared]⟩
    rw [hmem, Memory.byte_write_inside (by simpa using hk), getElem_leBytes]
  case load =>
    have hread : (s.setSchedule rest).peek none a.toNat w.bytes = s.mem.read a.toNat w.bytes :=
      peek_of_no_race (readRaces_eq_false_of_quiet (s := s.setSchedule rest) hquiet)
    have hval : (BitVec.ofNat 32 (leValue ((s.setSchedule rest).peek none a.toNat w.bytes))).toNat =
        leValue (s.mem.read a.toNat w.bytes) := by
      rw [hread]
      exact toNat_ofNat_leValue (by simpa using w.bytes_le)
    refine ⟨_, step_loadShared hs htarget, fun x => by simp [loadShared],
      (plainAccess_loadShared (s.setSchedule rest) cpu w a.toNat).of_setSchedule.ticked, by simp [loadShared], ?_, ?_⟩
    · rintro rfl
      exact ⟨hval, cpuC_note ..⟩
    · rintro rfl
      exact ⟨hval, cpuP_note ..⟩

end Sys2Proof.Machine
end

section
/-! ## The record of a command's accesses with the other port's FFT command (`20_memory.md` R97) -/

namespace Sys2Proof.Machine

/-- Where port `q`'s FFT command is in flight, its record after `t` holds these accesses, what it held in `s`, and
whatever changed memory in between. -/
def Tells (q : Port) (s t : State) (xs : List Touch) : Prop :=
  s.watched q → Noted q s t ∧ ∀ x ∈ xs, t.recorded q x

section Operations

variable {q : Port} {s t u : State} {xs ys : List Touch}

theorem Tells.trans (h : Tells q s t xs) (k : Tells q t u ys) : Tells q s u (xs ++ ys) := fun hw => by
  obtain ⟨hn, hx⟩ := h hw
  obtain ⟨kn, ky⟩ := k (hn.watched hw)
  exact ⟨hn.trans kn, fun x hm => (List.mem_append.mp hm).elim (fun hm => kn.grows x (hx x hm)) (ky x)⟩

theorem Tells.mono (h : Tells q s t xs) (hs : ys ⊆ xs) : Tells q s t ys := fun hw =>
  ⟨(h hw).1, fun x hx => (h hw).2 x (hs hx)⟩

/-- What follows makes no access, or none of interest. -/
theorem Tells.then (h : Tells q s t xs) (k : Tells q t u ys) : Tells q s u xs :=
  (h.trans k).mono (List.subset_append_left ..)

theorem Tells.silent (h : s.watched q → Noted q s t) : Tells q s t [] := fun hw => ⟨h hw, by simp⟩

theorem Tells.one {x : Touch} (h : s.watched q → Noted q s t ∧ t.recorded q x) : Tells q s t [x] := fun hw =>
  ⟨(h hw).1, by simpa using (h hw).2⟩

theorem Tells.refl (q : Port) (s : State) : Tells q s s [] := .silent fun _ => .refl q s

theorem tells_updActive (s : State) (g : PortState → PortState) : Tells q s (s.updPort s.active g) [] :=
  .silent fun h => .updActive h g

theorem tells_finish (s : State) (c : Code) : Tells q s (s.finish c) [] := .silent fun h => .finish h c

theorem tells_finishFft (s : State) (c : Code) : Tells q s (s.finishFft c) [] := .silent fun h => .finishFft h c

theorem tells_setCbValid (s : State) (b : Bool) : Tells q s (s.setCbValid b) [] :=
  .silent fun _ => .of_same rfl rfl (fun _ => rfl) rfl (by simp) (by simp)

theorem tells_setLastUsed (s : State) (i : BitVec 1) : Tells q s (s.setLastUsed i) [] :=
  .silent fun _ => .of_same rfl rfl (fun _ => rfl) rfl (by simp) (by simp)

theorem tells_setWorkFree (s : State) (n : Nat) : Tells q s (s.setWorkFree n) [] :=
  .silent fun _ => .of_same rfl rfl (fun _ => rfl) rfl (by simp) (by simp)

theorem tells_noteRead (s : State) (a n : Nat) : Tells q s (s.noteRead a n) [⟨false, ⟨a, n⟩⟩] :=
  .one fun h => Noted.noteRead h a n

theorem tells_store (s : State) (a : Nat) (bs : List Byte) : Tells q s (s.store a bs) [⟨true, ⟨a, bs.length⟩⟩] :=
  .one fun h => Noted.store h a bs

theorem tells_store32 (s : State) (a : Nat) (v : Word) : Tells q s (s.store32 a v) [⟨true, ⟨a, 4⟩⟩] :=
  .one fun h => Noted.store32 h a v

theorem tells_store64 (s : State) (a : Nat) (v : DWord) : Tells q s (s.store64 a v) [⟨true, ⟨a, 8⟩⟩] :=
  .one fun h => Noted.store64 h a v

/-- A read, and the write too where the word is the expected one (R94). -/
theorem tells_cas32 (s : State) (a : Nat) (e n : Word) :
    Tells q s (s.cas32 a e n) (⟨false, ⟨a, 4⟩⟩ :: if s.peek32 a = e then [⟨true, ⟨a, 4⟩⟩] else []) := fun h => by
  obtain ⟨hn, hread, hwrite⟩ := Noted.cas32 h a e n
  refine ⟨hn, List.forall_mem_cons.mpr ⟨hread, ?_⟩⟩
  split
  next he => exact List.forall_mem_singleton.mpr (hwrite he)
  next => exact fun _ hx => absurd hx List.not_mem_nil

/-- A read and a write (R95). -/
theorem tells_fadd32 (s : State) (a : Nat) (d : Word) :
    Tells q s (s.fadd32 a d) [⟨false, ⟨a, 4⟩⟩, ⟨true, ⟨a, 4⟩⟩] := fun h => by
  obtain ⟨hn, hx⟩ := Noted.fadd32 h a d
  exact ⟨hn, by simp [hx]⟩

/-! ### The AT commands and the reads of fields -/

theorem tells_stat32 (s : State) (a : Nat) : Tells q s (s.stat32 a) [⟨false, ⟨a, 4⟩⟩] :=
  ((tells_noteRead s a 4).then (tells_updActive _ _)).then (tells_finish _ _)

theorem tells_stat64 (s : State) (a : Nat) : Tells q s (s.stat64 a) [⟨false, ⟨a, 8⟩⟩] :=
  (((tells_noteRead s a 8).then (tells_updActive _ _)).then (tells_updActive _ _)).then (tells_finish _ _)

theorem tells_swapped (s : State) (a : Nat) :
    Tells q s (s.swapped a) (⟨false, ⟨a, 4⟩⟩ :: if s.peek32 a = s.latch.a1 then [⟨true, ⟨a, 4⟩⟩] else []) :=
  (((tells_cas32 s a _ _).then (tells_updActive _ _)).then (tells_updActive _ _)).then (tells_finish _ _)

theorem tells_added (s : State) (a : Nat) : Tells q s (s.added a) [⟨false, ⟨a, 4⟩⟩, ⟨true, ⟨a, 4⟩⟩] :=
  ((tells_fadd32 s a _).then (tells_updActive _ _)).then (tells_finish _ _)

/-! ### The buffer manager -/

theorem tells_initControlBlock (s : State) : Tells q s s.initControlBlock [⟨true, controlBlock s.cfg⟩] := by
  have hzero : Tells q s (s.storeZero (controlBlock s.cfg)) [⟨true, controlBlock s.cfg⟩] :=
    .one fun h => Noted.storeZero h _
  have hstates := (hzero.then (tells_store32 _ (stateAddr s.cfg 0) stIdle)).then
    (tells_store32 _ (stateAddr s.cfg 1) stIdle)
  have hparameters := (hstates.then (tells_store32 _ (bufferSizeAddr s.cfg) s.cfg.bufSize)).then
    (tells_store32 _ (timeoutMsAddr s.cfg) s.cfg.timeoutMs)
  exact (hparameters.then (tells_store32 _ (consumerReadyAddr s.cfg) 1)).then (tells_setCbValid _ true)

/-- The reads of a scan of the state words. -/
def scanReads (c : Config) : List Touch := [⟨false, ⟨stateAddr c 0, 4⟩⟩, ⟨false, ⟨stateAddr c 1, 4⟩⟩]

theorem mem_scanReads (c : Config) (i : BitVec 1) : ⟨false, ⟨stateAddr c i, 4⟩⟩ ∈ scanReads c := by
  obtain rfl | rfl := BitVec.eq_zero_or_eq_one i
  · exact List.mem_cons_self
  · exact List.mem_cons_of_mem _ List.mem_cons_self

theorem tells_noteScan (s : State) : Tells q s s.noteScan (scanReads s.cfg) :=
  (tells_noteRead s _ 4).trans (tells_noteRead _ _ 4)

/-- The read of buffer i's timestamp, where the buffer is READY (R160). -/
def State.stampReads (s : State) (i : BitVec 1) : List Touch :=
  if s.peek32 (stateAddr s.cfg i) = stReady then [⟨false, ⟨lastWriteAddr s.cfg i, 8⟩⟩] else []

theorem tells_noteStamps (s : State) : Tells q s s.noteStamps (s.stampReads 0 ++ s.stampReads 1) := by
  unfold State.noteStamps State.stampReads
  dsimp only
  split
  · split
    · exact (tells_noteRead s _ 8).trans (tells_noteRead _ _ 8)
    · exact tells_noteRead s _ 8
  · split
    · exact tells_noteRead s _ 8
    · exact .refl q s

/-- A buffer that is free changes hands by a write of its state word. -/
theorem tells_grant {i : BitVec 1} {free : Word} (h : s.peek32 (stateAddr s.cfg i) = free) (taken : Word) :
    Tells q s (s.grant i free taken) [⟨true, ⟨stateAddr s.cfg i, 4⟩⟩] := by
  have hcas := tells_cas32 (q := q) s (stateAddr s.cfg i) free taken
  rw [if_pos h] at hcas
  exact ((hcas.then (tells_updActive _ _)).then (tells_finish _ _)).mono (by simp)

theorem tells_grantWrite {i : BitVec 1} (h : s.peek32 (stateAddr s.cfg i) = stIdle) :
    Tells q s (s.noteScan.grantWrite i) (scanReads s.cfg ++ [⟨true, ⟨stateAddr s.cfg i, 4⟩⟩]) := by
  have hgrant := tells_grant (q := q) (s := s.noteScan) (i := i) (by simpa using h) stWriting
  rw [cfg_noteScan] at hgrant
  exact (tells_noteScan s).trans (hgrant.then (tells_setLastUsed _ i))

theorem tells_grantRead {i : BitVec 1} (h : s.peek32 (stateAddr s.cfg i) = stReady) :
    Tells q s (s.noteStamps.noteScan.grant i stReady stReading)
      ((s.stampReads 0 ++ s.stampReads 1) ++ (scanReads s.cfg ++ [⟨true, ⟨stateAddr s.cfg i, 4⟩⟩])) := by
  have hc := (MemoryOp.noteStamps s).cfg
  have hscan := tells_noteScan (q := q) s.noteStamps
  have hgrant := tells_grant (q := q) (s := s.noteStamps.noteScan) (i := i)
    (by rw [cfg_noteScan, hc, peek32_stampsAndScan, h]) stReading
  rw [hc] at hscan
  rw [cfg_noteScan, hc] at hgrant
  exact (tells_noteStamps s).trans (hscan.trans hgrant)

/-- The overrun is counted by a write, unless this command has counted it (R156). -/
theorem tells_countOverrun (s : State) :
    Tells q s s.countOverrun (if s.latch.counted = true then [] else [⟨true, ⟨overrunAddr s.cfg, 4⟩⟩]) := by
  unfold State.countOverrun
  split
  · exact .refl q s
  · have hupd := tells_updActive (q := q) (s.fadd32 (overrunAddr s.cfg) 1) fun ps =>
      { ps with latch := { ps.latch with counted := true } }
    rw [(MemoryOp.fadd32 s _ 1).active] at hupd
    exact ((tells_fadd32 s _ 1).then hupd).mono (by simp)

/-- The timeout, once it has elapsed, is counted by a write (R157). -/
theorem tells_timeoutOrWait (s : State) (e : Bool) :
    Tells q s (s.timeoutOrWait e) (if e = true then [⟨true, ⟨timeoutAddr s.cfg, 4⟩⟩] else []) := by
  unfold State.timeoutOrWait
  split
  · exact ((tells_fadd32 s _ 1).then (tells_finish _ _)).mono (by simp)
  · exact tells_updActive s _

theorem tells_findsBusy (s : State) (e : Bool) :
    Tells q s (s.noteScan.countOverrun.timeoutOrWait e)
      (scanReads s.cfg ++ ((if s.latch.counted = true then [] else [⟨true, ⟨overrunAddr s.cfg, 4⟩⟩]) ++
        if e = true then [⟨true, ⟨timeoutAddr s.cfg, 4⟩⟩] else [])) := by
  have hcount := tells_countOverrun (q := q) s.noteScan
  have htimeout := tells_timeoutOrWait (q := q) s.noteScan.countOverrun e
  rw [(MemoryOp.noteScan s).latch, cfg_noteScan] at hcount
  rw [cfg_countOverrun, cfg_noteScan] at htimeout
  exact (tells_noteScan s).trans (hcount.trans htimeout)

theorem tells_findsNoneReady (s : State) (e : Bool) :
    Tells q s (s.noteScan.timeoutOrWait e)
      (scanReads s.cfg ++ if e = true then [⟨true, ⟨timeoutAddr s.cfg, 4⟩⟩] else []) := by
  have htimeout := tells_timeoutOrWait (q := q) s.noteScan e
  rw [cfg_noteScan] at htimeout
  exact (tells_noteScan s).trans htimeout

theorem tells_acqwAttempt (s : State) : Tells q s s.acqwAttempt (scanReads s.cfg) := by
  unfold State.acqwAttempt
  dsimp only
  split
  next h => exact (tells_grantWrite h).mono (List.subset_append_left ..)
  next =>
    split
    next h => exact (tells_grantWrite h).mono (List.subset_append_left ..)
    next => exact (tells_findsBusy s _).mono (List.subset_append_left ..)

theorem tells_acqrAttempt (s : State) : Tells q s s.acqrAttempt (scanReads s.cfg) := by
  unfold State.acqrAttempt
  split
  next h =>
    exact (tells_grantRead (peek32_of_readyBuffer h)).mono
      (List.Subset.trans (List.subset_append_left ..) (List.subset_append_right ..))
  next => exact (tells_findsNoneReady s _).mono (List.subset_append_left ..)

/-- The accesses of a hand-off that finds the state word it needs (R159, R163). -/
theorem tells_handOff_of_held {st : Nat} {held : Word} (h : s.peek32 st = held) (counter stamp : Nat) (given : Word)
    (p : Port) : Tells q s (s.handOff st counter stamp held given p)
      [⟨true, ⟨st, 4⟩⟩, ⟨true, ⟨counter, 4⟩⟩, ⟨true, ⟨stamp, 8⟩⟩] := by
  have hcas := tells_cas32 (q := q) s st held given
  rw [if_pos h] at hcas
  have hhanding := (hcas.trans (tells_fadd32 _ counter 1)).trans (tells_store64 _ stamp s.now)
  rw [handOff_of_held h]
  exact ((hhanding.then (Tells.silent fun _ => .raiseDoorbell q _ p)).then (tells_finish _ _)).mono (by simp)

/-- A hand-off reads the state word, whatever it finds. -/
theorem tells_handOff (s : State) (st counter stamp : Nat) (held given : Word) (p : Port) :
    Tells q s (s.handOff st counter stamp held given p) [⟨false, ⟨st, 4⟩⟩] := by
  unfold State.handOff
  split
  · have hcas := (tells_cas32 (q := q) s st held given).mono (ys := [⟨false, ⟨st, 4⟩⟩]) (by simp)
    have hhanding := (hcas.then (tells_fadd32 _ counter 1)).then (tells_store64 _ stamp s.now)
    exact (hhanding.then (Tells.silent fun _ => .raiseDoorbell q _ p)).then (tells_finish _ _)
  · exact (tells_noteRead s st 4).then (tells_finish _ _)

theorem tells_snapshotAt (s : State) (a : Nat) :
    Tells q s (s.snapshotAt a) ((snapshotFields s.cfg).map (fun f => ⟨false, ⟨f.1, f.2⟩⟩) ++ [⟨true, ⟨a, 56⟩⟩]) := by
  have hreads : Tells q s ((snapshotFields s.cfg).foldl (fun u f => u.noteRead f.1 f.2) s)
      ((snapshotFields s.cfg).map fun f => ⟨false, ⟨f.1, f.2⟩⟩) := fun h => by
    obtain ⟨hn, hr⟩ := Noted.foldl (fun u (f : Nat × Nat) => u.noteRead f.1 f.2) (fun f => ⟨false, ⟨f.1, f.2⟩⟩)
      (fun u f hu => Noted.noteRead hu f.1 f.2) (snapshotFields s.cfg) s h
    exact ⟨hn, List.forall_mem_map.mpr hr⟩
  have hstore := tells_store (q := q) ((snapshotFields s.cfg).foldl (fun u f => u.noteRead f.1 f.2) s) a s.snapshotBytes
  rw [length_snapshotBytes] at hstore
  exact (hreads.trans hstore).then (tells_finish _ _)

/-! ### The FFT commands -/

theorem tells_fftReturn (s t : State) (f : FftRegions) (i : Instr) : Tells q t (s.fftReturn t f i) [] := by
  rcases fftReturn_cases s t f i with ⟨_, v, _, h⟩ | ⟨_, h⟩ <;> rw [h]
  · exact ((tells_updActive t _).then (tells_finishFft _ _)).then (tells_setWorkFree _ s.tick)
  · exact tells_finishFft t _

/-- A body reads its input. -/
theorem tells_fftEnd (s : State) (f : FftRegions) (i : Instr) : Tells q s (s.fftEnd f i) [⟨false, f.input⟩] :=
  (Tells.one fun h => ⟨(Noted.fftStore h f (s.fftResults f i)).1, (Noted.fftStore h f (s.fftResults f i)).2.1⟩).then
    (tells_fftReturn s _ f i)

/-- A body writes each region that its checks give, in a race too. -/
theorem tells_fftEnd_written {i : Instr} {f : FftRegions} (hc : fftCheck s s.latch i = some (.ok f))
    (hslots : ∀ k t, s.inst k = some t → SlotOk t) {r : Region} (hr : r ∈ f.written) :
    Tells q s (s.fftEnd f i) [⟨true, r⟩] := by
  refine (Tells.one fun h => ?_).then (tells_fftReturn s _ f i)
  obtain ⟨hn, -, hraced, hstored⟩ := Noted.fftStore h f (s.fftResults f i)
  refine ⟨hn, ?_⟩
  cases hrace : s.raced f with
  | true => exact hraced hrace r hr
  | false =>
    obtain ⟨w, hw, hbase, hlen⟩ := fftResults_cover hc hslots r hr
    have hrec := hstored hrace w hw
    rwa [hbase, hlen] at hrec

end Operations

/-! ### Every command -/

/-- A command leaves memory, or all that it changes there is recorded. -/
theorem tells_of_runs (q : Port) {i : Instr} {s t : State} (h : Runs s i t) : SameMemory s t ∨ Tells q s t [] := by
  cases h with
  | initialises => exact .inr (((tells_initControlBlock s).then (tells_finish _ _)).mono (by simp))
  | acquiresIdle b _ hb => exact .inr ((tells_grantWrite hb).mono (by simp))
  | findsBusy => exact .inr ((tells_findsBusy s _).mono (by simp))
  | commits b | releases b => exact .inr ((tells_handOff s _ _ _ _ _ _).mono (by simp))
  | acquiresReady b _ hb => exact .inr ((tells_grantRead hb).mono (by simp))
  | findsNoneReady => exact .inr ((tells_findsNoneReady s _).mono (by simp))
  | snapshots a => exact .inr ((tells_snapshotAt s a).mono (by simp))
  | swaps a => exact .inr ((tells_swapped s a).mono (by simp))
  | adds a => exact .inr ((tells_added s a).mono (by simp))
  | transforms i f => exact .inr ((tells_fftEnd s f i).mono (by simp))
  | _ => exact .inl fun x => by simp [State.stat32, State.stat64]

end Sys2Proof.Machine
end

section
/-! ## Races with an FFT command in flight (`20_memory.md` R97) -/

namespace Sys2Proof.Machine

/-! ### Every access of a command is recorded -/

theorem Tells.mem {q : Port} {s t : State} {xs : List Touch} {x : Touch} (h : Tells q s t xs) (hx : x ∈ xs) :
    Tells q s t [x] := h.mono (by simpa using hx)

/-- Executing the command makes this access. -/
def Makes (q : Port) (s : State) (i : Instr) (x : Touch) : Prop := ∃ t, exec i s = .next t ∧ Tells q s t [x]

theorem exists_readyBuffer {s : State} {i : BitVec 1} (h : s.peek32 (stateAddr s.cfg i) = stReady) :
    ∃ b, s.readyBuffer = some b := by
  cases hb : s.readyBuffer with
  | some b => exact ⟨b, rfl⟩
  | none =>
    unfold State.readyBuffer at hb
    dsimp only at hb
    split at hb
    case h_1 h0 h1 =>
      obtain rfl | rfl := BitVec.eq_zero_or_eq_one i
      · exact absurd h (ne_of_beq_false h0)
      · exact absurd h (ne_of_beq_false h1)
    case h_2 | h_3 => cases hb
    case h_4 => split at hb <;> cases hb

section Commands

variable {q : Port} {s : State}

/-- A read of buffer i's timestamp, where the buffer is READY. -/
theorem mem_stampReads {i : BitVec 1} (h : s.peek32 (stateAddr s.cfg i) = stReady) :
    ⟨false, ⟨lastWriteAddr s.cfg i, 8⟩⟩ ∈ s.stampReads 0 ++ s.stampReads 1 := by
  have hown : ⟨false, ⟨lastWriteAddr s.cfg i, 8⟩⟩ ∈ s.stampReads i := by simp [State.stampReads, h]
  obtain rfl | rfl := BitVec.eq_zero_or_eq_one i
  · exact List.mem_append_left _ hown
  · exact List.mem_append_right _ hown

theorem makes_acqwTake {i : BitVec 1} (h : s.bmRuns .P) (hi : s.peek32 (stateAddr s.cfg i) = stIdle)
    (hfirst : i = s.lastUsed + 1 ∨ s.peek32 (stateAddr s.cfg (s.lastUsed + 1)) ≠ stIdle) :
    Makes q s .bmAcqw ⟨true, ⟨stateAddr s.cfg i, 4⟩⟩ := by
  refine ⟨_, exec_bmAcqw h, ?_⟩
  rw [acqwAttempt_of_idle hi hfirst]
  exact (tells_grantWrite hi).mem (by simp)

theorem makes_acqwOverrun (h : s.bmRuns .P) (hbusy : ∀ i, s.peek32 (stateAddr s.cfg i) ≠ stIdle)
    (hc : s.latch.counted = false) : Makes q s .bmAcqw ⟨true, ⟨overrunAddr s.cfg, 4⟩⟩ := by
  refine ⟨_, exec_bmAcqw h, ?_⟩
  rw [acqwAttempt_of_busy hbusy]
  exact (tells_findsBusy s _).mem (by simp [hc])

theorem makes_acqwTimeout (h : s.bmRuns .P) (hbusy : ∀ i, s.peek32 (stateAddr s.cfg i) ≠ stIdle)
    (ht : s.timedOut = true) : Makes q s .bmAcqw ⟨true, ⟨timeoutAddr s.cfg, 4⟩⟩ := by
  refine ⟨_, exec_bmAcqw h, ?_⟩
  rw [acqwAttempt_of_busy hbusy]
  exact (tells_findsBusy s _).mem (by simp [ht])

theorem makes_acqrStamp {i : BitVec 1} (h : s.bmRuns .C) (hi : s.peek32 (stateAddr s.cfg i) = stReady) :
    Makes q s .bmAcqr ⟨false, ⟨lastWriteAddr s.cfg i, 8⟩⟩ := by
  obtain ⟨b, hb⟩ := exists_readyBuffer hi
  exact ⟨_, exec_bmAcqr_of_ready h.1 h.2 hb,
    (tells_grantRead (peek32_of_readyBuffer hb)).mem (List.mem_append_left _ (mem_stampReads hi))⟩

theorem makes_acqrTake {i : BitVec 1} (h : s.bmRuns .C) (hi : s.readyBuffer = some i) :
    Makes q s .bmAcqr ⟨true, ⟨stateAddr s.cfg i, 4⟩⟩ :=
  ⟨_, exec_bmAcqr_of_ready h.1 h.2 hi, (tells_grantRead (peek32_of_readyBuffer hi)).mem (by simp)⟩

theorem makes_acqrTimeout (h : s.bmRuns .C) (hnone : s.readyBuffer = none) (ht : s.timedOut = true) :
    Makes q s .bmAcqr ⟨true, ⟨timeoutAddr s.cfg, 4⟩⟩ := by
  refine ⟨_, exec_bmAcqr h, ?_⟩
  rw [State.acqrAttempt, hnone]
  exact (tells_findsNoneReady s _).mem (by simp [ht])

/-- A selector of BM_STATS reads its field. -/
theorem makes_bmStats {k a n : Nat} (hv : s.cbValid = true) (h : (k, a, n) ∈ statFields s.cfg) :
    Makes q s (.bmStats k) ⟨false, ⟨a, n⟩⟩ := by
  have hn : n = 4 ∨ n = 8 := by
    simp only [statFields, List.mem_cons, Prod.mk.injEq, List.not_mem_nil, or_false] at h
    omega
  refine ⟨_, exec_bmStats hv k, ?_⟩
  rcases hn with rfl | rfl
  · rw [stats_of_field32 h]
    exact tells_stat32 s a
  · rw [stats_of_field64 h]
    exact tells_stat64 s a

/-- A snapshot reads the fields of the selectors 0 to 9. -/
theorem mem_snapshotFields {c : Config} {k b n : Nat} (hk : k < 10) (h : (k, b, n) ∈ statFields c) :
    (b, n) ∈ snapshotFields c := by
  simp only [statFields, List.mem_cons, Prod.mk.injEq, List.not_mem_nil, or_false] at h
  rcases h with ⟨rfl, rfl, rfl⟩ | ⟨rfl, rfl, rfl⟩ | ⟨rfl, rfl, rfl⟩ | ⟨rfl, rfl, rfl⟩ | ⟨rfl, rfl, rfl⟩ |
    ⟨rfl, rfl, rfl⟩ | ⟨rfl, rfl, rfl⟩ | ⟨rfl, rfl, rfl⟩ | ⟨rfl, rfl, rfl⟩ | ⟨rfl, rfl, rfl⟩ | ⟨rfl, rfl, rfl⟩ |
    ⟨rfl, rfl, rfl⟩ | ⟨rfl, rfl, rfl⟩
  any_goals omega
  all_goals simp [snapshotFields, writeCountAddr, readCountAddr, overrunAddr, timeoutAddr, lastWriteAddr, lastReadAddr]

/-- Every access that the rules give a command is made. -/
theorem makes_of_accesses {i : Instr} {x : Touch} (h : Accesses s i x) : Makes q s i x := by
  cases h with
  | atLoad ha => exact ⟨_, exec_atLoad ha, tells_stat32 s _⟩
  | atCas ha => exact ⟨_, exec_atCas ha, (tells_swapped s _).mem List.mem_cons_self⟩
  | atCasSwap ha hq hw => exact ⟨_, exec_atCas ha, (tells_swapped s _).mem (by simp [hq.peek32, hw])⟩
  | atFadd write ha => exact ⟨_, exec_atFadd ha, (tells_added s _).mem (by cases write <;> simp)⟩
  | init ha => exact ⟨_, exec_bmInit ha, (tells_initControlBlock s).then (tells_finish _ _)⟩
  | acqwScan i hr => exact ⟨_, exec_bmAcqw hr, (tells_acqwAttempt s).mem (mem_scanReads s.cfg i)⟩
  | acqwTake i hr hq hi hfirst =>
    refine makes_acqwTake hr ((peek32_stateAddr (hq.stateWord i)).trans hi) ?_
    rwa [peek32_stateAddr (hq.stateWord _)]
  | acqwOverrun hr hq hbusy hc =>
    exact makes_acqwOverrun hr (fun i => (peek32_stateAddr (hq.stateWord i)).trans_ne (hbusy i)) hc
  | acqwTimeout hr hq hbusy ht =>
    exact makes_acqwTimeout hr (fun i => (peek32_stateAddr (hq.stateWord i)).trans_ne (hbusy i)) (decide_eq_true ht)
  | commit i hr hid =>
    exact ⟨_, exec_bmCommit_of_id hr.1 hr.2 (hid ▸ bufferId_zeroExtend i), tells_handOff s _ _ _ _ _ _⟩
  | commitWrites i hr hid hq hst hmem =>
    have hw := tells_handOff_of_held (q := q) ((peek32_stateAddr hq).trans hst) (writeCountAddr s.cfg i)
      (lastWriteAddr s.cfg i) stReady .C
    exact ⟨_, exec_bmCommit_of_id hr.1 hr.2 (hid ▸ bufferId_zeroExtend i),
      hw.mem (List.mem_map_of_mem (f := Touch.mk true) hmem)⟩
  | acqrScan i hr => exact ⟨_, exec_bmAcqr hr, (tells_acqrAttempt s).mem (mem_scanReads s.cfg i)⟩
  | acqrStamp i hr hq hi => exact makes_acqrStamp hr ((peek32_stateAddr (hq.stateWord i)).trans hi)
  | acqrTake i hr hq hi hother => exact makes_acqrTake hr (readyBuffer_eq_some hq hi hother)
  | acqrTimeout hr hq hnone ht =>
    exact makes_acqrTimeout hr (readyBuffer_eq_none fun i => (peek32_stateAddr (hq.stateWord i)).trans_ne (hnone i))
      (decide_eq_true ht)
  | release i hr hid =>
    exact ⟨_, exec_bmRelease_of_id hr.1 hr.2 (hid ▸ bufferId_zeroExtend i), tells_handOff s _ _ _ _ _ _⟩
  | releaseWrites i hr hid hq hst hmem =>
    have hw := tells_handOff_of_held (q := q) ((peek32_stateAddr hq).trans hst) (readCountAddr s.cfg i)
      (lastReadAddr s.cfg i) stIdle .P
    exact ⟨_, exec_bmRelease_of_id hr.1 hr.2 (hid ▸ bufferId_zeroExtend i),
      hw.mem (List.mem_map_of_mem (f := Touch.mk true) hmem)⟩
  | bmState i hv hid => exact ⟨_, exec_bmState hv (hid ▸ bufferId_zeroExtend i), tells_stat32 s _⟩
  | bmStats hv hmem => exact makes_bmStats hv hmem
  | snapshotReads hto hk hmem =>
    exact ⟨_, exec_snapshot hto, (tells_snapshotAt s _).mem
      (List.mem_append_left _ (List.mem_map_of_mem (mem_snapshotFields hk hmem)))⟩
  | snapshotWrites hto => exact ⟨_, exec_snapshot hto, (tells_snapshotAt s _).mem (by simp)⟩
  | fftInput he hc => exact ⟨_, exec_of_fftCheck he hc, tells_fftEnd s _ _⟩
  | fftOutput he hc hr hslots => exact ⟨_, exec_of_fftCheck he hc, tells_fftEnd_written hc hslots hr⟩

end Commands

theorem fftInFlight_isSome_of_fftRegions {s : State} {q : Port} {f : FftRegions} (h : s.fftRegions q = some f) :
    (s.fftInFlight q).isSome = true := by
  unfold State.fftRegions at h
  split at h
  next hin => rw [hin]; rfl
  next => cases h

/-- A command of the other port races with whatever it touches of an FFT command's regions. -/
theorem findsRace_of_exec {s t : State} {f : FftRegions} {i : Instr} (hf : s.fftRegions s.active.peer = some f)
    (h : exec i s = .next t) :
    (∀ x, Accesses s i x → x.racesWith f → t.findsRace s.active.peer f) ∧
      (∀ x, (∃ r ∈ f.input :: f.written, r.has x = true) → t.mem.byte x ≠ s.mem.byte x →
        t.findsRace s.active.peer f) := by
  have hwatched : s.watched s.active.peer := ⟨(peer_ne _).symm, fftInFlight_isSome_of_fftRegions hf⟩
  refine ⟨fun x hx hrace => ?_, fun x hx hm => ?_⟩
  · obtain ⟨u, hu, htells⟩ := makes_of_accesses (q := s.active.peer) hx
    obtain rfl := Host.Outcome.next.inj (h.symm.trans hu)
    exact findsRace_of_recorded ((htells hwatched).2 x (List.mem_singleton.mpr rfl)) hrace
  · rcases tells_of_runs s.active.peer (runs_of_exec h) with hsame | htells
    · exact absurd (hsame x) hm
    · exact (htells hwatched).1.findsRace hx hm

/-! ### What a racing read returns -/

theorem readRaces_of_overlap {s : State} {agent : Option Port} {q : Port} {f : FftRegions} {r : Region}
    (hf : s.fftRegions q = some f) (hq : agent ≠ some q) (h : ∃ w ∈ f.written, w.overlaps r = true) :
    s.readRaces agent r = true := by
  rw [State.readRaces, List.any_eq_true]
  refine ⟨q, by cases q <;> decide, ?_⟩
  simpa [hf, hq] using h

/-- A command's read of what the other port's FFT command writes. -/
theorem readRaces_of_peer {s : State} {f : FftRegions} {r : Region} (hf : s.fftRegions s.active.peer = some f)
    (h : ∃ w ∈ f.written, r.overlaps w = true) : s.readRaces (some s.active) r = true := by
  obtain ⟨w, hw, hov⟩ := h
  exact readRaces_of_overlap hf (fun e => peer_ne _ (Option.some.inj e).symm) ⟨w, hw, (overlaps_comm _ _).trans hov⟩

/-- A racing read returns free bytes. -/
theorem leValue_peek_of_race {s : State} {agent : Option Port} {a n : Nat} (h : s.readRaces agent ⟨a, n⟩ = true) :
    leValue (s.peek agent a n) = freeValue s a n := by rw [State.peek, if_pos h, freeValue]

theorem peek32_of_race {s : State} {a : Nat} (h : s.readRaces (some s.active) ⟨a, 4⟩ = true) :
    s.peek32 a = BitVec.ofNat 32 (freeValue s a 4) := by rw [State.peek32, leValue_peek_of_race h]

theorem peek64_of_race {s : State} {a : Nat} (h : s.readRaces (some s.active) ⟨a, 8⟩ = true) :
    (s.peek64 a).toNat = freeValue s a 8 := by
  have hlt : freeValue s a 8 < 2 ^ 64 := by
    simpa [freeValue] using leValue_lt ((List.range 8).map fun k => Config.freeRead s.tick (a + k))
  rw [State.peek64, leValue_peek_of_race h, BitVec.toNat_ofNat, Nat.mod_eq_of_lt hlt]

/-- The read of a word, whatever it returns. -/
theorem stat32_returns {s : State} {a : Nat} {v : Word} (h : s.peek32 a = v) :
    Ended (s.stat32 a) .ok ∧ (s.stat32 a).act.res0 = v ∧ SameMemory s (s.stat32 a) := by
  obtain ⟨hend, -, hres0, -, -, -, -, -, hmem⟩ := stat32_spec s a
  exact ⟨hend, hres0.trans h, hmem⟩

/-- An exchange, whatever the word reads as. -/
theorem swapped_returns {s : State} {a : Nat} {v : Word} (h : s.peek32 a = v) :
    let t := s.swapped a
    Ended t .ok ∧ t.act.res0 = v ∧ (v = s.latch.a1 → t.act.res1 = 1 ∧ t.mem.word a = s.latch.a2) ∧
      (v ≠ s.latch.a1 → t.act.res1 = 0 ∧ SameMemory s t) := by
  obtain ⟨hres0, hres1, -, -⟩ := act_swapped s a
  have hmem := mem_swapped s a
  rw [h] at hres0 hres1 hmem
  refine ⟨Ended.finish _ _, hres0, fun he => ?_, fun hne => ?_⟩
  · rw [if_pos he] at hres1 hmem
    exact ⟨hres1, by rw [hmem, Memory.word_write_same]⟩
  · rw [if_neg hne] at hres1 hmem
    exact ⟨hres1, fun x => by rw [hmem]⟩

/-- An addition, whatever the word reads as. -/
theorem added_returns {s : State} {a : Nat} {v : Word} (h : s.peek32 a = v) :
    Ended (s.added a) .ok ∧ (s.added a).act.res0 = v ∧ (s.added a).mem.word a = v + s.latch.a1 :=
  ⟨Ended.finish _ _, (act_added s a).1.trans h, by rw [mem_added, Memory.word_write_same, h]⟩

/-! ### Accesses of the CPUs -/

/-- A CPU's access is recorded with every FFT command in flight. -/
theorem recorded_note_cpu {s : State} {q : Port} (h : (s.fftInFlight q).isSome = true) (x : Touch) :
    (s.note none x).recorded q x := by
  rw [State.recorded, port_note, if_pos ⟨nofun, h⟩]
  exact List.mem_cons_self

theorem findsRace_of_note {s t : State} {q : Port} {f : FftRegions} {x : Touch} (hf : s.fftRegions q = some f)
    (hport : t.port q = (s.note none x).port q) (hx : x.racesWith f) : t.findsRace q f := by
  refine findsRace_of_recorded (x := x) ?_ hx
  rw [State.recorded, hport]
  exact recorded_note_cpu (fftInFlight_isSome_of_fftRegions hf) x

/-- A CPU's load that races with an FFT command in flight. -/
theorem loadShared_races {s : State} {q cpu : Port} {f : FftRegions} {w : Width} {a : Nat}
    (hf : s.fftRegions q = some f) (h : ∃ r ∈ f.written, r.overlaps ⟨a, w.bytes⟩ = true) :
    let t := (loadShared cpu w a s).ticked
    t.findsRace q f ∧ SameMemory s t ∧ PlainAccess s t ∧
      (if cpu = .P then t.cpuP else t.cpuC) = BitVec.ofNat 32 (freeValue s a w.bytes) := by
  have hval : leValue (s.peek none a w.bytes) = freeValue s a w.bytes :=
    leValue_peek_of_race (readRaces_of_overlap hf nofun h)
  obtain ⟨r, hr, hov⟩ := h
  refine ⟨findsRace_of_note (x := ⟨false, ⟨a, w.bytes⟩⟩) hf (by simp [loadShared])
    (.inr ⟨r, hr, (overlaps_comm _ _).trans hov⟩), fun x => by simp [loadShared],
    (plainAccess_loadShared s cpu w a).ticked, ?_⟩
  rw [← hval]
  cases cpu with
  | P => rfl
  | C => rfl

/-- A CPU's store that races with an FFT command in flight. -/
theorem storeShared_races {s : State} {q : Port} {f : FftRegions} {w : Width} {a : Nat} {v : Word}
    (hf : s.fftRegions q = some f) (h : ∃ r ∈ f.input :: f.written, r.overlaps ⟨a, w.bytes⟩ = true) :
    (storeShared w a v s).ticked.findsRace q f := by
  have hrace : Touch.racesWith ⟨true, ⟨a, (leBytes w.bytes v.toNat).length⟩⟩ f := by
    rw [length_leBytes]
    obtain ⟨r, hr, hov⟩ := h
    rcases List.mem_cons.mp hr with rfl | hr
    · exact .inl ⟨rfl, (overlaps_comm _ _).trans hov⟩
    · exact .inr ⟨r, hr, (overlaps_comm _ _).trans hov⟩
  exact findsRace_of_note hf (by simp [storeShared, State.poke]) hrace

/-- Settles O36. -/
theorem cpuAccessesRace : Obligations.CpuAccessesRace := by
  refine ⟨fun s rest q cpu f w a v hf hlow hhigh hwindow => ?cpu,
    fun s f hf => ⟨fun i t h => findsRace_of_exec hf h, fun a hov => ?word, fun k a hov hv hk => ?double⟩⟩
  case cpu =>
    have htarget : target s.cfg a.toNat w.bytes = .shared := target_shared hlow hhigh hwindow
    refine ⟨fun hs hov => ?_, fun hs hov => ⟨_, step_storeShared hs htarget, ?_, ?_⟩⟩
    · obtain ⟨hrace, hmem, hplain, hval⟩ := loadShared_races (s := s.setSchedule rest) (cpu := cpu) hf hov
      exact ⟨_, step_loadShared hs htarget, hrace, hmem, hplain.of_setSchedule, hval⟩
    · exact storeShared_races (s := s.setSchedule rest) hf hov
    · exact (plainAccess_storeShared (s.setSchedule rest) w a.toNat v).of_setSchedule.ticked
  case word =>
    intro free
    have hpeek : s.peek32 a = free := peek32_of_race (readRaces_of_peer hf hov)
    refine ⟨fun ha => ⟨_, exec_atLoad ha, stat32_returns hpeek⟩,
      fun ha => ⟨⟨_, exec_atCas ha, swapped_returns hpeek⟩, ⟨_, exec_atFadd ha, added_returns hpeek⟩⟩,
      fun hv => ⟨fun i hid ha => ?_, fun k hk => ?_⟩⟩
    · subst ha
      exact ⟨_, exec_bmState hv (hid ▸ bufferId_zeroExtend i), stat32_returns hpeek⟩
    · exact ⟨_, by rw [exec_bmStats hv, stats_of_field32 hk], stat32_returns hpeek⟩
  case double =>
    obtain ⟨hend, -, hres0, hres1, -, -, -, -, hmem⟩ := stat64_spec s a
    rw [peek64_of_race (readRaces_of_peer hf hov)] at hres0 hres1
    exact ⟨_, by rw [exec_bmStats hv, stats_of_field64 hk], hend, hmem, hres0, hres1⟩

end Sys2Proof.Machine
end
